-- ==== Sys2Proof/Word.lean ====
section
/-! DEFINITION. The word types of the core (spec/10_state.md R32, R33, R59; spec/20_memory.md R100).
All values are unsigned (R7); bit 0 is the least significant bit. -/

namespace Sys2Proof

/-- One byte of `IBUF`, `OBUF` or `WINBUF` (R100). -/
abbrev Byte := BitVec 8

/-- One 32-bit register or command word (R32, R150). -/
abbrev Word := BitVec 32

/-- A 64-bit position or count: `IPOS`, `OPOS`, `ILEN`, `OLIM`, `ENC_CSIZE` (R48, R51-R54). -/
abbrev Pos := BitVec 64

/-- A 12-bit context index into `PROB` (R59). -/
abbrev Ctx := BitVec 12

/-- An 11-bit probability estimator p: P(bit = 0) = p / 2048 (R59, R250). -/
abbrev Prob := BitVec 11

/-- A bit as the number 0 or 1. -/
def bit (b : Bool) : Nat := if b then 1 else 0

end Sys2Proof
end

