-- ==== Sys2Proof/Syntax.lean ====
section
/-! DEFINITION. The commands of the core: one constructor per row of spec/opcode_table.json (spec/30_encoding.md R154).
A command is one 32-bit word (R150); its operands are the fields `CTX`, `B`, `N`, `LVL` of R151, and the fields
admit every bit pattern (R153), so each field has exactly the width the encoding gives it. -/

namespace Sys2Proof

/-- A command (R9, R154). `ctx` is `CTX` (12 bits), `b` is `B`, `n` is `N` (6 bits), `lvl` is `LVL` (6 bits). -/
inductive Instr where
  /-- `NOP` (R460) -/
  | nop
  /-- `RESET` (R462) -/
  | reset
  /-- `PM_RESET` (R260) -/
  | pmReset
  /-- `PM_PREDICT ctx` (R261) -/
  | pmPredict (ctx : Ctx)
  /-- `PM_UPDATE ctx, b` (R262) -/
  | pmUpdate (ctx : Ctx) (b : Bool)
  /-- `ENC_INIT level` (R310) -/
  | encInit (lvl : BitVec 6)
  /-- `ENC_BIT ctx, b` (R311) -/
  | encBit (ctx : Ctx) (b : Bool)
  /-- `ENC_DIRECT n` (R312) -/
  | encDirect (n : BitVec 6)
  /-- `ENC_TREE ctx, n` (R313) -/
  | encTree (ctx : Ctx) (n : BitVec 6)
  /-- `ENC_RTREE ctx, n` (R314) -/
  | encRtree (ctx : Ctx) (n : BitVec 6)
  /-- `ENC_FLUSH` (R320) -/
  | encFlush
  /-- `MF_FIND` (R210) -/
  | mfFind
  /-- `DEC_INIT level` (R360) -/
  | decInit (lvl : BitVec 6)
  /-- `DEC_BIT ctx` (R361) -/
  | decBit (ctx : Ctx)
  /-- `DEC_DIRECT n` (R362) -/
  | decDirect (n : BitVec 6)
  /-- `DEC_TREE ctx, n` (R363) -/
  | decTree (ctx : Ctx) (n : BitVec 6)
  /-- `DEC_RTREE ctx, n` (R364) -/
  | decRtree (ctx : Ctx) (n : BitVec 6)
  /-- `DEC_FINISH` (R370) -/
  | decFinish
  /-- `ENC_LIT` (R430) -/
  | encLit
  /-- `ENC_MATCH` (R431) -/
  | encMatch
  /-- `ENC_STREAM` (R432) -/
  | encStream
  /-- `DEC_TOKEN` (R440) -/
  | decToken
  /-- `DEC_STREAM` (R441) -/
  | decStream
  deriving DecidableEq, Repr

end Sys2Proof
end

