-- ==== Sys2Proof/Decode.lean ====
section
/-! DEFINITION. Decoding and encoding of the command word (spec/30_encoding.md R150-R156, R161). -/

namespace Sys2Proof

/-- The six formats (R152). -/
inductive Format where
  | z | c | cb | n | cn | l
  deriving DecidableEq, Repr

/-- The mask of the bits a format fixes (R152, last column). -/
def Format.mask : Format → Word
  | .z => 0xFFFFFFFF#32
  | .c => 0xFF000FFF#32
  | .cb => 0xFF000EFF#32
  | .n => 0xFFFFFFC0#32
  | .cn => 0xFF000FC0#32
  | .l => 0xFFFFFFC0#32

/-- Why a word does not decode (R155, R156). The core raises `ILLEGAL_CMD` for both. -/
inductive Illegal where
  /-- no row of R154 has the word's `OPC` -/
  | unknownOpcode
  /-- a bit that the row's format fixes at 0 is 1 -/
  | fixedBitSet
  deriving DecidableEq, Repr

/-- `OPC`, bits [31:24] (R151). -/
def opcField (w : Word) : BitVec 8 := w.extractLsb' 24 8

/-- `CTX`, bits [23:12] (R151). -/
def ctxField (w : Word) : Ctx := w.extractLsb' 12 12

/-- `B`, bit [8] (R151). -/
def bField (w : Word) : Bool := w.getLsbD 8

/-- `N` or `LVL`, bits [5:0] (R151). -/
def nField (w : Word) : BitVec 6 := w.extractLsb' 0 6

/-- The row of R154 with this `OPC`: its format, and the command it builds from the word's fields. -/
def rowOf (opc : BitVec 8) : Option (Format × (Word → Instr)) :=
  match opc.toNat with
  | 0x00 => some (.z, fun _ => .nop)
  | 0x01 => some (.z, fun _ => .reset)
  | 0x08 => some (.z, fun _ => .pmReset)
  | 0x09 => some (.c, fun w => .pmPredict (ctxField w))
  | 0x0A => some (.cb, fun w => .pmUpdate (ctxField w) (bField w))
  | 0x10 => some (.l, fun w => .encInit (nField w))
  | 0x11 => some (.cb, fun w => .encBit (ctxField w) (bField w))
  | 0x12 => some (.n, fun w => .encDirect (nField w))
  | 0x13 => some (.cn, fun w => .encTree (ctxField w) (nField w))
  | 0x14 => some (.cn, fun w => .encRtree (ctxField w) (nField w))
  | 0x15 => some (.z, fun _ => .encFlush)
  | 0x18 => some (.z, fun _ => .mfFind)
  | 0x20 => some (.l, fun w => .decInit (nField w))
  | 0x21 => some (.c, fun w => .decBit (ctxField w))
  | 0x22 => some (.n, fun w => .decDirect (nField w))
  | 0x23 => some (.cn, fun w => .decTree (ctxField w) (nField w))
  | 0x24 => some (.cn, fun w => .decRtree (ctxField w) (nField w))
  | 0x25 => some (.z, fun _ => .decFinish)
  | 0x30 => some (.z, fun _ => .encLit)
  | 0x31 => some (.z, fun _ => .encMatch)
  | 0x32 => some (.z, fun _ => .encStream)
  | 0x38 => some (.z, fun _ => .decToken)
  | 0x39 => some (.z, fun _ => .decStream)
  | _ => none

/-- Decoding (R155): a total function of the 32-bit word. -/
def decodeWord (w : Word) : Except Illegal Instr :=
  match rowOf (opcField w) with
  | none => .error .unknownOpcode
  | some (f, build) =>
    if w &&& f.mask = (opcField w).setWidth 32 <<< 24 then .ok (build w) else .error .fixedBitSet

/-- The command word with these fields (R161): `(OPC << 24) | (CTX << 12) | (B << 8) | N`. -/
def commandWord (opc : BitVec 8) (ctx : Ctx) (b : Bool) (n : BitVec 6) : Word :=
  (opc.setWidth 32 <<< 24) ||| (ctx.setWidth 32 <<< 12) ||| ((BitVec.ofBool b).setWidth 32 <<< 8) ||| n.setWidth 32

/-- The word of a command (R154, R161), fields its format does not use set to 0. -/
def encode : Instr → Word
  | .nop => commandWord 0x00 0 false 0
  | .reset => commandWord 0x01 0 false 0
  | .pmReset => commandWord 0x08 0 false 0
  | .pmPredict ctx => commandWord 0x09 ctx false 0
  | .pmUpdate ctx b => commandWord 0x0A ctx b 0
  | .encInit lvl => commandWord 0x10 0 false lvl
  | .encBit ctx b => commandWord 0x11 ctx b 0
  | .encDirect n => commandWord 0x12 0 false n
  | .encTree ctx n => commandWord 0x13 ctx false n
  | .encRtree ctx n => commandWord 0x14 ctx false n
  | .encFlush => commandWord 0x15 0 false 0
  | .mfFind => commandWord 0x18 0 false 0
  | .decInit lvl => commandWord 0x20 0 false lvl
  | .decBit ctx => commandWord 0x21 ctx false 0
  | .decDirect n => commandWord 0x22 0 false n
  | .decTree ctx n => commandWord 0x23 ctx false n
  | .decRtree ctx n => commandWord 0x24 ctx false n
  | .decFinish => commandWord 0x25 0 false 0
  | .encLit => commandWord 0x30 0 false 0
  | .encMatch => commandWord 0x31 0 false 0
  | .encStream => commandWord 0x32 0 false 0
  | .decToken => commandWord 0x38 0 false 0
  | .decStream => commandWord 0x39 0 false 0

/-- The host's probe: the command the decoder reads from a table word of `nbits` bits. Every command is ONE 32-bit word
written whole to `CMD` (R150), so no byte order and no second word are involved (R106). -/
def decodeTableWord (nbits w : Nat) : Option Instr :=
  (decodeWord (BitVec.ofNat 32 (w % 2 ^ nbits))).toOption

end Sys2Proof
end

