-- ==== Sys2Proof/Config.lean ====
section
/-! DEFINITION. What is fixed for the machine: the parameters of spec/00_scope.md R6, the level table of
spec/41_match_finder.md R200, and the FREE VALUES: constants with no body, one for each thing the spec
leaves unspecified (spec/93_implementation_defined.md U1-U9). Nothing in Lean can evaluate a free value or prove
anything of it. Every free value is indexed by a draw number (`Machine.State.draws`), so two draws are unrelated. -/

namespace Sys2Proof.Config

/-- `PROB_INIT` (R6): every estimator after `PM_RESET`, `ENC_INIT`, `DEC_INIT`: P = 0.5. -/
def probInit : Prob := 1024#11

/-- `ADAPT_SHIFT` (R6). -/
def adaptShift : Nat := 5

/-- `TOP` (R6): the renormalisation threshold of both coders, 2^24. -/
def top : Word := 0x01000000#32

/-- `MATCH_LEN_MIN` (R6): the smallest length the token format carries. -/
def matchLenMin : Nat := 2

/-- `MAX_MATCH` (R6, R201). -/
def maxMatch : Nat := 273

/-- `MIN_MATCH` (R6, R201): the shortest match `MF_FIND` reports, at every level. -/
def minMatch : Nat := 3

/-- `HASH_BYTES` (R6, R201). -/
def hashBytes : Nat := 3

/-- `LEN_SLOT_BITS` (R6). -/
def lenSlotBits : Nat := 5

/-- `DIST_SLOT_BITS` (R6). -/
def distSlotBits : Nat := 6

/-- `DIST_SLOT` of the context map (R400). -/
def distSlotCtx : Ctx := 0x800#12

/-- `LEN_SLOT` of the context map (R400). -/
def lenSlotCtx : Ctx := 0x900#12

/-- `IS_MATCH` of the context map (R400). -/
def isMatchCtx : Ctx := 0x920#12

/-- `CAPS.PARAM_SET` (R56): core parameter set 1. -/
def paramSet : Nat := 1

/-- Column `WIN_LOG2` of the level table (R200). Only levels 0 to 9 are ever opened (`LEVEL_RANGE`). -/
def winLog2 : Nat → Nat
  | 0 => 16
  | 1 => 18
  | 2 => 20
  | 3 => 21
  | 4 => 22
  | 5 => 23
  | 6 => 24
  | 7 => 25
  | 8 => 26
  | _ => 28

/-- Column `DEPTH` of the level table (R200): candidates examined. -/
def depth : Nat → Nat
  | 0 => 1
  | 1 => 2
  | 2 => 4
  | 3 => 8
  | 4 => 16
  | 5 => 32
  | 6 => 64
  | 7 => 128
  | 8 => 256
  | _ => 1024

/-- Column `WIN` of the level table (R200): the window in bytes. -/
def win (level : Nat) : Nat := 2 ^ winLog2 level

/-- One place where a command reads a byte of `IBUF`. Within one command every read has its own site, so a race
(R121: "for each read separately") is resolved for each read on its own. -/
inductive ReadSite where
  /-- byte `k` of `Hash3(p)` in `FindMatch` (R202, R207) -/
  | hash (p k : Nat)
  /-- byte `k` of `Hash3(p)` in `Insert` (R202, R203) -/
  | insertHash (p k : Nat)
  /-- `IBUF[q + l]` in `MatchLen(q, pos, _)` (R206) -/
  | candidate (pos q l : Nat)
  /-- `IBUF[pos + l]` in `MatchLen(q, pos, _)` (R206) -/
  | current (pos q l : Nat)
  /-- `IBUF[IPOS]` in `ENC_LIT` (R430) -/
  | literal (p : Nat)
  /-- `IBUF[IPOS + k]` in the check of `ENC_MATCH` (R431) -/
  | checkHere (p k : Nat)
  /-- `IBUF[IPOS + k - d]` in the check of `ENC_MATCH` (R431) -/
  | checkBack (p k : Nat)
  /-- `IBUF[IPOS + l - 1]`, the new `PREV_BYTE` of `ENC_MATCH` (R431) -/
  | lastByte (p : Nat)
  /-- `IBUF[IPOS]` in `InByte` (R351) -/
  | compressed (p : Nat)
  deriving DecidableEq, Repr

/-- U9 (OPEN, D15): `WIN_MAX_LOG2` of this instance is 16 + this, so 16 ≤ `WIN_MAX_LOG2` ≤ 28. -/
opaque winExtra : Fin 13

/-- U1, U3: an entry of `PROB` that holds an unspecified value (draw number, context). -/
opaque freeProb : Nat → Ctx → Prob

/-- U2, U3: an entry of `HEAD` that holds an unspecified value (draw number, hash). -/
opaque freeHead : Nat → Nat → Option Pos

/-- U2, U3: an entry of `CHAIN` that holds an unspecified value (draw number, index). -/
opaque freeChain : Nat → Nat → Option Pos

/-- U2, U3: a byte of `WINBUF` that holds an unspecified value (draw number, index). -/
opaque freeWin : Nat → Nat → Byte

/-- U3, U6, U7: a byte of `OBUF` that holds an unspecified value (draw number, index). -/
opaque freeOut : Nat → Nat → Byte

/-- A byte of `IBUF` the host has not written: whatever the platform's memory holds (index). -/
opaque freeIn : Nat → Byte

/-- U3: a register after a mid-command fault (draw number, the register's offset in R33). -/
opaque freeReg : Nat → Nat → BitVec 64

/-- U4: what a host read returns while `STATUS.BUSY` = 1 (draw number). -/
opaque freeRead : Nat → Word

/-- U5: which of the bytes that race at an index a core read sees (draw number, the read). -/
opaque raceChoice : Nat → ReadSite → Nat

end Sys2Proof.Config
end

