-- ==== Sys2Proof/Machine/State.lean ====
section
/-! DEFINITION. The whole state of the core (spec/10_state.md R30-R67, spec/20_memory.md R100), as plain data: the registers of
R33, the hidden state (R65, R507), the four internal arrays (R59-R62) and the two byte memories shared with the host.
The fields under "the model's own" hold the two agents' coming moves (R30), what the last host read returned, and the
number of the next draw of a free value. -/

namespace Sys2Proof.Machine

/-- `STATUS.MODE` (R36). Value 3 is never taken. -/
inductive Mode where
  | idle | enc | dec
  deriving DecidableEq, Repr

/-- `STATUS.ERRCODE`: the fault codes of the spec (R500), what a command RAISES. Raising one is a next state of the
machine (R503, R508); it is not `Fault` below. -/
inductive Errcode where
  | none | illegalCmd | badArg | mode | levelRange | alloc | busyOverrun | inputEnd | badMatch | outLimit
  | truncated | badStreamStart | lenRange | distRange | corruptEnd | trailing
  deriving DecidableEq, Repr

/-- Why the model stops with a fault. No command ever does: the one constructor is for a host access to an address that
does not exist. -/
inductive Fault where
  /-- Raised by a host register access at an offset of 0x100 or more: the register space has 0x100 bytes (R100, R112).
  Safe: nothing is claimed of what the platform answers there. -/
  | outsideRegisterSpace
  deriving DecidableEq, Repr

/-- Why the model refuses a step. -/
inductive Refusal where
  /-- A command with no meaning in `exec`, by mnemonic. No command of this model is one. -/
  | notModelled (mnemonic : String)
  /-- Raised by a host register access whose width is not 32 bits or whose offset is not a multiple of 4: "not defined by this
  spec: a model refuses it" (R110, U8). Safe. -/
  | undefinedAccess
  deriving DecidableEq, Repr

/-- An internal array (R59-R62). `cells` lists the entries written since the array was last filled, indexes strictly
rising. An unlisted entry holds the array's initial value (`fill = none`: 1024 in `PROB`, `NIL` in `HEAD`) or an
unspecified value, draw number k (`fill = some k`). -/
structure Table (α : Type) where
  fill  : Option Nat
  cells : List (Nat × α)
  deriving DecidableEq, Repr

/-- The bytes of `OBUF` with lo ≤ index < hi became unspecified (R502, R551), draw number k. -/
structure Span where
  lo : Nat
  hi : Nat
  k  : Nat
  deriving DecidableEq, Repr

/-- One move of one of the two agents (R30): the core takes a turn, the host uses its interface (R130), or the platform resets the
core (R550). -/
inductive Move where
  /-- The core's turn: it completes the command it is executing, if there is one (R65, R572). -/
  | core
  /-- A host write of `width` bytes at register offset `off`. -/
  | regWrite (width off : Nat) (v : Word)
  /-- A host read of `width` bytes at register offset `off`. -/
  | regRead (width off : Nat)
  /-- A host write of a byte of `IBUF`. -/
  | ibufWrite (i : Pos) (b : Byte)
  /-- A host read of a byte of `OBUF`. -/
  | obufRead (i : Pos)
  /-- Hardware reset. -/
  | hwReset
  deriving DecidableEq, Repr

structure State where
  /-- The command word being executed; `STATUS.BUSY` = 1 exactly when there is one (R34, R65). -/
  pending   : Option Word
  /-- `STATUS.ERR` (R35, R503). -/
  err       : Bool
  /-- `STATUS.MODE` (R36). -/
  mode      : Mode
  /-- `STATUS.ERRCODE` (R35, R500). -/
  errcode   : Errcode
  /-- `STATUS.LEVEL` (R35, R57). -/
  level     : BitVec 4
  /-- `ERR_CMD` (R37). -/
  errCmd    : Word
  /-- `ARG` (R38). -/
  arg       : Word
  /-- `RESULT` (R39). -/
  result    : Word
  /-- `CTXSTATE.PREV_BYTE` (R40). -/
  prevByte  : Byte
  /-- `CTXSTATE.PREV_MATCH` (R40). -/
  prevMatch : Bool
  /-- `TOK_KIND` (R41): true is 1, a match. -/
  tokKind   : Bool
  /-- `TOK_LIT` (R42). -/
  tokLit    : Byte
  /-- `TOK_DIST` (R43). -/
  tokDist   : Word
  /-- `TOK_LEN` (R44). -/
  tokLen    : BitVec 9
  /-- `ENC_LOW` (R45). -/
  encLow    : BitVec 33
  /-- `ENC_RANGE` (R46). -/
  encRange  : Word
  /-- `ENC_CACHE` (R47). -/
  encCache  : Byte
  /-- `ENC_CSIZE` (R48). -/
  encCsize  : Pos
  /-- `DEC_CODE` (R49). -/
  decCode   : Word
  /-- `DEC_RANGE` (R50). -/
  decRange  : Word
  /-- `IPOS` (R51). -/
  ipos      : Pos
  /-- `OPOS` (R52). -/
  opos      : Pos
  /-- `ILEN` (R53). -/
  ilen      : Pos
  /-- `OLIM` (R54). -/
  olim      : Pos
  /-- `ERR_IPOS` (R55). -/
  errIpos   : Pos
  /-- `ERR_OPOS` (R55). -/
  errOpos   : Pos
  /-- `CAPS.WIN_MAX_LOG2` is 16 + this (R56, D15): a constant register, which no step writes. -/
  winExtra  : Fin 13
  /-- The overrun latch with the value kept with it (R65, R507). -/
  overrun   : Option Word
  /-- `PROB` (R59): 4096 entries. -/
  prob      : Table Prob
  /-- `HEAD` (R60): 2^24 entries, each `NIL` or a position; the listed ones hold positions. -/
  head      : Table Pos
  /-- `CHAIN` (R61): each entry `NIL` or a position. -/
  chain     : Table (Option Pos)
  /-- `WINBUF` (R62). -/
  winbuf    : Table Byte
  /-- `IBUF` (R100, R101): the bytes the host has written. -/
  ibuf      : List Host.Cell
  /-- `OBUF` (R100, R102): the bytes the core has written. -/
  obuf      : List Host.Cell
  /-- Where unlisted bytes of `OBUF` became unspecified, newest first (R502, R551). -/
  obufFree  : List Span
  /-- The bytes that host writes to `IBUF` replaced while the running command runs (R121): a read may still see them. -/
  raced     : List Host.Cell
  /-- The model's own: what the last host read returned. -/
  bus       : Word
  /-- The model's own: the number of the next draw of a free value. -/
  draws     : Nat
  /-- The model's own: the moves still to come, first first (R9: "the ordered sequence of host register writes and commands"). -/
  moves     : List Move
  deriving DecidableEq, Repr

/-- After hardware reset (R550-R552): every register 0, `CAPS` its constant, the latch 0, the arrays unspecified, nothing
written in the byte memories, and nothing to execute until the host writes `CMD`. -/
def State.reset : State where
  pending   := none
  err       := false
  mode      := .idle
  errcode   := .none
  level     := 0
  errCmd    := 0
  arg       := 0
  result    := 0
  prevByte  := 0
  prevMatch := false
  tokKind   := false
  tokLit    := 0
  tokDist   := 0
  tokLen    := 0
  encLow    := 0
  encRange  := 0
  encCache  := 0
  encCsize  := 0
  decCode   := 0
  decRange  := 0
  ipos      := 0
  opos      := 0
  ilen      := 0
  olim      := 0
  errIpos   := 0
  errOpos   := 0
  winExtra  := Config.winExtra
  overrun   := none
  prob      := ⟨some 0, []⟩
  head      := ⟨some 0, []⟩
  chain     := ⟨some 0, []⟩
  winbuf    := ⟨some 0, []⟩
  ibuf      := []
  obuf      := []
  obufFree  := []
  raced     := []
  bus       := 0
  draws     := 1
  moves     := []

end Sys2Proof.Machine
end

