-- ==== Sys2Proof/Machine/Memory.lean ====
section
/-! DEFINITION. Sparse memory: a list of (index, value) pairs with strictly rising indexes. An unlisted index holds no listed
value; what it reads as is said where each memory is read (Ops.lean). So a memory is in ONE canonical form: two
memories with the same listed values are the same list. -/

namespace Sys2Proof.Machine

/-- The listed value at an index. -/
def Cells.lookup {α : Type} : List (Nat × α) → Nat → Option α
  | [], _ => none
  | (j, v) :: rest, i => if j = i then some v else Cells.lookup rest i

/-- Write one index, keeping the indexes strictly rising. -/
def Cells.insert {α : Type} : List (Nat × α) → Nat → α → List (Nat × α)
  | [], i, v => [(i, v)]
  | (j, u) :: rest, i, v =>
    if i < j then (i, v) :: (j, u) :: rest
    else if i = j then (i, v) :: rest
    else (j, u) :: Cells.insert rest i v

/-- Unlist every index lo ≤ i < hi. -/
def Cells.eraseRange {α : Type} (lo hi : Nat) (m : List (Nat × α)) : List (Nat × α) :=
  m.filter fun c => !(decide (lo ≤ c.1) && decide (c.1 < hi))

/-- Indexes strictly rising, all at least `lo` and below `hi`. -/
def Cells.risingFrom {α : Type} (hi : Nat) : Nat → List (Nat × α) → Bool
  | _, [] => true
  | lo, (j, _) :: rest => decide (lo ≤ j) && decide (j < hi) && Cells.risingFrom hi (j + 1) rest

/-- The canonical form of a sparse memory of `size` entries. -/
def Cells.wf {α : Type} (size : Nat) (m : List (Nat × α)) : Bool := Cells.risingFrom size 0 m

/-- The canonical form of a byte memory, `IBUF` or `OBUF`: 2^64 bytes (R100). -/
def Memory.wf (m : List Host.Cell) : Bool := Cells.wf (2 ^ 64) m

end Sys2Proof.Machine
end

