-- ==== Sys2Proof/Machine/Ops.lean ====
section
/-! DEFINITION. The named operations over registers, arrays and byte memories; raising and recording a fault (spec/60_exceptions.md
R500-R509), which is what this hardware has in place of taking an exception; what a mid-command fault leaves unspecified
(R502); and the reset of the registers (R462, R550), the only way out of a recorded fault. -/

namespace Sys2Proof.Machine

/-- What a step answers. -/
abbrev Result := Host.Outcome State Fault Refusal

/-- What a procedure of the spec's pseudocode answers: a value, or the fault it raised (R8: `raise E`). -/
abbrev Run (α : Type) := Except Errcode α

/-! ### The level (R57) and the capability (R56) -/

/-- `WIN` of the open stream (R57, R200). -/
def State.win (s : State) : Nat := Config.win s.level.toNat

/-- `DEPTH` of the open stream (R57, R200). -/
def State.depth (s : State) : Nat := Config.depth s.level.toNat

/-- `CAPS.WIN_MAX_LOG2` (R56). -/
def State.winMaxLog2 (s : State) : Nat := s.winExtra.val + 16

/-! ### The byte memories (R100-R103) -/

/-- The byte `IBUF` holds at an index. One the host never wrote is whatever the platform's memory holds there. -/
def State.ibufByte (s : State) (i : Nat) : Byte :=
  match Cells.lookup s.ibuf i with
  | some b => b
  | none => Config.freeIn i

/-- The bytes a host write replaced at index i while the command runs (R121). -/
def racedAt : List Host.Cell → Nat → List Byte
  | [], _ => []
  | (j, b) :: rest, i => if j = i then b :: racedAt rest i else racedAt rest i

/-- `IBUF[i]` as the read at `site` sees it: the byte held there or, where a host write raced with the running command,
either the new byte or one it replaced, for each read separately (R121, U5). -/
def State.readIbuf (s : State) (site : Config.ReadSite) (i : Nat) : Byte :=
  match racedAt s.raced i with
  | [] => s.ibufByte i
  | old :: olds =>
    (s.ibufByte i :: old :: olds).getD (Config.raceChoice s.draws site % (olds.length + 2)) (s.ibufByte i)

/-- The draw an unlisted byte of `OBUF` belongs to: the newest span that holds its index, else draw 0. -/
def drawAt : List Span → Nat → Nat
  | [], _ => 0
  | sp :: rest, i => if sp.lo ≤ i ∧ i < sp.hi then sp.k else drawAt rest i

/-- The byte `OBUF` holds at an index (R102, R103). -/
def State.obufByte (s : State) (i : Nat) : Byte :=
  match Cells.lookup s.obuf i with
  | some b => b
  | none => Config.freeOut (drawAt s.obufFree i) i

/-- `OBUF[i] <- b` (R102). -/
def State.writeObuf (s : State) (i : Pos) (b : Byte) : State :=
  { s with obuf := Cells.insert s.obuf i.toNat b }

/-! ### The internal arrays (R59-R62) -/

/-- `PROB[c]` (R59). -/
def State.probAt (s : State) (c : Ctx) : Prob :=
  match Cells.lookup s.prob.cells c.toNat with
  | some p => p
  | none =>
    match s.prob.fill with
    | none => Config.probInit
    | some k => Config.freeProb k c

/-- `PROB[c] <- p`. An entry that equals what an unlisted one reads as is not listed. -/
def State.setProb (s : State) (c : Ctx) (p : Prob) : State :=
  { s with prob := { s.prob with
      cells := if s.prob.fill = none ∧ p = Config.probInit then Cells.eraseRange c.toNat (c.toNat + 1) s.prob.cells
        else Cells.insert s.prob.cells c.toNat p } }

/-- `for c = 0 to 4095: PROB[c] <- 1024` (R260, R310, R360). -/
def State.clearProb (s : State) : State := { s with prob := ⟨none, []⟩ }

/-- `HEAD[h]` (R60): `none` is `NIL`. -/
def State.headAt (s : State) (h : Nat) : Option Pos :=
  match Cells.lookup s.head.cells h with
  | some p => some p
  | none =>
    match s.head.fill with
    | none => none
    | some k => Config.freeHead k h

/-- `HEAD[h] <- p` (R203). -/
def State.setHead (s : State) (h : Nat) (p : Pos) : State :=
  { s with head := { s.head with cells := Cells.insert s.head.cells h p } }

/-- `for h = 0 to 2^24 - 1: HEAD[h] <- NIL` (R310). -/
def State.clearHead (s : State) : State := { s with head := ⟨none, []⟩ }

/-- `CHAIN[j]` (R61): `none` is `NIL`. -/
def State.chainAt (s : State) (j : Nat) : Option Pos :=
  match Cells.lookup s.chain.cells j with
  | some e => e
  | none => Config.freeChain (s.chain.fill.getD 0) j

/-- `CHAIN[j] <- e` (R203). -/
def State.setChain (s : State) (j : Nat) (e : Option Pos) : State :=
  { s with chain := { s.chain with cells := Cells.insert s.chain.cells j e } }

/-- `WINBUF[j]` (R62). -/
def State.winbufAt (s : State) (j : Nat) : Byte :=
  match Cells.lookup s.winbuf.cells j with
  | some b => b
  | none => Config.freeWin (s.winbuf.fill.getD 0) j

/-- `WINBUF[j] <- b` (R411). -/
def State.setWinbuf (s : State) (j : Nat) (b : Byte) : State :=
  { s with winbuf := { s.winbuf with cells := Cells.insert s.winbuf.cells j b } }

/-! ### Output and input of the compressed stream -/

/-- `OutByte(b)` (R304). -/
def outByte (b : Byte) (s : State) : Run State :=
  if s.olim ≤ s.opos then .error .outLimit
  else .ok { s.writeObuf s.opos b with opos := s.opos + 1 }

/-- `InByte()` (R351). -/
def inByte (s : State) : Run (Byte × State) :=
  if s.ilen ≤ s.ipos then .error .truncated
  else .ok (s.readIbuf (.compressed s.ipos.toNat) s.ipos.toNat, { s with ipos := s.ipos + 1 })

/-! ### Raising a fault -/

/-- Recording (R503), as the last effect of the command with word `w` that started in state `start`. The first fault is kept:
with `STATUS.ERR` = 1 nothing is recorded. -/
def recordFault (k : Errcode) (w : Word) (start s : State) : State :=
  if s.err then { s with pending := none }
  else { s with err := true, errcode := k, errCmd := w, errIpos := start.ipos, errOpos := start.opos, pending := none }

/-- A pre-check fault (R502): apart from the recording, the state is as before the command. -/
def preFault (k : Errcode) (w : Word) (s : State) : State := recordFault k w s s

/-- How a command ends whose body may raise mid-command faults (R502): what the body answers or, where it raised a fault,
the recording over `loose`: the start state with the command's "Writes" unspecified and everything else unchanged. -/
def finish (w : Word) (start loose : State) : Run State → State
  | .ok t => t
  | .error k => recordFault k w start loose

/-- The mode check (R157), which precedes every argument check (R501). -/
def inMode (m : Mode) (w : Word) (s : State) (body : State) : State :=
  if s.mode = m then body else preFault .mode w s

/-! ### Unspecified values (R502, R551, U2, U3, U7). Each uses draw number `s.draws`; `drawn` moves on to the next. -/

/-- The next draw. -/
def drawn (s : State) : State := { s with draws := s.draws + 1 }

/-- `OBUF[i]` for `OPOS` ≤ i < hi. -/
def looseObufTo (hi : Nat) (s : State) : State :=
  { s with obuf := Cells.eraseRange s.opos.toNat hi s.obuf
           obufFree := if s.opos.toNat < hi then ⟨s.opos.toNat, hi, s.draws⟩ :: s.obufFree else s.obufFree }

/-- `OBUF[i]` for `OPOS` ≤ i < `OLIM` (R502). -/
def looseObuf (s : State) : State := looseObufTo s.olim.toNat s

/-- `OPOS`. -/
def looseOpos (s : State) : State := { s with opos := Config.freeReg s.draws 0x50 }

/-- `IPOS`. -/
def looseIpos (s : State) : State := { s with ipos := Config.freeReg s.draws 0x48 }

/-- `ENC_LOW`. -/
def looseEncLow (s : State) : State := { s with encLow := (Config.freeReg s.draws 0x28).setWidth 33 }

/-- `ENC_RANGE`. -/
def looseEncRange (s : State) : State := { s with encRange := (Config.freeReg s.draws 0x30).setWidth 32 }

/-- `ENC_CACHE` and `ENC_CSIZE`. -/
def loosePending (s : State) : State :=
  { s with encCache := (Config.freeReg s.draws 0x34).setWidth 8, encCsize := Config.freeReg s.draws 0x38 }

/-- `DEC_CODE` and `DEC_RANGE`. -/
def looseDecoder (s : State) : State :=
  { s with decCode := (Config.freeReg s.draws 0x40).setWidth 32, decRange := (Config.freeReg s.draws 0x44).setWidth 32 }

/-- `RESULT`. -/
def looseResult (s : State) : State := { s with result := (Config.freeReg s.draws 0x10).setWidth 32 }

/-- `CTXSTATE`. -/
def looseCtxstate (s : State) : State :=
  { s with prevByte := (Config.freeReg s.draws 0x14).setWidth 8, prevMatch := (Config.freeReg s.draws 0x14).getLsbD 8 }

/-- `STATUS.LEVEL`. -/
def looseLevel (s : State) : State := { s with level := (Config.freeReg s.draws 0x04).setWidth 4 }

/-- `TOK_KIND`, `TOK_DIST`, `TOK_LEN`. -/
def looseTokMatch (s : State) : State :=
  { s with tokKind := (Config.freeReg s.draws 0x18).getLsbD 0
           tokDist := (Config.freeReg s.draws 0x20).setWidth 32
           tokLen := (Config.freeReg s.draws 0x24).setWidth 9 }

/-- `TOK_LIT`. -/
def looseTokLit (s : State) : State := { s with tokLit := (Config.freeReg s.draws 0x1C).setWidth 8 }

/-- The listed entries of `PROB`. -/
def looseProbs (cs : List Ctx) (s : State) : State :=
  cs.foldl (fun t c => t.setProb c (Config.freeProb s.draws c)) s

/-- All of `PROB`. -/
def looseProb (s : State) : State := { s with prob := ⟨some s.draws, []⟩ }

/-- `HEAD` and `CHAIN`. -/
def looseFinder (s : State) : State := { s with head := ⟨some s.draws, []⟩, chain := ⟨some s.draws, []⟩ }

/-- `WINBUF`. -/
def looseWinbuf (s : State) : State := { s with winbuf := ⟨some s.draws, []⟩ }

/-- What renormalisation of the encoder writes: `ENC_LOW`, `ENC_RANGE`, `ENC_CACHE`, `ENC_CSIZE`, `OBUF`, `OPOS`. -/
def looseEncoder (s : State) : State := looseOpos (loosePending (looseEncRange (looseEncLow (looseObuf s))))

/-! ### Reset -/

/-- Every register of R33 with a reset value takes it, and the overrun latch is cleared (R462, R550). `CAPS` keeps its
constant; `PROB`, `HEAD`, `CHAIN`, `WINBUF`, `IBUF` and `OBUF` are unchanged. -/
def State.resetRegisters (s : State) : State :=
  { s with
    pending := none, err := false, mode := .idle, errcode := .none, level := 0
    errCmd := 0, arg := 0, result := 0, prevByte := 0, prevMatch := false
    tokKind := false, tokLit := 0, tokDist := 0, tokLen := 0
    encLow := 0, encRange := 0, encCache := 0, encCsize := 0, decCode := 0, decRange := 0
    ipos := 0, opos := 0, ilen := 0, olim := 0, errIpos := 0, errOpos := 0
    overrun := none }

end Sys2Proof.Machine
end

