-- ==== Sys2Proof/WellFormed.lean ====
section
/-! DEFINITION. Which commands have operands the core can accept. Every field width is in the type of `Instr`, so what is
left to check are the argument checks of spec/60_exceptions.md R501 that depend on the command word alone. A command
that is not well formed still decodes (R153; E8, E12 of spec/95_test_vectors.md) and runs: it raises
`LEVEL_RANGE` or `BAD_ARG`. The checks that read `ARG` are `Machine.argFits` (R312, R313). -/

namespace Sys2Proof

/-- A level 0 to 9 (R200): otherwise `LEVEL_RANGE`. -/
def levelOk (lvl : BitVec 6) : Bool := decide (lvl.toNat ≤ 9)

/-- A direct bit count 1 to 32 (R312, R362): otherwise `BAD_ARG`. -/
def directCountOk (n : BitVec 6) : Bool := decide (1 ≤ n.toNat ∧ n.toNat ≤ 32)

/-- A tree of n-bit symbols at `ctx` that lies in `PROB`, 2^n computed exactly (R313, R363, R501): otherwise `BAD_ARG`. -/
def treeOk (ctx : Ctx) (n : BitVec 6) : Bool := decide (1 ≤ n.toNat ∧ ctx.toNat + 2 ^ n.toNat ≤ 4096)

/-- The operand checks of R501 that the command word alone decides. -/
def Instr.wellFormed : Instr → Bool
  | .nop => true
  | .reset => true
  | .pmReset => true
  | .pmPredict _ => true
  | .pmUpdate _ _ => true
  | .encInit lvl => levelOk lvl
  | .encBit _ _ => true
  | .encDirect n => directCountOk n
  | .encTree ctx n => treeOk ctx n
  | .encRtree ctx n => treeOk ctx n
  | .encFlush => true
  | .mfFind => true
  | .decInit lvl => levelOk lvl
  | .decBit _ => true
  | .decDirect n => directCountOk n
  | .decTree ctx n => treeOk ctx n
  | .decRtree ctx n => treeOk ctx n
  | .decFinish => true
  | .encLit => true
  | .encMatch => true
  | .encStream => true
  | .decToken => true
  | .decStream => true

end Sys2Proof
end

