-- ==== Sys2Proof/Machine/Operands.lean ====
section
/-! DEFINITION. Operand assembly and the forms of an operand (spec/30_encoding.md R153): the checks of counts and trees against `ARG`
(spec/60_exceptions.md R501), levels, the slot code and the context selection shared by both directions of the token codec
(spec/45_stream_codec.md R400-R405). -/

namespace Sys2Proof.Machine

/-- `ARG` fits in n bits (R312, R313). -/
def argFits (n : BitVec 6) (arg : Word) : Bool := decide (arg.toNat < 2 ^ n.toNat)

/-- The argument check of `ENC_DIRECT` (R312): n = 0, n > 32, or n < 32 and `ARG` ≥ 2^n, is `BAD_ARG`. At n = 32 every
`ARG` fits. -/
def encDirectOk (n : BitVec 6) (arg : Word) : Bool := directCountOk n && argFits n arg

/-- The argument check of `ENC_TREE` and `ENC_RTREE` (R313, R314). -/
def encTreeOk (ctx : Ctx) (n : BitVec 6) (arg : Word) : Bool := treeOk ctx n && argFits n arg

/-- The instance has the window of this level (R200): otherwise `ALLOC`. -/
def windowFits (lvl : BitVec 6) (s : State) : Bool := decide (Config.winLog2 lvl.toNat ≤ s.winMaxLog2)

/-! ### Contexts (R400, R401, R404) -/

/-- Node m of the tree at `base` (R305). -/
def node (base : Ctx) (m : Nat) : Ctx := base + BitVec.ofNat 12 m

/-- The context of a token's flag: `0x920 + PREV_MATCH` (R400). -/
def flagCtx (s : State) : Ctx := node Config.isMatchCtx (bit s.prevMatch)

/-- `LitBase()` (R401): the top 3 bits of `PREV_BYTE` select the tree. -/
def litBase (s : State) : Ctx := BitVec.ofNat 12 (s.prevByte.toNat >>> 5 * 256)

/-- `LenState(l)` (R403). -/
def lenState (l : Nat) : Nat := min (l - 2) 3

/-- `DistBase(l)` (R404). -/
def distBase (l : Nat) : Ctx := node Config.distSlotCtx (lenState l * 64)

/-! ### The slot code (R402) -/

/-- `SlotBase(s)`, s ≥ 4. -/
def slotBase (s : Nat) : Nat := (2 + s % 2) <<< (s / 2 - 1)

/-- The slot of a value. -/
def slotOf (v : Nat) : Nat := if v < 4 then v else 2 * v.log2 + bit (v.testBit (v.log2 - 1))

/-- The number of extra bits of slot s. -/
def slotExtra (s : Nat) : Nat := if s < 4 then 0 else s / 2 - 1

/-- `SlotOf(v)`: slot, number of extra bits, extra bits. -/
def slotSplit (v : Nat) : Nat × Nat × Nat :=
  if v < 4 then (v, 0, 0) else (slotOf v, v.log2 - 1, v - slotBase (slotOf v))

/-- `SlotValue(s, x)`. -/
def slotValue (s x : Nat) : Nat := if s < 4 then s else slotBase s + x

/-! ### The estimators on the path of a symbol through a tree (R305, R306) -/

/-- The nodes `EncodeTree` visits from node m with i bits to go. -/
def treePath (base : Ctx) (sym : Word) : Nat → Nat → List Ctx
  | 0, _ => []
  | i + 1, m => node base m :: treePath base sym i (2 * m + bit (sym.getLsbD i))

/-- The nodes `EncodeRTree` visits from node m with k bits to go, the next being bit i. -/
def rtreePath (base : Ctx) (sym : Word) : Nat → Nat → Nat → List Ctx
  | 0, _, _ => []
  | k + 1, i, m => node base m :: rtreePath base sym k (i + 1) (2 * m + bit (sym.getLsbD i))

/-- The n levels of the tree at `base` from node m down. -/
def subtree (base : Ctx) : Nat → Nat → List Ctx
  | 0, _ => []
  | n + 1, m => node base m :: (subtree base n (2 * m) ++ subtree base n (2 * m + 1))

end Sys2Proof.Machine
end

