-- ==== Sys2Proof/Machine/MatchFinder.lean ====
section
/-! DEFINITION. The match finder (spec/41_match_finder.md). Positions are natural numbers here, so no sum of a position and a
length wraps (R206, R207). -/

namespace Sys2Proof.Machine

/-- `Hash3` of three bytes (R202): `{b0, b1, b2}`. -/
def hash3 (b0 b1 b2 : Byte) : Nat := b0.toNat * 65536 + b1.toNat * 256 + b2.toNat

/-- `Hash3(p)` as `FindMatch` reads it (R202, R207). -/
def searchHash (s : State) (p : Nat) : Nat :=
  hash3 (s.readIbuf (.hash p 0) p) (s.readIbuf (.hash p 1) (p + 1)) (s.readIbuf (.hash p 2) (p + 2))

/-- `Hash3(p)` as `Insert` reads it (R202, R203). -/
def insertHash (s : State) (p : Nat) : Nat :=
  hash3 (s.readIbuf (.insertHash p 0) p) (s.readIbuf (.insertHash p 1) (p + 1)) (s.readIbuf (.insertHash p 2) (p + 2))

/-- `Insert(p)` (R203). -/
def insertPos (p : Nat) (s : State) : State :=
  if s.ilen.toNat < p + 3 then s
  else (s.setChain (p % s.win) (s.headAt (insertHash s p))).setHead (insertHash s p) (BitVec.ofNat 64 p)

/-- `Insert` of l positions from p, in increasing order (R431). -/
def insertRun : Nat → Nat → State → State
  | 0, _, s => s
  | l + 1, p, s => insertRun l (p + 1) (insertPos p s)

/-- `MatchLen(q, pos, maxlen)` with l bytes already equal and `fuel` = maxlen - l to compare (R206). -/
def matchLenFrom (s : State) (q pos : Nat) : Nat → Nat → Nat
  | 0, l => l
  | fuel + 1, l =>
    if s.readIbuf (.candidate pos q l) (q + l) = s.readIbuf (.current pos q l) (pos + l) then
      matchLenFrom s q pos fuel (l + 1)
    else l

/-- `MatchLen(q, pos, maxlen)` (R206). -/
def matchLen (s : State) (q pos maxlen : Nat) : Nat := matchLenFrom s q pos maxlen 0

/-- The best pair after a candidate at distance d and length l: strictly longer only, so ties keep the smaller distance (R207). -/
def better (d l : Nat) (best : Nat × Nat) : Nat × Nat := if best.2 < l then (d, l) else best

/-- The candidate loop of `FindMatch` (R207): `fuel` is `DEPTH - count`, `q` the next candidate, `best` is (bestd, bestl). -/
def walk (s : State) (pos maxlen : Nat) : Nat → Option Pos → Nat × Nat → Nat × Nat
  | 0, _, best => best
  | _ + 1, none, best => best
  | fuel + 1, some q, best =>
    if s.win < pos - q.toNat then best
    else if matchLen s q.toNat pos maxlen = maxlen then better (pos - q.toNat) maxlen best
    else walk s pos maxlen fuel (s.chainAt (q.toNat % s.win))
      (better (pos - q.toNat) (matchLen s q.toNat pos maxlen) best)

/-- `FindMatch(pos)` (R207): (distance, length), (0, 0) for none. -/
def findMatch (s : State) (pos : Nat) : Nat × Nat :=
  let rem := s.ilen.toNat - pos
  if rem < Config.hashBytes then (0, 0)
  else
    let best := walk s pos (min Config.maxMatch rem) s.depth (s.headAt (searchHash s pos)) (0, 0)
    if best.2 < Config.minMatch then (0, 0) else best

/-- The pseudocode of `MF_FIND` (R210). -/
def mfFindBody (s : State) : State :=
  let m := findMatch s s.ipos.toNat
  if m.2 = 0 then { s with tokKind := false, tokDist := 0, tokLen := 0 }
  else { s with tokKind := true, tokDist := BitVec.ofNat 32 m.1, tokLen := BitVec.ofNat 9 m.2 }

/-- `MF_FIND` (R210). -/
def execMfFind (s : State) : Result := .next (
  inMode .enc (encode .mfFind) s (mfFindBody s))

end Sys2Proof.Machine
end

