-- ==== Sys2Proof/Machine/Probability.lean ====
section
/-! DEFINITION. The probability estimator array (spec/42_probability.md). -/

namespace Sys2Proof.Machine

/-- The new value of an estimator after a bit (R251): 1/32 of the way toward P(0) = 1 on a 0 and toward P(0) = 0 on a 1.
Computed exactly; the result is below 2048 for every p. -/
def adapt (p : Prob) (b : Bool) : Prob :=
  if b then BitVec.ofNat 11 (p.toNat - p.toNat >>> Config.adaptShift)
  else BitVec.ofNat 11 (p.toNat + (2048 - p.toNat) >>> Config.adaptShift)

/-- `Update(c, bit)` (R251). -/
def State.update (s : State) (c : Ctx) (b : Bool) : State := s.setProb c (adapt (s.probAt c) b)

/-- `PM_RESET` (R260). -/
def execPmReset (s : State) : Result := .next s.clearProb

/-- `PM_PREDICT ctx` (R261). An entry that holds an unspecified value gives that value (U1). -/
def execPmPredict (c : Ctx) (s : State) : Result := .next { s with result := (s.probAt c).setWidth 32 }

/-- `PM_UPDATE ctx, b` (R262). -/
def execPmUpdate (c : Ctx) (b : Bool) (s : State) : Result := .next (s.update c b)

end Sys2Proof.Machine
end

