-- ==== Sys2Proof/Machine/RangeDecoder.lean ====
section
/-! DEFINITION. The range decoder (spec/44_range_decoder.md). Its arithmetic is on 32-bit words, and every subtraction is
guarded by a comparison (R350). -/

namespace Sys2Proof.Machine

/-! ### Procedures -/

/-- `DEC_CODE <- ((DEC_CODE << 8) mod 2^32) | InByte()` (R351, R360). -/
def refill (s : State) : Run State :=
  (inByte s).bind fun r => .ok { r.2 with decCode := (r.2.decCode <<< 8) ||| r.1.setWidth 32 }

/-- `NormalizeDec()` (R351). -/
def normalizeDec (s : State) : Run State :=
  if s.decRange < Config.top then refill { s with decRange := s.decRange <<< 8 } else .ok s

/-- The split of the decoder's range by an estimator (R352). -/
def decBound (c : Ctx) (s : State) : Word := (s.decRange >>> 11) * (s.probAt c).setWidth 32

/-- The bit the code selects (R352): 0 in the lower part. -/
def codedBit (c : Ctx) (s : State) : Bool := !decide (s.decCode < decBound c s)

/-- The narrowing of the decoder by one modelled bit (R352). -/
def narrowDec (c : Ctx) (b : Bool) (s : State) : State :=
  if b then { s with decCode := s.decCode - decBound c s, decRange := s.decRange - decBound c s }
  else { s with decRange := decBound c s }

/-- `DecodeBit(c)` (R352). -/
def decodeBit (c : Ctx) (s : State) : Run (Bool × State) :=
  (normalizeDec ((narrowDec c (codedBit c s) s).update c (codedBit c s))).bind fun t => .ok (codedBit c s, t)

/-- The direct bit the code selects (R353). -/
def codedDirect (s : State) : Bool := decide (s.decRange >>> 1 ≤ s.decCode)

/-- The narrowing of the decoder by one direct bit (R353). -/
def narrowDecDirect (b : Bool) (s : State) : State :=
  if b then { s with decCode := s.decCode - s.decRange >>> 1, decRange := s.decRange >>> 1 }
  else { s with decRange := s.decRange >>> 1 }

/-- The loop of `DecodeDirect` (R353): n bits to go, v read so far. -/
def decodeDirectFrom : Nat → Word → State → Run (Word × State)
  | 0, v, s => .ok (v, s)
  | n + 1, v, s =>
    (normalizeDec (narrowDecDirect (codedDirect s) s)).bind
      (decodeDirectFrom n (v <<< 1 ||| (BitVec.ofBool (codedDirect s)).setWidth 32))

/-- `DecodeDirect(n)` (R353). -/
def decodeDirect (n : Nat) (s : State) : Run (Word × State) := decodeDirectFrom n 0 s

/-- The loop of `DecodeTree` (R354): n bits to go, at node m. It answers the last node. -/
def decodeTreeFrom (base : Ctx) : Nat → Nat → State → Run (Nat × State)
  | 0, m, s => .ok (m, s)
  | n + 1, m, s => (decodeBit (node base m) s).bind fun r => decodeTreeFrom base n (2 * m + bit r.1) r.2

/-- `DecodeTree(base, n)` (R354). -/
def decodeTree (base : Ctx) (n : Nat) (s : State) : Run (Nat × State) :=
  (decodeTreeFrom base n 1 s).bind fun r => .ok (r.1 - 2 ^ n, r.2)

/-- The estimators that can be on the path of n bits from node m (R354). As far as the input lasts the path is decided; past the bit
whose refill finds no byte it is not, so there every node from the one that bit leads to down. -/
def reach (base : Ctx) : Nat → Nat → State → List Ctx
  | 0, _, _ => []
  | n + 1, m, s =>
    node base m ::
      match decodeBit (node base m) s with
      | .ok r => reach base n (2 * m + bit r.1) r.2
      | .error _ => subtree base n (2 * m + bit (codedBit (node base m) s))

/-- The loop of `DecodeRTree` (R354): n bits to go, bit i is next, at node m, `sym` read so far. -/
def decodeRtreeFrom (base : Ctx) : Nat → Nat → Nat → Nat → State → Run (Nat × State)
  | 0, _, _, sym, s => .ok (sym, s)
  | n + 1, i, m, sym, s =>
    (decodeBit (node base m) s).bind fun r =>
      decodeRtreeFrom base n (i + 1) (2 * m + bit r.1) (sym + bit r.1 * 2 ^ i) r.2

/-- `DecodeRTree(base, n)` (R354). -/
def decodeRtree (base : Ctx) (n : Nat) (s : State) : Run (Nat × State) := decodeRtreeFrom base n 0 1 0 s

/-- `repeat n: DEC_CODE <- ((DEC_CODE << 8) mod 2^32) | InByte()` (R360). -/
def refills : Nat → State → Run State
  | 0, s => .ok s
  | n + 1, s => (refill s).bind (refills n)

/-! ### Commands -/

/-- What an accepted `DEC_INIT` writes before it reads the payload (R360). `WINBUF` after it is unspecified (R62, U2). -/
def openDecode (lvl : BitVec 6) (s : State) : State :=
  { s.clearProb with
    winbuf := ⟨some s.draws, []⟩, draws := s.draws + 1
    level := lvl.setWidth 4, ipos := 0, opos := 0, prevByte := 0, prevMatch := false
    decRange := 0xFFFFFFFF#32, decCode := 0 }

/-- `DEC_INIT` from its first read on (R360): five bytes, of which the first must be 0x00; the check follows the reads. -/
def decInitBody (lvl : BitVec 6) (s : State) : Run State :=
  (inByte (openDecode lvl s)).bind fun r =>
    (refills 4 r.2).bind fun t => if r.1 = 0#8 then .ok { t with mode := .dec } else .error .badStreamStart

/-- `DEC_INIT level` (R360). -/
def execDecInit (lvl : BitVec 6) (s : State) : Result :=
  .next (
    if levelOk lvl then
      if windowFits lvl s then
        finish (encode (.decInit lvl)) s
          (drawn (looseLevel (looseIpos (looseCtxstate (looseDecoder (looseProb (looseOpos (looseObuf s)))))))) (decInitBody lvl s)
      else preFault .alloc (encode (.decInit lvl)) s
    else preFault .levelRange (encode (.decInit lvl)) s)

/-- `DEC_BIT ctx` (R361). "`RESULT` is written only if the command completes": a fault leaves it. -/
def execDecBit (c : Ctx) (s : State) : Result := .next (
  inMode .dec (encode (.decBit c)) s
    (finish (encode (.decBit c)) s (drawn (looseIpos (looseDecoder (looseProbs [c] (looseObuf s)))))
      ((decodeBit c s).bind fun r => .ok { r.2 with result := BitVec.ofNat 32 (bit r.1) })))

/-- `DEC_DIRECT n` (R362). -/
def execDecDirect (n : BitVec 6) (s : State) : Result := .next (
  inMode .dec (encode (.decDirect n)) s
    (if directCountOk n then
      finish (encode (.decDirect n)) s (drawn (looseIpos (looseDecoder (looseResult (looseObuf s)))))
        ((decodeDirect n.toNat s).bind fun r => .ok { r.2 with result := r.1 })
    else preFault .badArg (encode (.decDirect n)) s))

/-- `DEC_TREE ctx, n` (R363). A fault leaves unspecified the estimators that can be on the path (R502). -/
def execDecTree (c : Ctx) (n : BitVec 6) (s : State) : Result := .next (
  inMode .dec (encode (.decTree c n)) s
    (if treeOk c n then
      finish (encode (.decTree c n)) s
        (drawn (looseIpos (looseDecoder (looseResult (looseProbs (reach c n.toNat 1 s) (looseObuf s))))))
        ((decodeTree c n.toNat s).bind fun r => .ok { r.2 with result := BitVec.ofNat 32 r.1 })
    else preFault .badArg (encode (.decTree c n)) s))

/-- `DEC_RTREE ctx, n` (R364). -/
def execDecRtree (c : Ctx) (n : BitVec 6) (s : State) : Result := .next (
  inMode .dec (encode (.decRtree c n)) s
    (if treeOk c n then
      finish (encode (.decRtree c n)) s
        (drawn (looseIpos (looseDecoder (looseResult (looseProbs (reach c n.toNat 1 s) (looseObuf s))))))
        ((decodeRtree c n.toNat s).bind fun r => .ok { r.2 with result := BitVec.ofNat 32 r.1 })
    else preFault .badArg (encode (.decRtree c n)) s))

/-- The pseudocode of `DEC_FINISH` (R370). -/
def decFinishBody (s : State) : Run State :=
  if s.decCode ≠ 0 then .error .corruptEnd
  else if s.ipos ≠ s.ilen then .error .trailing
  else .ok { s with mode := .idle }

/-- `DEC_FINISH` (R370). Both its faults are pre-checks, so the state is as before the command. -/
def execDecFinish (s : State) : Result := .next (
  inMode .dec (encode .decFinish) s (finish (encode .decFinish) s s (decFinishBody s)))

end Sys2Proof.Machine
end

