-- ==== Sys2Proof/Machine/RangeEncoder.lean ====
section
/-! DEFINITION. The range encoder (spec/43_range_encoder.md). -/

namespace Sys2Proof.Machine

/-! ### Procedures -/

/-- The loop of `ShiftLow` (R301): n bytes, `temp` and then 0xFF, each plus the carry mod 256. -/
def emitPending : Nat → Byte → Byte → State → Run State
  | 0, _, _, s => .ok s
  | n + 1, temp, carry, s => (outByte (temp + carry) s).bind (emitPending n 0xFF#8 carry)

/-- `ENC_LOW[31:0] < 0xFF000000 or ENC_LOW[32] == 1`: the pending bytes are decided (R301). -/
def carryDecided (s : State) : Bool := decide (s.encLow.setWidth 32 < 0xFF000000#32) || s.encLow.getLsbD 32

/-- `ENC_LOW[32]` as a byte (R301). -/
def carryByte (s : State) : Byte := if s.encLow.getLsbD 32 then 1#8 else 0#8

/-- The end of `ShiftLow` (R301): one more pending byte, and `ENC_LOW[23:0] << 8`. -/
def dropTop (s : State) : State :=
  { s with encCsize := s.encCsize + 1, encLow := (s.encLow.setWidth 24).setWidth 33 <<< 8 }

/-- `ShiftLow()` (R301). -/
def shiftLow (s : State) : Run State :=
  if carryDecided s then
    (emitPending s.encCsize.toNat s.encCache (carryByte s) s).bind fun t =>
      .ok (dropTop { t with encCsize := 0, encCache := t.encLow.extractLsb' 24 8 })
  else .ok (dropTop s)

/-- `NormalizeEnc()` (R302). -/
def normalizeEnc (s : State) : Run State :=
  if s.encRange < Config.top then shiftLow { s with encRange := s.encRange <<< 8 } else .ok s

/-- The split of the encoder's range by an estimator (R300): below 2^32, so no wrap. -/
def encBound (c : Ctx) (s : State) : Word := (s.encRange >>> 11) * (s.probAt c).setWidth 32

/-- The narrowing of the interval by one modelled bit (R300). -/
def narrow (c : Ctx) (b : Bool) (s : State) : State :=
  if b then
    { s with encLow := s.encLow + (encBound c s).setWidth 33, encRange := s.encRange - encBound c s }
  else { s with encRange := encBound c s }

/-- `EncodeBit(c, bit)` (R300). The split uses the old estimate; `Update` precedes `NormalizeEnc` (R252). -/
def encodeBit (c : Ctx) (b : Bool) (s : State) : Run State := normalizeEnc ((narrow c b s).update c b)

/-- The narrowing of the interval by one direct bit (R303). -/
def narrowDirect (b : Bool) (s : State) : State :=
  if b then
    { s with encLow := s.encLow + (s.encRange >>> 1).setWidth 33, encRange := s.encRange >>> 1 }
  else { s with encRange := s.encRange >>> 1 }

/-- `EncodeDirect(n, v)` (R303): most significant bit first. -/
def encodeDirect (v : Word) : Nat → State → Run State
  | 0, s => .ok s
  | i + 1, s => (normalizeEnc (narrowDirect (v.getLsbD i) s)).bind (encodeDirect v i)

/-- The loop of `EncodeTree` (R305): bit i - 1 is next, at node m. -/
def encodeTreeFrom (base : Ctx) (sym : Word) : Nat → Nat → State → Run State
  | 0, _, s => .ok s
  | i + 1, m, s =>
    (encodeBit (node base m) (sym.getLsbD i) s).bind (encodeTreeFrom base sym i (2 * m + bit (sym.getLsbD i)))

/-- `EncodeTree(base, n, sym)` (R305). -/
def encodeTree (base : Ctx) (n : Nat) (sym : Word) (s : State) : Run State := encodeTreeFrom base sym n 1 s

/-- The loop of `EncodeRTree` (R306): k bits to go, bit i is next, at node m. -/
def encodeRtreeFrom (base : Ctx) (sym : Word) : Nat → Nat → Nat → State → Run State
  | 0, _, _, s => .ok s
  | k + 1, i, m, s =>
    (encodeBit (node base m) (sym.getLsbD i) s).bind
      (encodeRtreeFrom base sym k (i + 1) (2 * m + bit (sym.getLsbD i)))

/-- `EncodeRTree(base, n, sym)` (R306). -/
def encodeRtree (base : Ctx) (n : Nat) (sym : Word) (s : State) : Run State := encodeRtreeFrom base sym n 0 1 s

/-- `repeat n: ShiftLow()` (R320). -/
def shiftLows : Nat → State → Run State
  | 0, s => .ok s
  | n + 1, s => (shiftLow s).bind (shiftLows n)

/-- The pseudocode of `ENC_FLUSH` (R320). -/
def encFlushBody (s : State) : Run State := (shiftLows 5 s).bind fun t => .ok { t with mode := .idle }

/-! ### Commands -/

/-- The state an accepted `ENC_INIT` leaves (R310). `CHAIN` after it is unspecified (R61, U2). -/
def openEncode (lvl : BitVec 6) (s : State) : State :=
  { s.clearProb.clearHead with
    chain := ⟨some s.draws, []⟩, draws := s.draws + 1
    level := lvl.setWidth 4, encLow := 0, encRange := 0xFFFFFFFF#32, encCache := 0, encCsize := 1
    ipos := 0, opos := 0, prevByte := 0, prevMatch := false, mode := .enc }

/-- `ENC_INIT level` (R310). -/
def execEncInit (lvl : BitVec 6) (s : State) : Result :=
  .next (
    if levelOk lvl then
      if windowFits lvl s then openEncode lvl s
      else preFault .alloc (encode (.encInit lvl)) s
    else preFault .levelRange (encode (.encInit lvl)) s)

/-- `ENC_BIT ctx, b` (R311). -/
def execEncBit (c : Ctx) (b : Bool) (s : State) : Result := .next (
  inMode .enc (encode (.encBit c b)) s
    (finish (encode (.encBit c b)) s (drawn (looseEncoder (looseProbs [c] s))) (encodeBit c b s)))

/-- `ENC_DIRECT n` (R312). -/
def execEncDirect (n : BitVec 6) (s : State) : Result := .next (
  inMode .enc (encode (.encDirect n)) s
    (if encDirectOk n s.arg then
      finish (encode (.encDirect n)) s (drawn (looseEncoder s)) (encodeDirect s.arg n.toNat s)
    else preFault .badArg (encode (.encDirect n)) s))

/-- `ENC_TREE ctx, n` (R313). -/
def execEncTree (c : Ctx) (n : BitVec 6) (s : State) : Result := .next (
  inMode .enc (encode (.encTree c n)) s
    (if encTreeOk c n s.arg then
      finish (encode (.encTree c n)) s (drawn (looseEncoder (looseProbs (treePath c s.arg n.toNat 1) s)))
        (encodeTree c n.toNat s.arg s)
    else preFault .badArg (encode (.encTree c n)) s))

/-- `ENC_RTREE ctx, n` (R314). -/
def execEncRtree (c : Ctx) (n : BitVec 6) (s : State) : Result := .next (
  inMode .enc (encode (.encRtree c n)) s
    (if encTreeOk c n s.arg then
      finish (encode (.encRtree c n)) s (drawn (looseEncoder (looseProbs (rtreePath c s.arg n.toNat 0 1) s)))
        (encodeRtree c n.toNat s.arg s)
    else preFault .badArg (encode (.encRtree c n)) s))

/-- `ENC_FLUSH` (R320). `ENC_RANGE` is unchanged, also by a fault. -/
def execEncFlush (s : State) : Result := .next (
  inMode .enc (encode .encFlush) s
    (finish (encode .encFlush) s (drawn (looseOpos (loosePending (looseEncLow (looseObuf s))))) (encFlushBody s)))

end Sys2Proof.Machine
end

