-- ==== Sys2Proof/Machine/StreamCodec.lean ====
section
/-! DEFINITION. The stream codec (spec/45_stream_codec.md): tokens, the output window, and the two stream loops. -/

namespace Sys2Proof.Machine

/-- A token (R10): `Literal(byte)` or `Match(distance, length)`. -/
inductive Token where
  | literal (b : Byte)
  | repetition (d l : Nat)
  deriving DecidableEq, Repr

/-! ### Token procedures (R405) -/

/-- `EncodeLiteralToken(b)` (R405). -/
def encodeLiteralToken (b : Byte) (s : State) : Run State :=
  (encodeBit (flagCtx s) false s).bind (encodeTree (litBase s) 8 (b.setWidth 32))

/-- A value by its slot through the tree at `base`, then its extra bits direct (R402, R405). -/
def encodeSlotValue (base : Ctx) (nbits v : Nat) (s : State) : Run State :=
  (encodeTree base nbits (BitVec.ofNat 32 (slotSplit v).1) s).bind
    (encodeDirect (BitVec.ofNat 32 (slotSplit v).2.2) (slotSplit v).2.1)

/-- `EncodeMatchToken(d, l)` (R405). -/
def encodeMatchToken (d l : Nat) (s : State) : Run State :=
  (encodeBit (flagCtx s) true s).bind fun t =>
    (encodeSlotValue Config.lenSlotCtx Config.lenSlotBits (l - 2) t).bind
      (encodeSlotValue (distBase l) Config.distSlotBits (d - 1))

/-- `DecodeSlotValue(base, nbits)` (R405). -/
def decodeSlotValue (base : Ctx) (nbits : Nat) (s : State) : Run (Nat × State) :=
  (decodeTree base nbits s).bind fun r =>
    if r.1 < 4 then .ok r
    else (decodeDirect (r.1 / 2 - 1) r.2).bind fun x => .ok (slotBase r.1 + x.1.toNat, x.2)

/-- `DecodeTokenFields()` (R405). -/
def decodeTokenFields (s : State) : Run (Token × State) :=
  (decodeBit (flagCtx s) s).bind fun f =>
    if f.1 then
      (decodeSlotValue Config.lenSlotCtx Config.lenSlotBits f.2).bind fun n =>
        if Config.maxMatch < n.1 + 2 then .error .lenRange
        else (decodeSlotValue (distBase (n.1 + 2)) Config.distSlotBits n.2).bind fun v =>
          .ok (.repetition (v.1 + 1) (n.1 + 2), v.2)
    else (decodeTree (litBase f.2) 8 f.2).bind fun r => .ok (.literal (BitVec.ofNat 8 r.1), r.2)

/-! ### Output and window (R411, R412) -/

/-- `Put(b)` (R411). -/
def put (b : Byte) (s : State) : State :=
  { (s.writeObuf s.opos b).setWinbuf (s.opos.toNat % s.win) b with opos := s.opos + 1 }

/-- `CopyMatch(d, l)` (R412), one byte at a time. -/
def copyMatch (d : Nat) : Nat → State → State
  | 0, s => s
  | l + 1, s => copyMatch d l (put (s.winbufAt ((s.opos.toNat - d) % s.win)) s)

/-! ### Encoding commands -/

/-- The pseudocode of `ENC_LIT` (R430). -/
def encLitBody (s : State) : Run State :=
  if s.ilen ≤ s.ipos then .error .inputEnd
  else
    let b := s.readIbuf (.literal s.ipos.toNat) s.ipos.toNat
    (encodeLiteralToken b s).bind fun t =>
      .ok { insertPos s.ipos.toNat t with ipos := s.ipos + 1, prevByte := b, prevMatch := false }

/-- The three checks of `ENC_MATCH` (R431): the pair is a true repetition inside the window and the input. -/
def matchOk (s : State) : Bool :=
  let pos := s.ipos.toNat
  let d := s.tokDist.toNat
  let l := s.tokLen.toNat
  decide (1 ≤ d) && decide (d ≤ min pos s.win) && decide (Config.matchLenMin ≤ l) &&
    decide (l ≤ min Config.maxMatch (s.ilen.toNat - pos)) &&
    (List.range l).all fun k =>
      decide (s.readIbuf (.checkHere pos k) (pos + k) = s.readIbuf (.checkBack pos k) (pos + k - d))

/-- `ENC_MATCH` after its checks (R431). -/
def encMatchCode (s : State) : Run State :=
  let l := s.tokLen.toNat
  (encodeMatchToken s.tokDist.toNat l s).bind fun t =>
    .ok { insertRun l s.ipos.toNat t with
      prevByte := s.readIbuf (.lastByte (s.ipos.toNat + l - 1)) (s.ipos.toNat + l - 1)
      ipos := s.ipos + BitVec.ofNat 64 l
      prevMatch := true }

/-- The pseudocode of `ENC_MATCH` (R431). -/
def encMatchBody (s : State) : Run State := if matchOk s then encMatchCode s else .error .badMatch

/-- The loop of `ENC_STREAM` (R432). Each iteration advances `IPOS`, so `ILEN - IPOS` iterations are enough (R571). -/
def encLoop : Nat → State → Run State
  | 0, s => .ok s
  | fuel + 1, s =>
    if s.ipos < s.ilen then
      let t := mfFindBody s
      (if t.tokKind then encMatchBody t else encLitBody t).bind (encLoop fuel)
    else .ok s

/-- The pseudocode of `ENC_STREAM` (R432). -/
def encStreamBody (s : State) : Run State := (encLoop (s.ilen.toNat - s.ipos.toNat) s).bind encFlushBody

/-- The estimators a literal token writes (R430: 9 entries). -/
def literalCtxs (b : Byte) (s : State) : List Ctx := flagCtx s :: treePath (litBase s) (b.setWidth 32) 8 1

/-- `ENC_LIT` (R430). -/
def execEncLit (s : State) : Result := .next (
  inMode .enc (encode .encLit) s
    (if s.ilen ≤ s.ipos then preFault .inputEnd (encode .encLit) s
    else
      finish (encode .encLit) s
        (drawn (looseIpos (looseCtxstate (looseFinder (looseEncoder
          (looseProbs (literalCtxs (s.readIbuf (.literal s.ipos.toNat) s.ipos.toNat) s) s)))))) (encLitBody s)))

/-- `ENC_MATCH` (R431). -/
def execEncMatch (s : State) : Result := .next (
  inMode .enc (encode .encMatch) s
    (if matchOk s then
      finish (encode .encMatch) s (drawn (looseIpos (looseCtxstate (looseFinder (looseProb (looseEncoder s))))))
        (encMatchCode s)
    else preFault .badMatch (encode .encMatch) s))

/-- `ENC_STREAM` (R432). -/
def execEncStream (s : State) : Result := .next (
  inMode .enc (encode .encStream) s
    (finish (encode .encStream) s
      (drawn (looseTokMatch (looseIpos (looseCtxstate (looseFinder (looseProb (looseEncoder s))))))) (encStreamBody s)))

/-! ### Decoding commands -/

/-- The replay of a decoded token (R440). The checks of a match precede every write of it. -/
def replay (tok : Token) (s : State) : Run State :=
  match tok with
  | .literal b =>
    .ok { put b s with prevByte := b, prevMatch := false, tokKind := false, tokLit := b, tokDist := 0, tokLen := 0 }
  | .repetition d l =>
    if min s.opos.toNat s.win < d then .error .distRange
    else if s.olim.toNat - s.opos.toNat < l then .error .outLimit
    else
      let t := copyMatch d l s
      .ok { t with
        prevByte := t.obufByte (t.opos.toNat - 1), prevMatch := true
        tokKind := true, tokLit := 0, tokDist := BitVec.ofNat 32 d, tokLen := BitVec.ofNat 9 l }

/-- `DEC_TOKEN` after its pre-check (R440). -/
def decTokenBody (s : State) : Run State := (decodeTokenFields s).bind fun r => replay r.1 r.2

/-- The loop of `DEC_STREAM` (R441). Each iteration advances `OPOS`, so `OLIM - OPOS` iterations are enough (R571). -/
def decLoop : Nat → State → Run State
  | 0, s => .ok s
  | fuel + 1, s => if s.opos < s.olim then (decTokenBody s).bind (decLoop fuel) else .ok s

/-- The pseudocode of `DEC_STREAM` (R441). -/
def decStreamBody (s : State) : Run State := (decLoop (s.olim.toNat - s.opos.toNat) s).bind decFinishBody

/-- The "Writes" of `DEC_TOKEN` and `DEC_STREAM` (R440, R441), unspecified (R502). -/
def looseDecode (s : State) : State :=
  drawn (looseTokLit (looseTokMatch (looseCtxstate (looseWinbuf (looseIpos (looseDecoder (looseProb (looseOpos
    (looseObuf s)))))))))

/-- `DEC_TOKEN` (R440). -/
def execDecToken (s : State) : Result := .next (
  inMode .dec (encode .decToken) s
    (if s.olim ≤ s.opos then preFault .outLimit (encode .decToken) s
    else finish (encode .decToken) s (looseDecode s) (decTokenBody s)))

/-- `DEC_STREAM` (R441). With no token to decode its faults are those of `DEC_FINISH`, found before any state changes;
after a token every fault is found after the command has begun to change state (R502). -/
def execDecStream (s : State) : Result := .next (
  inMode .dec (encode .decStream) s
    (finish (encode .decStream) s (if s.olim ≤ s.opos then s else looseDecode s) (decStreamBody s)))

end Sys2Proof.Machine
end

