-- ==== Sys2Proof/Machine/System.lean ====
section
/-! DEFINITION. The system commands (spec/46_system.md). -/

namespace Sys2Proof.Machine

/-- `NOP` (R460): writes nothing. -/
def execNop (s : State) : Result := .next s

/-- `RESET` (R462): every register to its reset value, the recorded fault and the overrun latch cleared, the arrays and the byte
memories unchanged. -/
def execReset (s : State) : Result := .next s.resetRegisters

end Sys2Proof.Machine
end

