-- ==== Sys2Proof/Machine/Dispatch.lean ====
section
/-! DEFINITION. The meaning of every command (spec/30_encoding.md R154): one arm per constructor of `Instr`. -/

namespace Sys2Proof.Machine

def exec (i : Instr) (s : State) : Host.Outcome State Fault Refusal :=
  match i with
  | .nop => Sys2Proof.Machine.execNop s
  | .reset => Sys2Proof.Machine.execReset s
  | .pmReset => Sys2Proof.Machine.execPmReset s
  | .pmPredict c => Sys2Proof.Machine.execPmPredict c s
  | .pmUpdate c b => Sys2Proof.Machine.execPmUpdate c b s
  | .encInit lvl => Sys2Proof.Machine.execEncInit lvl s
  | .encBit c b => Sys2Proof.Machine.execEncBit c b s
  | .encDirect n => Sys2Proof.Machine.execEncDirect n s
  | .encTree c n => Sys2Proof.Machine.execEncTree c n s
  | .encRtree c n => Sys2Proof.Machine.execEncRtree c n s
  | .encFlush => Sys2Proof.Machine.execEncFlush s
  | .mfFind => Sys2Proof.Machine.execMfFind s
  | .decInit lvl => Sys2Proof.Machine.execDecInit lvl s
  | .decBit c => Sys2Proof.Machine.execDecBit c s
  | .decDirect n => Sys2Proof.Machine.execDecDirect n s
  | .decTree c n => Sys2Proof.Machine.execDecTree c n s
  | .decRtree c n => Sys2Proof.Machine.execDecRtree c n s
  | .decFinish => Sys2Proof.Machine.execDecFinish s
  | .encLit => Sys2Proof.Machine.execEncLit s
  | .encMatch => Sys2Proof.Machine.execEncMatch s
  | .encStream => Sys2Proof.Machine.execEncStream s
  | .decToken => Sys2Proof.Machine.execDecToken s
  | .decStream => Sys2Proof.Machine.execDecStream s

end Sys2Proof.Machine
end

