-- ==== Sys2Proof/Machine/Flags.lean ====
section
/-! DEFINITION. The core has no condition codes (spec/10_state.md R63). Its status state is read through `STATUS` (R35), `CTXSTATE`
(R40) and `CAPS` (R56), put together here from the fields of `State`. -/

namespace Sys2Proof.Machine

/-- The value of `STATUS.MODE` (R36). -/
def Mode.code : Mode → Nat
  | .idle => 0
  | .enc => 1
  | .dec => 2

/-- The value of `STATUS.ERRCODE` (R500). -/
def Errcode.code : Errcode → Nat
  | .none => 0x00
  | .illegalCmd => 0x01
  | .badArg => 0x02
  | .mode => 0x03
  | .levelRange => 0x04
  | .alloc => 0x05
  | .busyOverrun => 0x06
  | .inputEnd => 0x07
  | .badMatch => 0x08
  | .outLimit => 0x09
  | .truncated => 0x0A
  | .badStreamStart => 0x0B
  | .lenRange => 0x0C
  | .distRange => 0x0D
  | .corruptEnd => 0x0E
  | .trailing => 0x0F

/-- `STATUS.BUSY` (R65). -/
def State.busy (s : State) : Bool := s.pending.isSome

/-- `STATUS` (R35): BUSY [0], ERR [1], MODE [3:2], ERRCODE [15:8], LEVEL [19:16], other bits 0. -/
def State.status (s : State) : Word :=
  BitVec.ofNat 32 (bit s.busy + bit s.err * 2 + s.mode.code * 4 + s.errcode.code * 256 + s.level.toNat * 65536)

/-- `CTXSTATE` (R40): PREV_BYTE [7:0], PREV_MATCH [8], other bits 0. -/
def State.ctxstate (s : State) : Word := BitVec.ofNat 32 (s.prevByte.toNat + bit s.prevMatch * 256)

/-- `CAPS` (R56): WIN_MAX_LOG2 [4:0], PARAM_SET [15:8], other bits 0. -/
def State.caps (s : State) : Word := BitVec.ofNat 32 (s.winMaxLog2 + Config.paramSet * 256)

end Sys2Proof.Machine
end

