-- ==== Sys2Proof/Machine/Engine.lean ====
section
/-! DEFINITION. The command engine and the host's interface: issuing a command (spec/10_state.md R34), running it (R65, R155), the
busy interval and the overrun (spec/60_exceptions.md R505, R507), host accesses to registers and to the byte memories
(spec/20_memory.md R110-R121), hardware reset. -/

namespace Sys2Proof.Machine

/-! ### Running a command -/

/-- Decode the issued word and run it (R155): a word that does not decode raises `ILLEGAL_CMD`, a pre-check, before any
other check and has no other effect (R156). -/
def runCommand (w : Word) (s : State) : Result :=
  match decodeWord w with
  | .error _ => .next (preFault .illegalCmd w s)
  | .ok i => exec i s

/-- What follows the last effect of the command that started in `start` and left t: `BUSY` returns to 0 (R65), later host
writes to `IBUF` race no more (R121), and an overrun is settled (R507): discarded if the command raised a fault,
otherwise recorded with the kept value and the start positions. -/
def complete (start t : State) : State :=
  let u := { t with pending := none, raced := [], draws := t.draws + 1, overrun := none }
  match t.err, t.overrun with
  | false, some v => recordFault .busyOverrun v start u
  | _, _ => u

/-- The core's turn (R572): it completes the command it is executing. An idle core keeps all its state (R525). -/
def coreTurn (s : State) : Result :=
  match s.pending with
  | none => .next s
  | some w =>
    match runCommand w s with
    | .next t => .next (complete s t)
    | .fault f => .fault f
    | .refused r => .refused r

/-! ### Host register accesses -/

/-- The exact word `RESET`, the only one executed while `STATUS.ERR` = 1 (R505). -/
def resetWord : Word := 0x01000000#32

/-- A write to `CMD` with `BUSY` = 0 (R34): the command starts, unless a fault is recorded and it is not `RESET`. -/
def issue (w : Word) (s : State) : State :=
  if s.err = false ∨ w = resetWord then { s with pending := some w } else s

/-- Bits [31:0] of a 64-bit register replaced (R32). -/
def setLo (p : Pos) (v : Word) : Pos := p.extractLsb' 32 32 ++ v

/-- Bits [63:32] of a 64-bit register replaced (R32). -/
def setHi (p : Pos) (v : Word) : Pos := v ++ p.extractLsb' 0 32

/-- Bits [31:0] of a 64-bit register (R32). -/
def lo32 (p : Pos) : Word := p.extractLsb' 0 32

/-- Bits [63:32] of a 64-bit register (R32). -/
def hi32 (p : Pos) : Word := p.extractLsb' 32 32

/-- A register write with `BUSY` = 0 (R33, R113): `CMD` issues, an RW register stores, every other offset ignores it. -/
def storeRegister (off : Nat) (v : Word) (s : State) : State :=
  match off with
  | 0x00 => issue v s
  | 0x0C => { s with arg := v }
  | 0x18 => { s with tokKind := v.getLsbD 0 }
  | 0x1C => { s with tokLit := v.setWidth 8 }
  | 0x20 => { s with tokDist := v }
  | 0x24 => { s with tokLen := v.setWidth 9 }
  | 0x58 => { s with ilen := setLo s.ilen v }
  | 0x5C => { s with ilen := setHi s.ilen v }
  | 0x60 => { s with olim := setLo s.olim v }
  | 0x64 => { s with olim := setHi s.olim v }
  | _ => s

/-- A register write with `BUSY` = 1 (R507): no effect on the register; at offsets 0x00-0x78 the overrun latch is set and the
first such value kept. -/
def overrunWrite (off : Nat) (v : Word) (s : State) : State :=
  if off ≤ 0x78 then { s with overrun := some (s.overrun.getD v) } else s

/-- What a register holds for a read (R33): write-only `CMD` and reserved offsets read 0. -/
def registerValue (off : Nat) (s : State) : Word :=
  match off with
  | 0x04 => s.status
  | 0x08 => s.errCmd
  | 0x0C => s.arg
  | 0x10 => s.result
  | 0x14 => s.ctxstate
  | 0x18 => BitVec.ofNat 32 (bit s.tokKind)
  | 0x1C => s.tokLit.setWidth 32
  | 0x20 => s.tokDist
  | 0x24 => s.tokLen.setWidth 32
  | 0x28 => s.encLow.extractLsb' 0 32
  | 0x2C => (s.encLow.extractLsb' 32 1).setWidth 32
  | 0x30 => s.encRange
  | 0x34 => s.encCache.setWidth 32
  | 0x38 => lo32 s.encCsize
  | 0x3C => hi32 s.encCsize
  | 0x40 => s.decCode
  | 0x44 => s.decRange
  | 0x48 => lo32 s.ipos
  | 0x4C => hi32 s.ipos
  | 0x50 => lo32 s.opos
  | 0x54 => hi32 s.opos
  | 0x58 => lo32 s.ilen
  | 0x5C => hi32 s.ilen
  | 0x60 => lo32 s.olim
  | 0x64 => hi32 s.olim
  | 0x68 => lo32 s.errIpos
  | 0x6C => hi32 s.errIpos
  | 0x70 => lo32 s.errOpos
  | 0x74 => hi32 s.errOpos
  | 0x78 => s.caps
  | _ => 0

/-- A host read returns v (the model's own record of it); a read has no side effect (R113). -/
def answer (v : Word) (s : State) : State := { s with bus := v }

/-- A host read that returns an unspecified value, drawn for this read alone (R120 (e), U4). -/
def answerFree (s : State) : State := { s with bus := Config.freeRead s.draws, draws := s.draws + 1 }

/-- Which register accesses are defined (R110, R112): 32 bits wide and aligned, inside the 0x100-byte block. -/
def access (width off : Nat) (body : State) : Result :=
  if 0x100 ≤ off then .fault .outsideRegisterSpace
  else if width = 4 ∧ off % 4 = 0 then .next body
  else .refused .undefinedAccess

/-- A host write of a register (R33, R34, R111, R507). -/
def hostWrite (width off : Nat) (v : Word) (s : State) : Result :=
  access width off (if s.busy then overrunWrite off v s else storeRegister off v s)

/-- A host read of a register (R33, R111, R113, R120, R573): while busy only `STATUS` and the reserved offsets are specified. -/
def hostRead (width off : Nat) (s : State) : Result :=
  access width off
    (if s.busy ∧ off ≠ 0x04 ∧ off ≤ 0x78 then answerFree s else answer (registerValue off s) s)

/-! ### Host accesses to the byte memories -/

/-- A host write of `IBUF` (R101, R121): while busy, the byte it replaces may still be seen by the running command. -/
def hostFill (i : Pos) (b : Byte) (s : State) : State :=
  { s with ibuf := Cells.insert s.ibuf i.toNat b
           raced := if s.busy then (i.toNat, s.ibufByte i.toNat) :: s.raced else s.raced }

/-- A host read of `OBUF` (R102, R120): while busy, a byte at or past the `OPOS` the command started with is unspecified. -/
def hostFetch (i : Pos) (s : State) : State :=
  if s.busy ∧ s.opos ≤ i then answerFree s else answer ((s.obufByte i.toNat).setWidth 32) s

/-! ### Hardware reset -/

/-- The most bytes that k calls of `ShiftLow` write (R301): each adds 1 to `OPOS + ENC_CSIZE`, and one byte stays pending. -/
def shiftedBytes (k : Nat) (s : State) : Nat := s.encCsize.toNat + k - 1

/-- The most bits `ENC_STREAM` codes for n input bytes (R432, R571): 9 for a literal, which covers one byte, 45 for a match, which covers
at least three when `MF_FIND` reported it (R207). -/
def streamBits (n : Nat) : Nat := 45 * (n / 3) + 9 * (n % 3)

/-- The most bytes of `OBUF` the command writes from s, by its bound on coded bits, output bytes or `OLIM` (R571): none where
the mode or a pre-check stops it, and none by a command that does not list `OBUF` under "Writes". -/
def mostWritten (i : Instr) (s : State) : Nat :=
  match i with
  | .nop => 0
  | .reset => 0
  | .pmReset => 0
  | .pmPredict _ => 0
  | .pmUpdate _ _ => 0
  | .encInit _ => 0
  | .encBit _ _ => if s.mode = .enc then shiftedBytes 1 s else 0
  | .encDirect n => if s.mode = .enc ∧ encDirectOk n s.arg = true then shiftedBytes n.toNat s else 0
  | .encTree c n => if s.mode = .enc ∧ encTreeOk c n s.arg = true then shiftedBytes n.toNat s else 0
  | .encRtree c n => if s.mode = .enc ∧ encTreeOk c n s.arg = true then shiftedBytes n.toNat s else 0
  | .encFlush => if s.mode = .enc then shiftedBytes 5 s else 0
  | .mfFind => 0
  | .decInit _ => 0
  | .decBit _ => 0
  | .decDirect _ => 0
  | .decTree _ _ => 0
  | .decRtree _ _ => 0
  | .decFinish => 0
  | .encLit => if s.mode = .enc ∧ s.ipos < s.ilen then shiftedBytes 9 s else 0
  | .encMatch => if s.mode = .enc ∧ matchOk s = true then shiftedBytes 45 s else 0
  | .encStream => if s.mode = .enc then shiftedBytes (streamBits (s.ilen.toNat - s.ipos.toNat) + 5) s else 0
  | .decToken => if s.mode = .dec then Config.maxMatch else 0
  | .decStream => if s.mode = .dec then s.olim.toNat else 0

/-- The end of the `OBUF` bytes that the command being executed could write (R551): they start at `OPOS` and lie below `OLIM` (R102).
A word that does not decode writes nothing (R156). -/
def couldWriteTo (s : State) : Nat :=
  match s.pending with
  | none => 0
  | some w =>
    match decodeWord w with
    | .error _ => 0
    | .ok i => min s.olim.toNat (s.opos.toNat + mostWritten i s)

/-- The registers and the latch cleared, and the arrays unspecified (R550, R551). -/
def clearedCore (s : State) : State :=
  { s.resetRegisters with
    prob := ⟨some s.draws, []⟩, head := ⟨some s.draws, []⟩, chain := ⟨some s.draws, []⟩, winbuf := ⟨some s.draws, []⟩
    raced := [], draws := s.draws + 1 }

/-- Hardware reset (R550, R551). One that interrupts a command leaves unspecified the `OBUF` bytes that command could write. -/
def hardwareReset (s : State) : State := clearedCore (looseObufTo (couldWriteTo s) s)

/-! ### One move -/

/-- The move m, already taken off `moves`. -/
def takeMove (m : Move) (s : State) : Result :=
  match m with
  | .core => coreTurn s
  | .regWrite width off v => hostWrite width off v s
  | .regRead width off => hostRead width off s
  | .ibufWrite i b => .next (hostFill i b s)
  | .obufRead i => .next (hostFetch i s)
  | .hwReset => .next (hardwareReset s)

/-- The next move of `moves`; with none left the host is silent and the core takes its turn. -/
def nextMove (s : State) : Result :=
  match s.moves with
  | [] => coreTurn s
  | m :: rest => takeMove m { s with moves := rest }

/-- The host has just written w to `CMD` and the core's turn comes next (R34, R65). -/
def issued (w : Word) (s : State) : State := { s with pending := some w, moves := .core :: s.moves }

end Sys2Proof.Machine
end

