-- ==== Sys2Proof/Machine/Step.lean ====
section
/-! DEFINITION. One step of the machine: one move of one agent (spec/10_state.md R30; spec/70_reset_and_hazards.md R572: "A model
takes each command as one step of the core agent"). -/

namespace Sys2Proof.Machine

/-- One step: the next move of `moves`. -/
def step (s : State) : Host.Outcome State Fault Refusal := nextMove s

/-- The host's probe: s with the command word w just written to `CMD`, so that the next step runs it. The core fetches nothing
(R31): a command is the word the host writes to `CMD` (log entry 2). -/
def State.withFetchWord (s : State) (nbits w : Nat) : State := issued (BitVec.ofNat 32 (w % 2 ^ nbits)) s

end Sys2Proof.Machine
end

