-- ==== Sys2Proof/Machine/Program.lean ====
section
/-! DEFINITION. The host's side: a program as a sequence of host actions (spec/30_encoding.md R159, R160) and the error a host
reports for a recorded fault (spec/60_exceptions.md R510). The core sees neither: a program is turned into moves. -/

namespace Sys2Proof.Machine

/-- One line of a program (R159, R160), after parsing: a register is named by its offset in R33. -/
inductive Line where
  /-- a command and its implied `WAIT` -/
  | command (i : Instr)
  /-- a command line that ends in `!`: no `WAIT` -/
  | commandNoWait (i : Instr)
  /-- `WR reg, value` -/
  | wr (off : Nat) (v : Word)
  /-- `WR` of a 64-bit register name, at the offset of its `_LO` -/
  | wr64 (off : Nat) (v : Pos)
  /-- `RD reg` -/
  | rd (off : Nat)
  /-- `WAIT` -/
  | wait
  /-- `FILL IBUF, b0 b1 ...` -/
  | fill (bs : List Byte)
  /-- `ENCD n, v` -/
  | encd (n : BitVec 6) (v : Word)
  /-- `ENCT ctx, n, v` -/
  | enct (ctx : Ctx) (n : BitVec 6) (v : Word)
  /-- `ENCRT ctx, n, v` -/
  | encrt (ctx : Ctx) (n : BitVec 6) (v : Word)
  /-- `ENCM d, l` -/
  | encm (d l : Word)
  /-- `RAW w` -/
  | raw (w : Word)
  /-- `COMPRESS level` -/
  | compress (lvl : BitVec 6)
  /-- `DECOMPRESS level` -/
  | decompress (lvl : BitVec 6)
  deriving DecidableEq, Repr

/-- A 32-bit register write. -/
def write32 (off : Nat) (v : Word) : Move := .regWrite 4 off v

/-- `WAIT`: the core completes its command, and the host reads `STATUS` with `BUSY` = 0 (R573). -/
def waitMoves : List Move := [.core, .regRead 4 0x04]

/-- A word written to `CMD`, and the implied `WAIT`. -/
def issueMoves (w : Word) : List Move := write32 0x00 w :: waitMoves

/-- `FILL IBUF` from index i (R159). -/
def fillMoves : Nat → List Byte → List Move
  | _, [] => []
  | i, b :: bs => .ibufWrite (BitVec.ofNat 64 i) b :: fillMoves (i + 1) bs

/-- The moves of one line (R159), with the expansions of R160. -/
def Line.moves : Line → List Move
  | .command i => issueMoves (encode i)
  | .commandNoWait i => [write32 0x00 (encode i)]
  | .wr off v => [write32 off v]
  | .wr64 off v => [write32 off (lo32 v), write32 (off + 4) (hi32 v)]
  | .rd off => [.regRead 4 off]
  | .wait => waitMoves
  | .fill bs => fillMoves 0 bs
  | .encd n v => write32 0x0C v :: issueMoves (encode (.encDirect n))
  | .enct ctx n v => write32 0x0C v :: issueMoves (encode (.encTree ctx n))
  | .encrt ctx n v => write32 0x0C v :: issueMoves (encode (.encRtree ctx n))
  | .encm d l => write32 0x20 d :: write32 0x24 l :: issueMoves (encode .encMatch)
  | .raw w => issueMoves w
  | .compress lvl => issueMoves (encode (.encInit lvl)) ++ issueMoves (encode .encStream)
  | .decompress lvl => issueMoves (encode (.decInit lvl)) ++ issueMoves (encode .decStream)

/-- A program (R9): the moves of its lines in order. -/
def programMoves (ls : List Line) : List Move := ls.flatMap Line.moves

/-- The source's error kinds a recorded fault is reported as (R500, last column), `hostFault` for "host fault".
`FormatError` is found by the host alone (R510). -/
inductive HostError where
  | levelOutOfRange | allocationFailure | truncationError | integrityError | hostFault
  deriving DecidableEq, Repr

/-- The error the host reports for a fault recorded in mode m (R500, R510). -/
def hostError (m : Mode) : Errcode → Option HostError
  | .none => none
  | .illegalCmd => some .hostFault
  | .badArg => some .hostFault
  | .mode => some .hostFault
  | .levelRange => some .levelOutOfRange
  | .alloc => some .allocationFailure
  | .busyOverrun => some .hostFault
  | .inputEnd => some .hostFault
  | .badMatch => some .hostFault
  | .outLimit => if m = .dec then some .truncationError else some .allocationFailure
  | .truncated => some .truncationError
  | .badStreamStart => some .integrityError
  | .lenRange => some .integrityError
  | .distRange => some .integrityError
  | .corruptEnd => some .integrityError
  | .trailing => some .integrityError

end Sys2Proof.Machine
end

