-- ==== Sys2Proof/Safety.lean ====
section
/-! DEFINITION. What the claims about the machine speak of: the canonical form of the memories, the invariants of spec/10_state.md R66,
the match finder's history (spec/41_match_finder.md R208, R209) and the output window (spec/45_stream_codec.md R412). -/

namespace Sys2Proof.Machine

/-- Every sparse memory is in its one canonical form, within its size (R59-R62, R100). -/
def State.Canonical (s : State) : Prop :=
  Cells.wf 4096 s.prob.cells = true ∧
  (s.prob.fill = none → ∀ c ∈ s.prob.cells, c.2 ≠ Config.probInit) ∧
  Cells.wf (2 ^ 24) s.head.cells = true ∧
  Cells.wf (2 ^ 28) s.chain.cells = true ∧
  Cells.wf (2 ^ 28) s.winbuf.cells = true ∧
  Memory.wf s.ibuf = true ∧
  Memory.wf s.obuf = true

/-- `STATUS` is consistent: `ERRCODE` is 0 exactly when `ERR` = 0 (R35), a running command with `ERR` = 1 is `RESET` (R505), and
while `ERR` = 0 `LEVEL` is a level this instance has a window for (R35, R200). -/
def State.StatusOk (s : State) : Prop :=
  (s.err = false ↔ s.errcode = .none) ∧
  (∀ w, s.pending = some w → s.err = true → w = resetWord) ∧
  (s.err = false → s.level.toNat ≤ 9 ∧ Config.winLog2 s.level.toNat ≤ s.winMaxLog2)

/-- R66 (a): with a stream open every estimator is in [31, 2017]. -/
def State.ProbOk (s : State) : Prop :=
  s.mode ≠ .idle → s.prob.fill = none ∧ ∀ c : Ctx, 31 ≤ (s.probAt c).toNat ∧ (s.probAt c).toNat ≤ 2017

/-- R66 (b): the encoder's interval in ENC mode (without the bound on `ENC_CSIZE`). -/
def State.EncOk (s : State) : Prop :=
  s.mode = .enc → 2 ^ 24 ≤ s.encRange.toNat ∧ s.encLow.toNat + s.encRange.toNat ≤ 2 ^ 33

/-- R66 (c): the decoder's range in DEC mode. -/
def State.DecOk (s : State) : Prop := s.mode = .dec → 2 ^ 24 ≤ s.decRange.toNat

/-- The machine invariant: canonical memories, a consistent `STATUS`, and R66 (a)-(c) while `STATUS.ERR` = 0. -/
def State.Inv (s : State) : Prop :=
  s.Canonical ∧ s.StatusOk ∧ (s.err = false → s.ProbOk ∧ s.EncOk ∧ s.DecOk)

/-- In a decode stream the window holds the last min(`OPOS`, `WIN`) bytes of the output (R62, R411, R412). -/
def State.WindowOk (s : State) : Prop :=
  s.err = false → s.mode = .dec →
    ∀ i, i < s.opos.toNat → s.opos.toNat ≤ i + s.win → s.winbufAt (i % s.win) = s.obufByte i

/-- `Hash3(p)` of the bytes `IBUF` holds (R202). -/
def State.hashAt (s : State) (p : Nat) : Nat := hash3 (s.ibufByte p) (s.ibufByte (p + 1)) (s.ibufByte (p + 2))

/-- The latest position before n with hash h that `Insert` records (R203). -/
def State.latest (s : State) (h n : Nat) : Option Nat :=
  (List.range n).reverse.find? fun p => decide (p + 3 ≤ s.ilen.toNat) && decide (s.hashAt p = h)

/-- The insertion discipline of R208 and R209: every position before `IPOS` with three bytes left has been inserted once, in
increasing order. `HEAD` holds the latest of each hash, and inside the window `CHAIN` links each to the one before. -/
def State.History (s : State) : Prop :=
  (∀ h, (s.headAt h).map BitVec.toNat = s.latest h s.ipos.toNat) ∧
  (∀ p, p < s.ipos.toNat → p + 3 ≤ s.ilen.toNat → s.ipos.toNat ≤ p + s.win →
    (s.chainAt (p % s.win)).map BitVec.toNat = s.latest (s.hashAt p) p)

/-- The candidates of R208, newest first: earlier positions inside the window that agree on three bytes. -/
def State.candidates (s : State) (pos : Nat) : List Nat :=
  (List.range pos).reverse.filter fun q => decide (pos ≤ q + s.win) && decide (s.hashAt q = s.hashAt pos)

/-- The number of equal bytes from q and from pos, at most `maxlen` (R206). -/
def State.common (s : State) (q pos maxlen : Nat) : Nat :=
  ((List.range maxlen).takeWhile fun l => decide (s.ibufByte (q + l) = s.ibufByte (pos + l))).length

end Sys2Proof.Machine
end

