-- ==== Sys2Proof/Certificates/Slice0/Obligations.lean ====
section
/-! DEFINITION. The statements for the provers. `Sys2Proof.Claims` holds their vocabulary: the rules' arithmetic on natural
numbers, written apart from the model's own procedures, and relations that run a composite command as the primitive
commands it stands for. -/

namespace Sys2Proof.Claims

open Sys2Proof.Machine

/-! ### Vocabulary: encoding and faults -/

/-- Columns `OPC` and format mask of R152 and R154. -/
def opcodeTable : List (BitVec 8 × Word) :=
  [(0x00, 0xFFFFFFFF), (0x01, 0xFFFFFFFF), (0x08, 0xFFFFFFFF), (0x09, 0xFF000FFF), (0x0A, 0xFF000EFF),
   (0x10, 0xFFFFFFC0), (0x11, 0xFF000EFF), (0x12, 0xFFFFFFC0), (0x13, 0xFF000FC0), (0x14, 0xFF000FC0),
   (0x15, 0xFFFFFFFF), (0x18, 0xFFFFFFFF)] ++
  [(0x20, 0xFFFFFFC0), (0x21, 0xFF000FFF), (0x22, 0xFFFFFFC0), (0x23, 0xFF000FC0), (0x24, 0xFF000FC0),
   (0x25, 0xFFFFFFFF), (0x30, 0xFFFFFFFF), (0x31, 0xFFFFFFFF), (0x32, 0xFFFFFFFF), (0x38, 0xFFFFFFFF), (0x39, 0xFFFFFFFF)]

/-- Column "mode" of R154: the mode a command requires, `none` for "any". -/
def requiredMode : Instr → Option Mode
  | .nop => none
  | .reset => none
  | .pmReset => none
  | .pmPredict _ => none
  | .pmUpdate _ _ => none
  | .encInit _ => none
  | .encBit _ _ => some .enc
  | .encDirect _ => some .enc
  | .encTree _ _ => some .enc
  | .encRtree _ _ => some .enc
  | .encFlush => some .enc
  | .mfFind => some .enc
  | .decInit _ => none
  | .decBit _ => some .dec
  | .decDirect _ => some .dec
  | .decTree _ _ => some .dec
  | .decRtree _ _ => some .dec
  | .decFinish => some .dec
  | .encLit => some .enc
  | .encMatch => some .enc
  | .encStream => some .enc
  | .decToken => some .dec
  | .decStream => some .dec

/-- State s with fault k of the command with word w recorded over it, positions as in s (R503), nothing else changed. -/
def faulted (k : Errcode) (w : Word) (s : State) : State :=
  { s with err := true, errcode := k, errCmd := w, errIpos := s.ipos, errOpos := s.opos, pending := none }

/-- The codes of R500. -/
def faultCodes : List (Errcode × BitVec 8) :=
  [(.none, 0x00), (.illegalCmd, 0x01), (.badArg, 0x02), (.mode, 0x03), (.levelRange, 0x04), (.alloc, 0x05), (.busyOverrun, 0x06),
   (.inputEnd, 0x07), (.badMatch, 0x08), (.outLimit, 0x09), (.truncated, 0x0A), (.badStreamStart, 0x0B), (.lenRange, 0x0C),
   (.distRange, 0x0D), (.corruptEnd, 0x0E), (.trailing, 0x0F)]

/-- The RW registers of R33 with the bits they keep. -/
def rwRegisters : List (Nat × Word) :=
  [(0x0C, 0xFFFFFFFF), (0x18, 0x00000001), (0x1C, 0x000000FF), (0x20, 0xFFFFFFFF), (0x24, 0x000001FF),
   (0x58, 0xFFFFFFFF), (0x5C, 0xFFFFFFFF), (0x60, 0xFFFFFFFF), (0x64, 0xFFFFFFFF)]

/-- A write of v to the RW register r stored the bits it keeps in t, and nothing else happened: of all of State only the seven
fields behind the RW registers can differ, and every other register reads as before (R33, R113). -/
def Stores (r : Nat × Word) (v : Word) (s t : State) : Prop :=
  registerValue r.1 t = v &&& r.2 ∧ (∀ off, off ≠ r.1 → registerValue off t = registerValue off s) ∧
  t = { s with
    arg := t.arg, tokKind := t.tokKind, tokLit := t.tokLit, tokDist := t.tokDist, tokLen := t.tokLen, ilen := t.ilen
    olim := t.olim }

/-- The most bytes of `OBUF` a command writes, `OLIM` aside: k coded bits or calls of `ShiftLow` write at most the pending bytes and
k - 1 more (R301, R571). `ENC_STREAM` codes 9 bits for a byte as a literal and 45 for three bytes or more as a match, then flushes. -/
def mostBytes (s : State) : Instr → Nat
  | .nop => 0
  | .reset => 0
  | .pmReset => 0
  | .pmPredict _ => 0
  | .pmUpdate _ _ => 0
  | .encInit _ => 0
  | .encBit _ _ => s.encCsize.toNat
  | .encDirect n => s.encCsize.toNat + n.toNat - 1
  | .encTree _ n => s.encCsize.toNat + n.toNat - 1
  | .encRtree _ n => s.encCsize.toNat + n.toNat - 1
  | .encFlush => s.encCsize.toNat + 4
  | .mfFind => 0
  | .decInit _ => 0
  | .decBit _ => 0
  | .decDirect _ => 0
  | .decTree _ _ => 0
  | .decRtree _ _ => 0
  | .decFinish => 0
  | .encLit => s.encCsize.toNat + 8
  | .encMatch => s.encCsize.toNat + 44
  | .encStream =>
    s.encCsize.toNat + 45 * ((s.ilen.toNat - s.ipos.toNat) / 3) + 9 * ((s.ilen.toNat - s.ipos.toNat) % 3) + 4
  | .decToken => 273
  | .decStream => s.olim.toNat

/-! ### Vocabulary: the coders in natural numbers -/

/-- `(range >> 11) * p` (R300, R352). -/
def split (range : Word) (p : Prob) : Nat := range.toNat / 2048 * p.toNat

/-- What `ShiftLow` with `ENC_LOW` = low does to the output side of s, giving t (R301). -/
def ShiftedOut (low : Nat) (s t : State) : Prop :=
  t.encLow.toNat = low % 2 ^ 24 * 256 ∧
  if low % 2 ^ 32 < 0xFF000000 ∨ 2 ^ 32 ≤ low then
    t.encCsize = 1 ∧ t.encCache.toNat = low / 2 ^ 24 % 256 ∧ t.opos.toNat = s.opos.toNat + s.encCsize.toNat ∧
    (∀ j, j < s.encCsize.toNat →
      (t.obufByte (s.opos.toNat + j)).toNat = ((if j = 0 then s.encCache.toNat else 255) + low / 2 ^ 32) % 256) ∧
    ∀ j, j < s.opos.toNat ∨ t.opos.toNat ≤ j → t.obufByte j = s.obufByte j
  else t.encCsize = s.encCsize + 1 ∧ t.encCache = s.encCache ∧ t.opos = s.opos ∧ t.obuf = s.obuf

/-- The encoder side of t after s's interval became [low, low + range) and was renormalised (R302). -/
def Renormalised (low range : Nat) (s t : State) : Prop :=
  if range < 2 ^ 24 then t.encRange.toNat = range * 256 ∧ ShiftedOut low s t
  else t.encRange.toNat = range ∧ t.encLow.toNat = low ∧ t.encCache = s.encCache ∧ t.encCsize = s.encCsize ∧
    t.opos = s.opos ∧ t.obuf = s.obuf

/-- The decoder side of t after s's code and range became `code` and `range` and were renormalised (R351). -/
def Refilled (code range : Nat) (s t : State) : Prop :=
  if range < 2 ^ 24 then
    t.decRange.toNat = range * 256 ∧ t.decCode.toNat = code * 256 % 2 ^ 32 + (s.ibufByte s.ipos.toNat).toNat ∧
    t.ipos.toNat = s.ipos.toNat + 1
  else t.decRange.toNat = range ∧ t.decCode.toNat = code ∧ t.ipos = s.ipos

/-- The bytes that renormalising the interval [low, low + range) must write, if it must write any, fit below `OLIM`: the range needs no
renormalisation, or the top byte stays pending, or nothing is pending, or the pending bytes fit (R301, R302, R304). -/
def Fits (low range : Nat) (s : State) : Prop :=
  2 ^ 24 ≤ range ∨ (0xFF000000 ≤ low % 2 ^ 32 ∧ low < 2 ^ 32) ∨ s.encCsize = 0 ∨
    s.opos.toNat + s.encCsize.toNat ≤ s.olim.toNat

/-- There is room for k more calls of `ShiftLow`: each adds 1 to `OPOS + ENC_CSIZE` (R301), and one writes at most the pending
bytes there are before it. -/
def Room (k : Nat) (s : State) : Prop := s.opos.toNat + s.encCsize.toNat + k ≤ s.olim.toNat + 1

/-- n bytes from index i of a memory as a base-256 number, first byte most significant (R105). -/
def bytesValue (f : Nat → Byte) (i : Nat) : Nat → Nat
  | 0 => 0
  | n + 1 => bytesValue f i n * 256 + (f (i + n)).toNat

/-- The pending bytes as a number: the cache byte, then csize - 1 bytes 0xFF (R48). -/
def pendingValue (s : State) : Nat := (s.encCache.toNat + 1) * 256 ^ (s.encCsize.toNat - 1) - 1

/-! ### Vocabulary: composite commands as primitive ones -/

/-- The command completes from s in t without recording a fault. -/
def Runs (i : Instr) (s t : State) : Prop := exec i s = .next t ∧ t.err = false

/-- The command, run from s, records the fault k. -/
def Faults (i : Instr) (s : State) (k : Errcode) : Prop := ∃ t, exec i s = .next t ∧ t.err = true ∧ t.errcode = k

/-- One `ENC_BIT` command for each pair of a context and a bit. -/
def EncodesBits : List (Ctx × Bool) → State → State → Prop
  | [], s, t => t = s
  | (c, b) :: rest, s, t => ∃ u, Runs (.encBit c b) s u ∧ EncodesBits rest u t

/-- Of these `ENC_BIT` commands the first few complete and the next one records the fault k. -/
def BitsFault (l : List (Ctx × Bool)) (s : State) (k : Errcode) : Prop :=
  ∃ (j : Nat) (c : Ctx) (b : Bool) (u : State), l[j]? = some (c, b) ∧ EncodesBits (l.take j) s u ∧ Faults (.encBit c b) u k

/-- The bits of an n-bit symbol most significant first, each with its node: after j bits the node is 2^j plus those j bits as
a number (R305). -/
def treeBits (base : Ctx) (n sym : Nat) : List (Ctx × Bool) :=
  (List.range n).map fun j => (base + BitVec.ofNat 12 (2 ^ j + sym / 2 ^ (n - j)), sym.testBit (n - 1 - j))

/-- The bits of a symbol least significant first from node m, bit 0 next, each with its node (R306). -/
def rtreeBits (base : Ctx) (sym : Nat) : Nat → Nat → List (Ctx × Bool)
  | 0, _ => []
  | n + 1, m => (base + BitVec.ofNat 12 m, sym.testBit 0) :: rtreeBits base (sym / 2) n (2 * m + sym % 2)

/-- `DEC_BIT` commands down a tree, n bits from node m to node m', `RESULT` left by the last one (R354). -/
def DecodesTree (base : Ctx) : Nat → Nat → State → Nat → State → Prop
  | 0, m, s, m', t => m' = m ∧ t = s
  | n + 1, m, s, m', t =>
    ∃ u, Runs (.decBit (base + BitVec.ofNat 12 m)) s u ∧ DecodesTree base n (2 * m + u.result.toNat) u m' t

/-- `DEC_BIT` commands down a tree of n-bit symbols complete as far as node m and state u, above the last level, and the one of
node m records the fault k. -/
def TreeFaults (base : Ctx) (n : Nat) (s : State) (m : Nat) (u : State) (k : Errcode) : Prop :=
  ∃ j, j < n ∧ DecodesTree base j 1 s m u ∧ Faults (.decBit (base + BitVec.ofNat 12 m)) u k

/-- The node m' of a tree of n-bit symbols is on the path to node m or below it. -/
def OnPath (n m m' : Nat) : Prop := 1 ≤ m' ∧ m' < 2 ^ n ∧ ∃ j, m' = m / 2 ^ j ∨ m = m' / 2 ^ j

/-- The same down a reverse tree: the first bit decoded is bit 0 of the symbol (R354). -/
def DecodesRtree (base : Ctx) : Nat → Nat → State → Nat → State → Prop
  | 0, _, s, sym, t => sym = 0 ∧ t = s
  | n + 1, m, s, sym, t =>
    ∃ u rest, Runs (.decBit (base + BitVec.ofNat 12 m)) s u ∧ sym = u.result.toNat + 2 * rest ∧
      DecodesRtree base n (2 * m + u.result.toNat) u rest t

/-- The slot of v ≥ 4 has the two top bits of v, its extra bits are the rest (R402). -/
def slot (v : Nat) : Nat := if v < 4 then v else 2 * v.log2 + v / 2 ^ (v.log2 - 1) % 2

/-- A value v coded by its slot through the tree at `base` and its extra bits direct, as primitive commands; `ARG` is
the host's (R402, R405). -/
def EncodesValue (base : Ctx) (nbits v : Nat) (s t : State) : Prop :=
  ∃ u, EncodesBits (treeBits base nbits (slot v)) s u ∧
    if v < 4 then t = u
    else ∃ w, Runs (.encDirect (BitVec.ofNat 6 (v.log2 - 1))) { u with arg := BitVec.ofNat 32 (v % 2 ^ (v.log2 - 1)) } w ∧
      t = { w with arg := s.arg }

/-- Coding the value v so records the fault k. -/
def EncodingFaults (base : Ctx) (nbits v : Nat) (s : State) (k : Errcode) : Prop :=
  BitsFault (treeBits base nbits (slot v)) s k ∨
  ∃ u, EncodesBits (treeBits base nbits (slot v)) s u ∧ 4 ≤ v ∧
    Faults (.encDirect (BitVec.ofNat 6 (v.log2 - 1))) { u with arg := BitVec.ofNat 32 (v % 2 ^ (v.log2 - 1)) } k

/-- A value v decoded by its slot through the tree at `base` and its extra bits direct, as primitive commands (R402, R405). -/
def DecodesValue (base : Ctx) (nbits : Nat) (s : State) (v : Nat) (t : State) : Prop :=
  ∃ m u, DecodesTree base nbits 1 s m u ∧
    if m - 2 ^ nbits < 4 then v = m - 2 ^ nbits ∧ t = u
    else Runs (.decDirect (BitVec.ofNat 6 ((m - 2 ^ nbits) / 2 - 1))) u t ∧
      v = (2 + (m - 2 ^ nbits) % 2) * 2 ^ ((m - 2 ^ nbits) / 2 - 1) + t.result.toNat

/-- Decoding a value so records the fault k. -/
def DecodingFaults (base : Ctx) (nbits : Nat) (s : State) (k : Errcode) : Prop :=
  (∃ m u, TreeFaults base nbits s m u k) ∨
  ∃ m u, DecodesTree base nbits 1 s m u ∧ 4 ≤ m - 2 ^ nbits ∧
    Faults (.decDirect (BitVec.ofNat 6 ((m - 2 ^ nbits) / 2 - 1))) u k

/-- The context of the token flag: 0x920 after a literal, 0x921 after a match (R400). -/
def flag (s : State) : Ctx := if s.prevMatch then 0x921 else 0x920

/-- The literal tree: the top three bits of `PREV_BYTE` (R401). -/
def litTree (s : State) : Ctx := BitVec.ofNat 12 (s.prevByte.toNat / 32 * 256)

/-- The distance-slot tree of length l: 0x800, 0x840, 0x880, 0x8C0 for l = 2, 3, 4 and above (R403, R404). -/
def distTree (l : Nat) : Ctx := BitVec.ofNat 12 (0x800 + min (l - 2) 3 * 64)

/-- The flag and length of a match token are decoded (R405): l is the length, still to be compared with 273. -/
def DecodesLength (s : State) (l : Nat) (t : State) : Prop :=
  ∃ u v, Runs (.decBit (flag s)) s u ∧ u.result = 1 ∧ DecodesValue 0x900 5 u v t ∧ l = v + 2

/-- A whole match token (d, l) is decoded, as primitive commands (R405). -/
def DecodesMatch (s : State) (d l : Nat) (t : State) : Prop :=
  ∃ u v, DecodesLength s l u ∧ l ≤ 273 ∧ DecodesValue (distTree l) 6 u v t ∧ d = v + 1

/-- Some turns of the greedy loop of `ENC_STREAM` as commands: search, then a match or a literal (R432). -/
inductive GreedySteps : State → State → Prop where
  | refl (s : State) : GreedySteps s s
  | literal (s t u v : State) : s.ipos < s.ilen → Runs .mfFind s t → t.tokKind = false → Runs .encLit t u →
      GreedySteps u v → GreedySteps s v
  | repetition (s t u v : State) : s.ipos < s.ilen → Runs .mfFind s t → t.tokKind = true → Runs .encMatch t u →
      GreedySteps u v → GreedySteps s v

/-- The whole greedy loop: until `IPOS` reaches `ILEN` (R432). -/
def Greedy (s u : State) : Prop := GreedySteps s u ∧ u.ilen ≤ u.ipos

/-- Some turns of the loop of `DEC_STREAM` as commands: `DEC_TOKEN` while `OPOS` is below `OLIM` (R441). -/
inductive TokenSteps : State → State → Prop where
  | refl (s : State) : TokenSteps s s
  | token (s t u : State) : s.opos < s.olim → Runs .decToken s t → TokenSteps t u → TokenSteps s u

/-- The whole loop of `DEC_STREAM`: until `OPOS` reaches `OLIM` (R441). -/
def Tokens (s u : State) : Prop := TokenSteps s u ∧ u.olim ≤ u.opos

end Sys2Proof.Claims

open Sys2Proof Sys2Proof.Machine Sys2Proof.Claims

/-! ### Encoding -/

/-- Every command, with every operand, decodes from its own word (R155, R161). -/
def Obligations.DecodeOfEncode : Prop := ∀ i : Instr, decodeWord (encode i) = .ok i

/-- A word that decodes is the word of the command it decodes to: every decoded word has one meaning and no bit is ignored. -/
def Obligations.EncodeOfDecode : Prop := ∀ (w : Word) (i : Instr), decodeWord w = .ok i → encode i = w

/-- R156: a word with no row in the opcode map, or with a 1 in a bit its format fixes at 0, raises `ILLEGAL_CMD` and has no
other effect, in every mode. -/
def Obligations.ReservedWordRaisesIllegalCmd : Prop :=
  opcodeTable.length = 23 ∧
  ∀ (w : Word) (s : State), s.err = false →
    (∀ r ∈ opcodeTable, ¬ (w.extractLsb' 24 8 = r.1 ∧ w &&& r.2 = r.1.setWidth 32 <<< 24)) →
    runCommand w s = .next (faulted .illegalCmd w s)

/-- The words of vectors E1-E15 (spec/95_test_vectors.md V-ENC). -/
def Obligations.VectorWordsDecode : Prop :=
  decodeWord 0x00000000 = .ok .nop ∧
  decodeWord 0x00000001 = .error .fixedBitSet ∧
  decodeWord 0x02000000 = .error .unknownOpcode ∧
  decodeWord 0x11922100 = .ok (.encBit 0x922 true) ∧
  decodeWord 0x11922001 = .error .fixedBitSet ∧
  decodeWord 0x11922200 = .error .fixedBitSet ∧
  decodeWord 0x10000009 = .ok (.encInit 9) ∧
  decodeWord 0x1000000A = .ok (.encInit 10) ∧
  decodeWord 0x10000040 = .error .fixedBitSet ∧
  decodeWord 0x23900005 = .ok (.decTree 0x900 5) ∧
  decodeWord 0x0A000000 = .ok (.pmUpdate 0x000 false) ∧
  decodeWord 0x13FFF03F = .ok (.encTree 0xFFF 63) ∧
  decodeWord 0x09ABC000 = .ok (.pmPredict 0xABC) ∧
  decodeWord 0x39000000 = .ok .decStream ∧
  decodeWord 0xFF000000 = .error .unknownOpcode

/-! ### Steps, issuing and overruns -/

/-- A step at which the core has its turn runs the command the pending word decodes to, on the state with the move taken off;
then `BUSY` is 0 and no write races any more (R34, R65, R155). A pending word that does not decode records `ILLEGAL_CMD` and has no other
effect, also when a write overran it: the latch is then clear and no overrun recorded (R156, R507). A write that overran a decoded command
is settled as `WriteWhileBusyOverruns` says of `coreTurn`, which is what such a step is. `raced`, `draws` and `moves` are the model's own
fields (log entries 3, 4). -/
def Obligations.StepRunsDecodedCommand : Prop :=
  ∀ s : State, s.moves = [] ∨ s.moves.head? = some .core →
    step s = coreTurn { s with moves := s.moves.tail } ∧
    (∀ (w : Word) (i : Instr) (t : State), s.pending = some w → s.overrun = none → decodeWord w = .ok i →
      exec i { s with moves := s.moves.tail } = .next t →
      step s = .next { t with pending := none, raced := [], draws := t.draws + 1 }) ∧
    ∀ w : Word, s.pending = some w → (∀ i, decodeWord w ≠ .ok i) → s.err = false →
      step s = .next { faulted .illegalCmd w s with
        moves := s.moves.tail, overrun := none, raced := [], draws := s.draws + 1 }

/-- R525: an idle core keeps all its state. The second clause is the model's choice (log entry 3): with no move to come the host is
silent, so a step is the core's turn and nothing ever happens. -/
def Obligations.IdleCoreKeepsState : Prop :=
  ∀ s : State, s.busy = false → coreTurn s = .next s ∧ (s.moves = [] → step s = .next s)

/-- R34: a `CMD` write starts the command when `BUSY` = 0 and `ERR` = 0; with `ERR` = 1 only the word of `RESET`; with
`BUSY` = 1 it is an overrun; `CMD` reads as 0 (while not busy, R120 (e)). -/
def Obligations.CmdWriteIssuesCommand : Prop :=
  ∀ (s : State) (w : Word),
    (s.busy = false → s.err = false → hostWrite 4 0x00 w s = .next { s with pending := some w }) ∧
    (s.busy = false → s.err = true → w = 0x01000000 → hostWrite 4 0x00 w s = .next { s with pending := some w }) ∧
    (s.busy = false → s.err = true → w ≠ 0x01000000 → hostWrite 4 0x00 w s = .next s) ∧
    (s.busy = true → hostWrite 4 0x00 w s = .next { s with overrun := some (s.overrun.getD w) }) ∧
    (s.busy = false → hostRead 4 0x00 s = .next { s with bus := 0 })

/-- R505: with `ERR` = 1 every `CMD` write but `RESET` is ignored, RW register writes still store and reads are
unaffected. -/
def Obligations.FaultedCoreIgnoresCommands : Prop :=
  ∀ s : State, s.err = true → s.busy = false →
    (∀ w : Word, w ≠ 0x01000000 → hostWrite 4 0x00 w s = .next s) ∧
    (∀ r ∈ rwRegisters, ∀ v : Word, ∃ t, hostWrite 4 r.1 v s = .next t ∧ Stores r v s t) ∧
    (∀ off, off < 0x100 → off % 4 = 0 → hostRead 4 off s = .next { s with bus := registerValue off s })

/-- R503, R509: a recorded fault and its context stay until `RESET` completes, in the core's turn, or hardware reset. The premise
holds in every state that meets `State.StatusOk`. That `RESET` ends with `ERR` = 0 also when a write was latched while it ran is the model's choice, log
entry 7, from R462 and R572: R507 read alone would record `BUSY_OVERRUN`. -/
def Obligations.RecordedFaultIsSticky : Prop :=
  ∀ s t : State, s.err = true → (∀ w, s.pending = some w → w = 0x01000000) → step s = .next t →
    (t.err = true ∧ t.errcode = s.errcode ∧ t.errCmd = s.errCmd ∧ t.errIpos = s.errIpos ∧ t.errOpos = s.errOpos ∧
      t.mode = s.mode) ∨
    (t.err = false ∧ (s.moves.head? = some .hwReset ∨
      ((s.moves = [] ∨ s.moves.head? = some .core) ∧ s.pending = some 0x01000000)))

/-- R507: a host write while `BUSY` = 1 leaves the register, and the first such value is kept; when the command completes,
its own fault goes before the overrun, `ILLEGAL_CMD` of a word that does not decode too (R155, R156). That the latch is clear
after `BUSY_OVERRUN` is recorded is the model's choice (log entry 6); `RESET` is left out (log entry 7). -/
def Obligations.WriteWhileBusyOverruns : Prop :=
  (∀ (s : State) (off : Nat) (v : Word), s.busy = true → off % 4 = 0 → off ≤ 0x78 →
    hostWrite 4 off v s = .next { s with overrun := some (s.overrun.getD v) }) ∧
  (∀ (s : State) (off : Nat) (v : Word), s.busy = true → off % 4 = 0 → 0x78 < off → off < 0x100 →
    hostWrite 4 off v s = .next s) ∧
  (∀ (s t : State) (i : Instr) (v : Word), s.pending = some (encode i) → s.overrun = some v → s.err = false →
    i ≠ .reset → exec i s = .next t →
    coreTurn s = .next (if t.err then { t with overrun := none, pending := none, raced := [], draws := t.draws + 1 }
      else { t with
        err := true, errcode := .busyOverrun, errCmd := v, errIpos := s.ipos, errOpos := s.opos
        overrun := none, pending := none, raced := [], draws := t.draws + 1 })) ∧
  ∀ (s : State) (w : Word), s.pending = some w → (∀ i, decodeWord w ≠ .ok i) → s.err = false →
    coreTurn s = .next { faulted .illegalCmd w s with overrun := none, raced := [], draws := s.draws + 1 }

/-! ### Host accesses -/

/-- R111: a reserved offset reads 0 and ignores writes, in any state. -/
def Obligations.ReservedOffsetsReadZero : Prop :=
  ∀ (s : State) (off : Nat) (v : Word), 0x7C ≤ off → off ≤ 0xFC → off % 4 = 0 →
    hostRead 4 off s = .next { s with bus := 0 } ∧ hostWrite 4 off v s = .next s

/-- A write to an RW register stores the bits it keeps and does nothing else to any part of the state; a write to any other
register but `CMD` is ignored (R33, R113). A step whose next move is a register write, of any width, offset and value and busy or
not, is that write on the state with the move taken off (R30; the list of moves is the model's choice, log entry 3). -/
def Obligations.RegisterWriteReadBack : Prop :=
  (∀ (s : State) (v : Word), s.busy = false →
    (∀ r ∈ rwRegisters, ∃ t, hostWrite 4 r.1 v s = .next t ∧ Stores r v s t) ∧
    (∀ off, off < 0x100 → off % 4 = 0 → off ≠ 0 → (∀ r ∈ rwRegisters, off ≠ r.1) → hostWrite 4 off v s = .next s)) ∧
  ∀ (s : State) (rest : List Move) (width off : Nat) (v : Word), s.moves = .regWrite width off v :: rest →
    step s = hostWrite width off v { s with moves := rest }

/-- What every register holds for a read: the fields of `STATUS` (R35, R36, R500), `CTXSTATE` (R40) and `CAPS` (R56) in their bits,
`CMD` 0, every other register its value, a 64-bit one in two halves (R32, R33). With `BUSY` = 0 a host read returns it and has no side
effect (R113; `bus` is the model's own record of what was returned, log entry 4). With `BUSY` = 1 a read of `STATUS` does, so its bit 0
is 1 (R573), and a read of any other register returns an unspecified value of its own (R120 (e); that `CMD` and `CAPS` are among
them is log entry 14), without a side effect. A step whose next move is a register read is that read on the state with the move
taken off (R30; log entry 3). -/
def Obligations.RegistersReadTheirFields : Prop :=
  ∀ s : State,
    ((registerValue 0x04 s).getLsbD 0 = s.busy ∧ (registerValue 0x04 s).getLsbD 1 = s.err ∧
      (registerValue 0x04 s).extractLsb' 2 2 = (if s.mode = .idle then 0 else if s.mode = .enc then 1 else 2) ∧
      (registerValue 0x04 s).extractLsb' 4 4 = 0 ∧
      (∀ r ∈ faultCodes, s.errcode = r.1 → (registerValue 0x04 s).extractLsb' 8 8 = r.2) ∧
      (registerValue 0x04 s).extractLsb' 16 4 = s.level ∧ (registerValue 0x04 s).extractLsb' 20 12 = 0) ∧
    ((registerValue 0x14 s).extractLsb' 0 8 = s.prevByte ∧ (registerValue 0x14 s).getLsbD 8 = s.prevMatch ∧
      (registerValue 0x14 s).extractLsb' 9 23 = 0) ∧
    (((registerValue 0x78 s).extractLsb' 0 5).toNat = s.winExtra.val + 16 ∧ (registerValue 0x78 s).extractLsb' 5 3 = 0 ∧
      (registerValue 0x78 s).extractLsb' 8 8 = 1 ∧ (registerValue 0x78 s).extractLsb' 16 16 = 0) ∧
    (registerValue 0x00 s = 0 ∧ registerValue 0x08 s = s.errCmd ∧ registerValue 0x0C s = s.arg ∧ registerValue 0x10 s = s.result ∧
      (registerValue 0x18 s).toNat = (if s.tokKind then 1 else 0) ∧ (registerValue 0x1C s).toNat = s.tokLit.toNat ∧
      registerValue 0x20 s = s.tokDist ∧ (registerValue 0x24 s).toNat = s.tokLen.toNat ∧ registerValue 0x30 s = s.encRange ∧
      (registerValue 0x34 s).toNat = s.encCache.toNat ∧ registerValue 0x40 s = s.decCode ∧ registerValue 0x44 s = s.decRange) ∧
    (∀ p ∈ [(0x28, s.encLow.toNat), (0x38, s.encCsize.toNat), (0x48, s.ipos.toNat), (0x50, s.opos.toNat), (0x58, s.ilen.toNat),
        (0x60, s.olim.toNat), (0x68, s.errIpos.toNat), (0x70, s.errOpos.toNat)],
      (registerValue p.1 s).toNat + 2 ^ 32 * (registerValue (p.1 + 4) s).toNat = p.2) ∧
    (s.busy = false → ∀ off, off < 0x100 → off % 4 = 0 → hostRead 4 off s = .next { s with bus := registerValue off s }) ∧
    (s.busy = true →
      hostRead 4 0x04 s = .next { s with bus := registerValue 0x04 s } ∧
      ∀ off, off ≤ 0x78 → off % 4 = 0 → off ≠ 0x04 →
        ∃ v, hostRead 4 off s = .next { s with bus := v, draws := s.draws + 1 }) ∧
    ∀ (rest : List Move) (width off : Nat), s.moves = .regRead width off :: rest →
      step s = hostRead width off { s with moves := rest }

/-- The host's side of the byte memories, as steps. A write of `IBUF[i]` stores that byte, leaves every other byte and all else, and is no
overrun (R101, R507); while busy each later read of that index by the running command sees the new byte or one replaced, and any other
index reads as before (R121, log entry 5). A read of `OBUF[i]` returns the byte, or while busy at i ≥ `OPOS` an unspecified value
(R102, R120 (e)), and has no side effect. -/
def Obligations.HostReachesTheByteMemories : Prop :=
  ∀ (s : State) (i : Pos) (b : Byte) (rest : List Move),
    (s.moves = .ibufWrite i b :: rest →
      ∃ t, step s = .next t ∧ t = { s with moves := rest, ibuf := t.ibuf, raced := t.raced } ∧
        (∀ j, t.ibufByte j = if j = i.toNat then b else s.ibufByte j) ∧
        (∀ site j, j ≠ i.toNat → t.readIbuf site j = s.readIbuf site j) ∧
        (s.busy = false → t.raced = s.raced) ∧
        (s.busy = true → ∀ site,
          t.readIbuf site i.toNat = b ∨ t.readIbuf site i.toNat ∈ s.ibufByte i.toNat :: racedAt s.raced i.toNat)) ∧
    (s.moves = .obufRead i :: rest →
      (s.busy = false ∨ i.toNat < s.opos.toNat →
        step s = .next { s with moves := rest, bus := BitVec.ofNat 32 (s.obufByte i.toNat).toNat }) ∧
      (s.busy = true → s.opos.toNat ≤ i.toNat →
        ∃ v, step s = .next { s with moves := rest, bus := v, draws := s.draws + 1 }))

/-- R110: only aligned 32-bit accesses of a register are defined; any other access inside the register space is refused,
and one outside it stops with a fault (the model's choice, log entry 9). -/
def Obligations.UndefinedAccessStops : Prop :=
  ∀ (s : State) (width off : Nat) (v : Word),
    (off < 0x100 → (width ≠ 4 ∨ off % 4 ≠ 0) →
      hostWrite width off v s = .refused .undefinedAccess ∧ hostRead width off s = .refused .undefinedAccess) ∧
    (0x100 ≤ off → hostWrite width off v s = .fault .outsideRegisterSpace ∧
      hostRead width off s = .fault .outsideRegisterSpace)

/-! ### Faults -/

/-- R157: a command whose mode is ENC or DEC raises `MODE` in any other mode, with any operands, and has no other effect;
a command of mode "any" never raises `MODE`. -/
def Obligations.ModeCheckComesFirst : Prop :=
  (∀ (i : Instr) (m : Mode) (s : State), requiredMode i = some m → s.mode ≠ m → s.err = false →
    exec i s = .next (faulted .mode (encode i) s)) ∧
  (∀ (i : Instr) (s t : State), requiredMode i = none → s.err = false → exec i s = .next t → t.err = true →
    t.errcode ≠ .mode)

/-- The argument checks of R501, in the right mode: `BAD_ARG`; a level above 9 is `LEVEL_RANGE` and a level whose window the
instance lacks `ALLOC`, in every mode (R200, R310, R360). The state is as before the command. -/
def Obligations.BadArgumentsAreRejected : Prop :=
  ∀ (s : State) (c : Ctx) (n : BitVec 6), s.err = false →
    (s.mode = .enc → (n.toNat = 0 ∨ 32 < n.toNat ∨ 2 ^ n.toNat ≤ s.arg.toNat) →
      exec (.encDirect n) s = .next (faulted .badArg (encode (.encDirect n)) s)) ∧
    (s.mode = .enc → (n.toNat = 0 ∨ 4096 < c.toNat + 2 ^ n.toNat ∨ 2 ^ n.toNat ≤ s.arg.toNat) →
      exec (.encTree c n) s = .next (faulted .badArg (encode (.encTree c n)) s) ∧
      exec (.encRtree c n) s = .next (faulted .badArg (encode (.encRtree c n)) s)) ∧
    (s.mode = .dec → (n.toNat = 0 ∨ 32 < n.toNat) →
      exec (.decDirect n) s = .next (faulted .badArg (encode (.decDirect n)) s)) ∧
    (s.mode = .dec → (n.toNat = 0 ∨ 4096 < c.toNat + 2 ^ n.toNat) →
      exec (.decTree c n) s = .next (faulted .badArg (encode (.decTree c n)) s) ∧
      exec (.decRtree c n) s = .next (faulted .badArg (encode (.decRtree c n)) s)) ∧
    (9 < n.toNat →
      exec (.encInit n) s = .next (faulted .levelRange (encode (.encInit n)) s) ∧
      exec (.decInit n) s = .next (faulted .levelRange (encode (.decInit n)) s)) ∧
    (∀ k, [16, 18, 20, 21, 22, 23, 24, 25, 26, 28][n.toNat]? = some k → s.winExtra.val + 16 < k →
      exec (.encInit n) s = .next (faulted .alloc (encode (.encInit n)) s) ∧
      exec (.decInit n) s = .next (faulted .alloc (encode (.decInit n)) s))

/-- Whatever command raises a fault: the recording names the command and the positions it started at, the mode, the
host's registers and `IBUF` are unchanged, and a code other than `NONE` is recorded (R502, R503). -/
def Obligations.FaultIsRecordedPrecisely : Prop :=
  ∀ (i : Instr) (s t : State), s.err = false → exec i s = .next t → t.err = true →
    t.errcode ≠ .none ∧ t.errCmd = encode i ∧ t.errIpos = s.ipos ∧ t.errOpos = s.opos ∧ t.busy = false ∧ t.mode = s.mode ∧
    t.arg = s.arg ∧ t.ilen = s.ilen ∧ t.olim = s.olim ∧ t.ibuf = s.ibuf

/-- The primitive commands at the end of a buffer. `ENC_BIT` and `ENC_DIRECT 1` that must write pending bytes `OLIM` has no room for, and
`ENC_FLUSH` whose `ENC_CSIZE + 4` bytes do not fit, raise `OUT_LIMIT` (R304, R311, R312, R320). `DEC_BIT` and `DEC_DIRECT 1` that need a byte at
`IPOS` ≥ `ILEN` raise `TRUNCATED` (R351, R361, R362), and `DEC_BIT` leaves `RESULT`. No byte below `OPOS` or from `OLIM` on is touched and
no other estimator changes (R502). That low is taken modulo 2^33 is log entry 13: in states a run reaches the sum is smaller. -/
def Obligations.BytesOutsideTheBuffersFault : Prop :=
  (∀ (s : State) (c : Ctx) (b : Bool) (bound low range : Nat), s.mode = .enc → s.err = false →
    bound = split s.encRange (s.probAt c) →
    low = (if b then (s.encLow.toNat + bound) % 2 ^ 33 else s.encLow.toNat) →
    range = (if b then s.encRange.toNat - bound else bound) → ¬ Fits low range s →
    ∃ t, exec (.encBit c b) s = .next t ∧ t.err = true ∧ t.errcode = .outLimit ∧
      (∀ c', c' ≠ c → t.probAt c' = s.probAt c') ∧
      ∀ j, j < s.opos.toNat ∨ s.olim.toNat ≤ j → t.obufByte j = s.obufByte j) ∧
  (∀ (s : State) (low range : Nat), s.mode = .enc → s.err = false → s.arg.toNat ≤ 1 →
    low = (s.encLow.toNat + s.arg.toNat * (s.encRange.toNat / 2)) % 2 ^ 33 → range = s.encRange.toNat / 2 → ¬ Fits low range s →
    ∃ t, exec (.encDirect 1) s = .next t ∧ t.err = true ∧ t.errcode = .outLimit ∧ t.prob = s.prob ∧
      ∀ j, j < s.opos.toNat ∨ s.olim.toNat ≤ j → t.obufByte j = s.obufByte j) ∧
  (∀ s : State, s.mode = .enc → s.err = false → s.encCsize.toNat + 5 < 2 ^ 64 →
    s.olim.toNat < s.opos.toNat + s.encCsize.toNat + 4 →
    ∃ t, exec .encFlush s = .next t ∧ t.err = true ∧ t.errcode = .outLimit ∧ t.prob = s.prob ∧
      ∀ j, j < s.opos.toNat ∨ s.olim.toNat ≤ j → t.obufByte j = s.obufByte j) ∧
  (∀ (s : State) (c : Ctx) (bound : Nat), s.mode = .dec → s.err = false → s.ilen.toNat ≤ s.ipos.toNat →
    bound = split s.decRange (s.probAt c) →
    (if s.decCode.toNat < bound then bound else s.decRange.toNat - bound) < 2 ^ 24 →
    ∃ t, exec (.decBit c) s = .next t ∧ t.err = true ∧ t.errcode = .truncated ∧ t.result = s.result ∧
      (∀ c', c' ≠ c → t.probAt c' = s.probAt c') ∧
      ∀ j, j < s.opos.toNat ∨ s.olim.toNat ≤ j → t.obufByte j = s.obufByte j) ∧
  (∀ s : State, s.mode = .dec → s.err = false → s.ilen.toNat ≤ s.ipos.toNat → s.decRange.toNat / 2 < 2 ^ 24 →
    ∃ t, exec (.decDirect 1) s = .next t ∧ t.err = true ∧ t.errcode = .truncated ∧ t.prob = s.prob ∧
      ∀ j, j < s.opos.toNat ∨ s.olim.toNat ≤ j → t.obufByte j = s.obufByte j)

/-! ### System commands and reset -/

/-- R460: `NOP` changes nothing, in any mode; a word of opcode 0 with any bit 1 is no `NOP` but raises `ILLEGAL_CMD`; with a fault
recorded a `NOP` is ignored. -/
def Obligations.NopChangesNothing : Prop :=
  ∀ s : State, exec .nop s = .next s ∧
    (s.err = false → ∀ w : Word, w.toNat < 2 ^ 24 → w ≠ 0 → runCommand w s = .next (faulted .illegalCmd w s)) ∧
    (s.err = true → s.busy = false → hostWrite 4 0x00 0x00000000 s = .next s)

/-- R462: `RESET` completes from every state, recorded fault or not: every register reads 0, `CAPS` its constant, the overrun
latch is 0, and the arrays and byte memories are unchanged. -/
def Obligations.ResetClearsRegisters : Prop :=
  ∀ s : State, ∃ t, exec .reset s = .next t ∧ t.overrun = none ∧
    (∀ off, off ≠ 0x78 → registerValue off t = 0) ∧ registerValue 0x78 t = registerValue 0x78 s ∧
    (∀ c, t.probAt c = s.probAt c) ∧ (∀ h, t.headAt h = s.headAt h) ∧ (∀ j, t.chainAt j = s.chainAt j) ∧
    (∀ j, t.winbufAt j = s.winbufAt j) ∧ (∀ j, t.ibufByte j = s.ibufByte j) ∧ (∀ j, t.obufByte j = s.obufByte j)

/-- R550, R551: after hardware reset, from any state and also while busy, every register reads 0 but `CAPS`; `IBUF` is unchanged,
and so is `OBUF` but for the bytes a command it interrupts could write: from `OPOS`, below `OLIM`, no more than R571 bounds (log entry
16; `ENC_STREAM` by its turns over the input bytes left and its flush), and none for a word that does not decode or a command in the wrong mode. `State.reset` is such a state. -/
def Obligations.HardwareResetClearsRegisters : Prop :=
  (∀ (s : State) (rest : List Move), s.moves = .hwReset :: rest → ∃ t, step s = .next t ∧ t.overrun = none ∧
    (∀ off, off ≠ 0x78 → registerValue off t = 0) ∧ registerValue 0x78 t = registerValue 0x78 s ∧
    (∀ j, t.ibufByte j = s.ibufByte j) ∧
    ∀ j,
      (s.busy = false ∨ j < s.opos.toNat ∨ s.olim.toNat ≤ j ∨
        (∃ w, s.pending = some w ∧ ∀ i, decodeWord w ≠ .ok i) ∨
        ∃ i, s.pending = some (encode i) ∧
          (s.opos.toNat + mostBytes s i ≤ j ∨ ∃ m, requiredMode i = some m ∧ s.mode ≠ m)) →
      t.obufByte j = s.obufByte j) ∧
  (∀ off, off ≠ 0x78 → registerValue off State.reset = 0) ∧ State.reset.overrun = none

/-! ### The probability estimators -/

/-- R260, R261: in every mode `PM_RESET` sets every estimator to 1024 and nothing else, and `PM_PREDICT` writes the estimator, of any
context, to `RESULT` and changes nothing else; a word with a bit set that their formats fix at 0 raises `ILLEGAL_CMD`. -/
def Obligations.PmResetAndPredict : Prop :=
  ∀ (s : State) (c : Ctx),
    (∃ t, exec .pmReset s = .next t ∧ t = { s with prob := t.prob } ∧ ∀ c', (t.probAt c').toNat = 1024) ∧
    (∃ t, exec (.pmPredict c) s = .next t ∧ t = { s with result := t.result } ∧ t.result.toNat = (s.probAt c).toNat) ∧
    (s.err = false → ∀ w : Word,
      (w.extractLsb' 24 8 = 0x08 ∧ w.extractLsb' 0 24 ≠ 0 ∨ w.extractLsb' 24 8 = 0x09 ∧ w.extractLsb' 0 12 ≠ 0) →
      runCommand w s = .next (faulted .illegalCmd w s))

/-- R262: in every mode `PM_UPDATE` moves one estimator 1/32 of the way toward the bit (R251) and changes nothing else; a word with a
bit set that its format fixes at 0 raises `ILLEGAL_CMD`. -/
def Obligations.PmUpdateAdaptsOneEstimator : Prop :=
  (∀ (s : State) (c : Ctx) (b : Bool), ∃ t, exec (.pmUpdate c b) s = .next t ∧ t = { s with prob := t.prob } ∧
    (t.probAt c).toNat =
      (if b then (s.probAt c).toNat - (s.probAt c).toNat / 32
        else (s.probAt c).toNat + (2048 - (s.probAt c).toNat) / 32) ∧
    ∀ c', c' ≠ c → t.probAt c' = s.probAt c') ∧
  ∀ (s : State) (w : Word), s.err = false → w.extractLsb' 24 8 = 0x0A → (w.extractLsb' 9 3 ≠ 0 ∨ w.extractLsb' 0 8 ≠ 0) →
    runCommand w s = .next (faulted .illegalCmd w s)

/-! ### The range encoder -/

/-- R310: `ENC_INIT` with a level 0 to 9 whose window the instance has opens an encode stream, from any mode, with the window (`2 ^ k`) and
the search depth (d) of that level's row (R200). `CHAIN` after it is unspecified (R61, U2): a fresh draw, of which nothing is said (log
entry 11). -/
def Obligations.EncInitOpensStream : Prop :=
  ∀ (s : State) (lvl : BitVec 6) (k d : Nat), [16, 18, 20, 21, 22, 23, 24, 25, 26, 28][lvl.toNat]? = some k →
    [1, 2, 4, 8, 16, 32, 64, 128, 256, 1024][lvl.toNat]? = some d → k ≤ s.winExtra.val + 16 →
    ∃ t, exec (.encInit lvl) s = .next t ∧
      t = { s with
        level := BitVec.ofNat 4 lvl.toNat, encLow := 0, encRange := 0xFFFFFFFF, encCache := 0, encCsize := 1
        ipos := 0, opos := 0, prevByte := 0, prevMatch := false, mode := .enc, prob := t.prob, head := t.head
        chain := t.chain, draws := s.draws + 1 } ∧
      t.win = 2 ^ k ∧ t.depth = d ∧ (∀ c, (t.probAt c).toNat = 1024) ∧ ∀ h, t.headAt h = none

/-- R300-R302: `ENC_BIT` narrows the interval in proportion to the estimate, adapts that estimator, and renormalises once, moving
the decided pending bytes to `OBUF`; nothing else changes. It completes whenever the bytes it must write fit, so also with a full
`OBUF` when it writes none. The sum low + bound is taken modulo 2^33: the model's choice (log entry 13), for states no run reaches. -/
def Obligations.EncBitNarrowsAndRenormalises : Prop :=
  ∀ (s : State) (c : Ctx) (b : Bool) (bound low range : Nat), s.mode = .enc →
    bound = split s.encRange (s.probAt c) →
    low = (if b then (s.encLow.toNat + bound) % 2 ^ 33 else s.encLow.toNat) →
    range = (if b then s.encRange.toNat - bound else bound) → Fits low range s →
    ∃ t, exec (.encBit c b) s = .next t ∧
      t = { s with
        encLow := t.encLow, encRange := t.encRange, encCache := t.encCache, encCsize := t.encCsize, opos := t.opos
        obuf := t.obuf, prob := t.prob } ∧
      Renormalised low range s t ∧
      (t.probAt c).toNat =
        (if b then (s.probAt c).toNat - (s.probAt c).toNat / 32
          else (s.probAt c).toNat + (2048 - (s.probAt c).toNat) / 32) ∧
      ∀ c', c' ≠ c → t.probAt c' = s.probAt c'

/-- R303: `ENC_DIRECT 1` halves the interval and keeps the upper half for a 1, then renormalises, using no estimator; it completes
whenever the bytes it must write fit. `ENC_DIRECT n` for n ≥ 2 is the top bit by `ENC_DIRECT 1` and then the other n - 1 bits: it leaves the
state they leave, records the fault the first of them to fault records, and with room for n bytes it completes. The sum is taken
modulo 2^33: the model's choice (log entry 13), for states no run reaches. -/
def Obligations.EncDirectIsMostSignificantFirst : Prop :=
  (∀ (s : State) (low range : Nat), s.mode = .enc → s.arg.toNat ≤ 1 →
    low = (s.encLow.toNat + s.arg.toNat * (s.encRange.toNat / 2)) % 2 ^ 33 → range = s.encRange.toNat / 2 → Fits low range s →
    ∃ t, exec (.encDirect 1) s = .next t ∧
      t = { s with
        encLow := t.encLow, encRange := t.encRange, encCache := t.encCache, encCsize := t.encCsize, opos := t.opos
        obuf := t.obuf } ∧
      Renormalised low range s t) ∧
  ∀ (s top : State) (n : BitVec 6) (k : Nat), s.mode = .enc → s.err = false → n.toNat = k + 1 → 1 ≤ k → k ≤ 31 →
    s.arg.toNat < 2 ^ (k + 1) → top = { s with arg := BitVec.ofNat 32 (s.arg.toNat / 2 ^ k) } →
    (Room (k + 1) s → ∃ u v, Runs (.encDirect 1) top u ∧
      Runs (.encDirect (BitVec.ofNat 6 k)) { u with arg := BitVec.ofNat 32 (s.arg.toNat % 2 ^ k) } v ∧
      exec (.encDirect n) s = .next { v with arg := s.arg }) ∧
    (∀ u v, Runs (.encDirect 1) top u →
      Runs (.encDirect (BitVec.ofNat 6 k)) { u with arg := BitVec.ofNat 32 (s.arg.toNat % 2 ^ k) } v →
      exec (.encDirect n) s = .next { v with arg := s.arg }) ∧
    (∀ e, Faults (.encDirect 1) top e → Faults (.encDirect n) s e) ∧
    ∀ u e, Runs (.encDirect 1) top u →
      Faults (.encDirect (BitVec.ofNat 6 k)) { u with arg := BitVec.ofNat 32 (s.arg.toNat % 2 ^ k) } e →
      Faults (.encDirect n) s e

/-- R305, R313: `ENC_TREE` is one `ENC_BIT` for each bit of `ARG`, most significant first, down the tree; `PROB[base]` is never used. It leaves
the state they leave, records the fault the first of them to fault records, and with room for n bytes it completes. -/
def Obligations.EncTreeIsBitsDownTheTree : Prop :=
  ∀ (s : State) (c : Ctx) (n : BitVec 6), s.mode = .enc → s.err = false → 1 ≤ n.toNat → c.toNat + 2 ^ n.toNat ≤ 4096 →
    s.arg.toNat < 2 ^ n.toNat →
    (Room n.toNat s → ∃ t, exec (.encTree c n) s = .next t ∧ EncodesBits (treeBits c n.toNat s.arg.toNat) s t) ∧
    (∀ t, EncodesBits (treeBits c n.toNat s.arg.toNat) s t → exec (.encTree c n) s = .next t ∧ t.probAt c = s.probAt c) ∧
    ∀ k, BitsFault (treeBits c n.toNat s.arg.toNat) s k → Faults (.encTree c n) s k

/-- R306, R314: `ENC_RTREE` is the same, least significant bit first. -/
def Obligations.EncRtreeIsBitsDownTheTree : Prop :=
  ∀ (s : State) (c : Ctx) (n : BitVec 6), s.mode = .enc → s.err = false → 1 ≤ n.toNat → c.toNat + 2 ^ n.toNat ≤ 4096 →
    s.arg.toNat < 2 ^ n.toNat →
    (Room n.toNat s → ∃ t, exec (.encRtree c n) s = .next t ∧ EncodesBits (rtreeBits c s.arg.toNat n.toNat 1) s t) ∧
    (∀ t, EncodesBits (rtreeBits c s.arg.toNat n.toNat 1) s t → exec (.encRtree c n) s = .next t ∧ t.probAt c = s.probAt c) ∧
    ∀ k, BitsFault (rtreeBits c s.arg.toNat n.toNat 1) s k → Faults (.encRtree c n) s k

/-- R320, R308, R105: `ENC_FLUSH` writes the pending bytes and the four bytes of `ENC_LOW`, with its carry added in, as one base-256
number most significant byte first, and closes the stream; `ENC_RANGE` and the rest are unchanged. -/
def Obligations.EncFlushWritesTheNumber : Prop :=
  ∀ s : State, s.mode = .enc → 1 ≤ s.encCsize.toNat → Room 5 s →
    ∃ t, exec .encFlush s = .next t ∧
      t = { s with encLow := 0, encCache := 0, encCsize := 1, mode := .idle, opos := t.opos, obuf := t.obuf } ∧
      t.opos.toNat = s.opos.toNat + s.encCsize.toNat + 4 ∧
      bytesValue t.obufByte s.opos.toNat (s.encCsize.toNat + 4) =
        (pendingValue s * 2 ^ 32 + s.encLow.toNat) % 256 ^ (s.encCsize.toNat + 4) ∧
      ∀ j, j < s.opos.toNat ∨ t.opos.toNat ≤ j → t.obufByte j = s.obufByte j

/-! ### The match finder -/

/-- R210: in ENC mode `MF_FIND` completes, writes `TOK_KIND`, `TOK_DIST` and `TOK_LEN` and nothing else, and with fewer than three
bytes left reports no match. -/
def Obligations.MfFindWritesTokenRegisters : Prop :=
  ∀ s : State, s.mode = .enc → ∃ t, exec .mfFind s = .next t ∧
    t = { s with tokKind := t.tokKind, tokDist := t.tokDist, tokLen := t.tokLen } ∧
    (t.tokKind = false → t.tokDist = 0 ∧ t.tokLen = 0) ∧ (t.tokKind = true → 3 ≤ t.tokLen.toNat ∧ t.tokLen.toNat ≤ 273) ∧
    (s.ilen.toNat < s.ipos.toNat + 3 → t.tokKind = false)

/-- R208: with the history inserted, `MF_FIND` gives the longest match among the newest `DEPTH` candidates of the window, and of
those of that length the nearest. -/
def Obligations.MfFindGivesTheBestCandidate : Prop :=
  ∀ (s : State) (qs : List Nat), s.mode = .enc → s.raced = [] → s.History → qs = (s.candidates s.ipos.toNat).take s.depth →
    ∃ t, exec .mfFind s = .next t ∧
      if s.ilen.toNat < s.ipos.toNat + 3 ∨ qs = [] then t.tokKind = false ∧ t.tokDist = 0 ∧ t.tokLen = 0
      else ∃ q ∈ qs, t.tokKind = true ∧ t.tokDist.toNat = s.ipos.toNat - q ∧
        t.tokLen.toNat = s.common q s.ipos.toNat (min 273 (s.ilen.toNat - s.ipos.toNat)) ∧
        ∀ q' ∈ qs,
          s.common q' s.ipos.toNat (min 273 (s.ilen.toNat - s.ipos.toNat)) <
            s.common q s.ipos.toNat (min 273 (s.ilen.toNat - s.ipos.toNat)) ∨
          (s.common q' s.ipos.toNat (min 273 (s.ilen.toNat - s.ipos.toNat)) =
            s.common q s.ipos.toNat (min 273 (s.ilen.toNat - s.ipos.toNat)) ∧ q' ≤ q)

/-- R203, R209: `ENC_INIT` starts with no position inserted, and every command that leaves an encode stream open keeps the insertion
discipline, while no host write races. -/
def Obligations.HistoryIsKept : Prop :=
  ∀ (i : Instr) (s t : State), s.err = false → s.raced = [] → (s.mode = .enc ∧ s.History ∨ ∃ lvl, i = .encInit lvl) →
    Runs i s t → t.mode = .enc → t.History

/-! ### Tokens and streams, encoding -/

/-- R430: `ENC_LIT` codes a 0 flag and the byte at `IPOS` through the literal tree, inserts the position, and steps to the next
byte; it records the fault that coding them records, and with room for nine bytes it completes. At the end of the input it raises
`INPUT_END` and changes nothing. -/
def Obligations.EncLitCodesOneByte : Prop :=
  ∀ (s : State) (l : List (Ctx × Bool)), s.mode = .enc → s.err = false → s.raced = [] →
    l = (flag s, false) :: treeBits (litTree s) 8 (s.ibufByte s.ipos.toNat).toNat →
    (s.ilen.toNat ≤ s.ipos.toNat → exec .encLit s = .next (faulted .inputEnd (encode .encLit) s)) ∧
    (s.ipos.toNat < s.ilen.toNat → Room 9 s → ∃ u t, EncodesBits l s u ∧ Runs .encLit s t) ∧
    (s.ipos.toNat < s.ilen.toNat → ∀ u, EncodesBits l s u →
      ∃ t, exec .encLit s = .next t ∧
        t = { u with
          ipos := s.ipos + 1, prevByte := s.ibufByte s.ipos.toNat, prevMatch := false, head := t.head, chain := t.chain } ∧
        (∀ h, t.headAt h =
          if s.ipos.toNat + 3 ≤ s.ilen.toNat ∧ h = s.hashAt s.ipos.toNat then some s.ipos else s.headAt h) ∧
        ∀ j, t.chainAt j =
          if s.ipos.toNat + 3 ≤ s.ilen.toNat ∧ j = s.ipos.toNat % s.win then s.headAt (s.hashAt s.ipos.toNat)
          else s.chainAt j) ∧
    (s.ipos.toNat < s.ilen.toNat → ∀ k, BitsFault l s k → Faults .encLit s k)

/-- R431: `ENC_MATCH` codes a 1 flag, the length and the distance of a true repetition inside the window and the input, and steps
past it; it records the fault that coding them records, and with room for 45 bytes it completes. -/
def Obligations.EncMatchCodesARepetition : Prop :=
  ∀ (s : State) (d l : Nat), s.mode = .enc → s.err = false → s.raced = [] → d = s.tokDist.toNat → l = s.tokLen.toNat →
    1 ≤ d → d ≤ min s.ipos.toNat s.win → 2 ≤ l → l ≤ min 273 (s.ilen.toNat - s.ipos.toNat) →
    (∀ k, k < l → s.ibufByte (s.ipos.toNat + k) = s.ibufByte (s.ipos.toNat + k - d)) →
    (Room 45 s → ∃ u v w t, Runs (.encBit (flag s) true) s u ∧ EncodesValue 0x900 5 (l - 2) u v ∧
      EncodesValue (distTree l) 6 (d - 1) v w ∧ Runs .encMatch s t) ∧
    (∀ u v w, Runs (.encBit (flag s) true) s u → EncodesValue 0x900 5 (l - 2) u v → EncodesValue (distTree l) 6 (d - 1) v w →
      ∃ t, exec .encMatch s = .next t ∧
        t = { w with
          ipos := s.ipos + BitVec.ofNat 64 l, prevByte := s.ibufByte (s.ipos.toNat + l - 1), prevMatch := true
          head := t.head, chain := t.chain }) ∧
    ∀ k, (Faults (.encBit (flag s) true) s k ∨
      (∃ u, Runs (.encBit (flag s) true) s u ∧ EncodingFaults 0x900 5 (l - 2) u k) ∨
      ∃ u v, Runs (.encBit (flag s) true) s u ∧ EncodesValue 0x900 5 (l - 2) u v ∧
        EncodingFaults (distTree l) 6 (d - 1) v k) →
      Faults .encMatch s k

/-- R431: a pair that is not a true repetition inside the window and the input raises `BAD_MATCH` and changes nothing. -/
def Obligations.FalseMatchIsRejected : Prop :=
  ∀ (s : State) (d l : Nat), s.mode = .enc → s.err = false → s.raced = [] → d = s.tokDist.toNat → l = s.tokLen.toNat →
    (d = 0 ∨ min s.ipos.toNat s.win < d ∨ l < 2 ∨ min 273 (s.ilen.toNat - s.ipos.toNat) < l ∨
      ∃ k, k < l ∧ s.ibufByte (s.ipos.toNat + k) ≠ s.ibufByte (s.ipos.toNat + k - d)) →
    exec .encMatch s = .next (faulted .badMatch (encode .encMatch) s)

/-- R402: the slot code of every value below 2^32 gives the value back, with the extra bits in their width. -/
def Obligations.SlotCodeRoundTrip : Prop :=
  ∀ v : Nat, v < 2 ^ 32 →
    slotValue (slotSplit v).1 (slotSplit v).2.2 = v ∧ (slotSplit v).1 = slot v ∧ (slotSplit v).1 ≤ 63 ∧
    (slotSplit v).2.1 = slotExtra (slotSplit v).1 ∧ (slotSplit v).2.2 < 2 ^ (slotSplit v).2.1

/-- R432: `ENC_STREAM` is the greedy loop of `MF_FIND`, `ENC_MATCH` and `ENC_LIT` to the end of the input, and then `ENC_FLUSH`: it leaves the
state they leave, and records the fault the first of them to fault records. With the history inserted and room for the payload it
completes. No clause but that one assumes that no write races, so one says that `ENC_STREAM` records the `BAD_MATCH` of an `ENC_MATCH`
whose check sees other bytes than the search did: the model's choice, log entry 17. Without a race `BAD_MATCH` cannot occur (R432). -/
def Obligations.EncStreamIsTheGreedyLoop : Prop :=
  ∀ s : State, s.mode = .enc → s.err = false →
    (s.raced = [] → s.History → Room (45 * (s.ilen.toNat - s.ipos.toNat) + 5) s →
      ∃ u t, Greedy s u ∧ Runs .encFlush u t ∧ exec .encStream s = .next t ∧ t.mode = .idle ∧ s.ilen.toNat ≤ t.ipos.toNat) ∧
    (∀ u t, Greedy s u → Runs .encFlush u t → exec .encStream s = .next t) ∧
    (∀ u v k, GreedySteps s u → u.ipos.toNat < u.ilen.toNat → Runs .mfFind u v →
      ((v.tokKind = false ∧ Faults .encLit v k) ∨ (v.tokKind = true ∧ Faults .encMatch v k)) → Faults .encStream s k) ∧
    ∀ u k, Greedy s u → Faults .encFlush u k → Faults .encStream s k

/-- R423: the empty input, at any level the instance has: the payload is exactly 00 00 00 00 00, and decoding it with `OLIM` = 0
raises no fault and writes nothing. -/
def Obligations.EmptyInputIsFiveZeroBytes : Prop :=
  ∀ (s : State) (lvl : BitVec 6), levelOk lvl = true → windowFits lvl s = true → s.err = false →
    (s.ilen = 0 → 5 ≤ s.olim.toNat →
      ∃ u t, Runs (.encInit lvl) s u ∧ Runs .encStream u t ∧ t.opos.toNat = 5 ∧ t.mode = .idle ∧
        (∀ j, j < 5 → t.obufByte j = 0) ∧ ∀ j, 5 ≤ j → t.obufByte j = s.obufByte j) ∧
    (s.ilen.toNat = 5 → s.olim = 0 → s.raced = [] → (∀ j, j < 5 → s.ibufByte j = 0) →
      ∃ u t, Runs (.decInit lvl) s u ∧ Runs .decStream u t ∧ t.opos = 0 ∧ t.mode = .idle ∧
        ∀ j, t.obufByte j = s.obufByte j)

/-! ### The range decoder -/

/-- R360: `DEC_INIT` reads five bytes, of which the first must be 0, and opens a decode stream; with fewer it records `TRUNCATED`, with
another first byte `BAD_STREAM_START`. `WINBUF` after it is unspecified (R62, U2): a fresh draw, of which nothing is said (log entry
11). -/
def Obligations.DecInitOpensStream : Prop :=
  ∀ (s : State) (lvl : BitVec 6) (k : Nat), [16, 18, 20, 21, 22, 23, 24, 25, 26, 28][lvl.toNat]? = some k →
    k ≤ s.winExtra.val + 16 → s.raced = [] → s.err = false →
    (5 ≤ s.ilen.toNat → s.ibufByte 0 = 0 →
      ∃ t, exec (.decInit lvl) s = .next t ∧
        t = { s with
          level := BitVec.ofNat 4 lvl.toNat, ipos := 5, opos := 0, prevByte := 0, prevMatch := false
          decRange := 0xFFFFFFFF, decCode := t.decCode, mode := .dec, prob := t.prob
          winbuf := t.winbuf, draws := s.draws + 1 } ∧
        t.decCode.toNat = bytesValue s.ibufByte 1 4 ∧ ∀ c, (t.probAt c).toNat = 1024) ∧
    (s.ilen.toNat < 5 → Faults (.decInit lvl) s .truncated) ∧
    (5 ≤ s.ilen.toNat → s.ibufByte 0 ≠ 0 → Faults (.decInit lvl) s .badStreamStart)

/-- `DEC_BIT` decodes a 0 exactly when the code is below the split, narrows to that part, adapts the estimator, refills once if the range
needs it, and writes the bit to `RESULT` (R352, R351, R361); nothing else changes. It completes whenever a byte is left or no refill
is needed. -/
def Obligations.DecBitSelectsAndRefills : Prop :=
  ∀ (s : State) (c : Ctx) (bound range : Nat) (b : Bool), s.mode = .dec → s.raced = [] →
    bound = split s.decRange (s.probAt c) → b = decide (bound ≤ s.decCode.toNat) →
    range = (if b then s.decRange.toNat - bound else bound) → (s.ipos.toNat < s.ilen.toNat ∨ 2 ^ 24 ≤ range) →
    ∃ t, exec (.decBit c) s = .next t ∧
      t = { s with result := t.result, decCode := t.decCode, decRange := t.decRange, ipos := t.ipos, prob := t.prob } ∧
      t.result.toNat = (if b then 1 else 0) ∧
      Refilled (if b then s.decCode.toNat - bound else s.decCode.toNat) range s t ∧
      (t.probAt c).toNat =
        (if b then (s.probAt c).toNat - (s.probAt c).toNat / 32
          else (s.probAt c).toNat + (2048 - (s.probAt c).toNat) / 32) ∧
      ∀ c', c' ≠ c → t.probAt c' = s.probAt c'

/-- R353: `DEC_DIRECT 1` decodes a 1 exactly when the code is in the upper half, and refills once if the range needs it; no estimator
changes; it completes whenever a byte is left or no refill is needed. `DEC_DIRECT n` for n ≥ 2 is its top bit by `DEC_DIRECT 1` and the rest
by `DEC_DIRECT (n - 1)`: it leaves the state they leave, records the fault the first of them to fault records, and with n bytes left
it completes. -/
def Obligations.DecDirectIsMostSignificantFirst : Prop :=
  (∀ s : State, s.mode = .dec → s.raced = [] → (s.ipos.toNat < s.ilen.toNat ∨ 2 ^ 24 ≤ s.decRange.toNat / 2) →
    ∃ t, exec (.decDirect 1) s = .next t ∧
      t = { s with result := t.result, decCode := t.decCode, decRange := t.decRange, ipos := t.ipos } ∧
      t.result.toNat = (if s.decRange.toNat / 2 ≤ s.decCode.toNat then 1 else 0) ∧
      Refilled (s.decCode.toNat - t.result.toNat * (s.decRange.toNat / 2)) (s.decRange.toNat / 2) s t) ∧
  ∀ (s : State) (n : BitVec 6) (k : Nat), s.mode = .dec → s.err = false → n.toNat = k + 1 → 1 ≤ k → k ≤ 31 →
    (s.ipos.toNat + k + 1 ≤ s.ilen.toNat → ∃ t, Runs (.decDirect n) s t) ∧
    (∀ u v, Runs (.decDirect 1) s u → Runs (.decDirect (BitVec.ofNat 6 k)) u v →
      exec (.decDirect n) s = .next { v with result := BitVec.ofNat 32 (u.result.toNat * 2 ^ k + v.result.toNat) }) ∧
    (∀ t, Runs (.decDirect n) s t → ∃ u v, Runs (.decDirect 1) s u ∧ Runs (.decDirect (BitVec.ofNat 6 k)) u v) ∧
    (∀ e, Faults (.decDirect 1) s e → Faults (.decDirect n) s e) ∧
    ∀ u e, Runs (.decDirect 1) s u → Faults (.decDirect (BitVec.ofNat 6 k)) u e → Faults (.decDirect n) s e

/-- R354, R363: `DEC_TREE` is one `DEC_BIT` for each bit, most significant first, down the tree; the symbol is below 2^n. It leaves the state
they leave, records the fault the first of them to fault records, and with n bytes left it completes. A fault at node m leaves every
estimator outside the path, as far as it is decided, unchanged (R502): the path to the node the bit of m leads to, and what is below
that node. -/
def Obligations.DecTreeIsBitsDownTheTree : Prop :=
  ∀ (s : State) (c : Ctx) (n : BitVec 6), s.mode = .dec → s.err = false → 1 ≤ n.toNat → c.toNat + 2 ^ n.toNat ≤ 4096 →
    (s.ipos.toNat + n.toNat ≤ s.ilen.toNat → (∃ m u, DecodesTree c n.toNat 1 s m u) ∧ ∃ t, Runs (.decTree c n) s t) ∧
    (∀ m u, DecodesTree c n.toNat 1 s m u → 2 ^ n.toNat ≤ m ∧ m < 2 * 2 ^ n.toNat ∧
      exec (.decTree c n) s = .next { u with result := BitVec.ofNat 32 (m - 2 ^ n.toNat) }) ∧
    ∀ m u k, TreeFaults c n.toNat s m u k →
      ∃ t, exec (.decTree c n) s = .next t ∧ t.err = true ∧ t.errcode = k ∧
        ∀ c', (∀ m',
          OnPath n.toNat (if u.decCode.toNat < split u.decRange (u.probAt (c + BitVec.ofNat 12 m)) then 2 * m else 2 * m + 1) m' →
            c' ≠ c + BitVec.ofNat 12 m') →
          t.probAt c' = s.probAt c'

/-- R354, R364: `DEC_RTREE` is the same, least significant bit first. -/
def Obligations.DecRtreeIsBitsDownTheTree : Prop :=
  ∀ (s : State) (c : Ctx) (n : BitVec 6), s.mode = .dec → s.err = false → 1 ≤ n.toNat → c.toNat + 2 ^ n.toNat ≤ 4096 →
    (s.ipos.toNat + n.toNat ≤ s.ilen.toNat → (∃ sym u, DecodesRtree c n.toNat 1 s sym u) ∧ ∃ t, Runs (.decRtree c n) s t) ∧
    (∀ sym u, DecodesRtree c n.toNat 1 s sym u → sym < 2 ^ n.toNat ∧ exec (.decRtree c n) s = .next { u with result := BitVec.ofNat 32 sym }) ∧
    ∀ m u k, TreeFaults c n.toNat s m u k →
      ∃ t, exec (.decRtree c n) s = .next t ∧ t.err = true ∧ t.errcode = k ∧
        ∀ c', (∀ m',
          OnPath n.toNat (if u.decCode.toNat < split u.decRange (u.probAt (c + BitVec.ofNat 12 m)) then 2 * m else 2 * m + 1) m' →
            c' ≠ c + BitVec.ofNat 12 m') →
          t.probAt c' = s.probAt c'

/-- R351, R354, R355: coding what was decoded with the same command leaves the encoder with the decoder's range and estimators:
both directions narrow and renormalise alike, for modelled bits, direct bits and both trees. -/
def Obligations.EncoderMirrorsDecoder : Prop :=
  ∀ (e e' d d' : State) (j i : Instr), e.encRange = d.decRange → (∀ c, e.probAt c = d.probAt c) →
    e.mode = .enc → d.mode = .dec →
    ((∃ c, j = .decBit c ∧ i = .encBit c (d'.result.getLsbD 0)) ∨ (∃ n, j = .decDirect n ∧ i = .encDirect n) ∨
      (∃ c n, j = .decTree c n ∧ i = .encTree c n) ∨ (∃ c n, j = .decRtree c n ∧ i = .encRtree c n)) →
    Runs j d d' → Runs i { e with arg := d'.result } e' →
    e'.encRange = d'.decRange ∧ ∀ c, e'.probAt c = d'.probAt c

/-- R370: in DEC mode `DEC_FINISH` closes the stream when the code is 0 and every compressed byte was read; otherwise it raises
`CORRUPT_END`, then `TRAILING`, and changes nothing else. In another mode it raises `MODE`; any other word of its opcode
raises `ILLEGAL_CMD`. -/
def Obligations.DecFinishChecksTheEnd : Prop :=
  ∀ s : State,
    (s.mode = .dec → s.decCode = 0 → s.ipos = s.ilen → exec .decFinish s = .next { s with mode := .idle }) ∧
    (s.mode = .dec → s.err = false → s.decCode ≠ 0 →
      exec .decFinish s = .next (faulted .corruptEnd (encode .decFinish) s)) ∧
    (s.mode = .dec → s.err = false → s.decCode = 0 → s.ipos ≠ s.ilen →
      exec .decFinish s = .next (faulted .trailing (encode .decFinish) s)) ∧
    (s.mode ≠ .dec → s.err = false → exec .decFinish s = .next (faulted .mode (encode .decFinish) s)) ∧
    (s.err = false → ∀ w : Word, w.extractLsb' 24 8 = 0x25 → w ≠ 0x25000000 →
      runCommand w s = .next (faulted .illegalCmd w s))

/-! ### Tokens and streams, decoding -/

/-- R440: when a 0 flag and the eight bits of a byte are decoded, `DEC_TOKEN` writes the byte at `OPOS` in `OBUF` and in the window, and
reports it; it records the fault that decoding them records, and with a 0 flag coded and nine compressed bytes left it completes. At
`OPOS` ≥ `OLIM` it raises `OUT_LIMIT` and changes nothing. -/
def Obligations.DecTokenReplaysALiteral : Prop :=
  ∀ (s : State), s.mode = .dec → s.err = false →
    (s.olim.toNat ≤ s.opos.toNat → exec .decToken s = .next (faulted .outLimit (encode .decToken) s)) ∧
    (s.opos.toNat < s.olim.toNat → s.decCode.toNat < split s.decRange (s.probAt (flag s)) →
      s.ipos.toNat + 9 ≤ s.ilen.toNat →
      ∃ u v t m, Runs (.decBit (flag s)) s u ∧ u.result = 0 ∧ DecodesTree (litTree s) 8 1 u m v ∧ Runs .decToken s t) ∧
    (s.opos.toNat < s.olim.toNat → ∀ u v m, Runs (.decBit (flag s)) s u → u.result = 0 → DecodesTree (litTree s) 8 1 u m v →
      ∃ t, exec .decToken s = .next t ∧
        t = { v with
          result := s.result, opos := s.opos + 1, obuf := t.obuf, winbuf := t.winbuf
          prevByte := BitVec.ofNat 8 (m - 256), prevMatch := false
          tokKind := false, tokLit := BitVec.ofNat 8 (m - 256), tokDist := 0, tokLen := 0 } ∧
        (∀ j, t.obufByte j = if j = s.opos.toNat then BitVec.ofNat 8 (m - 256) else s.obufByte j) ∧
        ∀ j, t.winbufAt j = if j = s.opos.toNat % s.win then BitVec.ofNat 8 (m - 256) else s.winbufAt j) ∧
    (s.opos.toNat < s.olim.toNat → ∀ k, (Faults (.decBit (flag s)) s k ∨
      ∃ u v m, Runs (.decBit (flag s)) s u ∧ u.result = 0 ∧ TreeFaults (litTree s) 8 u m v k) → Faults .decToken s k)

/-- R412, R440: a decoded match that lies in the window and fits in the output is replayed byte by byte, each output byte equal to the
one d before it, overlap included. -/
def Obligations.DecTokenReplaysAMatch : Prop :=
  ∀ (s u : State) (d l : Nat), s.mode = .dec → s.err = false → s.opos.toNat < s.olim.toNat → s.WindowOk →
    DecodesMatch s d l u → d ≤ min s.opos.toNat s.win → l ≤ s.olim.toNat - s.opos.toNat →
    ∃ t, exec .decToken s = .next t ∧
      t = { u with
        result := s.result, opos := s.opos + BitVec.ofNat 64 l, obuf := t.obuf, winbuf := t.winbuf
        prevByte := t.obufByte (s.opos.toNat + l - 1), prevMatch := true
        tokKind := true, tokLit := 0, tokDist := BitVec.ofNat 32 d, tokLen := BitVec.ofNat 9 l } ∧
      (∀ j, j < s.opos.toNat ∨ s.opos.toNat + l ≤ j → t.obufByte j = s.obufByte j) ∧
      ∀ k, k < l → t.obufByte (s.opos.toNat + k) = t.obufByte (s.opos.toNat + k - d)

/-- R405, R440: a decoded length above 273 raises `LEN_RANGE`; a distance past the output or the window `DIST_RANGE`; then a match longer
than the output has room for `OUT_LIMIT`. Where decoding the length or the distance records a fault, `DEC_TOKEN` records it. -/
def Obligations.DecTokenRejectsBadMatches : Prop :=
  ∀ s : State, s.mode = .dec → s.err = false → s.opos.toNat < s.olim.toNat →
    (∀ u l, DecodesLength s l u → 273 < l → Faults .decToken s .lenRange) ∧
    (∀ u d l, DecodesMatch s d l u → min s.opos.toNat s.win < d → Faults .decToken s .distRange) ∧
    (∀ u d l, DecodesMatch s d l u → d ≤ min s.opos.toNat s.win → s.olim.toNat - s.opos.toNat < l →
      Faults .decToken s .outLimit) ∧
    (∀ u k, Runs (.decBit (flag s)) s u → u.result = 1 → DecodingFaults 0x900 5 u k → Faults .decToken s k) ∧
    ∀ u l k, DecodesLength s l u → l ≤ 273 → DecodingFaults (distTree l) 6 u k → Faults .decToken s k

/-- R441: `DEC_STREAM` is `DEC_TOKEN` commands until `OPOS` reaches `OLIM`, then `DEC_FINISH`: it completes in the state they leave, with `OPOS`
at `OLIM` and never past it, and records the fault the first of them to fault records. With no token to decode it is `DEC_FINISH` alone,
whose faults leave the state as before (log entry 10). -/
def Obligations.DecStreamIsTheTokenLoop : Prop :=
  ∀ s : State, s.mode = .dec → s.err = false →
    (∀ u t, Tokens s u → Runs .decFinish u t →
      exec .decStream s = .next t ∧ t.mode = .idle ∧ (s.opos.toNat ≤ s.olim.toNat → t.opos = s.olim)) ∧
    (∀ u k, TokenSteps s u → u.opos.toNat < u.olim.toNat → Faults .decToken u k → Faults .decStream s k) ∧
    (∀ u k, Tokens s u → Faults .decFinish u k → Faults .decStream s k) ∧
    (s.olim.toNat ≤ s.opos.toNat →
      (s.decCode = 0 → s.ipos = s.ilen → exec .decStream s = .next { s with mode := .idle }) ∧
      ∀ k, Faults .decFinish s k → exec .decStream s = .next (faulted k (encode .decStream) s))

/-! ### Whole-machine rules and invariants -/

/-- R38, R53, R54, R56, R101: no command but `RESET` writes `ARG`, `ILEN` or `OLIM`, and none writes `CAPS` or `IBUF`. -/
def Obligations.OnlyTheHostWritesItsRegisters : Prop :=
  ∀ (i : Instr) (s t : State), exec i s = .next t →
    t.winExtra = s.winExtra ∧ t.ibuf = s.ibuf ∧ (i ≠ .reset → t.arg = s.arg ∧ t.ilen = s.ilen ∧ t.olim = s.olim)

/-- R54, R102, R502: whatever a command does, faults included, no byte of `OBUF` at or past `OLIM` and none below the `OPOS` it started
at changes. -/
def Obligations.OutputStaysBelowTheLimit : Prop :=
  ∀ (i : Instr) (s t : State) (j : Nat), exec i s = .next t → (s.olim.toNat ≤ j ∨ j < s.opos.toNat) →
    t.obufByte j = s.obufByte j

/-- R39: only `PM_PREDICT`, `DEC_BIT`, `DEC_DIRECT`, `DEC_TREE` and `DEC_RTREE` write `RESULT` (and `RESET` clears it). -/
def Obligations.OnlyFiveCommandsWriteResult : Prop :=
  (∀ (i : Instr) (s t : State), exec i s = .next t → i ≠ .reset → (∀ c, i ≠ .pmPredict c ∧ i ≠ .decBit c) →
    (∀ n, i ≠ .decDirect n) → (∀ c n, i ≠ .decTree c n ∧ i ≠ .decRtree c n) → t.result = s.result) ∧
  State.reset.result = 0

/-- R36: the mode changes only so: to ENC by `ENC_INIT`, to DEC by `DEC_INIT`, to IDLE by `ENC_FLUSH`, `ENC_STREAM`, `DEC_FINISH`,
`DEC_STREAM` and `RESET`; a fault leaves it. -/
def Obligations.ModeTransitions : Prop :=
  ∀ (i : Instr) (s t : State), s.err = false → exec i s = .next t →
    (t.err = true → t.mode = s.mode) ∧
    (t.mode = s.mode ∨ (t.mode = .enc ∧ ∃ lvl, i = .encInit lvl) ∨ (t.mode = .dec ∧ ∃ lvl, i = .decInit lvl) ∨
      (t.mode = .idle ∧ (i = .encFlush ∨ i = .encStream ∨ i = .decFinish ∨ i = .decStream ∨ i = .reset)))

/-- The frame of the encoding commands in every outcome, faults included (R311-R320, R430-R432 "Writes", R502, R503). Besides the error
capture the primitive commands touch the encoder registers, `OPOS`, `OBUF`, the estimators of their bits, `ENC_FLUSH` none, and
only `ENC_FLUSH` `STATUS.MODE`; `ENC_LIT` and `ENC_MATCH` also `IPOS`, `CTXSTATE`, `HEAD` and `CHAIN`, and of the estimators `ENC_LIT` only those of its
nine bits; `ENC_STREAM` also `TOK_KIND`, `TOK_DIST`, `TOK_LEN` and `STATUS.MODE`. -/
def Obligations.EncoderCommandFrame : Prop :=
  (∀ (i : Instr) (s t : State),
    ((∃ c b, i = .encBit c b) ∨ (∃ n, i = .encDirect n) ∨ (∃ c n, i = .encTree c n ∨ i = .encRtree c n) ∨ i = .encFlush) →
    exec i s = .next t →
    t = { s with
      pending := t.pending, err := t.err, errcode := t.errcode, errCmd := t.errCmd, errIpos := t.errIpos, errOpos := t.errOpos
      encLow := t.encLow, encRange := t.encRange, encCache := t.encCache, encCsize := t.encCsize, opos := t.opos
      obuf := t.obuf, obufFree := t.obufFree, prob := t.prob, mode := t.mode, draws := t.draws } ∧
    (i = .encFlush → t.encRange = s.encRange ∧ t.prob = s.prob) ∧ (i ≠ .encFlush → t.mode = s.mode) ∧
    ((∃ n, i = .encDirect n) → t.prob = s.prob) ∧
    (∀ c b, i = .encBit c b → ∀ c', c' ≠ c → t.probAt c' = s.probAt c') ∧
    (∀ c n, i = .encTree c n → ∀ c', c' ∉ (treeBits c n.toNat s.arg.toNat).map Prod.fst → t.probAt c' = s.probAt c') ∧
    ∀ c n, i = .encRtree c n → ∀ c', c' ∉ (rtreeBits c s.arg.toNat n.toNat 1).map Prod.fst → t.probAt c' = s.probAt c') ∧
  (∀ (i : Instr) (s t : State), i = .encLit ∨ i = .encMatch → exec i s = .next t →
    t = { s with
      pending := t.pending, err := t.err, errcode := t.errcode, errCmd := t.errCmd, errIpos := t.errIpos, errOpos := t.errOpos
      encLow := t.encLow, encRange := t.encRange, encCache := t.encCache, encCsize := t.encCsize, opos := t.opos
      obuf := t.obuf, obufFree := t.obufFree, prob := t.prob, head := t.head, chain := t.chain, ipos := t.ipos
      prevByte := t.prevByte, prevMatch := t.prevMatch, draws := t.draws } ∧
    (i = .encLit → s.raced = [] → ∀ c',
      c' ≠ flag s → c' ∉ (treeBits (litTree s) 8 (s.ibufByte s.ipos.toNat).toNat).map Prod.fst → t.probAt c' = s.probAt c')) ∧
  ∀ s t : State, exec .encStream s = .next t →
    t = { s with
      pending := t.pending, err := t.err, errcode := t.errcode, errCmd := t.errCmd, errIpos := t.errIpos, errOpos := t.errOpos
      encLow := t.encLow, encRange := t.encRange, encCache := t.encCache, encCsize := t.encCsize, opos := t.opos
      obuf := t.obuf, obufFree := t.obufFree, prob := t.prob, head := t.head, chain := t.chain, ipos := t.ipos
      prevByte := t.prevByte, prevMatch := t.prevMatch, draws := t.draws
      tokKind := t.tokKind, tokDist := t.tokDist, tokLen := t.tokLen, mode := t.mode }

/-- The frame of the decoding commands in every outcome, faults included (R360-R364, R440, R441 "Writes", R502, R503). The primitive
commands touch, besides the error capture, `RESULT`, `DEC_CODE`, `DEC_RANGE`, `IPOS`, `DEC_BIT` its own estimator and the tree commands those
of their tree, and `OBUF` only by a fault. `DEC_INIT` touches what it opens a stream with, `WINBUF` and `STATUS.MODE` only when it succeeds: that
an accepted `DEC_INIT` may change `WINBUF` (R62 calls it unspecified, R360 unchanged) and that a faulting one leaves it is log entry 11.
`DEC_TOKEN` the decoder, the output, the window, `CTXSTATE` and the `TOK_*` registers; `DEC_STREAM` also `STATUS.MODE`. -/
def Obligations.DecoderCommandFrame : Prop :=
  (∀ (i : Instr) (s t : State),
    ((∃ c, i = .decBit c) ∨ (∃ n, i = .decDirect n) ∨ (∃ c n, i = .decTree c n ∨ i = .decRtree c n)) →
    exec i s = .next t →
    t = { s with
      pending := t.pending, err := t.err, errcode := t.errcode, errCmd := t.errCmd, errIpos := t.errIpos, errOpos := t.errOpos
      result := t.result, decCode := t.decCode, decRange := t.decRange, ipos := t.ipos, prob := t.prob
      obuf := t.obuf, obufFree := t.obufFree, draws := t.draws } ∧
    ((∃ n, i = .decDirect n) → t.prob = s.prob) ∧ (t.err = false → t.obuf = s.obuf ∧ t.obufFree = s.obufFree) ∧
    (∀ c, i = .decBit c → ∀ c', c' ≠ c → t.probAt c' = s.probAt c') ∧
    (∀ c n, i = .decTree c n ∨ i = .decRtree c n → ∀ c' : Ctx,
      (∀ m, 1 ≤ m → m < 2 ^ n.toNat → c' ≠ c + BitVec.ofNat 12 m) → t.probAt c' = s.probAt c')) ∧
  (∀ (s t : State) (lvl : BitVec 6), s.err = false → exec (.decInit lvl) s = .next t →
    t = { s with
      pending := t.pending, err := t.err, errcode := t.errcode, errCmd := t.errCmd, errIpos := t.errIpos, errOpos := t.errOpos
      level := t.level, ipos := t.ipos, opos := t.opos, prevByte := t.prevByte, prevMatch := t.prevMatch
      decCode := t.decCode, decRange := t.decRange, prob := t.prob, winbuf := t.winbuf, mode := t.mode
      obuf := t.obuf, obufFree := t.obufFree, draws := t.draws } ∧
    (t.err = true → t.winbuf = s.winbuf ∧ t.mode = s.mode) ∧
    (t.err = false → t.obuf = s.obuf ∧ t.obufFree = s.obufFree)) ∧
  ∀ (i : Instr) (s t : State), i = .decToken ∨ i = .decStream → exec i s = .next t →
    t = { s with
      pending := t.pending, err := t.err, errcode := t.errcode, errCmd := t.errCmd, errIpos := t.errIpos, errOpos := t.errOpos
      decCode := t.decCode, decRange := t.decRange, ipos := t.ipos, opos := t.opos, prob := t.prob, winbuf := t.winbuf
      obuf := t.obuf, obufFree := t.obufFree, prevByte := t.prevByte, prevMatch := t.prevMatch
      tokKind := t.tokKind, tokLit := t.tokLit, tokDist := t.tokDist, tokLen := t.tokLen, mode := t.mode, draws := t.draws } ∧
    (i = .decToken → t.mode = s.mode)

/-- R66 (d), (e): a command that raises no fault keeps `OPOS` ≤ `OLIM` and `IPOS` ≤ `ILEN`. -/
def Obligations.CursorsStayInBounds : Prop :=
  ∀ (i : Instr) (s t : State), Runs i s t →
    (s.opos ≤ s.olim → t.opos ≤ t.olim) ∧ (s.ipos ≤ s.ilen → t.ipos ≤ t.ilen)

/-- R66 and the canonical forms: every step, of the core or of the host, keeps the machine invariant. -/
def Obligations.StepKeepsInvariant : Prop := ∀ s t : State, s.Inv → step s = .next t → t.Inv

/-- The machine invariant holds after hardware reset. -/
def Obligations.ResetMeetsInvariant : Prop := State.reset.Inv ∧ State.reset.WindowOk

/-- R62, R412: every step keeps the decoder's window equal to the last `WIN` bytes of the output. -/
def Obligations.StepKeepsWindow : Prop := ∀ s t : State, s.WindowOk → step s = .next t → t.WindowOk
end

