-- ==== Sys2Proof/Laws/Memory.lean ====
section
/-! SUPPORT. Laws of the sparse memories: read after write, and every operation keeps the canonical form. -/

namespace Sys2Proof.Machine

variable {α : Type}

@[simp] theorem lookup_nil (i : Nat) : Cells.lookup ([] : List (Nat × α)) i = none := rfl

theorem lookup_insert_same (m : List (Nat × α)) (i : Nat) (v : α) : Cells.lookup (Cells.insert m i v) i = some v := by
  induction m with
  | nil => simp [Cells.insert, Cells.lookup]
  | cons c rest ih =>
    simp only [Cells.insert]
    split
    · simp [Cells.lookup]
    · split
      · simp [Cells.lookup]
      · have : c.1 ≠ i := by omega
        simp [Cells.lookup, this, ih]

theorem lookup_insert_other (m : List (Nat × α)) {i j : Nat} (v : α) (h : j ≠ i) :
    Cells.lookup (Cells.insert m i v) j = Cells.lookup m j := by
  induction m with
  | nil => simp [Cells.insert, Cells.lookup, h.symm]
  | cons c rest ih =>
    simp only [Cells.insert]
    split
    · simp [Cells.lookup, h.symm]
    · split
      · next h2 => subst h2; simp [Cells.lookup, h.symm]
      · simp [Cells.lookup, ih]

/-- Read after write. -/
theorem lookup_insert (m : List (Nat × α)) (i j : Nat) (v : α) :
    Cells.lookup (Cells.insert m i v) j = if j = i then some v else Cells.lookup m j := by
  split
  · next h => rw [h, lookup_insert_same]
  · next h => exact lookup_insert_other m v h

theorem lookup_eraseRange (m : List (Nat × α)) (lo hi i : Nat) :
    Cells.lookup (Cells.eraseRange lo hi m) i = if lo ≤ i ∧ i < hi then none else Cells.lookup m i := by
  induction m with
  | nil => simp [Cells.eraseRange]
  | cons c rest ih =>
    simp only [Cells.eraseRange] at ih ⊢
    simp only [List.filter_cons, Cells.lookup]
    by_cases hc : lo ≤ c.1 ∧ c.1 < hi
    · simp only [hc.1, hc.2, decide_true, Bool.and_true, Bool.not_true, Bool.false_eq_true, if_false, ih]
      by_cases h1 : c.1 = i
      · simp [← h1, hc.1, hc.2]
      · simp [h1]
    · have : (!(decide (lo ≤ c.1) && decide (c.1 < hi))) = true := by
        by_contra hn
        simp only [Bool.not_eq_true, Bool.not_eq_false', Bool.and_eq_true, decide_eq_true_eq] at hn
        exact hc hn
      simp only [this, if_true, Cells.lookup, ih]
      by_cases h1 : c.1 = i
      · simp [h1] at hc ⊢; omega
      · simp [h1]

/-! ### The canonical form -/

theorem risingFrom_mono {hi lo lo' : Nat} {m : List (Nat × α)} (hle : lo' ≤ lo) (h : Cells.risingFrom hi lo m = true) :
    Cells.risingFrom hi lo' m = true := by
  cases m with
  | nil => rfl
  | cons c rest =>
    simp only [Cells.risingFrom, Bool.and_eq_true, decide_eq_true_eq] at h ⊢
    exact ⟨⟨by omega, h.1.2⟩, h.2⟩

theorem risingFrom_insert {hi lo i : Nat} {m : List (Nat × α)} (v : α) (hlo : lo ≤ i) (hhi : i < hi)
    (h : Cells.risingFrom hi lo m = true) : Cells.risingFrom hi lo (Cells.insert m i v) = true := by
  induction m generalizing lo with
  | nil => simp [Cells.insert, Cells.risingFrom, hlo, hhi]
  | cons c rest ih =>
    simp only [Cells.risingFrom, Bool.and_eq_true, decide_eq_true_eq] at h
    simp only [Cells.insert]
    split
    · simp only [Cells.risingFrom, Bool.and_eq_true, decide_eq_true_eq]
      exact ⟨⟨hlo, hhi⟩, ⟨by omega, h.1.2⟩, h.2⟩
    · split
      · next h2 =>
        subst h2
        simp only [Cells.risingFrom, Bool.and_eq_true, decide_eq_true_eq]
        exact ⟨⟨hlo, hhi⟩, h.2⟩
      · simp only [Cells.risingFrom, Bool.and_eq_true, decide_eq_true_eq]
        exact ⟨h.1, ih (by omega) h.2⟩

theorem risingFrom_eraseRange {hi lo : Nat} {m : List (Nat × α)} (a b : Nat) (h : Cells.risingFrom hi lo m = true) :
    Cells.risingFrom hi lo (Cells.eraseRange a b m) = true := by
  induction m generalizing lo with
  | nil => rfl
  | cons c rest ih =>
    simp only [Cells.risingFrom, Bool.and_eq_true, decide_eq_true_eq] at h
    simp only [Cells.eraseRange, List.filter_cons]
    split
    · simp only [Cells.risingFrom, Bool.and_eq_true, decide_eq_true_eq]
      exact ⟨h.1, ih h.2⟩
    · exact risingFrom_mono (by omega) (ih h.2)

/-- A write inside the memory keeps the canonical form. -/
theorem wf_insert {size i : Nat} {m : List (Nat × α)} (v : α) (hi : i < size) (h : Cells.wf size m = true) :
    Cells.wf size (Cells.insert m i v) = true := risingFrom_insert v (Nat.zero_le i) hi h

/-- Unlisting a range keeps the canonical form. -/
theorem wf_eraseRange {size : Nat} {m : List (Nat × α)} (a b : Nat) (h : Cells.wf size m = true) :
    Cells.wf size (Cells.eraseRange a b m) = true := risingFrom_eraseRange a b h

@[simp] theorem wf_nil (size : Nat) : Cells.wf size ([] : List (Nat × α)) = true := rfl

theorem lookup_below {hi lo i : Nat} {m : List (Nat × α)} (h : Cells.risingFrom hi lo m = true) (hi' : i < lo) :
    Cells.lookup m i = none := by
  induction m generalizing lo with
  | nil => rfl
  | cons c rest ih =>
    simp only [Cells.risingFrom, Bool.and_eq_true, decide_eq_true_eq] at h
    have : c.1 ≠ i := by omega
    simp only [Cells.lookup, this, if_false]
    exact ih h.2 (by omega)

theorem ext_of_lookup_from {hi lo : Nat} {m m' : List (Nat × α)} (h : Cells.risingFrom hi lo m = true)
    (h' : Cells.risingFrom hi lo m' = true) (heq : ∀ i, Cells.lookup m i = Cells.lookup m' i) : m = m' := by
  induction m generalizing lo m' with
  | nil =>
    cases m' with
    | nil => rfl
    | cons c' rest' => simpa [Cells.lookup] using heq c'.1
  | cons c rest ih =>
    cases m' with
    | nil => simpa [Cells.lookup] using heq c.1
    | cons c' rest' =>
      simp only [Cells.risingFrom, Bool.and_eq_true, decide_eq_true_eq] at h h'
      have hk : c.1 = c'.1 := by
        rcases Nat.lt_trichotomy c.1 c'.1 with hlt | he | hgt
        · have h1 := heq c.1
          have hn : c'.1 ≠ c.1 := by omega
          simp only [Cells.lookup, if_true, hn, if_false] at h1
          rw [lookup_below h'.2 (by omega)] at h1
          exact absurd h1 (by simp)
        · exact he
        · have h1 := heq c'.1
          have hn : c.1 ≠ c'.1 := by omega
          simp only [Cells.lookup, if_true, hn, if_false] at h1
          rw [lookup_below h.2 (by omega)] at h1
          exact absurd h1.symm (by simp)
      have hv : c.2 = c'.2 := by
        have h1 := heq c.1
        simpa [Cells.lookup, hk] using h1
      have hrest : rest = rest' := by
        refine ih h.2 (hk ▸ h'.2) fun i => ?_
        by_cases hi' : c.1 = i
        · rw [lookup_below h.2 (by omega), lookup_below h'.2 (by omega)]
        · have h1 := heq i
          have hn : c'.1 ≠ i := hk ▸ hi'
          simpa only [Cells.lookup, hi', hn, if_false] using h1
      rw [hrest, show c = c' from Prod.ext hk hv]

/-- Two canonical memories that list the same values are equal. -/
theorem ext_of_lookup {size : Nat} {m m' : List (Nat × α)} (h : Cells.wf size m = true) (h' : Cells.wf size m' = true)
    (heq : ∀ i, Cells.lookup m i = Cells.lookup m' i) : m = m' := ext_of_lookup_from h h' heq

end Sys2Proof.Machine
end

