-- ==== Sys2Proof/Laws/State.lean ====
section
/-! SUPPORT. One lemma per field per named update of State: what the update leaves and what it writes. The updates that
choose between two writes (`State.setProb`, `recordFault`) have their written fields in Laws/Ops.lean. -/

namespace Sys2Proof.Machine

@[simp] theorem State.writeObuf_pending (s : State) (i : Pos) (b : Byte) : (s.writeObuf i b).pending = s.pending := rfl
@[simp] theorem State.writeObuf_err (s : State) (i : Pos) (b : Byte) : (s.writeObuf i b).err = s.err := rfl
@[simp] theorem State.writeObuf_mode (s : State) (i : Pos) (b : Byte) : (s.writeObuf i b).mode = s.mode := rfl
@[simp] theorem State.writeObuf_errcode (s : State) (i : Pos) (b : Byte) : (s.writeObuf i b).errcode = s.errcode := rfl
@[simp] theorem State.writeObuf_level (s : State) (i : Pos) (b : Byte) : (s.writeObuf i b).level = s.level := rfl
@[simp] theorem State.writeObuf_errCmd (s : State) (i : Pos) (b : Byte) : (s.writeObuf i b).errCmd = s.errCmd := rfl
@[simp] theorem State.writeObuf_arg (s : State) (i : Pos) (b : Byte) : (s.writeObuf i b).arg = s.arg := rfl
@[simp] theorem State.writeObuf_result (s : State) (i : Pos) (b : Byte) : (s.writeObuf i b).result = s.result := rfl
@[simp] theorem State.writeObuf_prevByte (s : State) (i : Pos) (b : Byte) : (s.writeObuf i b).prevByte = s.prevByte := rfl
@[simp] theorem State.writeObuf_prevMatch (s : State) (i : Pos) (b : Byte) : (s.writeObuf i b).prevMatch = s.prevMatch := rfl
@[simp] theorem State.writeObuf_tokKind (s : State) (i : Pos) (b : Byte) : (s.writeObuf i b).tokKind = s.tokKind := rfl
@[simp] theorem State.writeObuf_tokLit (s : State) (i : Pos) (b : Byte) : (s.writeObuf i b).tokLit = s.tokLit := rfl
@[simp] theorem State.writeObuf_tokDist (s : State) (i : Pos) (b : Byte) : (s.writeObuf i b).tokDist = s.tokDist := rfl
@[simp] theorem State.writeObuf_tokLen (s : State) (i : Pos) (b : Byte) : (s.writeObuf i b).tokLen = s.tokLen := rfl
@[simp] theorem State.writeObuf_encLow (s : State) (i : Pos) (b : Byte) : (s.writeObuf i b).encLow = s.encLow := rfl
@[simp] theorem State.writeObuf_encRange (s : State) (i : Pos) (b : Byte) : (s.writeObuf i b).encRange = s.encRange := rfl
@[simp] theorem State.writeObuf_encCache (s : State) (i : Pos) (b : Byte) : (s.writeObuf i b).encCache = s.encCache := rfl
@[simp] theorem State.writeObuf_encCsize (s : State) (i : Pos) (b : Byte) : (s.writeObuf i b).encCsize = s.encCsize := rfl
@[simp] theorem State.writeObuf_decCode (s : State) (i : Pos) (b : Byte) : (s.writeObuf i b).decCode = s.decCode := rfl
@[simp] theorem State.writeObuf_decRange (s : State) (i : Pos) (b : Byte) : (s.writeObuf i b).decRange = s.decRange := rfl
@[simp] theorem State.writeObuf_ipos (s : State) (i : Pos) (b : Byte) : (s.writeObuf i b).ipos = s.ipos := rfl
@[simp] theorem State.writeObuf_opos (s : State) (i : Pos) (b : Byte) : (s.writeObuf i b).opos = s.opos := rfl
@[simp] theorem State.writeObuf_ilen (s : State) (i : Pos) (b : Byte) : (s.writeObuf i b).ilen = s.ilen := rfl
@[simp] theorem State.writeObuf_olim (s : State) (i : Pos) (b : Byte) : (s.writeObuf i b).olim = s.olim := rfl
@[simp] theorem State.writeObuf_errIpos (s : State) (i : Pos) (b : Byte) : (s.writeObuf i b).errIpos = s.errIpos := rfl
@[simp] theorem State.writeObuf_errOpos (s : State) (i : Pos) (b : Byte) : (s.writeObuf i b).errOpos = s.errOpos := rfl
@[simp] theorem State.writeObuf_winExtra (s : State) (i : Pos) (b : Byte) : (s.writeObuf i b).winExtra = s.winExtra := rfl
@[simp] theorem State.writeObuf_overrun (s : State) (i : Pos) (b : Byte) : (s.writeObuf i b).overrun = s.overrun := rfl
@[simp] theorem State.writeObuf_prob (s : State) (i : Pos) (b : Byte) : (s.writeObuf i b).prob = s.prob := rfl
@[simp] theorem State.writeObuf_head (s : State) (i : Pos) (b : Byte) : (s.writeObuf i b).head = s.head := rfl
@[simp] theorem State.writeObuf_chain (s : State) (i : Pos) (b : Byte) : (s.writeObuf i b).chain = s.chain := rfl
@[simp] theorem State.writeObuf_winbuf (s : State) (i : Pos) (b : Byte) : (s.writeObuf i b).winbuf = s.winbuf := rfl
@[simp] theorem State.writeObuf_ibuf (s : State) (i : Pos) (b : Byte) : (s.writeObuf i b).ibuf = s.ibuf := rfl
@[simp] theorem State.writeObuf_obuf (s : State) (i : Pos) (b : Byte) : (s.writeObuf i b).obuf = Cells.insert s.obuf i.toNat b := rfl
@[simp] theorem State.writeObuf_obufFree (s : State) (i : Pos) (b : Byte) : (s.writeObuf i b).obufFree = s.obufFree := rfl
@[simp] theorem State.writeObuf_raced (s : State) (i : Pos) (b : Byte) : (s.writeObuf i b).raced = s.raced := rfl
@[simp] theorem State.writeObuf_bus (s : State) (i : Pos) (b : Byte) : (s.writeObuf i b).bus = s.bus := rfl
@[simp] theorem State.writeObuf_draws (s : State) (i : Pos) (b : Byte) : (s.writeObuf i b).draws = s.draws := rfl
@[simp] theorem State.writeObuf_moves (s : State) (i : Pos) (b : Byte) : (s.writeObuf i b).moves = s.moves := rfl

@[simp] theorem State.setProb_pending (s : State) (c : Ctx) (p : Prob) : (s.setProb c p).pending = s.pending := rfl
@[simp] theorem State.setProb_err (s : State) (c : Ctx) (p : Prob) : (s.setProb c p).err = s.err := rfl
@[simp] theorem State.setProb_mode (s : State) (c : Ctx) (p : Prob) : (s.setProb c p).mode = s.mode := rfl
@[simp] theorem State.setProb_errcode (s : State) (c : Ctx) (p : Prob) : (s.setProb c p).errcode = s.errcode := rfl
@[simp] theorem State.setProb_level (s : State) (c : Ctx) (p : Prob) : (s.setProb c p).level = s.level := rfl
@[simp] theorem State.setProb_errCmd (s : State) (c : Ctx) (p : Prob) : (s.setProb c p).errCmd = s.errCmd := rfl
@[simp] theorem State.setProb_arg (s : State) (c : Ctx) (p : Prob) : (s.setProb c p).arg = s.arg := rfl
@[simp] theorem State.setProb_result (s : State) (c : Ctx) (p : Prob) : (s.setProb c p).result = s.result := rfl
@[simp] theorem State.setProb_prevByte (s : State) (c : Ctx) (p : Prob) : (s.setProb c p).prevByte = s.prevByte := rfl
@[simp] theorem State.setProb_prevMatch (s : State) (c : Ctx) (p : Prob) : (s.setProb c p).prevMatch = s.prevMatch := rfl
@[simp] theorem State.setProb_tokKind (s : State) (c : Ctx) (p : Prob) : (s.setProb c p).tokKind = s.tokKind := rfl
@[simp] theorem State.setProb_tokLit (s : State) (c : Ctx) (p : Prob) : (s.setProb c p).tokLit = s.tokLit := rfl
@[simp] theorem State.setProb_tokDist (s : State) (c : Ctx) (p : Prob) : (s.setProb c p).tokDist = s.tokDist := rfl
@[simp] theorem State.setProb_tokLen (s : State) (c : Ctx) (p : Prob) : (s.setProb c p).tokLen = s.tokLen := rfl
@[simp] theorem State.setProb_encLow (s : State) (c : Ctx) (p : Prob) : (s.setProb c p).encLow = s.encLow := rfl
@[simp] theorem State.setProb_encRange (s : State) (c : Ctx) (p : Prob) : (s.setProb c p).encRange = s.encRange := rfl
@[simp] theorem State.setProb_encCache (s : State) (c : Ctx) (p : Prob) : (s.setProb c p).encCache = s.encCache := rfl
@[simp] theorem State.setProb_encCsize (s : State) (c : Ctx) (p : Prob) : (s.setProb c p).encCsize = s.encCsize := rfl
@[simp] theorem State.setProb_decCode (s : State) (c : Ctx) (p : Prob) : (s.setProb c p).decCode = s.decCode := rfl
@[simp] theorem State.setProb_decRange (s : State) (c : Ctx) (p : Prob) : (s.setProb c p).decRange = s.decRange := rfl
@[simp] theorem State.setProb_ipos (s : State) (c : Ctx) (p : Prob) : (s.setProb c p).ipos = s.ipos := rfl
@[simp] theorem State.setProb_opos (s : State) (c : Ctx) (p : Prob) : (s.setProb c p).opos = s.opos := rfl
@[simp] theorem State.setProb_ilen (s : State) (c : Ctx) (p : Prob) : (s.setProb c p).ilen = s.ilen := rfl
@[simp] theorem State.setProb_olim (s : State) (c : Ctx) (p : Prob) : (s.setProb c p).olim = s.olim := rfl
@[simp] theorem State.setProb_errIpos (s : State) (c : Ctx) (p : Prob) : (s.setProb c p).errIpos = s.errIpos := rfl
@[simp] theorem State.setProb_errOpos (s : State) (c : Ctx) (p : Prob) : (s.setProb c p).errOpos = s.errOpos := rfl
@[simp] theorem State.setProb_winExtra (s : State) (c : Ctx) (p : Prob) : (s.setProb c p).winExtra = s.winExtra := rfl
@[simp] theorem State.setProb_overrun (s : State) (c : Ctx) (p : Prob) : (s.setProb c p).overrun = s.overrun := rfl
@[simp] theorem State.setProb_head (s : State) (c : Ctx) (p : Prob) : (s.setProb c p).head = s.head := rfl
@[simp] theorem State.setProb_chain (s : State) (c : Ctx) (p : Prob) : (s.setProb c p).chain = s.chain := rfl
@[simp] theorem State.setProb_winbuf (s : State) (c : Ctx) (p : Prob) : (s.setProb c p).winbuf = s.winbuf := rfl
@[simp] theorem State.setProb_ibuf (s : State) (c : Ctx) (p : Prob) : (s.setProb c p).ibuf = s.ibuf := rfl
@[simp] theorem State.setProb_obuf (s : State) (c : Ctx) (p : Prob) : (s.setProb c p).obuf = s.obuf := rfl
@[simp] theorem State.setProb_obufFree (s : State) (c : Ctx) (p : Prob) : (s.setProb c p).obufFree = s.obufFree := rfl
@[simp] theorem State.setProb_raced (s : State) (c : Ctx) (p : Prob) : (s.setProb c p).raced = s.raced := rfl
@[simp] theorem State.setProb_bus (s : State) (c : Ctx) (p : Prob) : (s.setProb c p).bus = s.bus := rfl
@[simp] theorem State.setProb_draws (s : State) (c : Ctx) (p : Prob) : (s.setProb c p).draws = s.draws := rfl
@[simp] theorem State.setProb_moves (s : State) (c : Ctx) (p : Prob) : (s.setProb c p).moves = s.moves := rfl

@[simp] theorem State.clearProb_pending (s : State) : s.clearProb.pending = s.pending := rfl
@[simp] theorem State.clearProb_err (s : State) : s.clearProb.err = s.err := rfl
@[simp] theorem State.clearProb_mode (s : State) : s.clearProb.mode = s.mode := rfl
@[simp] theorem State.clearProb_errcode (s : State) : s.clearProb.errcode = s.errcode := rfl
@[simp] theorem State.clearProb_level (s : State) : s.clearProb.level = s.level := rfl
@[simp] theorem State.clearProb_errCmd (s : State) : s.clearProb.errCmd = s.errCmd := rfl
@[simp] theorem State.clearProb_arg (s : State) : s.clearProb.arg = s.arg := rfl
@[simp] theorem State.clearProb_result (s : State) : s.clearProb.result = s.result := rfl
@[simp] theorem State.clearProb_prevByte (s : State) : s.clearProb.prevByte = s.prevByte := rfl
@[simp] theorem State.clearProb_prevMatch (s : State) : s.clearProb.prevMatch = s.prevMatch := rfl
@[simp] theorem State.clearProb_tokKind (s : State) : s.clearProb.tokKind = s.tokKind := rfl
@[simp] theorem State.clearProb_tokLit (s : State) : s.clearProb.tokLit = s.tokLit := rfl
@[simp] theorem State.clearProb_tokDist (s : State) : s.clearProb.tokDist = s.tokDist := rfl
@[simp] theorem State.clearProb_tokLen (s : State) : s.clearProb.tokLen = s.tokLen := rfl
@[simp] theorem State.clearProb_encLow (s : State) : s.clearProb.encLow = s.encLow := rfl
@[simp] theorem State.clearProb_encRange (s : State) : s.clearProb.encRange = s.encRange := rfl
@[simp] theorem State.clearProb_encCache (s : State) : s.clearProb.encCache = s.encCache := rfl
@[simp] theorem State.clearProb_encCsize (s : State) : s.clearProb.encCsize = s.encCsize := rfl
@[simp] theorem State.clearProb_decCode (s : State) : s.clearProb.decCode = s.decCode := rfl
@[simp] theorem State.clearProb_decRange (s : State) : s.clearProb.decRange = s.decRange := rfl
@[simp] theorem State.clearProb_ipos (s : State) : s.clearProb.ipos = s.ipos := rfl
@[simp] theorem State.clearProb_opos (s : State) : s.clearProb.opos = s.opos := rfl
@[simp] theorem State.clearProb_ilen (s : State) : s.clearProb.ilen = s.ilen := rfl
@[simp] theorem State.clearProb_olim (s : State) : s.clearProb.olim = s.olim := rfl
@[simp] theorem State.clearProb_errIpos (s : State) : s.clearProb.errIpos = s.errIpos := rfl
@[simp] theorem State.clearProb_errOpos (s : State) : s.clearProb.errOpos = s.errOpos := rfl
@[simp] theorem State.clearProb_winExtra (s : State) : s.clearProb.winExtra = s.winExtra := rfl
@[simp] theorem State.clearProb_overrun (s : State) : s.clearProb.overrun = s.overrun := rfl
@[simp] theorem State.clearProb_prob (s : State) : s.clearProb.prob = ⟨none, []⟩ := rfl
@[simp] theorem State.clearProb_head (s : State) : s.clearProb.head = s.head := rfl
@[simp] theorem State.clearProb_chain (s : State) : s.clearProb.chain = s.chain := rfl
@[simp] theorem State.clearProb_winbuf (s : State) : s.clearProb.winbuf = s.winbuf := rfl
@[simp] theorem State.clearProb_ibuf (s : State) : s.clearProb.ibuf = s.ibuf := rfl
@[simp] theorem State.clearProb_obuf (s : State) : s.clearProb.obuf = s.obuf := rfl
@[simp] theorem State.clearProb_obufFree (s : State) : s.clearProb.obufFree = s.obufFree := rfl
@[simp] theorem State.clearProb_raced (s : State) : s.clearProb.raced = s.raced := rfl
@[simp] theorem State.clearProb_bus (s : State) : s.clearProb.bus = s.bus := rfl
@[simp] theorem State.clearProb_draws (s : State) : s.clearProb.draws = s.draws := rfl
@[simp] theorem State.clearProb_moves (s : State) : s.clearProb.moves = s.moves := rfl

@[simp] theorem State.setHead_pending (s : State) (h : Nat) (p : Pos) : (s.setHead h p).pending = s.pending := rfl
@[simp] theorem State.setHead_err (s : State) (h : Nat) (p : Pos) : (s.setHead h p).err = s.err := rfl
@[simp] theorem State.setHead_mode (s : State) (h : Nat) (p : Pos) : (s.setHead h p).mode = s.mode := rfl
@[simp] theorem State.setHead_errcode (s : State) (h : Nat) (p : Pos) : (s.setHead h p).errcode = s.errcode := rfl
@[simp] theorem State.setHead_level (s : State) (h : Nat) (p : Pos) : (s.setHead h p).level = s.level := rfl
@[simp] theorem State.setHead_errCmd (s : State) (h : Nat) (p : Pos) : (s.setHead h p).errCmd = s.errCmd := rfl
@[simp] theorem State.setHead_arg (s : State) (h : Nat) (p : Pos) : (s.setHead h p).arg = s.arg := rfl
@[simp] theorem State.setHead_result (s : State) (h : Nat) (p : Pos) : (s.setHead h p).result = s.result := rfl
@[simp] theorem State.setHead_prevByte (s : State) (h : Nat) (p : Pos) : (s.setHead h p).prevByte = s.prevByte := rfl
@[simp] theorem State.setHead_prevMatch (s : State) (h : Nat) (p : Pos) : (s.setHead h p).prevMatch = s.prevMatch := rfl
@[simp] theorem State.setHead_tokKind (s : State) (h : Nat) (p : Pos) : (s.setHead h p).tokKind = s.tokKind := rfl
@[simp] theorem State.setHead_tokLit (s : State) (h : Nat) (p : Pos) : (s.setHead h p).tokLit = s.tokLit := rfl
@[simp] theorem State.setHead_tokDist (s : State) (h : Nat) (p : Pos) : (s.setHead h p).tokDist = s.tokDist := rfl
@[simp] theorem State.setHead_tokLen (s : State) (h : Nat) (p : Pos) : (s.setHead h p).tokLen = s.tokLen := rfl
@[simp] theorem State.setHead_encLow (s : State) (h : Nat) (p : Pos) : (s.setHead h p).encLow = s.encLow := rfl
@[simp] theorem State.setHead_encRange (s : State) (h : Nat) (p : Pos) : (s.setHead h p).encRange = s.encRange := rfl
@[simp] theorem State.setHead_encCache (s : State) (h : Nat) (p : Pos) : (s.setHead h p).encCache = s.encCache := rfl
@[simp] theorem State.setHead_encCsize (s : State) (h : Nat) (p : Pos) : (s.setHead h p).encCsize = s.encCsize := rfl
@[simp] theorem State.setHead_decCode (s : State) (h : Nat) (p : Pos) : (s.setHead h p).decCode = s.decCode := rfl
@[simp] theorem State.setHead_decRange (s : State) (h : Nat) (p : Pos) : (s.setHead h p).decRange = s.decRange := rfl
@[simp] theorem State.setHead_ipos (s : State) (h : Nat) (p : Pos) : (s.setHead h p).ipos = s.ipos := rfl
@[simp] theorem State.setHead_opos (s : State) (h : Nat) (p : Pos) : (s.setHead h p).opos = s.opos := rfl
@[simp] theorem State.setHead_ilen (s : State) (h : Nat) (p : Pos) : (s.setHead h p).ilen = s.ilen := rfl
@[simp] theorem State.setHead_olim (s : State) (h : Nat) (p : Pos) : (s.setHead h p).olim = s.olim := rfl
@[simp] theorem State.setHead_errIpos (s : State) (h : Nat) (p : Pos) : (s.setHead h p).errIpos = s.errIpos := rfl
@[simp] theorem State.setHead_errOpos (s : State) (h : Nat) (p : Pos) : (s.setHead h p).errOpos = s.errOpos := rfl
@[simp] theorem State.setHead_winExtra (s : State) (h : Nat) (p : Pos) : (s.setHead h p).winExtra = s.winExtra := rfl
@[simp] theorem State.setHead_overrun (s : State) (h : Nat) (p : Pos) : (s.setHead h p).overrun = s.overrun := rfl
@[simp] theorem State.setHead_prob (s : State) (h : Nat) (p : Pos) : (s.setHead h p).prob = s.prob := rfl
@[simp] theorem State.setHead_head (s : State) (h : Nat) (p : Pos) : (s.setHead h p).head = ⟨s.head.fill, Cells.insert s.head.cells h p⟩ := rfl
@[simp] theorem State.setHead_chain (s : State) (h : Nat) (p : Pos) : (s.setHead h p).chain = s.chain := rfl
@[simp] theorem State.setHead_winbuf (s : State) (h : Nat) (p : Pos) : (s.setHead h p).winbuf = s.winbuf := rfl
@[simp] theorem State.setHead_ibuf (s : State) (h : Nat) (p : Pos) : (s.setHead h p).ibuf = s.ibuf := rfl
@[simp] theorem State.setHead_obuf (s : State) (h : Nat) (p : Pos) : (s.setHead h p).obuf = s.obuf := rfl
@[simp] theorem State.setHead_obufFree (s : State) (h : Nat) (p : Pos) : (s.setHead h p).obufFree = s.obufFree := rfl
@[simp] theorem State.setHead_raced (s : State) (h : Nat) (p : Pos) : (s.setHead h p).raced = s.raced := rfl
@[simp] theorem State.setHead_bus (s : State) (h : Nat) (p : Pos) : (s.setHead h p).bus = s.bus := rfl
@[simp] theorem State.setHead_draws (s : State) (h : Nat) (p : Pos) : (s.setHead h p).draws = s.draws := rfl
@[simp] theorem State.setHead_moves (s : State) (h : Nat) (p : Pos) : (s.setHead h p).moves = s.moves := rfl

@[simp] theorem State.clearHead_pending (s : State) : s.clearHead.pending = s.pending := rfl
@[simp] theorem State.clearHead_err (s : State) : s.clearHead.err = s.err := rfl
@[simp] theorem State.clearHead_mode (s : State) : s.clearHead.mode = s.mode := rfl
@[simp] theorem State.clearHead_errcode (s : State) : s.clearHead.errcode = s.errcode := rfl
@[simp] theorem State.clearHead_level (s : State) : s.clearHead.level = s.level := rfl
@[simp] theorem State.clearHead_errCmd (s : State) : s.clearHead.errCmd = s.errCmd := rfl
@[simp] theorem State.clearHead_arg (s : State) : s.clearHead.arg = s.arg := rfl
@[simp] theorem State.clearHead_result (s : State) : s.clearHead.result = s.result := rfl
@[simp] theorem State.clearHead_prevByte (s : State) : s.clearHead.prevByte = s.prevByte := rfl
@[simp] theorem State.clearHead_prevMatch (s : State) : s.clearHead.prevMatch = s.prevMatch := rfl
@[simp] theorem State.clearHead_tokKind (s : State) : s.clearHead.tokKind = s.tokKind := rfl
@[simp] theorem State.clearHead_tokLit (s : State) : s.clearHead.tokLit = s.tokLit := rfl
@[simp] theorem State.clearHead_tokDist (s : State) : s.clearHead.tokDist = s.tokDist := rfl
@[simp] theorem State.clearHead_tokLen (s : State) : s.clearHead.tokLen = s.tokLen := rfl
@[simp] theorem State.clearHead_encLow (s : State) : s.clearHead.encLow = s.encLow := rfl
@[simp] theorem State.clearHead_encRange (s : State) : s.clearHead.encRange = s.encRange := rfl
@[simp] theorem State.clearHead_encCache (s : State) : s.clearHead.encCache = s.encCache := rfl
@[simp] theorem State.clearHead_encCsize (s : State) : s.clearHead.encCsize = s.encCsize := rfl
@[simp] theorem State.clearHead_decCode (s : State) : s.clearHead.decCode = s.decCode := rfl
@[simp] theorem State.clearHead_decRange (s : State) : s.clearHead.decRange = s.decRange := rfl
@[simp] theorem State.clearHead_ipos (s : State) : s.clearHead.ipos = s.ipos := rfl
@[simp] theorem State.clearHead_opos (s : State) : s.clearHead.opos = s.opos := rfl
@[simp] theorem State.clearHead_ilen (s : State) : s.clearHead.ilen = s.ilen := rfl
@[simp] theorem State.clearHead_olim (s : State) : s.clearHead.olim = s.olim := rfl
@[simp] theorem State.clearHead_errIpos (s : State) : s.clearHead.errIpos = s.errIpos := rfl
@[simp] theorem State.clearHead_errOpos (s : State) : s.clearHead.errOpos = s.errOpos := rfl
@[simp] theorem State.clearHead_winExtra (s : State) : s.clearHead.winExtra = s.winExtra := rfl
@[simp] theorem State.clearHead_overrun (s : State) : s.clearHead.overrun = s.overrun := rfl
@[simp] theorem State.clearHead_prob (s : State) : s.clearHead.prob = s.prob := rfl
@[simp] theorem State.clearHead_head (s : State) : s.clearHead.head = ⟨none, []⟩ := rfl
@[simp] theorem State.clearHead_chain (s : State) : s.clearHead.chain = s.chain := rfl
@[simp] theorem State.clearHead_winbuf (s : State) : s.clearHead.winbuf = s.winbuf := rfl
@[simp] theorem State.clearHead_ibuf (s : State) : s.clearHead.ibuf = s.ibuf := rfl
@[simp] theorem State.clearHead_obuf (s : State) : s.clearHead.obuf = s.obuf := rfl
@[simp] theorem State.clearHead_obufFree (s : State) : s.clearHead.obufFree = s.obufFree := rfl
@[simp] theorem State.clearHead_raced (s : State) : s.clearHead.raced = s.raced := rfl
@[simp] theorem State.clearHead_bus (s : State) : s.clearHead.bus = s.bus := rfl
@[simp] theorem State.clearHead_draws (s : State) : s.clearHead.draws = s.draws := rfl
@[simp] theorem State.clearHead_moves (s : State) : s.clearHead.moves = s.moves := rfl

@[simp] theorem State.setChain_pending (s : State) (j : Nat) (e : Option Pos) : (s.setChain j e).pending = s.pending := rfl
@[simp] theorem State.setChain_err (s : State) (j : Nat) (e : Option Pos) : (s.setChain j e).err = s.err := rfl
@[simp] theorem State.setChain_mode (s : State) (j : Nat) (e : Option Pos) : (s.setChain j e).mode = s.mode := rfl
@[simp] theorem State.setChain_errcode (s : State) (j : Nat) (e : Option Pos) : (s.setChain j e).errcode = s.errcode := rfl
@[simp] theorem State.setChain_level (s : State) (j : Nat) (e : Option Pos) : (s.setChain j e).level = s.level := rfl
@[simp] theorem State.setChain_errCmd (s : State) (j : Nat) (e : Option Pos) : (s.setChain j e).errCmd = s.errCmd := rfl
@[simp] theorem State.setChain_arg (s : State) (j : Nat) (e : Option Pos) : (s.setChain j e).arg = s.arg := rfl
@[simp] theorem State.setChain_result (s : State) (j : Nat) (e : Option Pos) : (s.setChain j e).result = s.result := rfl
@[simp] theorem State.setChain_prevByte (s : State) (j : Nat) (e : Option Pos) : (s.setChain j e).prevByte = s.prevByte := rfl
@[simp] theorem State.setChain_prevMatch (s : State) (j : Nat) (e : Option Pos) : (s.setChain j e).prevMatch = s.prevMatch := rfl
@[simp] theorem State.setChain_tokKind (s : State) (j : Nat) (e : Option Pos) : (s.setChain j e).tokKind = s.tokKind := rfl
@[simp] theorem State.setChain_tokLit (s : State) (j : Nat) (e : Option Pos) : (s.setChain j e).tokLit = s.tokLit := rfl
@[simp] theorem State.setChain_tokDist (s : State) (j : Nat) (e : Option Pos) : (s.setChain j e).tokDist = s.tokDist := rfl
@[simp] theorem State.setChain_tokLen (s : State) (j : Nat) (e : Option Pos) : (s.setChain j e).tokLen = s.tokLen := rfl
@[simp] theorem State.setChain_encLow (s : State) (j : Nat) (e : Option Pos) : (s.setChain j e).encLow = s.encLow := rfl
@[simp] theorem State.setChain_encRange (s : State) (j : Nat) (e : Option Pos) : (s.setChain j e).encRange = s.encRange := rfl
@[simp] theorem State.setChain_encCache (s : State) (j : Nat) (e : Option Pos) : (s.setChain j e).encCache = s.encCache := rfl
@[simp] theorem State.setChain_encCsize (s : State) (j : Nat) (e : Option Pos) : (s.setChain j e).encCsize = s.encCsize := rfl
@[simp] theorem State.setChain_decCode (s : State) (j : Nat) (e : Option Pos) : (s.setChain j e).decCode = s.decCode := rfl
@[simp] theorem State.setChain_decRange (s : State) (j : Nat) (e : Option Pos) : (s.setChain j e).decRange = s.decRange := rfl
@[simp] theorem State.setChain_ipos (s : State) (j : Nat) (e : Option Pos) : (s.setChain j e).ipos = s.ipos := rfl
@[simp] theorem State.setChain_opos (s : State) (j : Nat) (e : Option Pos) : (s.setChain j e).opos = s.opos := rfl
@[simp] theorem State.setChain_ilen (s : State) (j : Nat) (e : Option Pos) : (s.setChain j e).ilen = s.ilen := rfl
@[simp] theorem State.setChain_olim (s : State) (j : Nat) (e : Option Pos) : (s.setChain j e).olim = s.olim := rfl
@[simp] theorem State.setChain_errIpos (s : State) (j : Nat) (e : Option Pos) : (s.setChain j e).errIpos = s.errIpos := rfl
@[simp] theorem State.setChain_errOpos (s : State) (j : Nat) (e : Option Pos) : (s.setChain j e).errOpos = s.errOpos := rfl
@[simp] theorem State.setChain_winExtra (s : State) (j : Nat) (e : Option Pos) : (s.setChain j e).winExtra = s.winExtra := rfl
@[simp] theorem State.setChain_overrun (s : State) (j : Nat) (e : Option Pos) : (s.setChain j e).overrun = s.overrun := rfl
@[simp] theorem State.setChain_prob (s : State) (j : Nat) (e : Option Pos) : (s.setChain j e).prob = s.prob := rfl
@[simp] theorem State.setChain_head (s : State) (j : Nat) (e : Option Pos) : (s.setChain j e).head = s.head := rfl
@[simp] theorem State.setChain_chain (s : State) (j : Nat) (e : Option Pos) : (s.setChain j e).chain = ⟨s.chain.fill, Cells.insert s.chain.cells j e⟩ := rfl
@[simp] theorem State.setChain_winbuf (s : State) (j : Nat) (e : Option Pos) : (s.setChain j e).winbuf = s.winbuf := rfl
@[simp] theorem State.setChain_ibuf (s : State) (j : Nat) (e : Option Pos) : (s.setChain j e).ibuf = s.ibuf := rfl
@[simp] theorem State.setChain_obuf (s : State) (j : Nat) (e : Option Pos) : (s.setChain j e).obuf = s.obuf := rfl
@[simp] theorem State.setChain_obufFree (s : State) (j : Nat) (e : Option Pos) : (s.setChain j e).obufFree = s.obufFree := rfl
@[simp] theorem State.setChain_raced (s : State) (j : Nat) (e : Option Pos) : (s.setChain j e).raced = s.raced := rfl
@[simp] theorem State.setChain_bus (s : State) (j : Nat) (e : Option Pos) : (s.setChain j e).bus = s.bus := rfl
@[simp] theorem State.setChain_draws (s : State) (j : Nat) (e : Option Pos) : (s.setChain j e).draws = s.draws := rfl
@[simp] theorem State.setChain_moves (s : State) (j : Nat) (e : Option Pos) : (s.setChain j e).moves = s.moves := rfl

@[simp] theorem State.setWinbuf_pending (s : State) (j : Nat) (b : Byte) : (s.setWinbuf j b).pending = s.pending := rfl
@[simp] theorem State.setWinbuf_err (s : State) (j : Nat) (b : Byte) : (s.setWinbuf j b).err = s.err := rfl
@[simp] theorem State.setWinbuf_mode (s : State) (j : Nat) (b : Byte) : (s.setWinbuf j b).mode = s.mode := rfl
@[simp] theorem State.setWinbuf_errcode (s : State) (j : Nat) (b : Byte) : (s.setWinbuf j b).errcode = s.errcode := rfl
@[simp] theorem State.setWinbuf_level (s : State) (j : Nat) (b : Byte) : (s.setWinbuf j b).level = s.level := rfl
@[simp] theorem State.setWinbuf_errCmd (s : State) (j : Nat) (b : Byte) : (s.setWinbuf j b).errCmd = s.errCmd := rfl
@[simp] theorem State.setWinbuf_arg (s : State) (j : Nat) (b : Byte) : (s.setWinbuf j b).arg = s.arg := rfl
@[simp] theorem State.setWinbuf_result (s : State) (j : Nat) (b : Byte) : (s.setWinbuf j b).result = s.result := rfl
@[simp] theorem State.setWinbuf_prevByte (s : State) (j : Nat) (b : Byte) : (s.setWinbuf j b).prevByte = s.prevByte := rfl
@[simp] theorem State.setWinbuf_prevMatch (s : State) (j : Nat) (b : Byte) : (s.setWinbuf j b).prevMatch = s.prevMatch := rfl
@[simp] theorem State.setWinbuf_tokKind (s : State) (j : Nat) (b : Byte) : (s.setWinbuf j b).tokKind = s.tokKind := rfl
@[simp] theorem State.setWinbuf_tokLit (s : State) (j : Nat) (b : Byte) : (s.setWinbuf j b).tokLit = s.tokLit := rfl
@[simp] theorem State.setWinbuf_tokDist (s : State) (j : Nat) (b : Byte) : (s.setWinbuf j b).tokDist = s.tokDist := rfl
@[simp] theorem State.setWinbuf_tokLen (s : State) (j : Nat) (b : Byte) : (s.setWinbuf j b).tokLen = s.tokLen := rfl
@[simp] theorem State.setWinbuf_encLow (s : State) (j : Nat) (b : Byte) : (s.setWinbuf j b).encLow = s.encLow := rfl
@[simp] theorem State.setWinbuf_encRange (s : State) (j : Nat) (b : Byte) : (s.setWinbuf j b).encRange = s.encRange := rfl
@[simp] theorem State.setWinbuf_encCache (s : State) (j : Nat) (b : Byte) : (s.setWinbuf j b).encCache = s.encCache := rfl
@[simp] theorem State.setWinbuf_encCsize (s : State) (j : Nat) (b : Byte) : (s.setWinbuf j b).encCsize = s.encCsize := rfl
@[simp] theorem State.setWinbuf_decCode (s : State) (j : Nat) (b : Byte) : (s.setWinbuf j b).decCode = s.decCode := rfl
@[simp] theorem State.setWinbuf_decRange (s : State) (j : Nat) (b : Byte) : (s.setWinbuf j b).decRange = s.decRange := rfl
@[simp] theorem State.setWinbuf_ipos (s : State) (j : Nat) (b : Byte) : (s.setWinbuf j b).ipos = s.ipos := rfl
@[simp] theorem State.setWinbuf_opos (s : State) (j : Nat) (b : Byte) : (s.setWinbuf j b).opos = s.opos := rfl
@[simp] theorem State.setWinbuf_ilen (s : State) (j : Nat) (b : Byte) : (s.setWinbuf j b).ilen = s.ilen := rfl
@[simp] theorem State.setWinbuf_olim (s : State) (j : Nat) (b : Byte) : (s.setWinbuf j b).olim = s.olim := rfl
@[simp] theorem State.setWinbuf_errIpos (s : State) (j : Nat) (b : Byte) : (s.setWinbuf j b).errIpos = s.errIpos := rfl
@[simp] theorem State.setWinbuf_errOpos (s : State) (j : Nat) (b : Byte) : (s.setWinbuf j b).errOpos = s.errOpos := rfl
@[simp] theorem State.setWinbuf_winExtra (s : State) (j : Nat) (b : Byte) : (s.setWinbuf j b).winExtra = s.winExtra := rfl
@[simp] theorem State.setWinbuf_overrun (s : State) (j : Nat) (b : Byte) : (s.setWinbuf j b).overrun = s.overrun := rfl
@[simp] theorem State.setWinbuf_prob (s : State) (j : Nat) (b : Byte) : (s.setWinbuf j b).prob = s.prob := rfl
@[simp] theorem State.setWinbuf_head (s : State) (j : Nat) (b : Byte) : (s.setWinbuf j b).head = s.head := rfl
@[simp] theorem State.setWinbuf_chain (s : State) (j : Nat) (b : Byte) : (s.setWinbuf j b).chain = s.chain := rfl
@[simp] theorem State.setWinbuf_winbuf (s : State) (j : Nat) (b : Byte) : (s.setWinbuf j b).winbuf = ⟨s.winbuf.fill, Cells.insert s.winbuf.cells j b⟩ := rfl
@[simp] theorem State.setWinbuf_ibuf (s : State) (j : Nat) (b : Byte) : (s.setWinbuf j b).ibuf = s.ibuf := rfl
@[simp] theorem State.setWinbuf_obuf (s : State) (j : Nat) (b : Byte) : (s.setWinbuf j b).obuf = s.obuf := rfl
@[simp] theorem State.setWinbuf_obufFree (s : State) (j : Nat) (b : Byte) : (s.setWinbuf j b).obufFree = s.obufFree := rfl
@[simp] theorem State.setWinbuf_raced (s : State) (j : Nat) (b : Byte) : (s.setWinbuf j b).raced = s.raced := rfl
@[simp] theorem State.setWinbuf_bus (s : State) (j : Nat) (b : Byte) : (s.setWinbuf j b).bus = s.bus := rfl
@[simp] theorem State.setWinbuf_draws (s : State) (j : Nat) (b : Byte) : (s.setWinbuf j b).draws = s.draws := rfl
@[simp] theorem State.setWinbuf_moves (s : State) (j : Nat) (b : Byte) : (s.setWinbuf j b).moves = s.moves := rfl

@[simp] theorem drawn_pending (s : State) : (drawn s).pending = s.pending := rfl
@[simp] theorem drawn_err (s : State) : (drawn s).err = s.err := rfl
@[simp] theorem drawn_mode (s : State) : (drawn s).mode = s.mode := rfl
@[simp] theorem drawn_errcode (s : State) : (drawn s).errcode = s.errcode := rfl
@[simp] theorem drawn_level (s : State) : (drawn s).level = s.level := rfl
@[simp] theorem drawn_errCmd (s : State) : (drawn s).errCmd = s.errCmd := rfl
@[simp] theorem drawn_arg (s : State) : (drawn s).arg = s.arg := rfl
@[simp] theorem drawn_result (s : State) : (drawn s).result = s.result := rfl
@[simp] theorem drawn_prevByte (s : State) : (drawn s).prevByte = s.prevByte := rfl
@[simp] theorem drawn_prevMatch (s : State) : (drawn s).prevMatch = s.prevMatch := rfl
@[simp] theorem drawn_tokKind (s : State) : (drawn s).tokKind = s.tokKind := rfl
@[simp] theorem drawn_tokLit (s : State) : (drawn s).tokLit = s.tokLit := rfl
@[simp] theorem drawn_tokDist (s : State) : (drawn s).tokDist = s.tokDist := rfl
@[simp] theorem drawn_tokLen (s : State) : (drawn s).tokLen = s.tokLen := rfl
@[simp] theorem drawn_encLow (s : State) : (drawn s).encLow = s.encLow := rfl
@[simp] theorem drawn_encRange (s : State) : (drawn s).encRange = s.encRange := rfl
@[simp] theorem drawn_encCache (s : State) : (drawn s).encCache = s.encCache := rfl
@[simp] theorem drawn_encCsize (s : State) : (drawn s).encCsize = s.encCsize := rfl
@[simp] theorem drawn_decCode (s : State) : (drawn s).decCode = s.decCode := rfl
@[simp] theorem drawn_decRange (s : State) : (drawn s).decRange = s.decRange := rfl
@[simp] theorem drawn_ipos (s : State) : (drawn s).ipos = s.ipos := rfl
@[simp] theorem drawn_opos (s : State) : (drawn s).opos = s.opos := rfl
@[simp] theorem drawn_ilen (s : State) : (drawn s).ilen = s.ilen := rfl
@[simp] theorem drawn_olim (s : State) : (drawn s).olim = s.olim := rfl
@[simp] theorem drawn_errIpos (s : State) : (drawn s).errIpos = s.errIpos := rfl
@[simp] theorem drawn_errOpos (s : State) : (drawn s).errOpos = s.errOpos := rfl
@[simp] theorem drawn_winExtra (s : State) : (drawn s).winExtra = s.winExtra := rfl
@[simp] theorem drawn_overrun (s : State) : (drawn s).overrun = s.overrun := rfl
@[simp] theorem drawn_prob (s : State) : (drawn s).prob = s.prob := rfl
@[simp] theorem drawn_head (s : State) : (drawn s).head = s.head := rfl
@[simp] theorem drawn_chain (s : State) : (drawn s).chain = s.chain := rfl
@[simp] theorem drawn_winbuf (s : State) : (drawn s).winbuf = s.winbuf := rfl
@[simp] theorem drawn_ibuf (s : State) : (drawn s).ibuf = s.ibuf := rfl
@[simp] theorem drawn_obuf (s : State) : (drawn s).obuf = s.obuf := rfl
@[simp] theorem drawn_obufFree (s : State) : (drawn s).obufFree = s.obufFree := rfl
@[simp] theorem drawn_raced (s : State) : (drawn s).raced = s.raced := rfl
@[simp] theorem drawn_bus (s : State) : (drawn s).bus = s.bus := rfl
@[simp] theorem drawn_draws (s : State) : (drawn s).draws = s.draws + 1 := rfl
@[simp] theorem drawn_moves (s : State) : (drawn s).moves = s.moves := rfl

@[simp] theorem dropTop_pending (s : State) : (dropTop s).pending = s.pending := rfl
@[simp] theorem dropTop_err (s : State) : (dropTop s).err = s.err := rfl
@[simp] theorem dropTop_mode (s : State) : (dropTop s).mode = s.mode := rfl
@[simp] theorem dropTop_errcode (s : State) : (dropTop s).errcode = s.errcode := rfl
@[simp] theorem dropTop_level (s : State) : (dropTop s).level = s.level := rfl
@[simp] theorem dropTop_errCmd (s : State) : (dropTop s).errCmd = s.errCmd := rfl
@[simp] theorem dropTop_arg (s : State) : (dropTop s).arg = s.arg := rfl
@[simp] theorem dropTop_result (s : State) : (dropTop s).result = s.result := rfl
@[simp] theorem dropTop_prevByte (s : State) : (dropTop s).prevByte = s.prevByte := rfl
@[simp] theorem dropTop_prevMatch (s : State) : (dropTop s).prevMatch = s.prevMatch := rfl
@[simp] theorem dropTop_tokKind (s : State) : (dropTop s).tokKind = s.tokKind := rfl
@[simp] theorem dropTop_tokLit (s : State) : (dropTop s).tokLit = s.tokLit := rfl
@[simp] theorem dropTop_tokDist (s : State) : (dropTop s).tokDist = s.tokDist := rfl
@[simp] theorem dropTop_tokLen (s : State) : (dropTop s).tokLen = s.tokLen := rfl
@[simp] theorem dropTop_encLow (s : State) : (dropTop s).encLow = (s.encLow.setWidth 24).setWidth 33 <<< 8 := rfl
@[simp] theorem dropTop_encRange (s : State) : (dropTop s).encRange = s.encRange := rfl
@[simp] theorem dropTop_encCache (s : State) : (dropTop s).encCache = s.encCache := rfl
@[simp] theorem dropTop_encCsize (s : State) : (dropTop s).encCsize = s.encCsize + 1 := rfl
@[simp] theorem dropTop_decCode (s : State) : (dropTop s).decCode = s.decCode := rfl
@[simp] theorem dropTop_decRange (s : State) : (dropTop s).decRange = s.decRange := rfl
@[simp] theorem dropTop_ipos (s : State) : (dropTop s).ipos = s.ipos := rfl
@[simp] theorem dropTop_opos (s : State) : (dropTop s).opos = s.opos := rfl
@[simp] theorem dropTop_ilen (s : State) : (dropTop s).ilen = s.ilen := rfl
@[simp] theorem dropTop_olim (s : State) : (dropTop s).olim = s.olim := rfl
@[simp] theorem dropTop_errIpos (s : State) : (dropTop s).errIpos = s.errIpos := rfl
@[simp] theorem dropTop_errOpos (s : State) : (dropTop s).errOpos = s.errOpos := rfl
@[simp] theorem dropTop_winExtra (s : State) : (dropTop s).winExtra = s.winExtra := rfl
@[simp] theorem dropTop_overrun (s : State) : (dropTop s).overrun = s.overrun := rfl
@[simp] theorem dropTop_prob (s : State) : (dropTop s).prob = s.prob := rfl
@[simp] theorem dropTop_head (s : State) : (dropTop s).head = s.head := rfl
@[simp] theorem dropTop_chain (s : State) : (dropTop s).chain = s.chain := rfl
@[simp] theorem dropTop_winbuf (s : State) : (dropTop s).winbuf = s.winbuf := rfl
@[simp] theorem dropTop_ibuf (s : State) : (dropTop s).ibuf = s.ibuf := rfl
@[simp] theorem dropTop_obuf (s : State) : (dropTop s).obuf = s.obuf := rfl
@[simp] theorem dropTop_obufFree (s : State) : (dropTop s).obufFree = s.obufFree := rfl
@[simp] theorem dropTop_raced (s : State) : (dropTop s).raced = s.raced := rfl
@[simp] theorem dropTop_bus (s : State) : (dropTop s).bus = s.bus := rfl
@[simp] theorem dropTop_draws (s : State) : (dropTop s).draws = s.draws := rfl
@[simp] theorem dropTop_moves (s : State) : (dropTop s).moves = s.moves := rfl

@[simp] theorem recordFault_pending (k : Errcode) (w : Word) (start s : State) : (recordFault k w start s).pending = none := by unfold recordFault; split <;> rfl
@[simp] theorem recordFault_mode (k : Errcode) (w : Word) (start s : State) : (recordFault k w start s).mode = s.mode := by unfold recordFault; split <;> rfl
@[simp] theorem recordFault_level (k : Errcode) (w : Word) (start s : State) : (recordFault k w start s).level = s.level := by unfold recordFault; split <;> rfl
@[simp] theorem recordFault_arg (k : Errcode) (w : Word) (start s : State) : (recordFault k w start s).arg = s.arg := by unfold recordFault; split <;> rfl
@[simp] theorem recordFault_result (k : Errcode) (w : Word) (start s : State) : (recordFault k w start s).result = s.result := by unfold recordFault; split <;> rfl
@[simp] theorem recordFault_prevByte (k : Errcode) (w : Word) (start s : State) : (recordFault k w start s).prevByte = s.prevByte := by unfold recordFault; split <;> rfl
@[simp] theorem recordFault_prevMatch (k : Errcode) (w : Word) (start s : State) : (recordFault k w start s).prevMatch = s.prevMatch := by unfold recordFault; split <;> rfl
@[simp] theorem recordFault_tokKind (k : Errcode) (w : Word) (start s : State) : (recordFault k w start s).tokKind = s.tokKind := by unfold recordFault; split <;> rfl
@[simp] theorem recordFault_tokLit (k : Errcode) (w : Word) (start s : State) : (recordFault k w start s).tokLit = s.tokLit := by unfold recordFault; split <;> rfl
@[simp] theorem recordFault_tokDist (k : Errcode) (w : Word) (start s : State) : (recordFault k w start s).tokDist = s.tokDist := by unfold recordFault; split <;> rfl
@[simp] theorem recordFault_tokLen (k : Errcode) (w : Word) (start s : State) : (recordFault k w start s).tokLen = s.tokLen := by unfold recordFault; split <;> rfl
@[simp] theorem recordFault_encLow (k : Errcode) (w : Word) (start s : State) : (recordFault k w start s).encLow = s.encLow := by unfold recordFault; split <;> rfl
@[simp] theorem recordFault_encRange (k : Errcode) (w : Word) (start s : State) : (recordFault k w start s).encRange = s.encRange := by unfold recordFault; split <;> rfl
@[simp] theorem recordFault_encCache (k : Errcode) (w : Word) (start s : State) : (recordFault k w start s).encCache = s.encCache := by unfold recordFault; split <;> rfl
@[simp] theorem recordFault_encCsize (k : Errcode) (w : Word) (start s : State) : (recordFault k w start s).encCsize = s.encCsize := by unfold recordFault; split <;> rfl
@[simp] theorem recordFault_decCode (k : Errcode) (w : Word) (start s : State) : (recordFault k w start s).decCode = s.decCode := by unfold recordFault; split <;> rfl
@[simp] theorem recordFault_decRange (k : Errcode) (w : Word) (start s : State) : (recordFault k w start s).decRange = s.decRange := by unfold recordFault; split <;> rfl
@[simp] theorem recordFault_ipos (k : Errcode) (w : Word) (start s : State) : (recordFault k w start s).ipos = s.ipos := by unfold recordFault; split <;> rfl
@[simp] theorem recordFault_opos (k : Errcode) (w : Word) (start s : State) : (recordFault k w start s).opos = s.opos := by unfold recordFault; split <;> rfl
@[simp] theorem recordFault_ilen (k : Errcode) (w : Word) (start s : State) : (recordFault k w start s).ilen = s.ilen := by unfold recordFault; split <;> rfl
@[simp] theorem recordFault_olim (k : Errcode) (w : Word) (start s : State) : (recordFault k w start s).olim = s.olim := by unfold recordFault; split <;> rfl
@[simp] theorem recordFault_winExtra (k : Errcode) (w : Word) (start s : State) : (recordFault k w start s).winExtra = s.winExtra := by unfold recordFault; split <;> rfl
@[simp] theorem recordFault_overrun (k : Errcode) (w : Word) (start s : State) : (recordFault k w start s).overrun = s.overrun := by unfold recordFault; split <;> rfl
@[simp] theorem recordFault_prob (k : Errcode) (w : Word) (start s : State) : (recordFault k w start s).prob = s.prob := by unfold recordFault; split <;> rfl
@[simp] theorem recordFault_head (k : Errcode) (w : Word) (start s : State) : (recordFault k w start s).head = s.head := by unfold recordFault; split <;> rfl
@[simp] theorem recordFault_chain (k : Errcode) (w : Word) (start s : State) : (recordFault k w start s).chain = s.chain := by unfold recordFault; split <;> rfl
@[simp] theorem recordFault_winbuf (k : Errcode) (w : Word) (start s : State) : (recordFault k w start s).winbuf = s.winbuf := by unfold recordFault; split <;> rfl
@[simp] theorem recordFault_ibuf (k : Errcode) (w : Word) (start s : State) : (recordFault k w start s).ibuf = s.ibuf := by unfold recordFault; split <;> rfl
@[simp] theorem recordFault_obuf (k : Errcode) (w : Word) (start s : State) : (recordFault k w start s).obuf = s.obuf := by unfold recordFault; split <;> rfl
@[simp] theorem recordFault_obufFree (k : Errcode) (w : Word) (start s : State) : (recordFault k w start s).obufFree = s.obufFree := by unfold recordFault; split <;> rfl
@[simp] theorem recordFault_raced (k : Errcode) (w : Word) (start s : State) : (recordFault k w start s).raced = s.raced := by unfold recordFault; split <;> rfl
@[simp] theorem recordFault_bus (k : Errcode) (w : Word) (start s : State) : (recordFault k w start s).bus = s.bus := by unfold recordFault; split <;> rfl
@[simp] theorem recordFault_draws (k : Errcode) (w : Word) (start s : State) : (recordFault k w start s).draws = s.draws := by unfold recordFault; split <;> rfl
@[simp] theorem recordFault_moves (k : Errcode) (w : Word) (start s : State) : (recordFault k w start s).moves = s.moves := by unfold recordFault; split <;> rfl

@[simp] theorem State.update_pending (s : State) (c : Ctx) (b : Bool) : (s.update c b).pending = s.pending := rfl
@[simp] theorem State.update_err (s : State) (c : Ctx) (b : Bool) : (s.update c b).err = s.err := rfl
@[simp] theorem State.update_mode (s : State) (c : Ctx) (b : Bool) : (s.update c b).mode = s.mode := rfl
@[simp] theorem State.update_errcode (s : State) (c : Ctx) (b : Bool) : (s.update c b).errcode = s.errcode := rfl
@[simp] theorem State.update_level (s : State) (c : Ctx) (b : Bool) : (s.update c b).level = s.level := rfl
@[simp] theorem State.update_errCmd (s : State) (c : Ctx) (b : Bool) : (s.update c b).errCmd = s.errCmd := rfl
@[simp] theorem State.update_arg (s : State) (c : Ctx) (b : Bool) : (s.update c b).arg = s.arg := rfl
@[simp] theorem State.update_result (s : State) (c : Ctx) (b : Bool) : (s.update c b).result = s.result := rfl
@[simp] theorem State.update_prevByte (s : State) (c : Ctx) (b : Bool) : (s.update c b).prevByte = s.prevByte := rfl
@[simp] theorem State.update_prevMatch (s : State) (c : Ctx) (b : Bool) : (s.update c b).prevMatch = s.prevMatch := rfl
@[simp] theorem State.update_tokKind (s : State) (c : Ctx) (b : Bool) : (s.update c b).tokKind = s.tokKind := rfl
@[simp] theorem State.update_tokLit (s : State) (c : Ctx) (b : Bool) : (s.update c b).tokLit = s.tokLit := rfl
@[simp] theorem State.update_tokDist (s : State) (c : Ctx) (b : Bool) : (s.update c b).tokDist = s.tokDist := rfl
@[simp] theorem State.update_tokLen (s : State) (c : Ctx) (b : Bool) : (s.update c b).tokLen = s.tokLen := rfl
@[simp] theorem State.update_encLow (s : State) (c : Ctx) (b : Bool) : (s.update c b).encLow = s.encLow := rfl
@[simp] theorem State.update_encRange (s : State) (c : Ctx) (b : Bool) : (s.update c b).encRange = s.encRange := rfl
@[simp] theorem State.update_encCache (s : State) (c : Ctx) (b : Bool) : (s.update c b).encCache = s.encCache := rfl
@[simp] theorem State.update_encCsize (s : State) (c : Ctx) (b : Bool) : (s.update c b).encCsize = s.encCsize := rfl
@[simp] theorem State.update_decCode (s : State) (c : Ctx) (b : Bool) : (s.update c b).decCode = s.decCode := rfl
@[simp] theorem State.update_decRange (s : State) (c : Ctx) (b : Bool) : (s.update c b).decRange = s.decRange := rfl
@[simp] theorem State.update_ipos (s : State) (c : Ctx) (b : Bool) : (s.update c b).ipos = s.ipos := rfl
@[simp] theorem State.update_opos (s : State) (c : Ctx) (b : Bool) : (s.update c b).opos = s.opos := rfl
@[simp] theorem State.update_ilen (s : State) (c : Ctx) (b : Bool) : (s.update c b).ilen = s.ilen := rfl
@[simp] theorem State.update_olim (s : State) (c : Ctx) (b : Bool) : (s.update c b).olim = s.olim := rfl
@[simp] theorem State.update_errIpos (s : State) (c : Ctx) (b : Bool) : (s.update c b).errIpos = s.errIpos := rfl
@[simp] theorem State.update_errOpos (s : State) (c : Ctx) (b : Bool) : (s.update c b).errOpos = s.errOpos := rfl
@[simp] theorem State.update_winExtra (s : State) (c : Ctx) (b : Bool) : (s.update c b).winExtra = s.winExtra := rfl
@[simp] theorem State.update_overrun (s : State) (c : Ctx) (b : Bool) : (s.update c b).overrun = s.overrun := rfl
@[simp] theorem State.update_head (s : State) (c : Ctx) (b : Bool) : (s.update c b).head = s.head := rfl
@[simp] theorem State.update_chain (s : State) (c : Ctx) (b : Bool) : (s.update c b).chain = s.chain := rfl
@[simp] theorem State.update_winbuf (s : State) (c : Ctx) (b : Bool) : (s.update c b).winbuf = s.winbuf := rfl
@[simp] theorem State.update_ibuf (s : State) (c : Ctx) (b : Bool) : (s.update c b).ibuf = s.ibuf := rfl
@[simp] theorem State.update_obuf (s : State) (c : Ctx) (b : Bool) : (s.update c b).obuf = s.obuf := rfl
@[simp] theorem State.update_obufFree (s : State) (c : Ctx) (b : Bool) : (s.update c b).obufFree = s.obufFree := rfl
@[simp] theorem State.update_raced (s : State) (c : Ctx) (b : Bool) : (s.update c b).raced = s.raced := rfl
@[simp] theorem State.update_bus (s : State) (c : Ctx) (b : Bool) : (s.update c b).bus = s.bus := rfl
@[simp] theorem State.update_draws (s : State) (c : Ctx) (b : Bool) : (s.update c b).draws = s.draws := rfl
@[simp] theorem State.update_moves (s : State) (c : Ctx) (b : Bool) : (s.update c b).moves = s.moves := rfl

end Sys2Proof.Machine
end

