-- ==== Sys2Proof/Laws/Ops.lean ====
section
/-! SUPPORT. One spec lemma per shared operation: what a read gives after a write, what raising and recording a fault can do, and
what each host access and each turn of the core does. Later proofs cite these and unfold nothing. -/

namespace Sys2Proof.Machine

/-! ### Runs -/

@[simp] theorem run_bind_ok {α β : Type} (a : α) (f : α → Run β) : Except.bind (.ok a) f = f a := rfl

@[simp] theorem run_bind_error {α β : Type} (k : Errcode) (f : α → Run β) : Except.bind (.error k) f = .error k := rfl

/-- A sequence completes when its parts do. -/
theorem run_bind_eq_ok {α β : Type} {x : Run α} {f : α → Run β} {b : β} :
    x.bind f = .ok b ↔ ∃ a, x = .ok a ∧ f a = .ok b := by
  cases x <;> simp

/-- A sequence raises the first fault of its parts. -/
theorem run_bind_eq_error {α β : Type} {x : Run α} {f : α → Run β} {k : Errcode} :
    x.bind f = .error k ↔ x = .error k ∨ ∃ a, x = .ok a ∧ f a = .error k := by
  cases x <;> simp

/-! ### The byte memories -/

theorem obufByte_writeObuf (s : State) (i : Pos) (b : Byte) (j : Nat) :
    (s.writeObuf i b).obufByte j = if j = i.toNat then b else s.obufByte j := by
  simp only [State.obufByte, State.writeObuf_obuf, State.writeObuf_obufFree, lookup_insert]
  split_ifs <;> rfl

/-- With no racing host write a read sees the byte `IBUF` holds. -/
@[simp] theorem readIbuf_of_not_raced {s : State} (h : s.raced = []) (site : Config.ReadSite) (i : Nat) :
    s.readIbuf site i = s.ibufByte i := by
  simp [State.readIbuf, h, racedAt]

/-- A read of an index no host write raced on sees the byte `IBUF` holds. -/
theorem readIbuf_of_racedAt {s : State} {i : Nat} (h : racedAt s.raced i = []) (site : Config.ReadSite) :
    s.readIbuf site i = s.ibufByte i := by
  simp [State.readIbuf, h]

/-- A racing read sees the new byte or one that a host write replaced (R121). -/
theorem readIbuf_mem (s : State) (site : Config.ReadSite) (i : Nat) :
    s.readIbuf site i = s.ibufByte i ∨ s.readIbuf site i ∈ racedAt s.raced i := by
  unfold State.readIbuf
  split
  · exact .inl rfl
  · next old olds h =>
    rw [h]
    generalize hk : Config.raceChoice s.draws site % (olds.length + 2) = k
    have hlt : k < olds.length + 2 := by rw [← hk]; exact Nat.mod_lt _ (by omega)
    rw [List.getD_eq_getElem _ _ (by simp only [List.length_cons]; omega)]
    cases k with
    | zero => exact .inl rfl
    | succ k => exact .inr (by simp)

/-- What freeing output bytes changes (R502, R551). -/
theorem looseObufTo_frame (hi : Nat) (s : State) :
    looseObufTo hi s = { s with obuf := (looseObufTo hi s).obuf, obufFree := (looseObufTo hi s).obufFree } := rfl

theorem obufByte_looseObufTo (hi : Nat) (s : State) (i : Nat) (h : i < s.opos.toNat ∨ hi ≤ i) :
    (looseObufTo hi s).obufByte i = s.obufByte i := by
  have hn : ¬ (s.opos.toNat ≤ i ∧ i < hi) := by omega
  have hd : drawAt (looseObufTo hi s).obufFree i = drawAt s.obufFree i := by
    unfold looseObufTo
    dsimp only
    split
    · simp [drawAt, hn]
    · rfl
  simp only [State.obufByte, hd]
  simp only [looseObufTo, lookup_eraseRange, if_neg hn]

theorem obufByte_looseObuf (s : State) (i : Nat) (h : i < s.opos.toNat ∨ s.olim.toNat ≤ i) :
    (looseObuf s).obufByte i = s.obufByte i := obufByte_looseObufTo _ s i h

theorem memory_wf_writeObuf {s : State} (i : Pos) (b : Byte) (h : Memory.wf s.obuf = true) :
    Memory.wf (s.writeObuf i b).obuf = true := wf_insert b i.isLt h

theorem memory_wf_looseObufTo (hi : Nat) {s : State} (h : Memory.wf s.obuf = true) :
    Memory.wf (looseObufTo hi s).obuf = true := wf_eraseRange _ _ h

theorem memory_wf_looseObuf {s : State} (h : Memory.wf s.obuf = true) : Memory.wf (looseObuf s).obuf = true :=
  wf_eraseRange _ _ h

theorem memory_wf_hostFill {s : State} (i : Pos) (b : Byte) (h : Memory.wf s.ibuf = true) :
    Memory.wf (hostFill i b s).ibuf = true := wf_insert b i.isLt h

theorem reset_canonical : State.reset.Canonical := by
  simp [State.Canonical, State.reset, Memory.wf]

/-! ### The internal arrays -/

theorem probAt_setProb (s : State) (c c' : Ctx) (p : Prob) :
    (s.setProb c p).probAt c' = if c' = c then p else s.probAt c' := by
  by_cases hf : s.prob.fill = none ∧ p = Config.probInit
  · simp only [State.probAt, State.setProb, if_pos hf, lookup_eraseRange]
    by_cases hc : c' = c
    · subst hc
      simp [hf.1, hf.2]
    · have hne : c'.toNat ≠ c.toNat := fun h => hc (BitVec.eq_of_toNat_eq h)
      have hn : ¬ (c.toNat ≤ c'.toNat ∧ c'.toNat < c.toNat + 1) := by omega
      rw [if_neg hn, if_neg hc]
  · simp only [State.probAt, State.setProb, if_neg hf, lookup_insert]
    by_cases hc : c' = c
    · simp [hc]
    · have hne : c'.toNat ≠ c.toNat := fun h => hc (BitVec.eq_of_toNat_eq h)
      simp [hc, hne]

@[simp] theorem probAt_setProb_same (s : State) (c : Ctx) (p : Prob) : (s.setProb c p).probAt c = p := by
  simp [probAt_setProb]

@[simp] theorem probAt_clearProb (s : State) (c : Ctx) : s.clearProb.probAt c = Config.probInit := rfl

@[simp] theorem setProb_fill (s : State) (c : Ctx) (p : Prob) : (s.setProb c p).prob.fill = s.prob.fill := rfl

@[simp] theorem setProb_draws (s : State) (c : Ctx) (p : Prob) : (s.setProb c p).draws = s.draws := rfl

/-- Freeing estimators leaves the others (R502). -/
theorem probAt_looseProbs {cs : List Ctx} {c : Ctx} (h : c ∉ cs) (s : State) : (looseProbs cs s).probAt c = s.probAt c := by
  unfold looseProbs
  generalize s.draws = k
  induction cs generalizing s with
  | nil => rfl
  | cons d ds ih =>
    simp only [List.mem_cons, not_or] at h
    rw [List.foldl_cons, ih h.2, probAt_setProb, if_neg h.1]

theorem foldl_setProb (f : Ctx → Prob) (cs : List Ctx) (s : State) :
    cs.foldl (fun t c => t.setProb c (f c)) s = { s with prob := (cs.foldl (fun t c => t.setProb c (f c)) s).prob } := by
  induction cs generalizing s with
  | nil => rfl
  | cons d ds ih => rw [List.foldl_cons, ih]; rfl

/-- What freeing estimators changes (R502). -/
theorem looseProbs_frame (cs : List Ctx) (s : State) : looseProbs cs s = { s with prob := (looseProbs cs s).prob } :=
  foldl_setProb (Config.freeProb s.draws) cs s

theorem prob_wf_setProb {s : State} (c : Ctx) (p : Prob) (h : Cells.wf 4096 s.prob.cells = true) :
    Cells.wf 4096 (s.setProb c p).prob.cells = true := by
  simp only [State.setProb]
  split
  · exact wf_eraseRange _ _ h
  · exact wf_insert p c.isLt h

theorem headAt_setHead (s : State) (h h' : Nat) (p : Pos) :
    (s.setHead h p).headAt h' = if h' = h then some p else s.headAt h' := by
  simp only [State.headAt, State.setHead_head, lookup_insert]
  split_ifs <;> rfl

@[simp] theorem headAt_clearHead (s : State) (h : Nat) : s.clearHead.headAt h = none := rfl

theorem chainAt_setChain (s : State) (j j' : Nat) (e : Option Pos) :
    (s.setChain j e).chainAt j' = if j' = j then e else s.chainAt j' := by
  simp only [State.chainAt, State.setChain_chain, lookup_insert]
  split_ifs <;> rfl

theorem winbufAt_setWinbuf (s : State) (j j' : Nat) (b : Byte) :
    (s.setWinbuf j b).winbufAt j' = if j' = j then b else s.winbufAt j' := by
  simp only [State.winbufAt, State.setWinbuf_winbuf, lookup_insert]
  split_ifs <;> rfl

/-- A hash of three bytes is an index of `HEAD` (R60). -/
theorem hash3_lt (b0 b1 b2 : Byte) : hash3 b0 b1 b2 < 2 ^ 24 := by
  have h0 := b0.isLt
  have h1 := b1.isLt
  have h2 := b2.isLt
  simp only [hash3]
  omega

/-- Every window is a power of two of at most 2^28 bytes (R200). -/
theorem win_pos (s : State) : 0 < s.win := Nat.two_pow_pos _

theorem winLog2_le (n : Nat) : Config.winLog2 n ≤ 28 := by
  unfold Config.winLog2; split <;> omega

theorem win_le (s : State) : s.win ≤ 2 ^ 28 := Nat.pow_le_pow_right (by omega) (winLog2_le _)

/-! ### Faults -/

/-- Recording with `STATUS.ERR` = 0 (R503). -/
theorem recordFault_of_clear {s : State} (h : s.err = false) (k : Errcode) (w : Word) (start : State) :
    recordFault k w start s =
      { s with err := true, errcode := k, errCmd := w, errIpos := start.ipos, errOpos := start.opos, pending := none } := by
  simp [recordFault, h]

/-- The first fault is kept (R503). -/
theorem recordFault_of_set {s : State} (h : s.err = true) (k : Errcode) (w : Word) (start : State) :
    recordFault k w start s = { s with pending := none } := by
  simp [recordFault, h]

/-- A raised fault is recorded (R503). -/
@[simp] theorem recordFault_err (k : Errcode) (w : Word) (start s : State) : (recordFault k w start s).err = true := by
  cases h : s.err <;> simp [recordFault, h]

theorem inMode_of_eq {m : Mode} {s : State} (h : s.mode = m) (w : Word) (body : State) : inMode m w s body = body := by
  simp [inMode, h]

theorem inMode_of_ne {m : Mode} {s : State} (h : s.mode ≠ m) (w : Word) (body : State) :
    inMode m w s body = preFault .mode w s := by
  simp [inMode, h]

/-- A command ends with its body's state or with a recorded fault. -/
theorem finish_cases (w : Word) (start loose : State) (r : Run State) :
    (∃ t, r = .ok t ∧ finish w start loose r = t) ∨
      (∃ k, r = .error k ∧ finish w start loose r = recordFault k w start loose) := by
  cases r <;> simp [finish]

/-- A command that records no fault ended with its body's state. -/
theorem finish_clear {w : Word} {start loose t : State} {r : Run State} (h : finish w start loose r = t)
    (ht : t.err = false) : r = .ok t := by
  cases r with
  | ok u => simpa [finish] using h
  | error k =>
    rw [finish] at h
    rw [← h, recordFault_err] at ht
    cases ht

/-- Every command answers a next state, from every state. -/
theorem exec_next (i : Instr) (s : State) : ∃ t, exec i s = .next t := by
  cases i <;> exact ⟨_, rfl⟩

theorem runCommand_next (w : Word) (s : State) : ∃ t, runCommand w s = .next t := by
  unfold runCommand
  split
  · exact ⟨_, rfl⟩
  · exact exec_next _ s

/-! ### The engine -/

/-- A completed command is not busy (R65). -/
@[simp] theorem complete_pending (start t : State) : (complete start t).pending = none := by
  unfold complete
  split
  · simp
  · rfl

/-- A command during which no overrun was latched completes with its own effect (R65, R507). -/
theorem complete_no_overrun (start : State) {t : State} (h : t.overrun = none) :
    complete start t = { t with pending := none, raced := [], draws := t.draws + 1 } := by
  cases t with
  | mk =>
    dsimp at h
    subst h
    unfold complete
    split
    · next h1 => cases h1
    · rfl

theorem coreTurn_idle {s : State} (h : s.pending = none) : coreTurn s = .next s := by
  simp [coreTurn, h]

theorem coreTurn_busy {s t : State} {w : Word} (h : s.pending = some w) (hr : runCommand w s = .next t) :
    coreTurn s = .next (complete s t) := by
  simp [coreTurn, h, hr]

theorem coreTurn_next (s : State) : ∃ t, coreTurn s = .next t := by
  cases h : s.pending with
  | none => exact ⟨s, coreTurn_idle h⟩
  | some w =>
    obtain ⟨t, ht⟩ := runCommand_next w s
    exact ⟨_, coreTurn_busy h ht⟩

/-- Only a host register access outside the defined ones stops a step (R110, R112). -/
theorem access_next {width off : Nat} {body t : State} (h : access width off body = .next t) :
    off < 0x100 ∧ width = 4 ∧ off % 4 = 0 ∧ t = body := by
  unfold access at h
  split at h
  · cases h
  · split at h
    · next h1 h2 => cases h; exact ⟨by omega, h2.1, h2.2, rfl⟩
    · cases h

/-- No command could write at or past `OLIM` (R54, R551). -/
theorem couldWriteTo_le (s : State) : couldWriteTo s ≤ s.olim.toNat := by
  unfold couldWriteTo
  split
  · omega
  · split
    · omega
    · exact Nat.min_le_left _ _

/-- With nothing running a hardware reset interrupts nothing (R551). -/
theorem couldWriteTo_idle {s : State} (h : s.pending = none) : couldWriteTo s = 0 := by
  simp [couldWriteTo, h]

@[simp] theorem clearedCore_obufByte (s : State) (i : Nat) : (clearedCore s).obufByte i = s.obufByte i := rfl

@[simp] theorem clearedCore_obuf (s : State) : (clearedCore s).obuf = s.obuf := rfl

@[simp] theorem clearedCore_ibuf (s : State) : (clearedCore s).ibuf = s.ibuf := rfl

/-- What hardware reset keeps of `OBUF` (R551). -/
theorem obufByte_hardwareReset (s : State) (i : Nat) (h : i < s.opos.toNat ∨ couldWriteTo s ≤ i) :
    (hardwareReset s).obufByte i = s.obufByte i := by
  rw [hardwareReset, clearedCore_obufByte, obufByte_looseObufTo _ s i h]

theorem memory_wf_hardwareReset {s : State} (h : Memory.wf s.obuf = true) : Memory.wf (hardwareReset s).obuf = true := by
  rw [hardwareReset, clearedCore_obuf]
  exact memory_wf_looseObufTo _ h

/-- What a step can do: nothing is pending or the core completes a command, or the head of `moves` is taken. -/
theorem step_cases {s t : State} (h : step s = .next t) :
    (s.moves = [] ∧ coreTurn s = .next t) ∨
      (∃ m rest, s.moves = m :: rest ∧ takeMove m { s with moves := rest } = .next t) := by
  unfold step nextMove at h
  split at h
  · next h1 => exact .inl ⟨h1, h⟩
  · next m rest h1 => exact .inr ⟨m, rest, h1, h⟩

end Sys2Proof.Machine
end

