-- ==== Sys2Proof/Laws/Coder.lean ====
section
/-! SUPPORT. What the coder procedures can do, once for each: which fields they touch, which output bytes they write, and when the
encoder has room and the decoder input. -/

namespace Sys2Proof.Machine

/-! ### The encoder -/

/-- What the encoder's procedures touch: the encoder registers, `PROB`, and the `OBUF` bytes from the old `OPOS` up to the new one. -/
def EncFrame (s t : State) : Prop :=
  t = { s with
        encLow := t.encLow, encRange := t.encRange, encCache := t.encCache, encCsize := t.encCsize
        opos := t.opos, obuf := t.obuf, prob := t.prob } ∧
  s.opos.toNat ≤ t.opos.toNat ∧
  ∀ i, i < s.opos.toNat ∨ t.opos.toNat ≤ i → t.obufByte i = s.obufByte i

theorem EncFrame.refl (s : State) : EncFrame s s := ⟨rfl, le_rfl, fun _ _ => rfl⟩

theorem EncFrame.trans {s t u : State} (h : EncFrame s t) (h' : EncFrame t u) : EncFrame s u := by
  refine ⟨?_, h.2.1.trans h'.2.1, fun i hi => ?_⟩
  · have h1 := h.1
    have h2 := h'.1
    rw [h2]
    generalize t.encLow = a at h1; generalize t.encRange = b at h1; generalize t.encCache = c at h1
    generalize t.encCsize = d at h1; generalize t.opos = e at h1; generalize t.obuf = f at h1
    generalize t.prob = g at h1
    subst h1
    rfl
  · have := h.2.1
    have := h'.2.1
    rw [h'.2.2 i (by omega), h.2.2 i (by omega)]

/-- `OutByte` writes one byte at `OPOS`, if it is below `OLIM` (R304). -/
theorem outByte_eq_ok {b : Byte} {s t : State} :
    outByte b s = .ok t ↔
      s.opos.toNat < s.olim.toNat ∧ t = { s with obuf := Cells.insert s.obuf s.opos.toNat b, opos := s.opos + 1 } := by
  unfold outByte
  split
  · next h => rw [BitVec.le_def] at h; simp; omega
  · next h =>
    rw [BitVec.le_def] at h
    constructor
    · intro he; cases he; exact ⟨by omega, rfl⟩
    · rintro ⟨-, rfl⟩; rfl

theorem outByte_frame {b : Byte} {s t : State} (h : outByte b s = .ok t) :
    EncFrame s t ∧ t.opos.toNat = s.opos.toNat + 1 ∧ t.encCsize = s.encCsize := by
  obtain ⟨hlt, rfl⟩ := outByte_eq_ok.mp h
  have h1 : (s.opos + 1).toNat = s.opos.toNat + 1 := by
    have := s.olim.isLt
    rw [BitVec.toNat_add]
    simp
    omega
  refine ⟨⟨rfl, by simp only [h1]; omega, fun i hi => ?_⟩, h1, rfl⟩
  simp only [h1] at hi
  have hne : i ≠ s.opos.toNat := by omega
  have h2 := obufByte_writeObuf s s.opos b i
  rw [if_neg hne] at h2
  exact h2

/-- Writing n pending bytes (R301). -/
theorem emitPending_frame {n : Nat} {temp carry : Byte} {s t : State} (h : emitPending n temp carry s = .ok t) :
    EncFrame s t ∧ t.opos.toNat = s.opos.toNat + n ∧ t.encCsize = s.encCsize := by
  induction n generalizing temp s with
  | zero => cases h; exact ⟨.refl _, rfl, rfl⟩
  | succ n ih =>
    obtain ⟨u, hu, ht⟩ := run_bind_eq_ok.mp h
    obtain ⟨f1, p1, c1⟩ := outByte_frame hu
    obtain ⟨f2, p2, c2⟩ := ih ht
    exact ⟨f1.trans f2, by omega, c2.trans c1⟩

theorem emitPending_keeps {n : Nat} {temp carry : Byte} {s t : State} (h : emitPending n temp carry s = .ok t) :
    t.encLow = s.encLow ∧ t.encRange = s.encRange ∧ t.prob = s.prob := by
  induction n generalizing temp s with
  | zero => cases h; exact ⟨rfl, rfl, rfl⟩
  | succ n ih =>
    obtain ⟨u, hu, ht⟩ := run_bind_eq_ok.mp h
    obtain ⟨-, rfl⟩ := outByte_eq_ok.mp hu
    have hk := ih ht
    exact hk

theorem emitPending_room {n : Nat} (temp carry : Byte) {s : State} (h : s.opos.toNat + n ≤ s.olim.toNat) :
    ∃ t, emitPending n temp carry s = .ok t := by
  induction n generalizing temp s with
  | zero => exact ⟨s, rfl⟩
  | succ n ih =>
    have hu := (outByte_eq_ok (b := temp + carry) (s := s)).mpr ⟨by omega, rfl⟩
    obtain ⟨-, hp, -⟩ := outByte_frame hu
    obtain ⟨t, ht⟩ := ih 0xFF#8
      (s := { s with obuf := Cells.insert s.obuf s.opos.toNat (temp + carry), opos := s.opos + 1 })
      (by rw [hp]; show _ ≤ s.olim.toNat; omega)
    exact ⟨t, run_bind_eq_ok.mpr ⟨_, hu, ht⟩⟩

theorem dropTop_frame (s : State) : EncFrame s (dropTop s) := ⟨rfl, le_rfl, fun _ _ => rfl⟩

/-- `ShiftLow` (R301): its frame, and "each call adds exactly 1 to `OPOS + ENC_CSIZE`" (modulo 2^64 in `ENC_CSIZE`). -/
theorem shiftLow_frame {s t : State} (h : shiftLow s = .ok t) :
    EncFrame s t ∧ t.encLow = (s.encLow.setWidth 24).setWidth 33 <<< 8 ∧ t.encRange = s.encRange ∧ t.prob = s.prob := by
  unfold shiftLow at h
  split at h
  · obtain ⟨u, hu, ht⟩ := run_bind_eq_ok.mp h
    obtain ⟨f, -, -⟩ := emitPending_frame hu
    have hl := emitPending_keeps hu
    cases ht
    refine ⟨f.trans ⟨rfl, le_rfl, fun _ _ => rfl⟩, ?_, hl.2.1, hl.2.2⟩
    rw [← hl.1]
    rfl
  · cases h
    exact ⟨dropTop_frame s, rfl, rfl, rfl⟩

theorem shiftLow_room {s : State} (h : s.opos.toNat + s.encCsize.toNat ≤ s.olim.toNat) : ∃ t, shiftLow s = .ok t := by
  unfold shiftLow
  split
  · obtain ⟨u, hu⟩ := emitPending_room s.encCache (carryByte s) h
    exact ⟨_, run_bind_eq_ok.mpr ⟨u, hu, rfl⟩⟩
  · exact ⟨_, rfl⟩

/-- "Each call adds exactly 1 to `OPOS + ENC_CSIZE`" (R301), while `ENC_CSIZE` is below its largest value. -/
theorem shiftLow_count {s t : State} (h : shiftLow s = .ok t) (hc : s.encCsize.toNat + 1 < 2 ^ 64) :
    t.opos.toNat + t.encCsize.toNat = s.opos.toNat + s.encCsize.toNat + 1 := by
  unfold shiftLow at h
  split at h
  · obtain ⟨u, hu, ht⟩ := run_bind_eq_ok.mp h
    obtain ⟨-, hp, -⟩ := emitPending_frame hu
    cases ht
    show u.opos.toNat + ((0 : Pos) + 1).toNat = _
    simp [hp]
  · cases h
    show s.opos.toNat + (s.encCsize + 1).toNat = _
    rw [BitVec.toNat_add]
    simp
    omega

theorem normalizeEnc_frame {s t : State} (h : normalizeEnc s = .ok t) : EncFrame s t ∧ t.prob = s.prob := by
  unfold normalizeEnc at h
  split at h
  · obtain ⟨f, -, -, hp⟩ := shiftLow_frame h
    exact ⟨EncFrame.trans ⟨rfl, le_rfl, fun _ _ => rfl⟩ f, hp⟩
  · cases h; exact ⟨.refl _, rfl⟩

theorem normalizeEnc_room {s : State} (h : s.opos.toNat + s.encCsize.toNat ≤ s.olim.toNat) :
    ∃ t, normalizeEnc s = .ok t := by
  unfold normalizeEnc
  split
  · exact shiftLow_room h
  · exact ⟨s, rfl⟩

theorem narrow_frame (c : Ctx) (b : Bool) (s : State) : EncFrame s ((narrow c b s).update c b) := by
  cases b <;> exact ⟨rfl, le_rfl, fun _ _ => rfl⟩

/-- `EncodeBit` (R300) touches the encoder, one estimator, and the bytes it writes. -/
theorem encodeBit_frame {c : Ctx} {b : Bool} {s t : State} (h : encodeBit c b s = .ok t) : EncFrame s t :=
  (narrow_frame c b s).trans (normalizeEnc_frame h).1

/-- `EncodeBit` updates its own estimator only (R252). -/
theorem encodeBit_probAt {c : Ctx} {b : Bool} {s t : State} (h : encodeBit c b s = .ok t) (c' : Ctx) :
    t.probAt c' = if c' = c then adapt (s.probAt c) b else s.probAt c' := by
  have hp := (normalizeEnc_frame h).2
  have hn : ∀ d, (narrow c b s).probAt d = s.probAt d := fun d => by cases b <;> rfl
  have h1 : t.probAt c' = ((narrow c b s).update c b).probAt c' := by simp only [State.probAt, hp]
  rw [h1, State.update, probAt_setProb, hn, hn]

theorem narrowDirect_frame (b : Bool) (s : State) : EncFrame s (narrowDirect b s) := by
  cases b <;> exact ⟨rfl, le_rfl, fun _ _ => rfl⟩

/-- `EncodeDirect` (R303) touches the encoder and the bytes it writes. -/
theorem encodeDirect_frame {v : Word} {n : Nat} {s t : State} (h : encodeDirect v n s = .ok t) :
    EncFrame s t ∧ t.prob = s.prob := by
  induction n generalizing s with
  | zero => cases h; exact ⟨.refl _, rfl⟩
  | succ n ih =>
    obtain ⟨u, hu, ht⟩ := run_bind_eq_ok.mp h
    obtain ⟨f, hp⟩ := normalizeEnc_frame hu
    obtain ⟨f', hp'⟩ := ih ht
    refine ⟨((narrowDirect_frame _ s).trans f).trans f', ?_⟩
    rw [hp', hp]
    cases v.getLsbD n <;> rfl

theorem encodeTreeFrom_frame {base : Ctx} {sym : Word} {n m : Nat} {s t : State}
    (h : encodeTreeFrom base sym n m s = .ok t) : EncFrame s t := by
  induction n generalizing m s with
  | zero => cases h; exact .refl _
  | succ n ih =>
    obtain ⟨u, hu, ht⟩ := run_bind_eq_ok.mp h
    exact (encodeBit_frame hu).trans (ih ht)

theorem encodeRtreeFrom_frame {base : Ctx} {sym : Word} {n i m : Nat} {s t : State}
    (h : encodeRtreeFrom base sym n i m s = .ok t) : EncFrame s t := by
  induction n generalizing i m s with
  | zero => cases h; exact .refl _
  | succ n ih =>
    obtain ⟨u, hu, ht⟩ := run_bind_eq_ok.mp h
    exact (encodeBit_frame hu).trans (ih ht)

theorem encodeSlotValue_frame {base : Ctx} {nbits v : Nat} {s t : State}
    (h : encodeSlotValue base nbits v s = .ok t) : EncFrame s t := by
  obtain ⟨u, hu, ht⟩ := run_bind_eq_ok.mp h
  exact (encodeTreeFrom_frame hu).trans (encodeDirect_frame ht).1

theorem encodeLiteralToken_frame {b : Byte} {s t : State} (h : encodeLiteralToken b s = .ok t) : EncFrame s t := by
  obtain ⟨u, hu, ht⟩ := run_bind_eq_ok.mp h
  exact (encodeBit_frame hu).trans (encodeTreeFrom_frame ht)

theorem encodeMatchToken_frame {d l : Nat} {s t : State} (h : encodeMatchToken d l s = .ok t) : EncFrame s t := by
  obtain ⟨u, hu, h⟩ := run_bind_eq_ok.mp h
  obtain ⟨v, hv, ht⟩ := run_bind_eq_ok.mp h
  exact ((encodeBit_frame hu).trans (encodeSlotValue_frame hv)).trans (encodeSlotValue_frame ht)

/-! ### The decoder -/

/-- What the decoder's procedures touch: the decoder registers, `IPOS` and `PROB`. -/
def DecFrame (s t : State) : Prop :=
  t = { s with decCode := t.decCode, decRange := t.decRange, ipos := t.ipos, prob := t.prob } ∧
  s.ipos.toNat ≤ t.ipos.toNat

theorem DecFrame.refl (s : State) : DecFrame s s := ⟨rfl, le_rfl⟩

theorem DecFrame.trans {s t u : State} (h : DecFrame s t) (h' : DecFrame t u) : DecFrame s u := by
  refine ⟨?_, h.2.trans h'.2⟩
  have h1 := h.1
  have h2 := h'.1
  rw [h2]
  generalize t.decCode = a at h1; generalize t.decRange = b at h1
  generalize t.ipos = c at h1; generalize t.prob = d at h1
  subst h1
  rfl

/-- `InByte` consumes one byte, if `IPOS` is below `ILEN` (R351). -/
theorem inByte_eq_ok {s : State} {r : Byte × State} :
    inByte s = .ok r ↔ s.ipos.toNat < s.ilen.toNat ∧
      r = (s.readIbuf (.compressed s.ipos.toNat) s.ipos.toNat, { s with ipos := s.ipos + 1 }) := by
  unfold inByte
  split
  · next h => rw [BitVec.le_def] at h; simp; omega
  · next h =>
    rw [BitVec.le_def] at h
    constructor
    · intro he; cases he; exact ⟨by omega, rfl⟩
    · rintro ⟨-, rfl⟩; rfl

/-- `InByte` raises `TRUNCATED` exactly at `IPOS` ≥ `ILEN` (R351). -/
theorem inByte_eq_error {s : State} {k : Errcode} :
    inByte s = .error k ↔ s.ilen.toNat ≤ s.ipos.toNat ∧ k = .truncated := by
  unfold inByte
  split
  · next h => rw [BitVec.le_def] at h; simp [h, eq_comm]
  · next h => rw [BitVec.le_def] at h; simp; omega

theorem ipos_succ {s : State} (h : s.ipos.toNat < s.ilen.toNat) : (s.ipos + 1).toNat = s.ipos.toNat + 1 := by
  have := s.ilen.isLt
  rw [BitVec.toNat_add]
  simp
  omega

theorem refill_frame {s t : State} (h : refill s = .ok t) : DecFrame s t ∧ t.ipos.toNat = s.ipos.toNat + 1 := by
  obtain ⟨r, hr, ht⟩ := run_bind_eq_ok.mp h
  obtain ⟨hlt, rfl⟩ := inByte_eq_ok.mp hr
  cases ht
  exact ⟨⟨rfl, by show _ ≤ (s.ipos + 1).toNat; rw [ipos_succ hlt]; omega⟩, ipos_succ hlt⟩

theorem refill_input {s : State} (h : s.ipos.toNat < s.ilen.toNat) : ∃ t, refill s = .ok t :=
  ⟨_, run_bind_eq_ok.mpr ⟨_, inByte_eq_ok.mpr ⟨h, rfl⟩, rfl⟩⟩

/-- One refill at most (R351). -/
theorem normalizeDec_frame {s t : State} (h : normalizeDec s = .ok t) :
    DecFrame s t ∧ t.ipos.toNat ≤ s.ipos.toNat + 1 := by
  unfold normalizeDec at h
  split at h
  · obtain ⟨f, hp⟩ := refill_frame h
    exact ⟨DecFrame.trans ⟨rfl, le_rfl⟩ f, le_of_eq hp⟩
  · cases h; exact ⟨.refl _, by omega⟩

theorem normalizeDec_input {s : State} (h : s.ipos.toNat < s.ilen.toNat) : ∃ t, normalizeDec s = .ok t := by
  unfold normalizeDec
  split
  · exact refill_input h
  · exact ⟨s, rfl⟩

theorem narrowDec_frame (c : Ctx) (b : Bool) (s : State) :
    DecFrame s ((narrowDec c b s).update c b) ∧ ((narrowDec c b s).update c b).ipos = s.ipos := by
  cases b <;> exact ⟨⟨rfl, le_rfl⟩, rfl⟩

/-- `DecodeBit` (R352) touches the decoder and one estimator, and reads at most one byte. -/
theorem decodeBit_frame {c : Ctx} {s : State} {r : Bool × State} (h : decodeBit c s = .ok r) :
    r.1 = codedBit c s ∧ DecFrame s r.2 ∧ r.2.ipos.toNat ≤ s.ipos.toNat + 1 := by
  obtain ⟨t, ht, hr⟩ := run_bind_eq_ok.mp h
  cases hr
  obtain ⟨f, hi⟩ := narrowDec_frame c (codedBit c s) s
  obtain ⟨f', hp⟩ := normalizeDec_frame ht
  exact ⟨rfl, f.trans f', hi ▸ hp⟩

theorem decodeBit_input (c : Ctx) {s : State} (h : s.ipos.toNat < s.ilen.toNat) : ∃ r, decodeBit c s = .ok r := by
  obtain ⟨f, hi⟩ := narrowDec_frame c (codedBit c s) s
  have hl : ((narrowDec c (codedBit c s) s).update c (codedBit c s)).ilen = s.ilen := by rw [f.1]
  obtain ⟨t, ht⟩ := normalizeDec_input (s := (narrowDec c (codedBit c s) s).update c (codedBit c s))
    (by rw [hi, hl]; exact h)
  exact ⟨_, run_bind_eq_ok.mpr ⟨t, ht, rfl⟩⟩

theorem decodeTreeFrom_frame {base : Ctx} {n m : Nat} {s : State} {r : Nat × State}
    (h : decodeTreeFrom base n m s = .ok r) : DecFrame s r.2 := by
  induction n generalizing m s with
  | zero => cases h; exact .refl _
  | succ n ih =>
    obtain ⟨u, hu, hr⟩ := run_bind_eq_ok.mp h
    exact (decodeBit_frame hu).2.1.trans (ih hr)

/-- n bits from node m reach a node of level n below m: so a decoded symbol is below 2^n (R363). -/
theorem decodeTreeFrom_range {base : Ctx} {n m : Nat} {s : State} {r : Nat × State}
    (h : decodeTreeFrom base n m s = .ok r) : m * 2 ^ n ≤ r.1 ∧ r.1 < (m + 1) * 2 ^ n := by
  induction n generalizing m s with
  | zero => cases h; simp
  | succ n ih =>
    obtain ⟨u, hu, hr⟩ := run_bind_eq_ok.mp h
    have h1 := ih hr
    have hb : bit u.1 ≤ 1 := by cases u.1 <;> simp [bit]
    have hp : 0 < 2 ^ n := Nat.two_pow_pos n
    have e1 : m * 2 ^ (n + 1) = (2 * m) * 2 ^ n := by rw [Nat.pow_succ]; ring
    have e2 : (m + 1) * 2 ^ (n + 1) = (2 * m + 2) * 2 ^ n := by rw [Nat.pow_succ]; ring
    rw [e1, e2]
    exact ⟨(Nat.mul_le_mul_right _ (by omega)).trans h1.1, h1.2.trans_le (Nat.mul_le_mul_right _ (by omega))⟩

/-- The nodes of the n levels from m down (R305): those that lead back to m in fewer than n halvings. -/
theorem mem_subtree {base c : Ctx} {n m : Nat} :
    c ∈ subtree base n m ↔ ∃ j m', j < n ∧ m' / 2 ^ j = m ∧ c = node base m' := by
  induction n generalizing m with
  | zero => simp [subtree]
  | succ n ih =>
    simp only [subtree, List.mem_cons, List.mem_append, ih]
    constructor
    · rintro (rfl | ⟨j, m', hj, hm, rfl⟩ | ⟨j, m', hj, hm, rfl⟩)
      · exact ⟨0, m, by omega, by simp, rfl⟩
      all_goals
        refine ⟨j + 1, m', by omega, ?_, rfl⟩
        rw [Nat.pow_succ, ← Nat.div_div_eq_div_mul, hm]
        omega
    · rintro ⟨j, m', hj, hm, rfl⟩
      cases j with
      | zero => left; simp at hm; rw [hm]
      | succ j =>
        right
        rw [Nat.pow_succ, ← Nat.div_div_eq_div_mul] at hm
        rcases Nat.mod_two_eq_zero_or_one (m' / 2 ^ j) with h0 | h1
        · exact .inl ⟨j, m', by omega, by omega, rfl⟩
        · exact .inr ⟨j, m', by omega, by omega, rfl⟩

/-- What a fault of a tree decode can leave unspecified from node m with n bits to go is in the subtree of m (R502). -/
theorem reach_sub_subtree {base : Ctx} {n m : Nat} {s : State} : ∀ c ∈ reach base n m s, c ∈ subtree base n m := by
  induction n generalizing m s with
  | zero => exact fun _ h => h
  | succ n ih =>
    intro c hc
    have hb : ∀ (b : Bool) (c : Ctx), c ∈ subtree base n (2 * m + bit b) →
        c ∈ subtree base n (2 * m) ++ subtree base n (2 * m + 1) := by
      intro b c h; cases b <;> simp_all [bit]
    simp only [reach, List.mem_cons] at hc
    rcases hc with rfl | hc
    · exact List.mem_cons_self
    · refine List.mem_cons_of_mem _ ?_
      split at hc
      · exact hb _ _ (ih _ hc)
      · exact hb _ _ hc

theorem decodeRtreeFrom_frame {base : Ctx} {n i m sym : Nat} {s : State} {r : Nat × State}
    (h : decodeRtreeFrom base n i m sym s = .ok r) : DecFrame s r.2 := by
  induction n generalizing i m sym s with
  | zero => cases h; exact .refl _
  | succ n ih =>
    obtain ⟨u, hu, hr⟩ := run_bind_eq_ok.mp h
    exact (decodeBit_frame hu).2.1.trans (ih hr)

theorem decodeDirectFrom_frame {n : Nat} {v : Word} {s : State} {r : Word × State}
    (h : decodeDirectFrom n v s = .ok r) : DecFrame s r.2 ∧ r.2.prob = s.prob := by
  induction n generalizing v s with
  | zero => cases h; exact ⟨.refl _, rfl⟩
  | succ n ih =>
    obtain ⟨u, hu, hr⟩ := run_bind_eq_ok.mp h
    obtain ⟨f, -⟩ := normalizeDec_frame hu
    obtain ⟨f', hp⟩ := ih hr
    have f0 : DecFrame s (narrowDecDirect (codedDirect s) s) := by
      cases codedDirect s <;> exact ⟨rfl, le_rfl⟩
    refine ⟨(f0.trans f).trans f', ?_⟩
    rw [hp]
    unfold normalizeDec at hu
    split at hu
    · obtain ⟨x, hx, hu⟩ := run_bind_eq_ok.mp hu
      obtain ⟨-, rfl⟩ := inByte_eq_ok.mp hx
      cases hu
      cases codedDirect s <;> rfl
    · cases hu
      cases codedDirect s <;> rfl

/-! ### The estimators -/

/-- The new estimate, exactly (R251): no wrap can occur. -/
theorem adapt_toNat (p : Prob) (b : Bool) :
    (adapt p b).toNat = if b then p.toNat - p.toNat / 32 else p.toNat + (2048 - p.toNat) / 32 := by
  have hp := p.isLt
  cases b
  · simp only [adapt, Config.adaptShift, Bool.false_eq_true, if_false, BitVec.toNat_ofNat, Nat.shiftRight_eq_div_pow]
    rw [Nat.mod_eq_of_lt]; omega
  · simp only [adapt, Config.adaptShift, if_true, BitVec.toNat_ofNat, Nat.shiftRight_eq_div_pow]
    rw [Nat.mod_eq_of_lt]; omega

/-- R251: an estimator in [31, 2017] stays there. -/
theorem adapt_range (p : Prob) (b : Bool) (h : 31 ≤ p.toNat ∧ p.toNat ≤ 2017) :
    31 ≤ (adapt p b).toNat ∧ (adapt p b).toNat ≤ 2017 := by
  rw [adapt_toNat]
  cases b <;> simp only [Bool.false_eq_true, if_false, if_true] <;> omega

end Sys2Proof.Machine
end

