-- ==== Sys2Proof/Laws/PerInstr.lean ====
section
/-! SUPPORT. A fact of every command as syntax: its word carries the opcode of its row of R154 in bits [31:24]. -/

namespace Sys2Proof.Laws.OpcodeField

/-- Column `OPC` of R154. -/
def opcode : Instr → BitVec 8
  | .nop => 0x00
  | .reset => 0x01
  | .pmReset => 0x08
  | .pmPredict _ => 0x09
  | .pmUpdate _ _ => 0x0A
  | .encInit _ => 0x10
  | .encBit _ _ => 0x11
  | .encDirect _ => 0x12
  | .encTree _ _ => 0x13
  | .encRtree _ _ => 0x14
  | .encFlush => 0x15
  | .mfFind => 0x18
  | .decInit _ => 0x20
  | .decBit _ => 0x21
  | .decDirect _ => 0x22
  | .decTree _ _ => 0x23
  | .decRtree _ _ => 0x24
  | .decFinish => 0x25
  | .encLit => 0x30
  | .encMatch => 0x31
  | .encStream => 0x32
  | .decToken => 0x38
  | .decStream => 0x39

/-- The word of the command has its row's opcode (R151, R161). -/
def Statement (i : Instr) : Prop := opcField (encode i) = opcode i

/-- The fields below bit 24 leave `OPC` alone (R161). -/
theorem opcField_commandWord (opc : BitVec 8) (ctx : Ctx) (b : Bool) (n : BitVec 6) :
    opcField (commandWord opc ctx b n) = opc := by
  apply BitVec.eq_of_getLsbD_eq
  intro i hi
  have h1 : 24 + i < 32 := by omega
  have h2 : ¬ (24 + i < 24) := by omega
  have h3 : ¬ (24 + i < 12) := by omega
  have h4 : ¬ (24 + i < 8) := by omega
  have h5 : 12 ≤ 24 + i - 12 := by omega
  have h6 : 1 ≤ 24 + i - 8 := by omega
  have h7 : 6 ≤ 24 + i := by omega
  have h8 : 24 + i - 24 = i := by omega
  have hc : ctx.getLsbD (24 + i - 12) = false := BitVec.getLsbD_of_ge _ _ h5
  have hb : (BitVec.ofBool b).getLsbD (24 + i - 8) = false := BitVec.getLsbD_of_ge _ _ h6
  have hn : n.getLsbD (24 + i) = false := BitVec.getLsbD_of_ge _ _ h7
  simp [opcField, commandWord, hi, h1, h8, hc, hb, hn]

theorem nop : Statement .nop := opcField_commandWord _ _ _ _
theorem reset : Statement .reset := opcField_commandWord _ _ _ _
theorem pmReset : Statement .pmReset := opcField_commandWord _ _ _ _
theorem pmPredict (ctx : Ctx) : Statement (.pmPredict ctx) := opcField_commandWord _ _ _ _
theorem pmUpdate (ctx : Ctx) (b : Bool) : Statement (.pmUpdate ctx b) := opcField_commandWord _ _ _ _
theorem encInit (lvl : BitVec 6) : Statement (.encInit lvl) := opcField_commandWord _ _ _ _
theorem encBit (ctx : Ctx) (b : Bool) : Statement (.encBit ctx b) := opcField_commandWord _ _ _ _
theorem encDirect (n : BitVec 6) : Statement (.encDirect n) := opcField_commandWord _ _ _ _
theorem encTree (ctx : Ctx) (n : BitVec 6) : Statement (.encTree ctx n) := opcField_commandWord _ _ _ _
theorem encRtree (ctx : Ctx) (n : BitVec 6) : Statement (.encRtree ctx n) := opcField_commandWord _ _ _ _
theorem encFlush : Statement .encFlush := opcField_commandWord _ _ _ _
theorem mfFind : Statement .mfFind := opcField_commandWord _ _ _ _
theorem decInit (lvl : BitVec 6) : Statement (.decInit lvl) := opcField_commandWord _ _ _ _
theorem decBit (ctx : Ctx) : Statement (.decBit ctx) := opcField_commandWord _ _ _ _
theorem decDirect (n : BitVec 6) : Statement (.decDirect n) := opcField_commandWord _ _ _ _
theorem decTree (ctx : Ctx) (n : BitVec 6) : Statement (.decTree ctx n) := opcField_commandWord _ _ _ _
theorem decRtree (ctx : Ctx) (n : BitVec 6) : Statement (.decRtree ctx n) := opcField_commandWord _ _ _ _
theorem decFinish : Statement .decFinish := opcField_commandWord _ _ _ _
theorem encLit : Statement .encLit := opcField_commandWord _ _ _ _
theorem encMatch : Statement .encMatch := opcField_commandWord _ _ _ _
theorem encStream : Statement .encStream := opcField_commandWord _ _ _ _
theorem decToken : Statement .decToken := opcField_commandWord _ _ _ _
theorem decStream : Statement .decStream := opcField_commandWord _ _ _ _

end Sys2Proof.Laws.OpcodeField
end

