-- ==== Sys2Proof/Tests/Slice0.lean ====
section
/-! SUPPORT. Tests: ill-formed operands refused, words written out from the spec's encodings, one-step runs with the results of
spec/95_test_vectors.md, and for every obligation with hypotheses a state and operands that meet them together. -/

namespace Sys2Proof.Tests

open Sys2Proof.Machine Sys2Proof.Claims

/-! ### WellFormed: each check refuses an ill-formed operand (R501; RE15-RE17, RD15, RD16, X2) -/

theorem test_wf_levels : (Instr.encInit 9).wellFormed = true ∧ (Instr.encInit 10).wellFormed = false ∧
    (Instr.decInit 9).wellFormed = true ∧ (Instr.decInit 63).wellFormed = false := by decide

theorem test_wf_direct_counts : (Instr.encDirect 32).wellFormed = true ∧ (Instr.encDirect 0).wellFormed = false ∧
    (Instr.encDirect 33).wellFormed = false ∧ (Instr.decDirect 1).wellFormed = true ∧
    (Instr.decDirect 0).wellFormed = false ∧ (Instr.decDirect 33).wellFormed = false := by decide

theorem test_wf_enc_trees : (Instr.encTree 0xF00 8).wellFormed = true ∧ (Instr.encTree 0xF01 8).wellFormed = false ∧
    (Instr.encTree 0x000 13).wellFormed = false ∧ (Instr.encTree 0x922 0).wellFormed = false ∧
    (Instr.encRtree 0x000 12).wellFormed = true ∧ (Instr.encRtree 0xFFF 1).wellFormed = false ∧
    (Instr.encRtree 0x922 0).wellFormed = false := by decide

theorem test_wf_dec_trees : (Instr.decTree 0xFFE 1).wellFormed = true ∧ (Instr.decTree 0xF01 8).wellFormed = false ∧
    (Instr.decTree 0x000 63).wellFormed = false ∧ (Instr.decTree 0x922 0).wellFormed = false ∧
    (Instr.decRtree 0xF00 8).wellFormed = true ∧ (Instr.decRtree 0x001 12).wellFormed = false ∧
    (Instr.decRtree 0x922 0).wellFormed = false := by decide

/-! ### Decoding: every word written bit by bit, OPC CTX 000 B 00 N (R151, R152, R154) -/

theorem test_decode_system :
    decodeWord 0b00000000_000000000000_000_0_00_000000 = .ok .nop ∧
    decodeWord 0b00000001_000000000000_000_0_00_000000 = .ok .reset := by decide

theorem test_decode_probability :
    decodeWord 0b00001000_000000000000_000_0_00_000000 = .ok .pmReset ∧
    decodeWord 0b00001001_101010111100_000_0_00_000000 = .ok (.pmPredict 0xABC) ∧
    decodeWord 0b00001010_100100100010_000_1_00_000000 = .ok (.pmUpdate 0x922 true) := by decide

theorem test_decode_encoder :
    decodeWord 0b00010000_000000000000_000_0_00_001001 = .ok (.encInit 9) ∧
    decodeWord 0b00010001_100100100010_000_1_00_000000 = .ok (.encBit 0x922 true) ∧
    decodeWord 0b00010010_000000000000_000_0_00_100000 = .ok (.encDirect 32) ∧
    decodeWord 0b00010011_100100100010_000_0_00_000011 = .ok (.encTree 0x922 3) ∧
    decodeWord 0b00010100_100101010000_000_0_00_000011 = .ok (.encRtree 0x950 3) ∧
    decodeWord 0b00010101_000000000000_000_0_00_000000 = .ok .encFlush := by decide

theorem test_decode_finder_and_codec :
    decodeWord 0b00011000_000000000000_000_0_00_000000 = .ok .mfFind ∧
    decodeWord 0b00110000_000000000000_000_0_00_000000 = .ok .encLit ∧
    decodeWord 0b00110001_000000000000_000_0_00_000000 = .ok .encMatch ∧
    decodeWord 0b00110010_000000000000_000_0_00_000000 = .ok .encStream ∧
    decodeWord 0b00111000_000000000000_000_0_00_000000 = .ok .decToken ∧
    decodeWord 0b00111001_000000000000_000_0_00_000000 = .ok .decStream := by decide

theorem test_decode_decoder :
    decodeWord 0b00100000_000000000000_000_0_00_000011 = .ok (.decInit 3) ∧
    decodeWord 0b00100001_000000000001_000_0_00_000000 = .ok (.decBit 0x001) ∧
    decodeWord 0b00100010_000000000000_000_0_00_001000 = .ok (.decDirect 8) ∧
    decodeWord 0b00100011_100100000000_000_0_00_000101 = .ok (.decTree 0x900 5) ∧
    decodeWord 0b00100100_100101010000_000_0_00_000011 = .ok (.decRtree 0x950 3) ∧
    decodeWord 0b00100101_000000000000_000_0_00_000000 = .ok .decFinish := by decide

theorem test_decode_reserved_bits :
    decodeWord 0b00010001_100100100010_000_1_00_000001 = .error .fixedBitSet ∧
    decodeWord 0b00010001_100100100010_100_1_00_000000 = .error .fixedBitSet ∧
    decodeWord 0b00010011_100100100010_000_1_00_000011 = .error .fixedBitSet ∧
    decodeWord 0b00010000_000000000001_000_0_00_000000 = .error .fixedBitSet ∧
    decodeWord 0b00011001_000000000000_000_0_00_000000 = .error .unknownOpcode := by decide

/-! ### One step each; results from spec/95_test_vectors.md -/

/-- What f reads of the state after one step that runs the command word w; `none` if the step stops. -/
def after {α : Type} (w : Nat) (f : State → α) (s : State) : Option α :=
  match step (s.withFetchWord 32 w) with
  | .next t => some (f t)
  | _ => none

/-- The first n bytes of `OBUF`. -/
def outBytes (n : Nat) (s : State) : List Byte := (List.range n).map s.obufByte

/-- `IBUF` filled from index 0. -/
def fillFrom : Nat → List Byte → List Host.Cell
  | _, [] => []
  | i, b :: bs => (i, b) :: fillFrom (i + 1) bs

/-- A core after reset with the largest window and these bytes in `IBUF`. -/
def loaded (bs : List Byte) (olim : Pos) : State :=
  { State.reset with winExtra := 12, ibuf := fillFrom 0 bs, ilen := BitVec.ofNat 64 bs.length, olim := olim }

/-- After `ENC_INIT 0` (R310). -/
def encFresh (bs : List Byte) (olim : Pos) : State :=
  { loaded bs olim with prob := ⟨none, []⟩, head := ⟨none, []⟩, encRange := 0xFFFFFFFF, encCsize := 1, mode := .enc }

/-- After `DEC_INIT 0` on a payload whose bytes 1 to 4 are `code` (R360). -/
def decFresh (code : Word) (bs : List Byte) (olim : Pos) : State :=
  { loaded bs olim with prob := ⟨none, []⟩, decCode := code, decRange := 0xFFFFFFFF, ipos := 5, mode := .dec }

/-- SY1. -/
theorem test_nop : after 0x00000000 State.status State.reset = some 0 := by decide

/-- SY2. -/
theorem test_illegal : after 0x00000001 (fun t => (t.status, t.errCmd)) State.reset = some (0x00000102, 1) := by decide

/-- SY3: `RESET` after `STATUS` = 0x00000A0A. -/
theorem test_reset :
    after 0x01000000 (fun t => (t.status, t.errCmd, t.ilen, t.olim))
      { decFresh 0x30C3ED7B [1, 2, 3] 5 with err := true, errcode := .truncated, errCmd := 0x39000000 } =
    some (0, 0, 0, 0) := by decide

/-- SY4, with `WIN_MAX_LOG2` = 20. -/
theorem test_caps : registerValue 0x78 { State.reset with winExtra := 4 } = 0x00000114 := by decide

/-- PM6. -/
theorem test_pmReset : after 0x08000000 (fun t => t.probAt 0xFFF) State.reset = some 1024 := by decide

/-- PM7, second half. -/
theorem test_pmPredict :
    after 0x09922000 State.result { encFresh [] 64 with prob := ⟨none, [(0x922, 1056)]⟩ } = some 0x420 := by decide

/-- PM8. -/
theorem test_pmUpdate :
    after 0x0A922100 (fun t => (t.probAt 0x922, t.probAt 0x923, t.encRange)) (encFresh [] 64) =
    some (992, 1024, 0xFFFFFFFF) := by decide

/-- PM3, PM4: p = 31, 2016, 2017, 0, 2047. -/
theorem test_adapt :
    ([31, 2016, 2017, 0, 2047].map fun p => adapt p false) = [94, 2017, 2017, 64, 2047] ∧
    ([31, 2016, 2017, 0, 2047].map fun p => adapt p true) = [31, 1953, 1954, 0, 1984] := by decide

/-- X3: with `WIN_MAX_LOG2` = 20, level 3 is `ALLOC` and level 2 opens. -/
theorem test_encInit_alloc :
    after 0x10000003 State.status { State.reset with winExtra := 4 } = some 0x00000502 ∧
    after 0x10000002 (fun t => (t.status, t.encRange, t.encCsize, t.headAt 7)) { State.reset with winExtra := 4 } =
      some (0x00020004, 0xFFFFFFFF, 1, none) := by decide

/-- X2. -/
theorem test_encInit_level :
    after 0x1000000C (fun t => (t.status, t.errCmd)) State.reset = some (0x00000402, 0x1000000C) := by decide

/-- RE1, RE2. -/
theorem test_encBit :
    after 0x11922100 (fun t => (t.encLow, t.encRange, t.probAt 0x922, t.opos)) (encFresh [] 64) =
      some (0x07FFFFC00, 0x800003FF, 992, 0) ∧
    after 0x11922000 (fun t => (t.encLow, t.encRange, t.probAt 0x922)) (encFresh [] 64) =
      some (0, 0x7FFFFC00, 1056) := by decide

/-- RE18. -/
theorem test_encBit_mode : after 0x11922100 State.status State.reset = some 0x00000302 := by decide

/-- RE6. -/
theorem test_encDirect :
    after 0x12000008 (fun t => (outBytes 1 t, t.encCache, t.encCsize, t.encLow, t.encRange))
      { encFresh [] 64 with arg := 0xA5 } = some ([0x00], 0xA4, 1, 0x0FFFFFC00, 0xFFFFFF00) := by decide

/-- RE9: the carry turns the pending bytes 09 FF into 0A 00. -/
theorem test_encDirect_carry :
    after 0x12000008 (fun t => (outBytes 3 t, t.encCache, t.encCsize, t.encLow))
      { encFresh [] 64 with
        arg := 0x7F, obuf := [(0, 0)], opos := 1, encCache := 0x09, encCsize := 2, encLow := 0x0FFFE0000, encRange := 0xFFFFFF00 } =
    some ([0x00, 0x0A, 0x00], 0x7E, 1, 0x0FDFF8100) := by decide

/-- RE11. -/
theorem test_encTree :
    after 0x13922003 (fun t => (t.probAt 0x923, t.probAt 0x925, t.probAt 0x929, t.encLow, t.encRange))
      { encFresh [] 64 with arg := 6 } = some (992, 992, 1056, 0x0BFFFFC00, 0x20000000) := by decide

/-- RE16, RE17: a tree that ends at 4096, and one that ends past it. -/
theorem test_encTree_bounds :
    after 0x13F00008 State.err (encFresh [] 64) = some false ∧
    after 0x13F01008 State.status (encFresh [] 64) = some 0x00000206 := by decide

/-- RE12, before the flush (R314). -/
theorem test_encRtree :
    after 0x14922003 (fun t => (t.probAt 0x923, t.probAt 0x924, t.probAt 0x927, t.encLow, t.encRange))
      { encFresh [] 64 with arg := 6 } = some (1056, 992, 992, 0x05FFFFC00, 0x20000000) := by decide

/-- RE13 and RE11's flush. -/
theorem test_encFlush :
    after 0x15000000 (fun t => (outBytes 5 t, t.status)) (encFresh [] 64) = some ([0, 0, 0, 0, 0], 0) ∧
    after 0x15000000 (outBytes 5) { encFresh [] 64 with encLow := 0x0BFFFFC00, encRange := 0x20000000 } =
      some ([0x00, 0xBF, 0xFF, 0xFC, 0x00]) := by decide

/-- RE14. -/
theorem test_encFlush_limit : after 0x15000000 State.status (encFresh [] 4) = some 0x00000906 := by decide

/-- MF1: "abcabc" at position 3, the earlier positions inserted. -/
theorem test_mfFind :
    after 0x18000000 (fun t => (t.tokKind, t.tokDist, t.tokLen))
      { encFresh [0x61, 0x62, 0x63, 0x61, 0x62, 0x63] 64 with
        ipos := 3, head := ⟨none, [(0x616263, 0), (0x626361, 1), (0x636162, 2)]⟩, chain := ⟨some 0, [(0, none), (1, none), (2, none)]⟩ } =
    some (true, 3, 3) := by decide

/-- Columns `WIN_LOG2` and `DEPTH` of the level table (R200). -/
theorem test_levelTable :
    (List.range 10).map Config.winLog2 = [16, 18, 20, 21, 22, 23, 24, 25, 26, 28] ∧
    (List.range 10).map Config.depth = [1, 2, 4, 8, 16, 32, 64, 128, 256, 1024] := by decide

/-- MF3 and MF4: at level 1 the farther candidate is longer and is taken; at level 0 only the nearest is examined. -/
theorem test_mfFind_depth :
    after 0x18000000 (fun t => (t.tokDist, t.tokLen))
      { encFresh [0x61, 0x62, 0x63, 0x64, 0x58, 0x61, 0x62, 0x63, 0x59, 0x61, 0x62, 0x63, 0x64] 64 with
        ipos := 9, level := 1, head := ⟨none, [(0x616263, 5)]⟩, chain := ⟨some 0, [(0, none), (5, some 0)]⟩ } = some (9, 4) ∧
    after 0x18000000 (fun t => (t.tokDist, t.tokLen))
      { encFresh [0x61, 0x62, 0x63, 0x64, 0x58, 0x61, 0x62, 0x63, 0x59, 0x61, 0x62, 0x63, 0x64] 64 with
        ipos := 9, head := ⟨none, [(0x616263, 5)]⟩, chain := ⟨some 0, [(0, none), (5, some 0)]⟩ } = some (4, 3) := by decide

/-- RD1; RD11: `TRUNCATED` goes before `BAD_STREAM_START`. -/
theorem test_decInit :
    after 0x20000000 (fun t => (t.decCode, t.decRange, t.ipos, t.status)) (loaded [0x00, 0x7F, 0xFF, 0xFC, 0x00] 0) =
      some (0x7FFFFC00, 0xFFFFFFFF, 5, 0x00000008) ∧
    after 0x20000000 State.errcode (loaded [0x01, 0x00, 0x00] 0) = some .truncated := by decide

/-- RD9. -/
theorem test_decInit_start :
    after 0x20000000 State.errcode (loaded [0x01, 0xFF, 0xFF, 0xFF, 0xFF] 0) = some .badStreamStart := by decide

/-- RD2, RD4. -/
theorem test_decBit :
    after 0x21922000 (fun t => (t.result, t.decCode, t.decRange, t.probAt 0x922, t.ipos))
      (decFresh 0x7FFFFC00 [0x00, 0x7F, 0xFF, 0xFC, 0x00] 0) = some (1, 0, 0x800003FF, 992, 5) ∧
    after 0x21922000 (fun t => (t.result, t.decRange, t.probAt 0x922)) (decFresh 0 [0, 0, 0, 0, 0] 0) =
      some (0, 0x7FFFFC00, 1056) := by decide

/-- RD5, RD14. -/
theorem test_decDirect :
    after 0x22000008 (fun t => (t.result, t.decCode, t.decRange, t.ipos))
      (decFresh 0xA4FFFFFC [0x00, 0xA4, 0xFF, 0xFF, 0xFC, 0x00] 0) = some (0xA5, 0, 0xFFFFFF00, 6) ∧
    after 0x22000001 (fun t => (t.result, t.decCode, t.decRange)) (decFresh 0xFFFFFFFF [0, 0xFF, 0xFF, 0xFF, 0xFF] 0) =
      some (1, 0x80000000, 0x7FFFFFFF) := by decide

/-- RD7. -/
theorem test_decTree :
    after 0x23922003 (fun t => (t.result, t.decCode, t.decRange, t.probAt 0x923, t.probAt 0x925, t.probAt 0x928))
      (decFresh 0x9FFFFC00 [0x00, 0x9F, 0xFF, 0xFC, 0x00] 0) = some (5, 0, 0x20000000, 992, 1056, 992) := by decide

/-- RD8. -/
theorem test_decRtree :
    after 0x24922003 (fun t => (t.result, t.decCode, t.decRange)) (decFresh 0x5FFFFC00 [0x00, 0x5F, 0xFF, 0xFC, 0x00] 0) =
      some (6, 0, 0x20000000) := by decide

/-- RD3; RD12 and RD13. -/
theorem test_decFinish :
    after 0x25000000 State.status (decFresh 0 [0x00, 0x7F, 0xFF, 0xFC, 0x00] 0) = some 0 ∧
    after 0x25000000 State.status (decFresh 1 [0x00, 0x7F, 0xFF, 0xFC, 0x01] 0) = some 0x00000E0A ∧
    after 0x25000000 State.status (decFresh 0 [0x00, 0x7F, 0xFF, 0xFC, 0x00, 0x00] 0) = some 0x00000F0A := by decide

/-- The example of R430: "a". -/
theorem test_encLit :
    after 0x30000000 (fun t => (t.encLow, t.encRange, t.encCache, outBytes 1 t, t.ipos, t.ctxstate)) (encFresh [0x61] 64) =
    some (0x07FFC0000, 0x80000000, 0x30, [0x00], 1, 0x061) := by decide

/-- X4. -/
theorem test_encLit_end : after 0x30000000 State.status (encFresh [] 64) = some 0x00000706 := by decide

/-- P3: the match (1, 3) of "aaaab" at position 1. -/
theorem test_encMatch :
    after 0x31000000 (fun t => (t.encLow, t.encRange, t.encCache, outBytes 2 t, t.ipos, t.ctxstate))
      { encFresh [0x61, 0x61, 0x61, 0x61, 0x62] 64 with
        ipos := 1, tokDist := 1, tokLen := 3, prevByte := 0x61, encLow := 0x07FFC0000, encRange := 0x80000000, encCache := 0x30
        obuf := [(0, 0)], opos := 1, prob := ⟨none, [(0x920, 1056)]⟩ } =
    some (0x0EC000000, 0x07C00000, 0xC3, [0x00, 0x30], 4, 0x161) := by decide

/-- X6: `ENCM 4, 3` at position 3 of "abcabc". -/
theorem test_encMatch_bad :
    after 0x31000000 (fun t => (t.status, t.ipos))
      { encFresh [0x61, 0x62, 0x63, 0x61, 0x62, 0x63] 64 with ipos := 3, tokDist := 4, tokLen := 3 } =
    some (0x00000806, 3) := by decide

/-- V-SC1: "ab". -/
theorem test_encStream :
    after 0x32000000 (fun t => (outBytes 7 t, t.opos, t.status)) (encFresh [0x61, 0x62] 64) =
    some ([0x00, 0x30, 0x99, 0x40, 0x00, 0x00, 0x00], 7, 0) := by decide

/-- V-SC3, first token. -/
theorem test_decToken_literal :
    after 0x38000000 (fun t => (t.tokLit, t.opos, t.ipos, t.decCode, t.decRange, t.ctxstate))
      (decFresh 0x30994DD8 [0x00, 0x30, 0x99, 0x4D, 0xD8, 0x9A, 0x51, 0x25, 0x00] 6) =
    some (0x61, 1, 6, 0x1951D89A, 0x80000000, 0x061) := by decide

/-- P3: the second token of "aaaab". -/
theorem test_decToken_match :
    after 0x38000000 (fun t => (t.tokDist, t.tokLen, outBytes 4 t, t.decCode, t.decRange, t.ctxstate))
      { decFresh 0x43F17BC0 [0x00, 0x30, 0xC3, 0xED, 0x7B, 0xC0, 0x00, 0x00] 5 with
        ipos := 6, opos := 1, decRange := 0x80000000, prevByte := 0x61, obuf := [(0, 0x61)], winbuf := ⟨some 0, [(0, 0x61)]⟩
        prob := ⟨none, [(0x920, 1056)]⟩ } =
    some (1, 3, [0x61, 0x61, 0x61, 0x61], 0x017BC000, 0x07C00000, 0x161) := by decide

/-- V-SC1: "a". -/
theorem test_decStream :
    after 0x39000000 (fun t => (outBytes 1 t, t.opos, t.ipos, t.status))
      (decFresh 0x307FFC00 [0x00, 0x30, 0x7F, 0xFC, 0x00, 0x00] 1) = some ([0x61], 1, 6, 0) := by decide

/-- P5: `TRUNCATED`, with the positions `DEC_STREAM` started at. -/
theorem test_decStream_truncated :
    after 0x39000000 (fun t => (t.status, t.errCmd, t.errIpos, t.errOpos)) (decFresh 0x307FFC00 [0x00, 0x30, 0x7F, 0xFC, 0x00] 1) =
    some (0x00000A0A, 0x39000000, 5, 0) := by decide

/-- X9 in small: `ARG` written while `ENC_STREAM` of the empty input runs. -/
theorem test_overrun :
    after 0x32000000 (fun t => (t.status, t.errCmd, t.arg, outBytes 5 t)) { encFresh [] 64 with overrun := some 0x55 } =
    some (0x00000602, 0x55, 0, [0, 0, 0, 0, 0]) := by decide

/-- X8: `ENC_INIT 0` written while a fault is recorded. -/
theorem test_ignored :
    step { State.reset with err := true, errcode := .levelRange, moves := [.regWrite 4 0 0x10000000] } =
    .next { State.reset with err := true, errcode := .levelRange } := rfl

/-- RS1 with a `NOP` interrupted, which could write no byte, and RS2: with no input left `ENC_STREAM` only flushes (R432), which writes at
most `ENC_CSIZE + 4` bytes from `OPOS` (R571), here 1 to 5. -/
theorem test_hwReset :
    (match step { encFresh [] 64 with pending := some 0x00000000, opos := 1, obuf := [(0, 7), (1, 8)], moves := [.hwReset] } with
      | .next t => some (t.status, t.obuf, t.obufFree)
      | _ => none) = some (0, [(0, 7), (1, 8)], []) ∧
    (match step { encFresh [] 64 with pending := some 0x32000000, opos := 1, obuf := [(0, 7), (1, 8)], moves := [.hwReset] } with
      | .next t => some (t.opos, t.obuf, t.obufFree.map Span.lo, t.obufFree.map Span.hi)
      | _ => none) = some (0, [(0, 7)], [1], [6]) := by decide

/-- R363 and R502 on `TRUNCATED` at the root of a 3-bit tree, the bit there being 0: the root and what is from node 2 down, not node 3. -/
theorem test_decTree_truncated :
    after 0x23922003 State.status { decFresh 0 [0, 0, 0, 0, 0] 0 with decRange := 0x01000000 } = some 0x00000A0A ∧
    reach 0x922 3 1 { decFresh 0 [0, 0, 0, 0, 0] 0 with decRange := 0x01000000 } = [0x923, 0x924, 0x926, 0x927] := by decide

/-- V-SC2. -/
theorem test_slots :
    ([0, 3, 4, 5, 6, 8, 271, 65535, 2 ^ 28 - 1, 2 ^ 32 - 1].map slotSplit) =
    [(0, 0, 0), (3, 0, 0), (4, 1, 0), (4, 1, 1), (5, 1, 0), (6, 2, 0), (16, 7, 15), (31, 14, 16383), (55, 26, 2 ^ 26 - 1),
      (63, 30, 2 ^ 30 - 1)] := by decide

/-! ### For every obligation with hypotheses: a state and operands that meet them together -/

/-- A core that executes w. -/
def running (w : Word) (s : State) : State := { s with pending := some w }

/-- A core with a recorded fault. -/
def faultedCore : State := { encFresh [] 64 with err := true, errcode := .inputEnd, errCmd := 0x30000000 }

/-- With no position before `IPOS`, an empty `HEAD` is the whole history. -/
theorem history_of_start (s : State) (hp : s.ipos = 0) (hh : ∀ h, s.headAt h = none) : s.History := by
  refine ⟨fun h => ?_, fun p hlt => ?_⟩
  · rw [hh, hp]; simp [State.latest]
  · rw [hp] at hlt; exact absurd hlt (Nat.not_lt_zero p)

/-- The state after command i if it completes without a fault. -/
def ranTo (i : Instr) (s : State) : Option State :=
  match exec i s with
  | .next t => if t.err then none else some t
  | _ => none

theorem runs_of_ranTo {i : Instr} {s t : State} (h : ranTo i s = some t) : Runs i s t := by
  unfold ranTo at h
  split at h
  · rename_i u hu
    split at h
    · cases h
    · rename_i he; cases h; exact ⟨hu, by simpa using he⟩
  · cases h

/-- The fault command i records. -/
def faultOf (i : Instr) (s : State) : Option Errcode :=
  match exec i s with
  | .next t => if t.err then some t.errcode else none
  | _ => none

theorem faults_of_faultOf {i : Instr} {s : State} {k : Errcode} (h : faultOf i s = some k) : Faults i s k := by
  unfold faultOf at h
  split at h
  · rename_i t ht
    split at h
    · rename_i he; cases h; exact ⟨t, ht, he, rfl⟩
    · cases h
  · cases h

/-- Command i completes and then command j, run from f of its state, records k. -/
theorem runs_faults {i j : Instr} {f : State → State} {s : State} {k : Errcode}
    (h : (ranTo i s).bind (fun u => faultOf j (f u)) = some k) : ∃ u, Runs i s u ∧ Faults j (f u) k := by
  obtain ⟨u, hu, hk⟩ := Option.bind_eq_some_iff.mp h
  exact ⟨u, runs_of_ranTo hu, faults_of_faultOf hk⟩

/-- `EncodesBits` as a computation. -/
def ranBits : List (Ctx × Bool) → State → Option State
  | [], s => some s
  | (c, b) :: rest, s => (ranTo (.encBit c b) s).bind (ranBits rest)

theorem encodesBits_of_ranBits {l : List (Ctx × Bool)} {s t : State} (h : ranBits l s = some t) : EncodesBits l s t := by
  induction l generalizing s with
  | nil => cases h; rfl
  | cons x rest ih =>
    obtain ⟨u, hu, hr⟩ := Option.bind_eq_some_iff.mp h
    exact ⟨u, runs_of_ranTo hu, ih hr⟩

/-- `BitsFault` at bit j as a computation. -/
def bitsFaultAt (j : Nat) (l : List (Ctx × Bool)) (s : State) : Option Errcode :=
  l[j]?.bind fun x => (ranBits (l.take j) s).bind (faultOf (.encBit x.1 x.2))

theorem bitsFault_of_at {j : Nat} {l : List (Ctx × Bool)} {s : State} {k : Errcode} (h : bitsFaultAt j l s = some k) :
    BitsFault l s k := by
  obtain ⟨⟨c, b⟩, hx, hr⟩ := Option.bind_eq_some_iff.mp h
  obtain ⟨u, hu, hk⟩ := Option.bind_eq_some_iff.mp hr
  exact ⟨j, c, b, u, hx, encodesBits_of_ranBits hu, faults_of_faultOf hk⟩

/-- `DecodesTree` as a computation. -/
def ranTree (base : Ctx) : Nat → Nat → State → Option (Nat × State)
  | 0, m, s => some (m, s)
  | n + 1, m, s => (ranTo (.decBit (base + BitVec.ofNat 12 m)) s).bind fun u => ranTree base n (2 * m + u.result.toNat) u

theorem decodesTree_of_ranTree {base : Ctx} {n m m' : Nat} {s t : State} (h : ranTree base n m s = some (m', t)) :
    DecodesTree base n m s m' t := by
  induction n generalizing m s with
  | zero => cases h; exact ⟨rfl, rfl⟩
  | succ n ih =>
    obtain ⟨u, hu, hr⟩ := Option.bind_eq_some_iff.mp h
    exact ⟨u, runs_of_ranTo hu, ih hr⟩

/-- `TreeFaults` at level j as a computation. -/
def treeFaultAt (j : Nat) (base : Ctx) (s : State) : Option Errcode :=
  (ranTree base j 1 s).bind fun r => faultOf (.decBit (base + BitVec.ofNat 12 r.1)) r.2

theorem treeFaults_of_at {j n : Nat} {base : Ctx} {s : State} {k : Errcode} (hj : j < n) (h : treeFaultAt j base s = some k) :
    ∃ m u, TreeFaults base n s m u k := by
  obtain ⟨⟨m, u⟩, hu, hk⟩ := Option.bind_eq_some_iff.mp h
  exact ⟨m, u, j, hj, decodesTree_of_ranTree hu, faults_of_faultOf hk⟩

/-- What a computation answered, apart from the state it left. -/
theorem exists_of_fst {α : Type} {o : Option (α × State)} {a : α} (h : o.map Prod.fst = some a) : ∃ t, o = some (a, t) := by
  obtain ⟨⟨b, t⟩, ho, hb⟩ := Option.map_eq_some_iff.mp h
  cases hb; exact ⟨t, ho⟩

/-- A command or a sequence that completes, completes in some state. -/
theorem exists_of_isSome {α : Type} {o : Option α} (h : o.isSome = true) : ∃ a, o = some a := Option.isSome_iff_exists.mp h

/-- An encode stream whose range is r and whose `OBUF` is full. -/
def narrowed (r : Word) : State := { encFresh [] 0 with encRange := r }

/-- A decode stream whose range is r and whose payload is used up. -/
def drained (code r : Word) : State := { decFresh code [0, 0, 0, 0, 0] 8 with decRange := r }

theorem not_ok_of_error {w : Word} {e : Illegal} (h : decodeWord w = .error e) : ∀ i, decodeWord w ≠ .ok i := by simp [h]

theorem witness_EncodeOfDecode : decodeWord 0x13FFF03F = .ok (.encTree 0xFFF 63) := by decide

theorem witness_ReservedWordRaisesIllegalCmd :
    State.reset.err = false ∧
    (∀ r ∈ opcodeTable, ¬ ((0xFF000000 : Word).extractLsb' 24 8 = r.1 ∧ 0xFF000000 &&& r.2 = r.1.setWidth 32 <<< 24)) ∧
    (∀ r ∈ opcodeTable, ¬ ((0x00000001 : Word).extractLsb' 24 8 = r.1 ∧ 0x00000001 &&& r.2 = r.1.setWidth 32 <<< 24)) := by
  simp [opcodeTable, State.reset]

theorem witness_StepRunsDecodedCommand :
    (let s := { running 0x15000000 (encFresh [] 64) with moves := [.core] }
     (s.moves = [] ∨ s.moves.head? = some .core) ∧ s.pending = some 0x15000000 ∧ s.overrun = none ∧
       ∃ t, exec .encFlush { s with moves := s.moves.tail } = .next t) ∧
    ((running 0x15000000 (encFresh [] 64)).moves = [] ∧ decodeWord 0x15000000 = .ok .encFlush) ∧
    (let s := { running 0x15000001 (encFresh [] 64) with overrun := some 1 }
     s.moves = [] ∧ s.pending = some 0x15000001 ∧ (∀ i, decodeWord 0x15000001 ≠ .ok i) ∧ s.err = false) :=
  ⟨⟨.inr rfl, rfl, rfl, _, rfl⟩, ⟨rfl, by decide⟩, rfl, rfl, not_ok_of_error (e := .fixedBitSet) (by decide), rfl⟩

theorem witness_IdleCoreKeepsState : (encFresh [] 64).busy = false ∧ (encFresh [] 64).moves = [] := by decide

theorem witness_CmdWriteIssuesCommand :
    State.reset.busy = false ∧ State.reset.err = false ∧ faultedCore.busy = false ∧ faultedCore.err = true ∧
    (0x01000001 : Word) ≠ 0x01000000 ∧ (running 0 State.reset).busy = true := by decide

theorem witness_FaultedCoreIgnoresCommands :
    faultedCore.err = true ∧ faultedCore.busy = false ∧ (0xFFFFFFFF : Word) ≠ 0x01000000 ∧
    (0x0C, 0xFFFFFFFF) ∈ rwRegisters ∧ (0x64, 0xFFFFFFFF) ∈ rwRegisters ∧ 0xFC < 0x100 ∧ 0xFC % 4 = 0 := by decide

theorem witness_RecordedFaultIsSticky :
    (faultedCore.err = true ∧ (∀ w, faultedCore.pending = some w → w = 0x01000000) ∧ ∃ t, step faultedCore = .next t) ∧
    (∀ w, (running 0x01000000 faultedCore).pending = some w → w = 0x01000000) ∧
    (∃ t, step (running 0x01000000 faultedCore) = .next t ∧ t.err = false) ∧
    ∃ t, step { faultedCore with moves := [.hwReset] } = .next t ∧ t.err = false :=
  ⟨⟨rfl, (fun _ h => by cases h), _, rfl⟩, fun _ h => (Option.some.inj h).symm, ⟨_, rfl, rfl⟩, _, rfl, rfl⟩

theorem witness_WriteWhileBusyOverruns :
    ((running 0 State.reset).busy = true ∧ 0x78 % 4 = 0 ∧ 0x78 ≤ 0x78 ∧ 0x7C % 4 = 0 ∧ 0x78 < 0x7C ∧ 0xFC < 0x100) ∧
    (let s := { running 0x15000000 (encFresh [] 64) with overrun := some 0x55 }
     s.pending = some (encode .encFlush) ∧ s.overrun = some 0x55 ∧ s.err = false ∧
       ∃ t, exec .encFlush s = .next t ∧ t.err = false) ∧
    (let s := { running 0x15000000 (encFresh [] 4) with overrun := some 1 }
     s.pending = some (encode .encFlush) ∧ s.overrun = some 1 ∧ s.err = false ∧
       ∃ t, exec .encFlush s = .next t ∧ t.err = true) ∧
    (let s := { running 0xFF000000 State.reset with overrun := some 1 }
     s.pending = some 0xFF000000 ∧ (∀ i, decodeWord 0xFF000000 ≠ .ok i) ∧ s.err = false) :=
  ⟨by decide, ⟨by decide, rfl, rfl, _, rfl, by decide⟩, ⟨by decide, rfl, rfl, _, rfl, by decide⟩,
    rfl, not_ok_of_error (e := .unknownOpcode) (by decide), rfl⟩

theorem witness_ReservedOffsetsReadZero :
    0x7C ≤ 0x7C ∧ 0x7C ≤ 0xFC ∧ 0x7C % 4 = 0 ∧ 0x7C ≤ 0xFC ∧ 0xFC ≤ 0xFC ∧ 0xFC % 4 = 0 := by decide

theorem witness_RegisterWriteReadBack :
    State.reset.busy = false ∧ (0x0C, 0xFFFFFFFF) ∈ rwRegisters ∧ (0x24, 0x000001FF) ∈ rwRegisters ∧
    (0xFC < 0x100 ∧ 0xFC % 4 = 0 ∧ 0xFC ≠ 0 ∧ ∀ r ∈ rwRegisters, 0xFC ≠ r.1) ∧ (∀ r ∈ rwRegisters, 0x04 ≠ r.1) ∧
    ({ running 0 State.reset with moves := [.regWrite 4 0x0C 5] }).moves = .regWrite 4 0x0C 5 :: [] := by decide

theorem witness_RegistersReadTheirFields :
    State.reset.mode = .idle ∧ (encFresh [] 64).mode = .enc ∧ (decFresh 0 [] 0).mode = .dec ∧
    ((.inputEnd, 0x07) ∈ faultCodes ∧ faultedCore.errcode = .inputEnd) ∧ faultCodes.length = 16 ∧ State.reset.busy = false ∧
    (running 0 State.reset).busy = true ∧ 0x00 ≤ 0x78 ∧ 0x00 % 4 = 0 ∧ 0x00 ≠ 0x04 ∧ 0x78 % 4 = 0 ∧ 0xFC < 0x100 ∧ 0xFC % 4 = 0 ∧
    ({ State.reset with moves := [.regRead 4 0x04] }).moves = .regRead 4 0x04 :: [] := by
  decide

theorem witness_HostReachesTheByteMemories :
    (let s := { running 0x30000000 (encFresh [0x61] 64) with moves := [.ibufWrite 0 0x62] }
     s.moves = .ibufWrite 0 0x62 :: [] ∧ s.busy = true ∧ 1 ≠ (0 : Pos).toNat) ∧
    ({ encFresh [0x61] 64 with moves := [.ibufWrite 0 0x62] }).busy = false ∧
    (let s := { running 0x15000000 (encFresh [] 64) with opos := 1, moves := [.obufRead 0] }
     s.moves = .obufRead 0 :: [] ∧ (0 : Pos).toNat < s.opos.toNat ∧ s.busy = true ∧ s.opos.toNat ≤ (1 : Pos).toNat) := by
  decide

theorem witness_UndefinedAccessStops :
    (0xFF < 0x100 ∧ (4 ≠ 4 ∨ 0xFF % 4 ≠ 0)) ∧ (0x00 < 0x100 ∧ (2 ≠ 4 ∨ 0x00 % 4 ≠ 0)) ∧ 0x100 ≤ 0x100 := by decide

theorem witness_ModeCheckComesFirst :
    (requiredMode (.encTree 0xF00 9) = some .enc ∧ State.reset.mode ≠ .enc ∧ State.reset.err = false) ∧
    (requiredMode .decStream = some .dec ∧ (encFresh [] 64).mode ≠ .dec) ∧
    (requiredMode (.encInit 12) = none ∧ ∃ t, exec (.encInit 12) State.reset = .next t ∧ t.err = true) :=
  ⟨by decide, by decide, by decide, _, rfl, by decide⟩

theorem witness_BadArgumentsAreRejected :
    (encFresh [] 64).err = false ∧ (encFresh [] 64).mode = .enc ∧ (decFresh 0 [] 0).err = false ∧ (decFresh 0 [] 0).mode = .dec ∧
    32 < (33 : BitVec 6).toNat ∧ (0 : BitVec 6).toNat = 0 ∧
    2 ^ (8 : BitVec 6).toNat ≤ ({ encFresh [] 64 with arg := 0x100 }).arg.toNat ∧
    4096 < (0xF01 : Ctx).toNat + 2 ^ (8 : BitVec 6).toNat ∧ 4096 < (0 : Ctx).toNat + 2 ^ (13 : BitVec 6).toNat ∧
    9 < (10 : BitVec 6).toNat ∧
    [16, 18, 20, 21, 22, 23, 24, 25, 26, 28][(1 : BitVec 6).toNat]? = some 18 ∧ ({ State.reset with winExtra := 1 }).winExtra.val + 16 < 18 ∧
    [16, 18, 20, 21, 22, 23, 24, 25, 26, 28][(9 : BitVec 6).toNat]? = some 28 ∧
    ({ State.reset with winExtra := 11 }).winExtra.val + 16 < 28 := by decide

theorem witness_FaultIsRecordedPrecisely :
    (encFresh [] 64).err = false ∧ ∃ t, exec .encLit (encFresh [] 64) = .next t ∧ t.err = true := ⟨rfl, _, rfl, by decide⟩

theorem witness_BytesOutsideTheBuffersFault :
    (let s := narrowed 0x01000000
     s.mode = .enc ∧ s.err = false ∧ 0x00800000 = split s.encRange (s.probAt 0x922) ∧
       0x00800000 = (s.encLow.toNat + 0x00800000) % 2 ^ 33 ∧ 0x00800000 = s.encRange.toNat - 0x00800000 ∧
       ¬ Fits 0x00800000 0x00800000 s ∧ ¬ Fits 0 0x00800000 s) ∧
    (let s := { narrowed 0x01000000 with arg := 1 }
     s.mode = .enc ∧ s.err = false ∧ s.arg.toNat ≤ 1 ∧
       0x00800000 = (s.encLow.toNat + s.arg.toNat * (s.encRange.toNat / 2)) % 2 ^ 33 ∧ 0x00800000 = s.encRange.toNat / 2 ∧
       ¬ Fits 0x00800000 0x00800000 s) ∧
    (let s := encFresh [] 4
     s.mode = .enc ∧ s.err = false ∧ s.encCsize.toNat + 5 < 2 ^ 64 ∧ s.olim.toNat < s.opos.toNat + s.encCsize.toNat + 4) ∧
    (let s := drained 0 0x01000000
     s.mode = .dec ∧ s.err = false ∧ s.ilen.toNat ≤ s.ipos.toNat ∧ 0x00800000 = split s.decRange (s.probAt 0x922) ∧
       (if s.decCode.toNat < 0x00800000 then 0x00800000 else s.decRange.toNat - 0x00800000) < 2 ^ 24 ∧
       s.decRange.toNat / 2 < 2 ^ 24) := by unfold Fits; decide

theorem witness_NopChangesNothing :
    State.reset.err = false ∧ (0x00FFFFFF : Word).toNat < 2 ^ 24 ∧ (0x00FFFFFF : Word) ≠ 0 ∧ (0x00000001 : Word) ≠ 0 ∧
    faultedCore.err = true ∧ faultedCore.busy = false := by decide

theorem witness_HardwareResetClearsRegisters :
    ({ running 0x32000000 (encFresh [] 64) with moves := [.hwReset] }).moves = [.hwReset] ∧
    (running 0x32000000 (encFresh [] 64)).olim.toNat ≤ 64 ∧ State.reset.busy = false ∧
    ((running 0xFF000000 State.reset).pending = some 0xFF000000 ∧ ∀ i, decodeWord 0xFF000000 ≠ .ok i) ∧
    (let s := running (encode (.encBit 0x922 true)) (encFresh [] 64)
     s.pending = some (encode (.encBit 0x922 true)) ∧ s.opos.toNat + mostBytes s (.encBit 0x922 true) ≤ 1) ∧
    (let s := running (encode .encStream) (encFresh [] 64)
     s.pending = some (encode .encStream) ∧ s.opos.toNat + mostBytes s .encStream ≤ 5) ∧
    requiredMode .decStream = some .dec ∧ (encFresh [] 64).mode ≠ .dec :=
  ⟨by decide, by decide, by decide, ⟨by decide, not_ok_of_error (e := .unknownOpcode) (by decide)⟩, by decide,
    by decide, by decide, by decide⟩

theorem witness_PmResetAndPredict :
    State.reset.err = false ∧ (0x08000001 : Word).extractLsb' 24 8 = 0x08 ∧ (0x08000001 : Word).extractLsb' 0 24 ≠ 0 ∧
    (0x09000800 : Word).extractLsb' 24 8 = 0x09 ∧ (0x09000800 : Word).extractLsb' 0 12 ≠ 0 := by decide

theorem witness_PmUpdateAdaptsOneEstimator :
    State.reset.err = false ∧ (0x0A922101 : Word).extractLsb' 24 8 = 0x0A ∧ (0x0A922101 : Word).extractLsb' 0 8 ≠ 0 ∧
    (0x0A922300 : Word).extractLsb' 24 8 = 0x0A ∧ (0x0A922300 : Word).extractLsb' 9 3 ≠ 0 := by decide

theorem witness_EncInitOpensStream :
    [16, 18, 20, 21, 22, 23, 24, 25, 26, 28][(0 : BitVec 6).toNat]? = some 16 ∧
    [1, 2, 4, 8, 16, 32, 64, 128, 256, 1024][(0 : BitVec 6).toNat]? = some 1 ∧ 16 ≤ ({ State.reset with winExtra := 0 }).winExtra.val + 16 ∧
    [16, 18, 20, 21, 22, 23, 24, 25, 26, 28][(9 : BitVec 6).toNat]? = some 28 ∧
    [1, 2, 4, 8, 16, 32, 64, 128, 256, 1024][(9 : BitVec 6).toNat]? = some 1024 ∧ 28 ≤ ({ State.reset with winExtra := 12 }).winExtra.val + 16 := by decide

theorem witness_EncBitNarrowsAndRenormalises :
    (encFresh [] 1).mode = .enc ∧ 0x7FFFFC00 = split (encFresh [] 1).encRange ((encFresh [] 1).probAt 0x922) ∧
    0x7FFFFC00 = ((encFresh [] 1).encLow.toNat + 0x7FFFFC00) % 2 ^ 33 ∧
    Fits 0x7FFFFC00 ((encFresh [] 1).encRange.toNat - 0x7FFFFC00) (encFresh [] 1) ∧ Fits 0 0x7FFFFC00 (encFresh [] 0) ∧
    Fits 0xFF800000 0x00800000 (narrowed 0x01000000) ∧ Fits 0 0x00800000 { narrowed 0x01000000 with encCsize := 0 } ∧
    Fits 0 0x00800000 { narrowed 0x01000000 with olim := 1 } := by unfold Fits; decide

theorem witness_EncDirectIsMostSignificantFirst :
    ((encFresh [] 0).mode = .enc ∧ (encFresh [] 0).arg.toNat ≤ 1 ∧ ({ encFresh [] 0 with arg := 1 }).arg.toNat ≤ 1 ∧
      0x7FFFFFFF = (0 + 1 * ((encFresh [] 0).encRange.toNat / 2)) % 2 ^ 33 ∧ Fits 0x7FFFFFFF 0x7FFFFFFF (encFresh [] 0)) ∧
    (let s := { encFresh [] 64 with arg := 0xFFFFFFFF }
     s.mode = .enc ∧ s.err = false ∧ (32 : BitVec 6).toNat = 31 + 1 ∧ 1 ≤ 31 ∧ 31 ≤ 31 ∧ s.arg.toNat < 2 ^ (31 + 1) ∧ Room (31 + 1) s) ∧
    ((2 : BitVec 6).toNat = 1 + 1 ∧ (encFresh [] 64).arg.toNat < 2 ^ (1 + 1) ∧ Room (1 + 1) (encFresh [] 64)) ∧
    (∃ u, Runs (.encDirect 1) (narrowed 0x04000000) u ∧ ∃ v, Runs (.encDirect 1) { u with arg := 0 } v) ∧
    Faults (.encDirect 1) (narrowed 0x01000000) .outLimit ∧
    ∃ u, Runs (.encDirect 1) (narrowed 0x02000000) u ∧ Faults (.encDirect 1) { u with arg := 0 } .outLimit :=
  ⟨by unfold Fits; decide, by unfold Room; decide, by unfold Room; decide, ⟨_, ⟨rfl, by decide⟩, _, rfl, by decide⟩,
    faults_of_faultOf (by decide), runs_faults (f := fun u => { u with arg := 0 }) (by decide)⟩

theorem witness_EncTreeIsBitsDownTheTree :
    (let s := { encFresh [] 64 with arg := 6 }
     s.mode = .enc ∧ s.err = false ∧ 1 ≤ (3 : BitVec 6).toNat ∧ (0x922 : Ctx).toNat + 2 ^ (3 : BitVec 6).toNat ≤ 4096 ∧
       s.arg.toNat < 2 ^ (3 : BitVec 6).toNat ∧ Room (3 : BitVec 6).toNat s) ∧
    ((0 : Ctx).toNat + 2 ^ (12 : BitVec 6).toNat ≤ 4096 ∧ Room (12 : BitVec 6).toNat (encFresh [] 64)) ∧
    (∃ t, EncodesBits (treeBits 0x922 3 0) (narrowed 0x08000000) t) ∧
    BitsFault (treeBits 0x922 3 0) (narrowed 0x02000000) .outLimit :=
  ⟨by unfold Room; decide, by unfold Room; decide, (exists_of_isSome (by decide)).imp fun _ => encodesBits_of_ranBits,
    bitsFault_of_at (j := 1) (by decide)⟩

theorem witness_EncRtreeIsBitsDownTheTree :
    (let s := { encFresh [] 64 with arg := 1 }
     s.mode = .enc ∧ s.err = false ∧ 1 ≤ (1 : BitVec 6).toNat ∧ (0xFFE : Ctx).toNat + 2 ^ (1 : BitVec 6).toNat ≤ 4096 ∧
       s.arg.toNat < 2 ^ (1 : BitVec 6).toNat ∧ Room (1 : BitVec 6).toNat s) ∧
    (∃ t, EncodesBits (rtreeBits 0x922 0 3 1) (narrowed 0x08000000) t) ∧
    BitsFault (rtreeBits 0x922 0 3 1) (narrowed 0x02000000) .outLimit :=
  ⟨by unfold Room; decide, (exists_of_isSome (by decide)).imp fun _ => encodesBits_of_ranBits,
    bitsFault_of_at (j := 1) (by decide)⟩

theorem witness_EncFlushWritesTheNumber :
    (encFresh [] 5).mode = .enc ∧ 1 ≤ (encFresh [] 5).encCsize.toNat ∧ Room 5 (encFresh [] 5) := by unfold Room; decide

theorem witness_MfFindWritesTokenRegisters :
    (encFresh [0x61, 0x62] 64).mode = .enc ∧ (encFresh [0x61, 0x62] 64).ilen.toNat < (encFresh [0x61, 0x62] 64).ipos.toNat + 3 := by
  decide

/-- "aaaaab" with position 0 inserted and coded. -/
def aaaaab : State :=
  { encFresh [0x61, 0x61, 0x61, 0x61, 0x61, 0x62] 64 with
    ipos := 1, head := ⟨none, [(0x616161, 0)]⟩, chain := ⟨some 0, [(0, none)]⟩, tokDist := 1, tokLen := 4, prevByte := 0x61 }

theorem aaaaab_history : aaaaab.History := by
  refine ⟨fun h => ?_, fun p hlt => ?_⟩
  · by_cases hh : h = 0x616161
    · subst hh; rfl
    · have h1 : aaaaab.headAt h = none := by
        simp only [State.headAt, aaaaab, Cells.lookup]; rw [if_neg (Ne.symm hh)]
      have h2 : aaaaab.latest h 1 = none := by
        have hz : aaaaab.hashAt 0 = 0x616161 := rfl
        have hne : ¬ (aaaaab.hashAt 0 = h) := by rw [hz]; exact Ne.symm hh
        simp [State.latest, List.range_succ, hne]
      exact (congrArg (Option.map BitVec.toNat) h1).trans h2.symm
  · have hp : aaaaab.ipos.toNat = 1 := rfl
    obtain rfl : p = 0 := by omega
    intro _ _; rfl

theorem witness_MfFindGivesTheBestCandidate :
    aaaaab.mode = .enc ∧ aaaaab.raced = [] ∧ aaaaab.History ∧ [0] = (aaaaab.candidates aaaaab.ipos.toNat).take aaaaab.depth :=
  ⟨rfl, rfl, aaaaab_history, by decide⟩

theorem witness_HistoryIsKept :
    (aaaaab.err = false ∧ aaaaab.raced = [] ∧ aaaaab.mode = .enc ∧ aaaaab.History ∧
      ∃ t, Runs .encMatch aaaaab t ∧ t.mode = .enc) ∧
    ((loaded [] 64).err = false ∧ (loaded [] 64).raced = [] ∧ ∃ t, Runs (.encInit 0) (loaded [] 64) t ∧ t.mode = .enc) :=
  ⟨⟨rfl, rfl, rfl, aaaaab_history, _, ⟨rfl, by decide⟩, by decide⟩, rfl, rfl, _, ⟨rfl, by decide⟩, by decide⟩

/-- "aaaaab" after one byte, with range r and a full `OBUF`. -/
def tight (r : Word) : State := { aaaaab with encRange := r, olim := 0 }

theorem witness_EncLitCodesOneByte :
    ((encFresh [] 64).mode = .enc ∧ (encFresh [] 64).err = false ∧ (encFresh [] 64).raced = [] ∧
      (encFresh [] 64).ilen.toNat ≤ (encFresh [] 64).ipos.toNat) ∧
    (aaaaab.mode = .enc ∧ aaaaab.err = false ∧ aaaaab.raced = [] ∧ aaaaab.ipos.toNat < aaaaab.ilen.toNat ∧ Room 9 aaaaab ∧
      (0x61 : Byte) = aaaaab.ibufByte aaaaab.ipos.toNat ∧ (0x300 : Ctx) = litTree aaaaab ∧ (0x920 : Ctx) = flag aaaaab) ∧
    (∃ u, EncodesBits ((0x920, false) :: treeBits 0x300 8 0x61) aaaaab u) ∧
    BitsFault ((0x920, false) :: treeBits 0x300 8 0x61) (tight 0x02000000) .outLimit :=
  ⟨by decide, by unfold Room; decide, (exists_of_isSome (by decide)).imp fun _ => encodesBits_of_ranBits,
    bitsFault_of_at (j := 1) (by decide)⟩

theorem witness_EncMatchCodesARepetition :
    (aaaaab.mode = .enc ∧ aaaaab.err = false ∧ aaaaab.raced = [] ∧ 1 = aaaaab.tokDist.toNat ∧ 4 = aaaaab.tokLen.toNat ∧ 1 ≤ 1 ∧
      1 ≤ min aaaaab.ipos.toNat aaaaab.win ∧ 2 ≤ 4 ∧ 4 ≤ min 273 (aaaaab.ilen.toNat - aaaaab.ipos.toNat) ∧
      (∀ k, k < 4 → aaaaab.ibufByte (aaaaab.ipos.toNat + k) = aaaaab.ibufByte (aaaaab.ipos.toNat + k - 1)) ∧ Room 45 aaaaab) ∧
    (∃ u v w, Runs (.encBit 0x920 true) aaaaab u ∧ EncodesValue 0x900 5 2 u v ∧ EncodesValue 0x880 6 0 v w) ∧
    Faults (.encBit 0x920 true) (tight 0x01000000) .outLimit ∧
    (∃ u, Runs (.encBit 0x920 true) (tight 0x04000000) u ∧ EncodingFaults 0x900 5 2 u .outLimit) ∧
    (∃ u v, Runs (.encBit 0x920 true) (tight 0x40000000) u ∧ EncodesValue 0x900 5 2 u v ∧ EncodingFaults 0x880 6 0 v .outLimit) ∧
    0x880 = distTree 4 := by
  refine ⟨by unfold Room; decide, ?_, faults_of_faultOf (by decide), ?_, ?_, by decide⟩
  · obtain ⟨u, hu⟩ := exists_of_isSome (o := ranTo (.encBit 0x920 true) aaaaab) (by decide)
    obtain ⟨v, hv⟩ := exists_of_isSome (o := (ranTo (.encBit 0x920 true) aaaaab).bind (ranBits (treeBits 0x900 5 (slot 2))))
      (by decide)
    obtain ⟨w, hw⟩ := exists_of_isSome (o := ((ranTo (.encBit 0x920 true) aaaaab).bind
      (ranBits (treeBits 0x900 5 (slot 2)))).bind (ranBits (treeBits 0x880 6 (slot 0)))) (by decide)
    rw [hv] at hw
    rw [hu] at hv
    exact ⟨u, v, w, runs_of_ranTo hu, ⟨v, encodesBits_of_ranBits hv, rfl⟩, w, encodesBits_of_ranBits hw, rfl⟩
  · have h : (ranTo (.encBit 0x920 true) (tight 0x04000000)).bind (bitsFaultAt 1 (treeBits 0x900 5 (slot 2))) = some .outLimit := by
      decide
    obtain ⟨u, hu, hk⟩ := Option.bind_eq_some_iff.mp h
    exact ⟨u, runs_of_ranTo hu, .inl (bitsFault_of_at hk)⟩
  · have h : (ranTo (.encBit 0x920 true) (tight 0x40000000)).bind (fun u => (ranBits (treeBits 0x900 5 (slot 2)) u).bind
        (bitsFaultAt 0 (treeBits 0x880 6 (slot 0)))) = some .outLimit := by decide
    obtain ⟨u, hu, hr⟩ := Option.bind_eq_some_iff.mp h
    obtain ⟨v, hv, hk⟩ := Option.bind_eq_some_iff.mp hr
    exact ⟨u, v, runs_of_ranTo hu, ⟨v, encodesBits_of_ranBits hv, rfl⟩, .inl (bitsFault_of_at hk)⟩

theorem witness_FalseMatchIsRejected :
    (let s := { aaaaab with tokDist := 2 }
     s.mode = .enc ∧ s.err = false ∧ s.raced = [] ∧ 2 = s.tokDist.toNat ∧ 4 = s.tokLen.toNat ∧ min s.ipos.toNat s.win < 2) ∧
    (let s := { aaaaab with tokLen := 6 }
     6 = s.tokLen.toNat ∧ min 273 (s.ilen.toNat - s.ipos.toNat) < 6) ∧
    (let s := { aaaaab with tokLen := 5 }
     5 = s.tokLen.toNat ∧ ∃ k, k < 5 ∧ s.ibufByte (s.ipos.toNat + k) ≠ s.ibufByte (s.ipos.toNat + k - 1)) ∧
    0 = ({ aaaaab with tokDist := 0 }).tokDist.toNat ∧ ({ aaaaab with tokLen := 1 }).tokLen.toNat < 2 :=
  ⟨by decide, by decide, ⟨rfl, 4, by decide⟩, by decide, by decide⟩

theorem witness_SlotCodeRoundTrip : 0 < 2 ^ 32 ∧ 4 < 2 ^ 32 ∧ 2 ^ 32 - 1 < 2 ^ 32 := by decide

theorem witness_EncStreamIsTheGreedyLoop :
    (let s := { aaaaab with olim := 230 }
     s.mode = .enc ∧ s.err = false ∧ s.raced = [] ∧ s.History ∧ Room (45 * (s.ilen.toNat - s.ipos.toNat) + 5) s) ∧
    (∃ t, Greedy (encFresh [] 5) (encFresh [] 5) ∧ Runs .encFlush (encFresh [] 5) t) ∧
    (let s := { encFresh [0x61] 0 with encRange := 0x01000000 }
     GreedySteps s s ∧ s.ipos.toNat < s.ilen.toNat ∧ ∃ v, Runs .mfFind s v ∧ v.tokKind = false ∧ Faults .encLit v .outLimit) ∧
    (let s := tight 0x01000000
     GreedySteps s s ∧ s.ipos.toNat < s.ilen.toNat ∧ ∃ v, Runs .mfFind s v ∧ v.tokKind = true ∧ Faults .encMatch v .outLimit) ∧
    Greedy (encFresh [] 4) (encFresh [] 4) ∧ Faults .encFlush (encFresh [] 4) .outLimit :=
  ⟨⟨rfl, rfl, rfl, aaaaab_history, by unfold Room; decide⟩, ⟨_, ⟨.refl _, by decide⟩, rfl, by decide⟩,
    ⟨.refl _, by decide, _, ⟨rfl, by decide⟩, by decide, faults_of_faultOf (by decide)⟩,
    ⟨.refl _, by decide, _, ⟨rfl, by decide⟩, by decide, faults_of_faultOf (by decide)⟩, ⟨.refl _, by decide⟩,
    faults_of_faultOf (by decide)⟩

theorem witness_EmptyInputIsFiveZeroBytes :
    (levelOk 9 = true ∧ windowFits 9 (loaded [] 5) = true ∧ (loaded [] 5).err = false ∧ (loaded [] 5).ilen = 0 ∧
      5 ≤ (loaded [] 5).olim.toNat) ∧
    (let s := loaded [0, 0, 0, 0, 0] 0
     windowFits 0 s = true ∧ s.err = false ∧ s.ilen.toNat = 5 ∧ s.olim = 0 ∧ s.raced = [] ∧ ∀ j, j < 5 → s.ibufByte j = 0) := by
  decide

theorem witness_DecInitOpensStream :
    [16, 18, 20, 21, 22, 23, 24, 25, 26, 28][(9 : BitVec 6).toNat]? = some 28 ∧ 28 ≤ (loaded [] 0).winExtra.val + 16 ∧
    (loaded [] 0).raced = [] ∧ (loaded [] 0).err = false ∧ (loaded [0, 1, 2, 3] 0).ilen.toNat < 5 ∧
    (5 ≤ (loaded [0, 1, 2, 3, 4] 0).ilen.toNat ∧ (loaded [0, 1, 2, 3, 4] 0).ibufByte 0 = 0) ∧
    (5 ≤ (loaded [1, 1, 2, 3, 4] 0).ilen.toNat ∧ (loaded [1, 1, 2, 3, 4] 0).ibufByte 0 ≠ 0) := by decide

/-- A decode stream with a byte left and this code. -/
def ready (code : Word) : State := decFresh code [0, 0, 0, 0, 0, 0] 1

theorem witness_DecBitSelectsAndRefills :
    ((ready 0).mode = .dec ∧ (ready 0).raced = [] ∧ (ready 0).ipos.toNat < (ready 0).ilen.toNat ∧
      0x7FFFFC00 = split (ready 0).decRange ((ready 0).probAt 0x922) ∧ false = decide (0x7FFFFC00 ≤ (ready 0).decCode.toNat) ∧
      true = decide (0x7FFFFC00 ≤ (ready 0x7FFFFC00).decCode.toNat)) ∧
    (drained 0 0xFFFFFFFF).mode = .dec ∧ (drained 0 0xFFFFFFFF).ilen.toNat ≤ (drained 0 0xFFFFFFFF).ipos.toNat ∧ 2 ^ 24 ≤ 0x7FFFFC00 := by
  decide

theorem witness_DecDirectIsMostSignificantFirst :
    ((ready 0).mode = .dec ∧ (ready 0).raced = [] ∧ (ready 0).ipos.toNat < (ready 0).ilen.toNat ∧
      2 ^ 24 ≤ (drained 0 0x02000000).decRange.toNat / 2) ∧
    (let s := { ready 0x12345678 with ilen := 37 }
     s.mode = .dec ∧ s.err = false ∧ (32 : BitVec 6).toNat = 31 + 1 ∧ s.ipos.toNat + 31 + 1 ≤ s.ilen.toNat) ∧
    ((2 : BitVec 6).toNat = 1 + 1 ∧ ({ ready 0 with ilen := 7 }).ipos.toNat + 1 + 1 ≤ ({ ready 0 with ilen := 7 }).ilen.toNat) ∧
    (∃ u, Runs (.decDirect 1) (drained 0 0x04000000) u ∧ ∃ v, Runs (.decDirect 1) u v) ∧
    (∃ t, Runs (.decDirect 2) (drained 0 0x04000000) t) ∧ Faults (.decDirect 1) (drained 0 0x01000000) .truncated ∧
    ∃ u, Runs (.decDirect 1) (drained 0 0x02000000) u ∧ Faults (.decDirect 1) u .truncated :=
  ⟨by decide, by decide, by decide, ⟨_, ⟨rfl, by decide⟩, _, rfl, by decide⟩, ⟨_, rfl, by decide⟩, faults_of_faultOf (by decide),
    runs_faults (f := id) (by decide)⟩

theorem witness_DecTreeIsBitsDownTheTree :
    (let s := { ready 0 with ilen := 17 }
     s.mode = .dec ∧ s.err = false ∧ 1 ≤ (12 : BitVec 6).toNat ∧ (0 : Ctx).toNat + 2 ^ (12 : BitVec 6).toNat ≤ 4096 ∧
       s.ipos.toNat + (12 : BitVec 6).toNat ≤ s.ilen.toNat) ∧
    (1 ≤ (1 : BitVec 6).toNat ∧ (0xFFE : Ctx).toNat + 2 ^ (1 : BitVec 6).toNat ≤ 4096 ∧
      (ready 0).ipos.toNat + (1 : BitVec 6).toNat ≤ (ready 0).ilen.toNat) ∧
    (∃ m u, DecodesTree 0x922 3 1 (drained 0x9FFFFC00 0xFFFFFFFF) m u) ∧ (∃ m u, TreeFaults 0x922 3 (drained 0 0x02000000) m u .truncated) ∧
    ∀ m', OnPath 3 4 m' → (0x925 : Ctx) ≠ 0x922 + BitVec.ofNat 12 m' := by
  refine ⟨by decide, by decide, ?_, treeFaults_of_at (j := 1) (by decide) (by decide), ?_⟩
  · obtain ⟨⟨m, u⟩, h⟩ := exists_of_isSome (o := ranTree 0x922 3 1 (drained 0x9FFFFC00 0xFFFFFFFF)) (by decide)
    exact ⟨m, u, decodesTree_of_ranTree h⟩
  · rintro m' ⟨h1, h2, j, hj⟩
    have h8 : m' < 8 := h2
    have h3 : m' ≠ 3 := by
      rintro rfl
      rcases hj with hj | hj
      · have h4 : 4 / 2 ^ j = 4 ∨ 4 / 2 ^ j ≤ 2 := by
          rcases j with _ | j
          · exact .inl rfl
          · right; rw [Nat.pow_succ, Nat.mul_comm, ← Nat.div_div_eq_div_mul]; exact Nat.div_le_self _ _
        omega
      · have := Nat.div_le_self 3 (2 ^ j); omega
    interval_cases m' <;> first | decide | exact absurd rfl h3

theorem witness_DecRtreeIsBitsDownTheTree :
    (let s := { ready 0 with ilen := 8 }
     s.mode = .dec ∧ s.err = false ∧ 1 ≤ (3 : BitVec 6).toNat ∧ (0x950 : Ctx).toNat + 2 ^ (3 : BitVec 6).toNat ≤ 4096 ∧
       s.ipos.toNat + (3 : BitVec 6).toNat ≤ s.ilen.toNat) ∧
    (∃ sym u, DecodesRtree 0x922 1 1 (drained 0 0xFFFFFFFF) sym u) ∧
    ∃ m u, TreeFaults 0x922 3 (drained 0 0x02000000) m u .truncated :=
  ⟨by decide, ⟨0, _, _, 0, ⟨rfl, by decide⟩, by decide, rfl, rfl⟩, treeFaults_of_at (j := 1) (by decide) (by decide)⟩

theorem witness_EncoderMirrorsDecoder :
    (encFresh [] 64).encRange = (ready 0x7FFFFC00).decRange ∧ (∀ c, (encFresh [] 64).probAt c = (ready 0x7FFFFC00).probAt c) ∧
    (encFresh [] 64).mode = .enc ∧ (ready 0x7FFFFC00).mode = .dec ∧
    (∃ d', Runs (.decBit 0x922) (ready 0x7FFFFC00) d' ∧ d'.result.getLsbD 0 = true ∧
      ∃ e', Runs (.encBit 0x922 true) { encFresh [] 64 with arg := d'.result } e') ∧
    (∃ d', Runs (.decDirect 8) (ready 0x9FFFFC00) d' ∧ ∃ e', Runs (.encDirect 8) { encFresh [] 64 with arg := d'.result } e') ∧
    (∃ d', Runs (.decTree 0x922 3) (ready 0x9FFFFC00) d' ∧
      ∃ e', Runs (.encTree 0x922 3) { encFresh [] 64 with arg := d'.result } e') ∧
    ∃ d', Runs (.decRtree 0x922 3) (ready 0x5FFFFC00) d' ∧
      ∃ e', Runs (.encRtree 0x922 3) { encFresh [] 64 with arg := d'.result } e' :=
  ⟨by decide, fun _ => rfl, rfl, rfl, ⟨_, ⟨rfl, by decide⟩, by decide, _, rfl, by decide⟩,
    ⟨_, ⟨rfl, by decide⟩, _, rfl, by decide⟩, ⟨_, ⟨rfl, by decide⟩, _, rfl, by decide⟩, _, ⟨rfl, by decide⟩, _, rfl, by decide⟩

theorem witness_DecFinishChecksTheEnd :
    ((decFresh 0 [0, 0, 0, 0, 0] 0).mode = .dec ∧ (decFresh 0 [0, 0, 0, 0, 0] 0).err = false ∧ (decFresh 0 [0, 0, 0, 0, 0] 0).decCode = 0 ∧
      (decFresh 0 [0, 0, 0, 0, 0] 0).ipos = (decFresh 0 [0, 0, 0, 0, 0] 0).ilen) ∧
    ((ready 1).mode = .dec ∧ (ready 1).err = false ∧ (ready 1).decCode ≠ 0) ∧
    ((ready 0).decCode = 0 ∧ (ready 0).ipos ≠ (ready 0).ilen) ∧ (State.reset.mode ≠ .dec ∧ State.reset.err = false) ∧
    (0x25000040 : Word).extractLsb' 24 8 = 0x25 ∧ (0x25000040 : Word) ≠ 0x25000000 := by decide

theorem witness_DecTokenReplaysALiteral :
    (let s := decFresh 0x30994DD8 [0x00, 0x30, 0x99, 0x4D, 0xD8, 0x9A, 0x51, 0x25, 0x00, 0, 0, 0, 0, 0] 1
     s.mode = .dec ∧ s.err = false ∧ s.opos.toNat < s.olim.toNat ∧ s.decCode.toNat < split s.decRange (s.probAt (flag s)) ∧
       s.ipos.toNat + 9 ≤ s.ilen.toNat) ∧
    (decFresh 0 [0, 0, 0, 0, 0] 0).olim.toNat ≤ (decFresh 0 [0, 0, 0, 0, 0] 0).opos.toNat ∧
    (∃ u v m, Runs (.decBit 0x920) (ready 0) u ∧ u.result = 0 ∧ DecodesTree 0x000 8 1 u m v) ∧
    Faults (.decBit 0x920) (drained 0 0x01000000) .truncated ∧
    ∃ u v m, Runs (.decBit 0x920) (drained 0 0x02000000) u ∧ u.result = 0 ∧ TreeFaults 0x000 8 u m v .truncated := by
  refine ⟨by decide, by decide, ?_, faults_of_faultOf (by decide), ?_⟩
  · obtain ⟨⟨m, v⟩, h⟩ := exists_of_isSome (o := (ranTo (.decBit 0x920) (ready 0)).bind fun u =>
      if u.result = 0 then ranTree 0x000 8 1 u else none) (by decide +kernel)
    obtain ⟨u, hu, hv⟩ := Option.bind_eq_some_iff.mp h
    split at hv
    · rename_i h0; exact ⟨u, v, m, runs_of_ranTo hu, h0, decodesTree_of_ranTree hv⟩
    · cases hv
  · have h : ((ranTo (.decBit 0x920) (drained 0 0x02000000)).bind fun u =>
        if u.result = 0 then treeFaultAt 0 0x000 u else none) = some .truncated := by decide +kernel
    obtain ⟨u, hu, hv⟩ := Option.bind_eq_some_iff.mp h
    split at hv
    · rename_i h0
      obtain ⟨m, v, hf⟩ := treeFaults_of_at (n := 8) (by decide) hv
      exact ⟨u, v, m, runs_of_ranTo hu, h0, hf⟩
    · cases hv

/-- A decode stream with output position o and limit lim, the last byte 'a'. -/
def mid (o lim : Pos) (code : Word) : State :=
  { decFresh code [0, 0, 0, 0, 0, 0, 0, 0] lim with opos := o, obuf := [(0, 0x61)], winbuf := ⟨some 0, [(0, 0x61)]⟩ }

/-- `DecodesValue` as a computation. -/
def ranValue (base : Ctx) (nbits : Nat) (s : State) : Option (Nat × State) :=
  (ranTree base nbits 1 s).bind fun r =>
    if r.1 - 2 ^ nbits < 4 then some (r.1 - 2 ^ nbits, r.2)
    else (ranTo (.decDirect (BitVec.ofNat 6 ((r.1 - 2 ^ nbits) / 2 - 1))) r.2).bind fun t =>
      some ((2 + (r.1 - 2 ^ nbits) % 2) * 2 ^ ((r.1 - 2 ^ nbits) / 2 - 1) + t.result.toNat, t)

theorem decodesValue_of_ranValue {base : Ctx} {nbits v : Nat} {s t : State} (h : ranValue base nbits s = some (v, t)) :
    DecodesValue base nbits s v t := by
  obtain ⟨⟨m, u⟩, hu, hr⟩ := Option.bind_eq_some_iff.mp h
  refine ⟨m, u, decodesTree_of_ranTree hu, ?_⟩
  dsimp only at hr
  split at hr
  · rename_i hm; rw [if_pos hm]; cases hr; exact ⟨rfl, rfl⟩
  · rename_i hm
    rw [if_neg hm]
    obtain ⟨w, hw, hv⟩ := Option.bind_eq_some_iff.mp hr
    cases hv; exact ⟨runs_of_ranTo hw, rfl⟩

/-- The length of a match token as a computation. -/
def ranLength (s : State) : Option (Nat × State) :=
  (ranTo (.decBit (flag s)) s).bind fun u =>
    if u.result = 1 then (ranValue 0x900 5 u).bind fun r => some (r.1 + 2, r.2) else none

theorem decodesLength_of_ranLength {s t : State} {l : Nat} (h : ranLength s = some (l, t)) : DecodesLength s l t := by
  obtain ⟨u, hu, hr⟩ := Option.bind_eq_some_iff.mp h
  split at hr
  · rename_i h1
    obtain ⟨⟨v, w⟩, hv, hw⟩ := Option.bind_eq_some_iff.mp hr
    cases hw; exact ⟨u, v, runs_of_ranTo hu, h1, decodesValue_of_ranValue hv, rfl⟩
  · cases hr

/-- The distance and length of a match token as a computation. -/
def ranMatch (s : State) : Option ((Nat × Nat) × State) :=
  (ranLength s).bind fun r =>
    if r.1 ≤ 273 then (ranValue (distTree r.1) 6 r.2).bind fun v => some ((v.1 + 1, r.1), v.2) else none

theorem decodesMatch_of_ranMatch {s t : State} {d l : Nat} (h : ranMatch s = some ((d, l), t)) : DecodesMatch s d l t := by
  obtain ⟨⟨n, u⟩, hu, hr⟩ := Option.bind_eq_some_iff.mp h
  dsimp only at hr
  split at hr
  · rename_i hn
    obtain ⟨⟨v, w⟩, hv, hw⟩ := Option.bind_eq_some_iff.mp hr
    cases hw; exact ⟨u, v, decodesLength_of_ranLength hu, hn, decodesValue_of_ranValue hv, rfl⟩
  · cases hr

/-- The payload of SC4b: flag 1, length slot 0, distance slot 0, so the match (1, 2), at the places used below. -/
theorem ranMatch_within : (ranMatch (mid 1 8 0x7FFFFC00)).map Prod.fst = some (1, 2) := by decide +kernel
theorem ranMatch_atStart : (ranMatch (mid 0 8 0x7FFFFC00)).map Prod.fst = some (1, 2) := by decide +kernel
theorem ranMatch_tooLong : (ranMatch (mid 1 2 0x7FFFFC00)).map Prod.fst = some (1, 2) := by decide +kernel

/-- The payload of SC4a: flag 1, length slot 17 with extra bits 0, so the length 386. -/
theorem ranLength_tooLong : (ranLength (mid 1 8 0xC3FFFC00)).map Prod.fst = some 386 := by decide +kernel

/-- At output position 1 the window holds the one byte of the output. -/
theorem mid_windowOk (lim : Pos) (code : Word) : (mid 1 lim code).WindowOk := by
  intro _ _ j hj _
  have h1 : (mid 1 lim code).opos.toNat = 1 := rfl
  obtain rfl : j = 0 := by omega
  rfl

theorem witness_DecTokenReplaysAMatch :
    let s := mid 1 8 0x7FFFFC00
    s.mode = .dec ∧ s.err = false ∧ s.opos.toNat < s.olim.toNat ∧ s.WindowOk ∧ (∃ u, DecodesMatch s 1 2 u) ∧
      1 ≤ min s.opos.toNat s.win ∧ 2 ≤ s.olim.toNat - s.opos.toNat :=
  ⟨rfl, rfl, by decide, mid_windowOk _ _, (exists_of_fst ranMatch_within).imp fun _ => decodesMatch_of_ranMatch, by decide, by decide⟩

theorem witness_DecTokenRejectsBadMatches :
    (let s := mid 1 8 0xC3FFFC00
     s.mode = .dec ∧ s.err = false ∧ s.opos.toNat < s.olim.toNat ∧ (∃ u, DecodesLength s 386 u) ∧ 273 < 386) ∧
    (let s := mid 0 8 0x7FFFFC00
     s.mode = .dec ∧ s.err = false ∧ s.opos.toNat < s.olim.toNat ∧ (∃ u, DecodesMatch s 1 2 u) ∧ min s.opos.toNat s.win < 1) ∧
    (let s := mid 1 2 0x7FFFFC00
     s.mode = .dec ∧ s.err = false ∧ s.opos.toNat < s.olim.toNat ∧ (∃ u, DecodesMatch s 1 2 u) ∧
       1 ≤ min s.opos.toNat s.win ∧ s.olim.toNat - s.opos.toNat < 2) ∧
    (let s := drained 0x01000000 0x02000000
     s.mode = .dec ∧ s.err = false ∧ s.opos.toNat < s.olim.toNat ∧
       ∃ u, Runs (.decBit (flag s)) s u ∧ u.result = 1 ∧ DecodingFaults 0x900 5 u .truncated) ∧
    (let s := drained 0x20000000 0x40000000
     s.mode = .dec ∧ s.err = false ∧ s.opos.toNat < s.olim.toNat ∧
       ∃ u, DecodesLength s 2 u ∧ 2 ≤ 273 ∧ DecodingFaults (distTree 2) 6 u .truncated) := by
  refine ⟨⟨rfl, rfl, by decide, (exists_of_fst ranLength_tooLong).imp fun _ => decodesLength_of_ranLength, by decide⟩,
    ⟨rfl, rfl, by decide, (exists_of_fst ranMatch_atStart).imp fun _ => decodesMatch_of_ranMatch, by decide⟩,
    ⟨rfl, rfl, by decide, (exists_of_fst ranMatch_tooLong).imp fun _ => decodesMatch_of_ranMatch, by decide, by decide⟩,
    ⟨rfl, rfl, by decide, ?_⟩, rfl, rfl, by decide, ?_⟩
  · have h : ((ranTo (.decBit 0x920) (drained 0x01000000 0x02000000)).bind fun u =>
        if u.result = 1 then treeFaultAt 0 0x900 u else none) = some .truncated := by decide +kernel
    obtain ⟨u, hu, hv⟩ := Option.bind_eq_some_iff.mp h
    split at hv
    · rename_i h1; exact ⟨u, runs_of_ranTo hu, h1, .inl (treeFaults_of_at (by decide) hv)⟩
    · cases hv
  · have h : ((ranLength (drained 0x20000000 0x40000000)).bind fun r =>
        if r.1 = 2 then treeFaultAt 0 0x800 r.2 else none) = some .truncated := by decide +kernel
    obtain ⟨⟨l, u⟩, hu, hv⟩ := Option.bind_eq_some_iff.mp h
    split at hv
    · rename_i h2
      obtain rfl : l = 2 := h2
      exact ⟨u, decodesLength_of_ranLength hu, by decide, .inl (treeFaults_of_at (by decide) hv)⟩
    · cases hv

/-- The payload of "a" (V-SC1). -/
def payloadOfA : State := decFresh 0x307FFC00 [0x00, 0x30, 0x7F, 0xFC, 0x00, 0x00] 1

theorem witness_DecStreamIsTheTokenLoop :
    (payloadOfA.mode = .dec ∧ payloadOfA.err = false ∧ (∃ u, Tokens payloadOfA u ∧ ∃ t, Runs .decFinish u t) ∧
      payloadOfA.opos.toNat ≤ payloadOfA.olim.toNat) ∧
    (let s := drained 0 0x01000000
     TokenSteps s s ∧ s.opos.toNat < s.olim.toNat ∧ Faults .decToken s .truncated) ∧
    (∃ u, Tokens { payloadOfA with ilen := 7 } u ∧ Faults .decFinish u .trailing) ∧
    (let s := decFresh 0 [0, 0, 0, 0, 0] 0
     s.olim.toNat ≤ s.opos.toNat ∧ s.decCode = 0 ∧ s.ipos = s.ilen) ∧
    Faults .decFinish (decFresh 1 [0, 0, 0, 0, 1] 0) .corruptEnd :=
  ⟨⟨rfl, rfl, ⟨_, ⟨.token _ _ _ (by decide) ⟨rfl, by decide⟩ (.refl _), by decide⟩, _, rfl, by decide⟩, by decide⟩,
    ⟨.refl _, by decide, faults_of_faultOf (by decide)⟩,
    ⟨_, ⟨.token _ _ _ (by decide) ⟨rfl, by decide⟩ (.refl _), by decide⟩, faults_of_faultOf (by decide)⟩, by decide,
    faults_of_faultOf (by decide)⟩

theorem witness_OnlyTheHostWritesItsRegisters : ∃ t, exec .encFlush (encFresh [] 4) = .next t ∧ Instr.encFlush ≠ .reset :=
  ⟨_, rfl, by decide⟩

theorem witness_OutputStaysBelowTheLimit :
    let s := { encFresh [] 64 with opos := 1 }
    (∃ t, exec .encFlush s = .next t) ∧ s.olim.toNat ≤ 64 ∧ 0 < s.opos.toNat := ⟨⟨_, rfl⟩, by decide, by decide⟩

theorem witness_OnlyFiveCommandsWriteResult :
    (∃ t, exec .decToken payloadOfA = .next t) ∧ Instr.decToken ≠ .reset ∧
    (∀ c, Instr.decToken ≠ .pmPredict c ∧ Instr.decToken ≠ .decBit c) ∧ (∀ n, Instr.decToken ≠ .decDirect n) ∧
    ∀ c n, Instr.decToken ≠ .decTree c n ∧ Instr.decToken ≠ .decRtree c n :=
  ⟨⟨_, rfl⟩, nofun, fun _ => ⟨nofun, nofun⟩, fun _ => nofun, fun _ _ => ⟨nofun, nofun⟩⟩

theorem witness_ModeTransitions :
    ((encFresh [] 4).err = false ∧ ∃ t, exec .encFlush (encFresh [] 4) = .next t ∧ t.err = true) ∧
    (encFresh [] 5).err = false ∧ ∃ t, exec .encFlush (encFresh [] 5) = .next t ∧ t.mode = .idle :=
  ⟨⟨rfl, _, rfl, by decide⟩, rfl, _, rfl, by decide⟩

theorem witness_EncoderCommandFrame :
    (∃ t, exec (.encBit 0x922 true) (encFresh [] 64) = .next t) ∧ (∃ t, exec .encFlush (encFresh [] 4) = .next t ∧ t.err = true) ∧
    (0x923 : Ctx) ≠ 0x922 ∧ Instr.encBit 0x922 true ≠ .encFlush ∧
    ((∃ t, exec (.encTree 0x922 3) (narrowed 0x02000000) = .next t ∧ t.err = true) ∧
      (0x924 : Ctx) ∈ (treeBits 0x922 3 0).map Prod.fst ∧ (0x925 : Ctx) ∉ (treeBits 0x922 3 0).map Prod.fst) ∧
    (0x925 : Ctx) ∉ (rtreeBits 0x922 0 3 1).map Prod.fst ∧ (∃ t, exec .encLit (tight 0x02000000) = .next t ∧ t.err = true) ∧
    ((tight 0x02000000).raced = [] ∧ (0x921 : Ctx) ≠ flag (tight 0x02000000) ∧
      (0x921 : Ctx) ∉ (treeBits (litTree (tight 0x02000000)) 8 0x61).map Prod.fst) ∧
    (∃ t, exec .encMatch (tight 0x02000000) = .next t ∧ t.err = true) ∧ ∃ t, exec .encStream (tight 0x02000000) = .next t ∧ t.err = true :=
  ⟨⟨_, rfl⟩, ⟨_, rfl, by decide⟩, by decide, by decide, ⟨⟨_, rfl, by decide⟩, by decide, by decide⟩, by decide, ⟨_, rfl, by decide⟩,
    by decide, ⟨_, rfl, by decide⟩, _, rfl, by decide⟩

theorem witness_DecoderCommandFrame :
    (∃ t, exec (.decTree 0x922 3) (ready 0) = .next t ∧ t.err = false) ∧
    (∃ t, exec (.decDirect 32) (ready 0) = .next t ∧ t.err = true) ∧
    (∀ m, 1 ≤ m → m < 2 ^ (3 : BitVec 6).toNat → (0x922 : Ctx) ≠ 0x922 + BitVec.ofNat 12 m) ∧
    ((loaded [1, 0, 0, 0, 0] 0).err = false ∧ ∃ t, exec (.decInit 0) (loaded [1, 0, 0, 0, 0] 0) = .next t ∧ t.err = true) ∧
    (∃ t, exec (.decInit 0) (loaded [0, 0, 0, 0, 0] 0) = .next t ∧ t.err = false) ∧
    (∃ t, exec .decToken (drained 0 0x01000000) = .next t ∧ t.err = true) ∧
    ∃ t, exec .decStream (drained 0 0x01000000) = .next t ∧ t.err = true := by
  refine ⟨⟨_, rfl, by decide⟩, ⟨_, rfl, by decide⟩, fun m h1 h2 => ?_, ⟨rfl, _, rfl, by decide⟩, ⟨_, rfl, by decide⟩, ⟨_, rfl, by decide⟩,
    _, rfl, by decide⟩
  have h3 : m < 8 := h2
  interval_cases m <;> decide

theorem witness_CursorsStayInBounds :
    (∃ t, Runs .encMatch aaaaab t) ∧ aaaaab.opos ≤ aaaaab.olim ∧ aaaaab.ipos ≤ aaaaab.ilen := ⟨⟨_, rfl, by decide⟩, by decide, by decide⟩

/-- The invariant in an open encode stream. -/
theorem witness_StepKeepsInvariant :
    (running 0x15000000 (encFresh [0x61] 64)).Inv ∧ ∃ t, step (running 0x15000000 (encFresh [0x61] 64)) = .next t ∧ t.mode = .idle := by
  refine ⟨⟨⟨by decide, fun _ c h => (List.not_mem_nil h).elim, by decide, by decide, by decide, by decide, by decide⟩,
    ⟨by decide, fun w _ h => absurd h (by decide), fun _ => by decide⟩, fun _ => ⟨fun _ => ⟨rfl, fun c => ?_⟩, fun _ => by decide,
      fun h => absurd h (by decide)⟩⟩, _, rfl, by decide⟩
  have h : (running 0x15000000 (encFresh [0x61] 64)).probAt c = 1024 := rfl
  rw [h]; decide

theorem witness_StepKeepsWindow :
    (running 0x38000000 (mid 1 8 0x7FFFFC00)).WindowOk ∧
    ∃ t, step (running 0x38000000 (mid 1 8 0x7FFFFC00)) = .next t ∧ t.opos = 3 :=
  ⟨mid_windowOk 8 0x7FFFFC00, _, rfl, by decide⟩

end Sys2Proof.Tests
end

section
/-! SUPPORT. What a command can do, said once. Its body is a sequence of actions (`Action`); a fault is recorded over a state in which
only what the command writes is unspecified (`Loosened`); `exec_answers` says that every command ends in one of these ways. -/

namespace Sys2Proof.Machine

open Relation

/-! ### The parts of the state a command leaves alone -/

/-- The fields that only the host, `RESET` and the recording of a fault write, every other field blank. -/
def State.hostPart (s : State) : State :=
  { State.reset with
    pending := s.pending, err := s.err, errcode := s.errcode, errCmd := s.errCmd, arg := s.arg, ilen := s.ilen
    olim := s.olim, errIpos := s.errIpos, errOpos := s.errOpos, winExtra := s.winExtra, overrun := s.overrun
    ibuf := s.ibuf, raced := s.raced, bus := s.bus, moves := s.moves }

/-- The fields that no single coding, searching or replaying action writes, every other field blank. -/
def State.corePart (s : State) : State :=
  { s.hostPart with mode := s.mode, level := s.level, result := s.result, obufFree := s.obufFree, draws := s.draws }

theorem hostPart_of_corePart {s t : State} (h : t.corePart = s.corePart) : t.hostPart = s.hostPart :=
  (congrArg State.hostPart h :)

theorem EncFrame.corePart {s t : State} (h : EncFrame s t) : t.corePart = s.corePart :=
  (congrArg State.corePart h.1 :)

theorem DecFrame.corePart {s t : State} (h : DecFrame s t) : t.corePart = s.corePart :=
  (congrArg State.corePart h.1 :)

/-! ### How a procedure ends -/

/-- A procedure ends with a value that meets P, or raises a fault code other than `NONE`. -/
def Ends {α : Type} (P : α → Prop) : Run α → Prop
  | .ok a => P a
  | .error k => k ≠ .none

theorem Ends.bind {α β : Type} {P : α → Prop} {Q : β → Prop} {x : Run α} {f : α → Run β} (h : Ends P x)
    (hf : ∀ a, P a → Ends Q (f a)) : Ends Q (x.bind f) := by
  cases x with
  | ok a => exact hf a h
  | error k => exact h

theorem Ends.imp {α : Type} {P Q : α → Prop} {x : Run α} (h : Ends P x) (hpq : ∀ a, P a → Q a) : Ends Q x := by
  cases x with
  | ok a => exact hpq a h
  | error k => exact h

/-- What a procedure completes with may be shown apart from what it raises. -/
theorem Ends.of_ok {α : Type} {P : α → Prop} {x : Run α} (h : Ends (fun _ => True) x) (hp : ∀ a, x = .ok a → P a) :
    Ends P x := by
  cases x with
  | ok a => exact hp a rfl
  | error k => exact h

theorem outByte_ends (b : Byte) (s : State) : Ends (fun _ => True) (outByte b s) := by
  unfold outByte
  split
  · exact nofun
  · trivial

theorem emitPending_ends (n : Nat) (temp carry : Byte) (s : State) : Ends (fun _ => True) (emitPending n temp carry s) := by
  induction n generalizing temp s with
  | zero => trivial
  | succ n ih => exact (outByte_ends _ s).bind fun t _ => ih _ t

theorem shiftLow_ends (s : State) : Ends (fun _ => True) (shiftLow s) := by
  unfold shiftLow
  split
  · exact (emitPending_ends _ _ _ s).bind fun _ _ => trivial
  · trivial

theorem normalizeEnc_ends (s : State) : Ends (fun _ => True) (normalizeEnc s) := by
  unfold normalizeEnc
  split
  · exact shiftLow_ends _
  · trivial

theorem inByte_ends (s : State) : Ends (fun _ => True) (inByte s) := by
  unfold inByte
  split
  · exact nofun
  · trivial

theorem refill_ends (s : State) : Ends (fun _ => True) (refill s) := (inByte_ends s).bind fun _ _ => trivial

theorem normalizeDec_ends (s : State) : Ends (fun _ => True) (normalizeDec s) := by
  unfold normalizeDec
  split
  · exact refill_ends _
  · trivial

/-! ### The actions commands are made of -/

/-- One action of a running command: what the bodies of all commands are made of, but for opening and closing a stream,
`RESET`, and the write of `RESULT`. -/
inductive Action : State → State → Prop where
  /-- `Update` of one estimator (R251) -/
  | update (c : Ctx) (b : Bool) (s : State) : Action s (s.update c b)
  /-- every estimator to 1024 (R260) -/
  | clear (s : State) : Action s s.clearProb
  /-- `EncodeBit` (R300) -/
  | encBit {c : Ctx} {b : Bool} {s t : State} : s.mode = .enc → encodeBit c b s = .ok t → Action s t
  /-- one bit of `EncodeDirect` (R303) -/
  | encDirect {b : Bool} {s t : State} : s.mode = .enc → normalizeEnc (narrowDirect b s) = .ok t → Action s t
  /-- `ShiftLow` (R301) -/
  | shift {s t : State} : s.mode = .enc → shiftLow s = .ok t → Action s t
  /-- `DecodeBit` (R352) -/
  | decBit {c : Ctx} {s : State} {r : Bool × State} : decodeBit c s = .ok r → Action s r.2
  /-- one bit of `DecodeDirect` (R353) -/
  | decDirect {s t : State} : normalizeDec (narrowDecDirect (codedDirect s) s) = .ok t → Action s t
  /-- `Insert` (R203) -/
  | insert (p : Nat) (s : State) : Action s (insertPos p s)
  /-- `Put` below `OLIM` (R411) -/
  | put (b : Byte) {s : State} : s.opos.toNat < s.olim.toNat → Action s (put b s)
  /-- `IPOS` moved inside the input -/
  | seek {p : Pos} {s : State} : p.toNat ≤ s.ilen.toNat → Action s { s with ipos := p }
  /-- a write of `CTXSTATE` (R40) -/
  | context (pb : Byte) (pm : Bool) (s : State) : Action s { s with prevByte := pb, prevMatch := pm }
  /-- a write of the `TOK_*` registers (R41-R44) -/
  | token (k : Bool) (b : Byte) (d : Word) (l : BitVec 9) (s : State) :
    Action s { s with tokKind := k, tokLit := b, tokDist := d, tokLen := l }

/-- Any number of actions. -/
def Actions : State → State → Prop := ReflTransGen Action

theorem Actions.refl (s : State) : Actions s s := ReflTransGen.refl

theorem Actions.snoc {s t u : State} (h : Actions s t) (a : Action t u) : Actions s u := ReflTransGen.tail h a

theorem Actions.trans {s t u : State} (h : Actions s t) (h' : Actions t u) : Actions s u := ReflTransGen.trans h h'

/-- What every action keeps, any number of them keeps. -/
theorem Actions.keep {P : State → Prop} (hp : ∀ {s t}, Action s t → P s → P t) {s t : State} (h : Actions s t) (hs : P s) :
    P t := by
  induction h with
  | refl => exact hs
  | tail _ a ih => exact hp a ih

theorem insertPos_corePart (p : Nat) (s : State) : (insertPos p s).corePart = s.corePart := by
  unfold insertPos
  split <;> rfl

theorem narrowDecDirect_frame (b : Bool) (s : State) : DecFrame s (narrowDecDirect b s) := by
  cases b <;> exact ⟨rfl, le_rfl⟩

theorem Action.corePart {s t : State} (a : Action s t) : t.corePart = s.corePart := by
  cases a with
  | encBit _ h => exact (encodeBit_frame h).corePart
  | encDirect _ h => exact ((narrowDirect_frame _ s).trans (normalizeEnc_frame h).1).corePart
  | shift _ h => exact (shiftLow_frame h).1.corePart
  | decBit h => exact (decodeBit_frame h).2.1.corePart
  | decDirect h => exact ((narrowDecDirect_frame _ s).trans (normalizeDec_frame h).1).corePart
  | insert p => exact insertPos_corePart p s
  | update | clear | put | seek | context | token => rfl

theorem Actions.corePart {s t : State} (h : Actions s t) : t.corePart = s.corePart :=
  h.keep (P := fun t => t.corePart = s.corePart) (fun a e => a.corePart.trans e) rfl

theorem Actions.mode {s t : State} (h : Actions s t) : t.mode = s.mode := (congrArg State.mode h.corePart :)

theorem Actions.ilen {s t : State} (h : Actions s t) : t.ilen = s.ilen := (congrArg State.ilen h.corePart :)

theorem Actions.olim {s t : State} (h : Actions s t) : t.olim = s.olim := (congrArg State.olim h.corePart :)

/-! ### The encoding procedures are actions -/

section Encoder

variable {s₀ s : State} (hm : s₀.mode = .enc) (h : Actions s₀ s)
include hm h

theorem encodeBit_actions (c : Ctx) (b : Bool) : Ends (Actions s₀) (encodeBit c b s) :=
  (normalizeEnc_ends _).of_ok fun _ ht => h.snoc (.encBit (h.mode.trans hm) ht)

theorem encodeDirect_actions (v : Word) (n : Nat) : Ends (Actions s₀) (encodeDirect v n s) := by
  induction n generalizing s with
  | zero => exact h
  | succ n ih =>
    have hb : Ends (Actions s₀) (normalizeEnc (narrowDirect (v.getLsbD n) s)) :=
      (normalizeEnc_ends _).of_ok fun _ ht => h.snoc (.encDirect (h.mode.trans hm) ht)
    exact hb.bind fun _ hu => ih hu

theorem encodeTreeFrom_actions (base : Ctx) (sym : Word) (n m : Nat) :
    Ends (Actions s₀) (encodeTreeFrom base sym n m s) := by
  induction n generalizing m s with
  | zero => exact h
  | succ n ih => exact (encodeBit_actions hm h _ _).bind fun _ hu => ih hu _

theorem encodeRtreeFrom_actions (base : Ctx) (sym : Word) (n i m : Nat) :
    Ends (Actions s₀) (encodeRtreeFrom base sym n i m s) := by
  induction n generalizing i m s with
  | zero => exact h
  | succ n ih => exact (encodeBit_actions hm h _ _).bind fun _ hu => ih hu _ _

theorem encodeSlotValue_actions (base : Ctx) (nbits v : Nat) : Ends (Actions s₀) (encodeSlotValue base nbits v s) :=
  (encodeTreeFrom_actions hm h _ _ _ _).bind fun _ hu => encodeDirect_actions hm hu _ _

theorem encodeLiteralToken_actions (b : Byte) : Ends (Actions s₀) (encodeLiteralToken b s) :=
  (encodeBit_actions hm h _ _).bind fun _ hu => encodeTreeFrom_actions hm hu _ _ _ _

theorem encodeMatchToken_actions (d l : Nat) : Ends (Actions s₀) (encodeMatchToken d l s) :=
  (encodeBit_actions hm h _ _).bind fun _ hu =>
    (encodeSlotValue_actions hm hu _ _ _).bind fun _ hv => encodeSlotValue_actions hm hv _ _ _

theorem shiftLows_actions (n : Nat) : Ends (Actions s₀) (shiftLows n s) := by
  induction n generalizing s with
  | zero => exact h
  | succ n ih =>
    have hb : Ends (Actions s₀) (shiftLow s) :=
      (shiftLow_ends s).of_ok fun _ ht => h.snoc (.shift (h.mode.trans hm) ht)
    exact hb.bind fun _ hu => ih hu

omit hm in
theorem insertRun_actions (l p : Nat) : Actions s₀ (insertRun l p s) := by
  induction l generalizing p s with
  | zero => exact h
  | succ l ih => exact ih (h.snoc (.insert p s)) _

omit hm in
theorem mfFindBody_actions : Actions s₀ (mfFindBody s) := by
  unfold mfFindBody
  dsimp only
  split
  · exact h.snoc (.token _ s.tokLit _ _ s)
  · exact h.snoc (.token _ s.tokLit _ _ s)

theorem encLitBody_actions : Ends (Actions s₀) (encLitBody s) := by
  unfold encLitBody
  split
  · exact nofun
  · next hi =>
    refine (encodeLiteralToken_actions hm h _).bind fun t ht => ?_
    have hlt : s.ipos.toNat < s.ilen.toNat := by rw [BitVec.le_def] at hi; omega
    have ha := ht.snoc (.insert s.ipos.toNat t)
    have hl : (insertPos s.ipos.toNat t).ilen = s.ilen := ha.ilen.trans h.ilen.symm
    have hk := ha.snoc (.seek (p := s.ipos + 1) (by rw [hl, ipos_succ hlt]; exact hlt))
    exact hk.snoc (.context _ _ _)

omit hm h in
/-- A pair that passes the checks of `ENC_MATCH` ends inside the input (R431). -/
theorem matchOk_end (hk : matchOk s = true) :
    (s.ipos + BitVec.ofNat 64 s.tokLen.toNat).toNat ≤ s.ilen.toNat := by
  have hn : s.tokLen.toNat ≤ s.ilen.toNat - s.ipos.toNat ∧ 2 ≤ s.tokLen.toNat := by
    simp only [matchOk, Bool.and_eq_true, decide_eq_true_eq] at hk
    obtain ⟨⟨⟨-, hmin⟩, hmax⟩, -⟩ := hk
    exact ⟨hmax.trans (Nat.min_le_right _ _), hmin⟩
  have := s.ilen.isLt
  rw [BitVec.toNat_add, BitVec.toNat_ofNat]
  omega

theorem encMatchCode_actions (hk : matchOk s = true) : Ends (Actions s₀) (encMatchCode s) := by
  refine (encodeMatchToken_actions hm h _ _).bind fun t ht => ?_
  have ha := insertRun_actions ht s.tokLen.toNat s.ipos.toNat
  have hl : (insertRun s.tokLen.toNat s.ipos.toNat t).ilen = s.ilen := ha.ilen.trans h.ilen.symm
  have hs := ha.snoc (.seek (p := s.ipos + BitVec.ofNat 64 s.tokLen.toNat) (by rw [hl]; exact matchOk_end hk))
  exact hs.snoc (.context _ _ _)

theorem encMatchBody_actions : Ends (Actions s₀) (encMatchBody s) := by
  unfold encMatchBody
  split
  · next hk => exact encMatchCode_actions hm h hk
  · exact nofun

theorem encLoop_actions (fuel : Nat) : Ends (Actions s₀) (encLoop fuel s) := by
  induction fuel generalizing s with
  | zero => exact h
  | succ fuel ih =>
    unfold encLoop
    have hf := mfFindBody_actions h
    split
    · dsimp only
      refine Ends.bind (P := Actions s₀) ?_ fun _ hu => ih hu
      split
      · exact encMatchBody_actions hm hf
      · exact encLitBody_actions hm hf
    · exact h

end Encoder

/-! ### The decoding procedures are actions -/

/-- Actions that leave the output position: what decoding does before it replays a token. -/
def Decodes (s t : State) : Prop := Actions s t ∧ t.opos = s.opos

section Decoder

variable {s₀ s : State} (h : Decodes s₀ s)
include h

theorem decodeBit_actions (c : Ctx) : Ends (fun r => Decodes s₀ r.2) (decodeBit c s) := by
  refine Ends.of_ok ((normalizeDec_ends _).bind fun _ _ => trivial) fun r hr => ?_
  have ho : r.2.opos = s.opos := (congrArg State.opos (decodeBit_frame hr).2.1.1 :)
  exact ⟨h.1.snoc (.decBit hr), ho.trans h.2⟩

theorem decodeTreeFrom_actions (base : Ctx) (n m : Nat) :
    Ends (fun r => Decodes s₀ r.2) (decodeTreeFrom base n m s) := by
  induction n generalizing m s with
  | zero => exact h
  | succ n ih => exact (decodeBit_actions h _).bind fun _ hu => ih hu _

theorem decodeTree_actions (base : Ctx) (n : Nat) : Ends (fun r => Decodes s₀ r.2) (decodeTree base n s) :=
  (decodeTreeFrom_actions h _ _ _).bind fun _ hu => hu

theorem decodeRtreeFrom_actions (base : Ctx) (n i m sym : Nat) :
    Ends (fun r => Decodes s₀ r.2) (decodeRtreeFrom base n i m sym s) := by
  induction n generalizing i m sym s with
  | zero => exact h
  | succ n ih => exact (decodeBit_actions h _).bind fun _ hu => ih hu _ _ _

theorem decodeDirectFrom_actions (n : Nat) (v : Word) : Ends (fun r => Decodes s₀ r.2) (decodeDirectFrom n v s) := by
  induction n generalizing v s with
  | zero => exact h
  | succ n ih =>
    have hb : Ends (Decodes s₀) (normalizeDec (narrowDecDirect (codedDirect s) s)) := by
      refine (normalizeDec_ends _).of_ok fun t ht => ?_
      have ho : t.opos = s.opos :=
        (congrArg State.opos ((narrowDecDirect_frame _ s).trans (normalizeDec_frame ht).1).1 :)
      exact ⟨h.1.snoc (.decDirect ht), ho.trans h.2⟩
    exact hb.bind fun _ hu => ih hu _

theorem decodeSlotValue_actions (base : Ctx) (nbits : Nat) :
    Ends (fun r => Decodes s₀ r.2) (decodeSlotValue base nbits s) := by
  refine (decodeTree_actions h _ _).bind fun r hr => ?_
  split
  · exact hr
  · exact (decodeDirectFrom_actions hr _ _).bind fun _ hx => hx

theorem decodeTokenFields_actions : Ends (fun r => Decodes s₀ r.2) (decodeTokenFields s) := by
  refine (decodeBit_actions h _).bind fun f hf => ?_
  split
  · refine (decodeSlotValue_actions hf _ _).bind fun n hn => ?_
    split
    · exact nofun
    · exact (decodeSlotValue_actions hn _ _).bind fun _ hv => hv
  · exact (decodeTree_actions hf _ _).bind fun _ hr => hr

end Decoder

theorem opos_succ {s : State} (h : s.opos.toNat < s.olim.toNat) : (s.opos + 1).toNat = s.opos.toNat + 1 := by
  have := s.olim.isLt
  exact BitVec.toNat_add_of_lt (show s.opos.toNat + 1 < 2 ^ 64 by omega)

section Replay

variable {s₀ s : State} (h : Actions s₀ s)
include h

theorem copyMatch_actions (d l : Nat) (hl : s.opos.toNat + l ≤ s.olim.toNat) : Actions s₀ (copyMatch d l s) := by
  induction l generalizing s with
  | zero => exact h
  | succ l ih =>
    have ho := opos_succ (s := s) (by omega)
    refine ih (h.snoc (.put _ (by omega))) ?_
    show (s.opos + 1).toNat + l ≤ s.olim.toNat
    omega

theorem replay_actions (tok : Token) (ho : s.opos.toNat < s.olim.toNat) : Ends (Actions s₀) (replay tok s) := by
  unfold replay
  split
  · next b =>
    have hp := h.snoc (.put b ho)
    exact (hp.snoc (.context b false _)).snoc (.token false b 0 0 _)
  · next d l =>
    split
    · exact nofun
    · split
      · exact nofun
      · have hc := copyMatch_actions h d l (by omega)
        exact (hc.snoc (.context _ true _)).snoc (.token true 0 (BitVec.ofNat 32 d) (BitVec.ofNat 9 l) _)

theorem decTokenBody_actions (ho : s.opos.toNat < s.olim.toNat) : Ends (Actions s₀) (decTokenBody s) := by
  refine (decodeTokenFields_actions ⟨.refl s, rfl⟩).bind fun r hr => ?_
  exact replay_actions (h.trans hr.1) _ (by rw [hr.2, hr.1.olim]; exact ho)

theorem decLoop_actions (fuel : Nat) : Ends (Actions s₀) (decLoop fuel s) := by
  induction fuel generalizing s with
  | zero => exact h
  | succ fuel ih =>
    unfold decLoop
    split
    · next ho => exact (decTokenBody_actions h (BitVec.lt_def.mp ho)).bind fun _ hu => ih hu
    · exact h

end Replay

/-- The reads of `DEC_INIT` after the first: they move `IPOS` and `DEC_CODE` alone (R360). -/
theorem refills_ends (n : Nat) (s : State) (hi : s.ipos.toNat ≤ s.ilen.toNat) :
    Ends (fun t => ∃ p v, t = { s with ipos := p, decCode := v } ∧ p.toNat ≤ s.ilen.toNat) (refills n s) := by
  induction n generalizing s with
  | zero => exact ⟨_, _, rfl, hi⟩
  | succ n ih =>
    have hr : Ends (fun t => ∃ p v, t = { s with ipos := p, decCode := v } ∧ p.toNat ≤ s.ilen.toNat) (refill s) := by
      refine (refill_ends s).of_ok fun t ht => ?_
      obtain ⟨x, hx, ht⟩ := run_bind_eq_ok.mp ht
      obtain ⟨hlt, rfl⟩ := inByte_eq_ok.mp hx
      cases ht
      exact ⟨_, _, rfl, by rw [ipos_succ hlt]; exact hlt⟩
    refine hr.bind ?_
    rintro _ ⟨p, v, rfl, hp⟩
    refine (ih _ hp).imp ?_
    rintro _ ⟨q, w, rfl, hq⟩
    exact ⟨q, w, rfl, hq⟩

/-- What a `DEC_INIT` that completes leaves (R360). -/
theorem decInitBody_ends (lvl : BitVec 6) (s : State) :
    Ends (fun t => ∃ p v, t = { openDecode lvl s with ipos := p, decCode := v, mode := .dec } ∧ p.toNat ≤ s.ilen.toNat)
      (decInitBody lvl s) := by
  have hb : Ends (fun r => r.2 = { openDecode lvl s with ipos := 1 } ∧ 0 < s.ilen.toNat) (inByte (openDecode lvl s)) := by
    refine (inByte_ends _).of_ok fun r hr => ?_
    obtain ⟨hlt, rfl⟩ := inByte_eq_ok.mp hr
    exact ⟨rfl, hlt⟩
  refine hb.bind ?_
  rintro r ⟨hr, hl⟩
  rw [hr]
  refine (refills_ends 4 { openDecode lvl s with ipos := 1 } hl).bind ?_
  rintro _ ⟨p, v, rfl, hp⟩
  split
  · exact ⟨p, v, rfl, hp⟩
  · exact nofun

/-! ### The canonical form of the arrays -/

theorem mem_insert {α : Type} {m : List (Nat × α)} {i : Nat} {v : α} {c : Nat × α} (h : c ∈ Cells.insert m i v) :
    c = (i, v) ∨ c ∈ m := by
  induction m with
  | nil => exact .inl (List.mem_singleton.mp h)
  | cons d rest ih =>
    simp only [Cells.insert] at h
    split at h
    · exact List.mem_cons.mp h
    · split at h
      · exact (List.mem_cons.mp h).imp_right (List.mem_cons_of_mem _)
      · rcases List.mem_cons.mp h with rfl | h
        · exact .inr List.mem_cons_self
        · exact (ih h).imp_right (List.mem_cons_of_mem _)

/-- A write of an estimator never lists the value an unlisted one has (R59). -/
theorem setProb_listed {s : State} (c : Ctx) (p : Prob)
    (h : s.prob.fill = none → ∀ e ∈ s.prob.cells, e.2 ≠ Config.probInit) :
    (s.setProb c p).prob.fill = none → ∀ e ∈ (s.setProb c p).prob.cells, e.2 ≠ Config.probInit := by
  intro hf e he
  rw [setProb_fill] at hf
  simp only [State.setProb] at he
  split at he
  · exact h hf e (List.mem_of_mem_filter he)
  · next hn =>
    rcases mem_insert he with rfl | he
    · exact fun hp => hn ⟨hf, hp⟩
    · exact h hf e he

theorem canonical_setProb {s : State} (c : Ctx) (p : Prob) (h : s.Canonical) : (s.setProb c p).Canonical := by
  obtain ⟨hprob, hlisted, hrest⟩ := h
  exact ⟨prob_wf_setProb c p hprob, setProb_listed c p hlisted, hrest⟩

theorem canonical_looseProbs {s : State} (cs : List Ctx) (h : s.Canonical) : (looseProbs cs s).Canonical := by
  unfold looseProbs
  generalize s.draws = k
  induction cs generalizing s with
  | nil => exact h
  | cons c cs ih => exact ih (canonical_setProb c _ h)

theorem canonical_clearProb {s : State} (h : s.Canonical) : s.clearProb.Canonical := by
  obtain ⟨-, -, hrest⟩ := h
  exact ⟨rfl, fun _ _ he => (List.not_mem_nil he).elim, hrest⟩

theorem canonical_looseProb {s : State} (h : s.Canonical) : (looseProb s).Canonical := by
  obtain ⟨-, -, hrest⟩ := h
  exact ⟨rfl, nofun, hrest⟩

theorem canonical_looseFinder {s : State} (h : s.Canonical) : (looseFinder s).Canonical := by
  obtain ⟨hprob, hlisted, -, -, hrest⟩ := h
  exact ⟨hprob, hlisted, rfl, rfl, hrest⟩

theorem canonical_looseWinbuf {s : State} (h : s.Canonical) : (looseWinbuf s).Canonical := by
  obtain ⟨hprob, hlisted, hhead, hchain, -, hbytes⟩ := h
  exact ⟨hprob, hlisted, hhead, hchain, rfl, hbytes⟩

/-- The canonical form after a change of `PROB`, to what a canonical state u has, and of `OBUF`. -/
theorem canonical_of_parts {s t u : State} (hs : s.Canonical) (hu : u.Canonical) (hp : t.prob = u.prob)
    (hh : t.head = s.head) (hc : t.chain = s.chain) (hw : t.winbuf = s.winbuf) (hi : t.ibuf = s.ibuf)
    (ho : Memory.wf s.obuf = true → Memory.wf t.obuf = true) : t.Canonical := by
  obtain ⟨-, -, hhead, hchain, hwin, hibuf, hobuf⟩ := hs
  obtain ⟨hprob, hlisted, -⟩ := hu
  exact ⟨hp ▸ hprob, hp ▸ hlisted, hh ▸ hhead, hc ▸ hchain, hw ▸ hwin, hi ▸ hibuf, ho hobuf⟩

theorem canonical_looseObufTo {s : State} (hi : Nat) (h : s.Canonical) : (looseObufTo hi s).Canonical :=
  canonical_of_parts h h rfl rfl rfl rfl rfl (memory_wf_looseObufTo hi)

/-! ### What a fault leaves unspecified (R502) -/

/-- State u is s with nothing changed that a fault of a command may not leave unspecified: not the host's part, the mode, or a byte
of `OBUF` outside `OPOS` to `OLIM`, and `RESULT` only if the command writes it (w). -/
def Loosened (w : Bool) (s u : State) : Prop :=
  u.hostPart = s.hostPart ∧ u.mode = s.mode ∧ (s.Canonical → u.Canonical) ∧ (u.result = s.result ∨ w = true) ∧
    ∀ j, s.olim.toNat ≤ j ∨ j < s.opos.toNat → u.obufByte j = s.obufByte j

namespace Loosened

variable {w : Bool} {s u : State}

theorem refl (w : Bool) (s : State) : Loosened w s s := ⟨rfl, rfl, id, .inl rfl, fun _ _ => rfl⟩

/-- The output bytes are freed from the `OPOS` the command started with. -/
theorem obuf (h : Loosened w s u) (ho : u.opos = s.opos) : Loosened w s (looseObuf u) := by
  obtain ⟨hhost, hmode, hcan, hres, hout⟩ := h
  have hl : u.olim = s.olim := (congrArg State.olim hhost :)
  refine ⟨hhost, hmode, fun hs => canonical_looseObufTo _ (hcan hs), hres, fun j hj => ?_⟩
  rw [obufByte_looseObuf u j (by rw [ho, hl]; exact hj.symm), hout j hj]

theorem probs (h : Loosened w s u) (cs : List Ctx) : Loosened w s (looseProbs cs u) := by
  obtain ⟨hhost, hmode, hcan, hres, hout⟩ := h
  have hf := looseProbs_frame cs u
  refine ⟨?_, ?_, fun hs => canonical_looseProbs cs (hcan hs), ?_, fun j hj => ?_⟩
  · rw [hf]; exact hhost
  · rw [hf]; exact hmode
  · rw [hf]; exact hres
  · rw [hf]; exact hout j hj

theorem prob (h : Loosened w s u) : Loosened w s (looseProb u) := by
  obtain ⟨hhost, hmode, hcan, hres, hout⟩ := h
  exact ⟨hhost, hmode, fun hs => canonical_looseProb (hcan hs), hres, hout⟩

theorem finder (h : Loosened w s u) : Loosened w s (looseFinder u) := by
  obtain ⟨hhost, hmode, hcan, hres, hout⟩ := h
  exact ⟨hhost, hmode, fun hs => canonical_looseFinder (hcan hs), hres, hout⟩

theorem winbuf (h : Loosened w s u) : Loosened w s (looseWinbuf u) := by
  obtain ⟨hhost, hmode, hcan, hres, hout⟩ := h
  exact ⟨hhost, hmode, fun hs => canonical_looseWinbuf (hcan hs), hres, hout⟩

/-! A write of registers alone that a fault may leave unspecified. -/

theorem opos (h : Loosened w s u) : Loosened w s (looseOpos u) := h
theorem ipos (h : Loosened w s u) : Loosened w s (looseIpos u) := h
theorem encLow (h : Loosened w s u) : Loosened w s (looseEncLow u) := h
theorem encRange (h : Loosened w s u) : Loosened w s (looseEncRange u) := h
theorem pending (h : Loosened w s u) : Loosened w s (loosePending u) := h
theorem decoder (h : Loosened w s u) : Loosened w s (looseDecoder u) := h
theorem result (h : Loosened true s u) : Loosened true s (looseResult u) := by
  obtain ⟨hhost, hmode, hcan, -, hout⟩ := h
  exact ⟨hhost, hmode, hcan, .inr rfl, hout⟩
theorem ctxstate (h : Loosened w s u) : Loosened w s (looseCtxstate u) := h
theorem level (h : Loosened w s u) : Loosened w s (looseLevel u) := h
theorem tokMatch (h : Loosened w s u) : Loosened w s (looseTokMatch u) := h
theorem tokLit (h : Loosened w s u) : Loosened w s (looseTokLit u) := h
theorem drawn (h : Loosened w s u) : Loosened w s (drawn u) := h

theorem encoder (h : Loosened w s u) (ho : u.opos = s.opos) : Loosened w s (looseEncoder u) :=
  (h.obuf ho).encLow.encRange.pending.opos

end Loosened

theorem looseProbs_opos (cs : List Ctx) (s : State) : (looseProbs cs s).opos = s.opos :=
  (congrArg State.opos (looseProbs_frame cs s) :)

/-! ### What a command can do -/

/-- The commands that write `RESULT` (R39). -/
def writesResult : Instr → Bool
  | .pmPredict _ | .decBit _ | .decDirect _ | .decTree _ _ | .decRtree _ _ => true
  | _ => false

/-- The commands that close a stream (R36). -/
def closesStream : Instr → Bool
  | .encFlush | .encStream | .decFinish | .decStream => true
  | _ => false

/-- What a command that raises no fault does: some actions, and then perhaps the write of `RESULT` or the close of the stream;
or it is `RESET`, or it opens a stream. -/
inductive Completed (s : State) : Instr → State → Prop where
  | actions {i : Instr} {t : State} : Actions s t → Completed s i t
  | result {i : Instr} {t : State} (v : Word) : writesResult i = true → Actions s t → Completed s i { t with result := v }
  | close {i : Instr} {t : State} : closesStream i = true → Actions s t → Completed s i { t with mode := .idle }
  | reset : Completed s .reset s.resetRegisters
  | openEnc {lvl : BitVec 6} : levelOk lvl = true → windowFits lvl s = true → Completed s (.encInit lvl) (openEncode lvl s)
  | openDec {lvl : BitVec 6} (p : Pos) (v : Word) : levelOk lvl = true → windowFits lvl s = true → p.toNat ≤ s.ilen.toNat →
    Completed s (.decInit lvl) { openDecode lvl s with ipos := p, decCode := v, mode := .dec }

/-- How a command ends: a fault is recorded over what it leaves unspecified, or it completes. -/
def Answers (i : Instr) (s t : State) : Prop :=
  (∃ k u, k ≠ .none ∧ Loosened (writesResult i) s u ∧ t = recordFault k (encode i) s u) ∨
    Completed s i t

section

variable {i : Instr} {s : State}

theorem answers_preFault {k : Errcode} (hk : k ≠ .none) : Answers i s (preFault k (encode i) s) :=
  .inl ⟨k, s, hk, .refl _ s, rfl⟩

theorem answers_inMode {m : Mode} {body : State} (h : s.mode = m → Answers i s body) :
    Answers i s (inMode m (encode i) s body) := by
  unfold inMode
  split
  · next hm => exact h hm
  · exact answers_preFault nofun

theorem answers_finish {u : State} {r : Run State} (hu : Loosened (writesResult i) s u)
    (hr : Ends (Completed s i) r) : Answers i s (finish (encode i) s u r) := by
  cases r with
  | ok t => exact .inr hr
  | error k => exact .inl ⟨k, u, hr, hu, rfl⟩

/-- A command with an argument check. -/
theorem answers_check {c : Prop} [Decidable c] {k : Errcode} {body : State} (hk : k ≠ .none) (h : c → Answers i s body) :
    Answers i s (if c then body else preFault k (encode i) s) := by
  split
  · next hc => exact h hc
  · exact answers_preFault hk

/-- A command with a check that stops it. -/
theorem answers_stop {c : Prop} [Decidable c] {k : Errcode} {body : State} (hk : k ≠ .none) (h : ¬ c → Answers i s body) :
    Answers i s (if c then preFault k (encode i) s else body) := by
  split
  · exact answers_preFault hk
  · next hc => exact h hc

end

theorem decFinishBody_ends {i : Instr} {s u : State} (hc : closesStream i = true) (h : Actions s u) :
    Ends (Completed s i) (decFinishBody u) := by
  unfold decFinishBody
  split
  · exact nofun
  · split
    · exact nofun
    · exact .close hc h

theorem encFlushBody_ends {i : Instr} {s u : State} (hc : closesStream i = true) (hm : s.mode = .enc) (h : Actions s u) :
    Ends (Completed s i) (encFlushBody u) :=
  (shiftLows_actions hm h 5).bind fun _ ht => .close hc ht

/-- Every command ends in one of the ways of `Answers`. -/
theorem exec_answers_exists (i : Instr) (s : State) : ∃ t, exec i s = .next t ∧ Answers i s t := by
  have hs : Actions s s := .refl s
  have hd : Decodes s s := ⟨hs, rfl⟩
  have hl : Loosened (writesResult i) s s := .refl _ s
  have hp : ∀ cs, Loosened (writesResult i) s (looseEncoder (looseProbs cs s)) :=
    fun cs => (hl.probs cs).encoder (looseProbs_opos cs s)
  have he : Loosened (writesResult i) s (looseEncoder s) := hl.encoder rfl
  have ho : Loosened (writesResult i) s (looseObuf s) := hl.obuf rfl
  cases i with
  | nop => exact ⟨_, rfl, .inr (.actions hs)⟩
  | reset => exact ⟨_, rfl, .inr .reset⟩
  | pmReset => exact ⟨_, rfl, .inr (.actions (hs.snoc (.clear s)))⟩
  | pmPredict c => exact ⟨_, rfl, .inr (.result _ rfl hs)⟩
  | pmUpdate c b => exact ⟨_, rfl, .inr (.actions (hs.snoc (.update c b s)))⟩
  | encInit lvl =>
    exact ⟨_, rfl, answers_check nofun fun ho => answers_check nofun fun hw => .inr (.openEnc ho hw)⟩
  | encBit c b =>
    exact ⟨_, rfl, answers_inMode fun hm => answers_finish (hp [c]).drawn
      ((encodeBit_actions hm hs c b).imp fun _ => .actions)⟩
  | encDirect n =>
    exact ⟨_, rfl, answers_inMode fun hm => answers_check nofun fun _ => answers_finish he.drawn
      ((encodeDirect_actions hm hs _ _).imp fun _ => .actions)⟩
  | encTree c n =>
    exact ⟨_, rfl, answers_inMode fun hm => answers_check nofun fun _ =>
      answers_finish (hp _).drawn
        ((encodeTreeFrom_actions hm hs _ _ _ _).imp fun _ => .actions)⟩
  | encRtree c n =>
    exact ⟨_, rfl, answers_inMode fun hm => answers_check nofun fun _ =>
      answers_finish (hp _).drawn
        ((encodeRtreeFrom_actions hm hs _ _ _ _ _).imp fun _ => .actions)⟩
  | encFlush =>
    exact ⟨_, rfl, answers_inMode fun hm => answers_finish ho.encLow.pending.opos.drawn
      (encFlushBody_ends rfl hm hs)⟩
  | mfFind => exact ⟨_, rfl, answers_inMode fun _ => .inr (.actions (mfFindBody_actions hs))⟩
  | decInit lvl =>
    refine ⟨_, rfl, answers_check nofun fun hlvl => answers_check nofun fun hw =>
      answers_finish ho.opos.prob.decoder.ctxstate.ipos.level.drawn ((decInitBody_ends lvl s).imp ?_)⟩
    rintro _ ⟨p, v, rfl, hi⟩
    exact .openDec p v hlvl hw hi
  | decBit c =>
    exact ⟨_, rfl, answers_inMode fun _ => answers_finish (ho.probs [c]).decoder.ipos.drawn
      ((decodeBit_actions hd c).bind fun _ hr => .result _ rfl hr.1)⟩
  | decDirect n =>
    exact ⟨_, rfl, answers_inMode fun _ => answers_check nofun fun _ =>
      answers_finish ho.result.decoder.ipos.drawn
        ((decodeDirectFrom_actions hd _ _).bind fun _ hr => .result _ rfl hr.1)⟩
  | decTree c n =>
    exact ⟨_, rfl, answers_inMode fun _ => answers_check nofun fun _ =>
      answers_finish (ho.probs _).result.decoder.ipos.drawn
        ((decodeTree_actions hd _ _).bind fun _ hr => .result _ rfl hr.1)⟩
  | decRtree c n =>
    exact ⟨_, rfl, answers_inMode fun _ => answers_check nofun fun _ =>
      answers_finish (ho.probs _).result.decoder.ipos.drawn
        ((decodeRtreeFrom_actions hd _ _ _ _ _).bind fun _ hr => .result _ rfl hr.1)⟩
  | decFinish =>
    exact ⟨_, rfl, answers_inMode fun _ => answers_finish hl (decFinishBody_ends rfl hs)⟩
  | encLit =>
    exact ⟨_, rfl, answers_inMode fun hm => answers_stop nofun fun _ =>
      answers_finish (hp _).finder.ctxstate.ipos.drawn
        ((encLitBody_actions hm hs).imp fun _ => .actions)⟩
  | encMatch =>
    exact ⟨_, rfl, answers_inMode fun hm => answers_check nofun fun hk =>
      answers_finish he.prob.finder.ctxstate.ipos.drawn
        ((encMatchCode_actions hm hs hk).imp fun _ => .actions)⟩
  | encStream =>
    exact ⟨_, rfl, answers_inMode fun hm =>
      answers_finish he.prob.finder.ctxstate.ipos.tokMatch.drawn
        ((encLoop_actions hm hs _).bind fun _ hu => encFlushBody_ends rfl hm hu)⟩
  | decToken =>
    refine ⟨_, rfl, answers_inMode fun _ => answers_stop nofun fun hlim =>
      answers_finish ho.opos.prob.decoder.ipos.winbuf.ctxstate.tokMatch.tokLit.drawn
        ((decTokenBody_actions hs ?_).imp fun _ => .actions)⟩
    rw [BitVec.le_def] at hlim
    omega
  | decStream =>
    refine ⟨_, rfl, answers_inMode fun _ => answers_finish ?_
      ((decLoop_actions hs _).bind fun _ hu => decFinishBody_ends rfl hu)⟩
    split
    · exact hl
    · exact ho.opos.prob.decoder.ipos.winbuf.ctxstate.tokMatch.tokLit.drawn

/-- What a command can do. -/
theorem exec_answers {i : Instr} {s t : State} (h : exec i s = .next t) : Answers i s t := by
  obtain ⟨u, hu, ha⟩ := exec_answers_exists i s
  rw [h] at hu
  cases hu
  exact ha

end Sys2Proof.Machine
end

section
/-! SUPPORT. What every action keeps: the bytes outside the output range, both cursors' bounds, the canonical form of the memories, and
R66 (a)-(c). Any number of actions keeps it too (`Actions.keep`). -/

namespace Sys2Proof.Machine

/-! ### The encoder's output stays below `OLIM` -/

/-- What the encoder's output procedures do to `OBUF`: they keep its canonical form and move `OPOS` to a place not past `OLIM`, if they
move it. -/
def Emits (s t : State) : Prop :=
  EncFrame s t ∧ (t.opos = s.opos ∨ t.opos.toNat ≤ s.olim.toNat) ∧ (Memory.wf s.obuf = true → Memory.wf t.obuf = true)

theorem EncFrame.olim {s t : State} (h : EncFrame s t) : t.olim = s.olim := (congrArg State.olim h.1 :)

/-- A change of the encoder registers alone. -/
theorem EncFrame.emits {s t : State} (h : EncFrame s t) (ho : t.opos = s.opos) (hb : t.obuf = s.obuf) : Emits s t :=
  ⟨h, .inl ho, fun hw => hb ▸ hw⟩

theorem Emits.trans {s t u : State} (h : Emits s t) (h' : Emits t u) : Emits s u := by
  obtain ⟨hf, hpos, hwf⟩ := h
  obtain ⟨hf', hpos', hwf'⟩ := h'
  refine ⟨hf.trans hf', ?_, hwf' ∘ hwf⟩
  rcases hpos' with he | hle
  · rw [he]; exact hpos
  · exact .inr (hf.olim ▸ hle)

theorem outByte_emits {b : Byte} {s t : State} (h : outByte b s = .ok t) : Emits s t := by
  obtain ⟨hf, hp, -⟩ := outByte_frame h
  obtain ⟨hlt, rfl⟩ := outByte_eq_ok.mp h
  exact ⟨hf, .inr (by rw [hp]; exact hlt), memory_wf_writeObuf s.opos b⟩

theorem emitPending_emits {n : Nat} {temp carry : Byte} {s t : State} (h : emitPending n temp carry s = .ok t) :
    Emits s t := by
  induction n generalizing temp s with
  | zero => cases h; exact (EncFrame.refl _).emits rfl rfl
  | succ n ih =>
    obtain ⟨u, hu, ht⟩ := run_bind_eq_ok.mp h
    exact (outByte_emits hu).trans (ih ht)

theorem shiftLow_emits {s t : State} (h : shiftLow s = .ok t) : Emits s t := by
  unfold shiftLow at h
  split at h
  · obtain ⟨u, hu, ht⟩ := run_bind_eq_ok.mp h
    cases ht
    exact (emitPending_emits hu).trans (EncFrame.emits ⟨rfl, le_rfl, fun _ _ => rfl⟩ rfl rfl)
  · cases h
    exact (dropTop_frame s).emits rfl rfl

theorem normalizeEnc_emits {s t : State} (h : normalizeEnc s = .ok t) : Emits s t := by
  unfold normalizeEnc at h
  split at h
  · have hs : Emits s { s with encRange := s.encRange <<< 8 } := EncFrame.emits ⟨rfl, le_rfl, fun _ _ => rfl⟩ rfl rfl
    exact hs.trans (shiftLow_emits h)
  · cases h
    exact (EncFrame.refl s).emits rfl rfl

theorem encodeBit_emits {c : Ctx} {b : Bool} {s t : State} (h : encodeBit c b s = .ok t) : Emits s t := by
  have hn : Emits s ((narrow c b s).update c b) := (narrow_frame c b s).emits (by cases b <;> rfl) (by cases b <;> rfl)
  exact hn.trans (normalizeEnc_emits h)

theorem encodeDirectBit_emits {b : Bool} {s t : State} (h : normalizeEnc (narrowDirect b s) = .ok t) : Emits s t := by
  have hn : Emits s (narrowDirect b s) := (narrowDirect_frame b s).emits (by cases b <;> rfl) (by cases b <;> rfl)
  exact hn.trans (normalizeEnc_emits h)

/-! ### The output and the input of any number of actions -/

/-- `OPOS` does not go back, and not past `OLIM`; no byte of `OBUF` before the old `OPOS` or from `OLIM` on changes. -/
def OutputFrame (s t : State) : Prop :=
  s.opos.toNat ≤ t.opos.toNat ∧ (s.opos.toNat ≤ s.olim.toNat → t.opos.toNat ≤ s.olim.toNat) ∧
    ∀ j, s.olim.toNat ≤ j ∨ j < s.opos.toNat → t.obufByte j = s.obufByte j

theorem OutputFrame.refl (s : State) : OutputFrame s s := ⟨le_rfl, id, fun _ _ => rfl⟩

theorem OutputFrame.trans {s t u : State} (hl : t.olim = s.olim) (h : OutputFrame s t) (h' : OutputFrame t u) :
    OutputFrame s u := by
  obtain ⟨hle, hlim, hb⟩ := h
  obtain ⟨hle', hlim', hb'⟩ := h'
  rw [hl] at hlim' hb'
  exact ⟨hle.trans hle', hlim' ∘ hlim, fun j hj => (hb' j (hj.imp_right (·.trans_le hle))).trans (hb j hj)⟩

theorem Emits.output {s t : State} (h : Emits s t) : OutputFrame s t := by
  obtain ⟨⟨-, hle, hb⟩, hpos, -⟩ := h
  refine ⟨hle, fun hs => ?_, fun j hj => hb j ?_⟩
  · rcases hpos with he | hlt
    · rw [he]; exact hs
    · exact hlt
  · rcases hpos with he | hlt
    · rw [he]; omega
    · omega

/-- A step of the decoder leaves the output. -/
theorem DecFrame.output {s t : State} (h : DecFrame s t) : OutputFrame s t := by
  have ho : t.opos = s.opos := (congrArg State.opos h.1 :)
  have hb : ∀ j, t.obufByte j = s.obufByte j := fun j => (congrArg (State.obufByte · j) h.1 :)
  rw [OutputFrame, ho]
  exact ⟨le_rfl, id, fun j _ => hb j⟩

theorem put_opos (b : Byte) {s : State} (h : s.opos.toNat < s.olim.toNat) : (put b s).opos.toNat = s.opos.toNat + 1 :=
  opos_succ h

theorem put_obufByte (b : Byte) (s : State) (j : Nat) :
    (put b s).obufByte j = if j = s.opos.toNat then b else s.obufByte j := obufByte_writeObuf s s.opos b j

theorem put_winbufAt (b : Byte) (s : State) (j : Nat) :
    (put b s).winbufAt j = if j = s.opos.toNat % s.win then b else s.winbufAt j := winbufAt_setWinbuf s _ j b

theorem put_output (b : Byte) {s : State} (h : s.opos.toNat < s.olim.toNat) : OutputFrame s (put b s) := by
  rw [OutputFrame, put_opos b h]
  refine ⟨by omega, fun _ => h, fun j hj => ?_⟩
  rw [put_obufByte, if_neg (by omega)]

theorem insertPos_output (p : Nat) (s : State) : OutputFrame s (insertPos p s) := by
  unfold insertPos
  split <;> exact .refl s

theorem Action.output {s t : State} (a : Action s t) : OutputFrame s t := by
  cases a with
  | encBit _ h => exact (encodeBit_emits h).output
  | encDirect _ h => exact (encodeDirectBit_emits h).output
  | shift _ h => exact (shiftLow_emits h).output
  | decBit h => exact (decodeBit_frame h).2.1.output
  | decDirect h => exact ((narrowDecDirect_frame _ s).trans (normalizeDec_frame h).1).output
  | insert p => exact insertPos_output p s
  | put b h => exact put_output b h
  | update | clear | seek | context | token => exact .refl s

theorem Actions.output {s t : State} (h : Actions s t) : OutputFrame s t := by
  induction h with
  | refl => exact .refl s
  | tail hs a ih => exact ih.trans (Actions.olim hs) a.output

/-- `IPOS` stays inside the input (R66 (e)). -/
def State.InputOk (s : State) : Prop := s.ipos.toNat ≤ s.ilen.toNat

theorem refill_inputOk {s t : State} (h : refill s = .ok t) : t.InputOk := by
  obtain ⟨r, hr, ht⟩ := run_bind_eq_ok.mp h
  obtain ⟨hlt, rfl⟩ := inByte_eq_ok.mp hr
  cases ht
  show (s.ipos + 1).toNat ≤ s.ilen.toNat
  rw [ipos_succ hlt]
  exact hlt

theorem normalizeDec_inputOk {s t : State} (h : normalizeDec s = .ok t) (hs : s.InputOk) : t.InputOk := by
  unfold normalizeDec at h
  split at h
  · exact refill_inputOk h
  · cases h; exact hs

theorem EncFrame.inputOk {s t : State} (h : EncFrame s t) (hs : s.InputOk) : t.InputOk := by
  rw [h.1]; exact hs

theorem Action.inputOk {s t : State} (a : Action s t) (hs : s.InputOk) : t.InputOk := by
  cases a with
  | encBit _ h => exact (encodeBit_frame h).inputOk hs
  | encDirect _ h => exact (encodeDirectBit_emits h).1.inputOk hs
  | shift _ h => exact (shiftLow_frame h).1.inputOk hs
  | @decBit c _ _ h =>
    obtain ⟨t, ht, hr⟩ := run_bind_eq_ok.mp h
    cases hr
    refine normalizeDec_inputOk ht ?_
    cases codedBit c s <;> exact hs
  | decDirect h =>
    refine normalizeDec_inputOk h ?_
    cases codedDirect s <;> exact hs
  | insert p => unfold insertPos; split <;> exact hs
  | seek hp => exact hp
  | update | clear | put | context | token => exact hs

/-! ### The estimators of a coded bit -/

theorem normalizeDec_prob {s t : State} (h : normalizeDec s = .ok t) : t.prob = s.prob := by
  unfold normalizeDec at h
  split at h
  · obtain ⟨r, hr, ht⟩ := run_bind_eq_ok.mp h
    obtain ⟨-, rfl⟩ := inByte_eq_ok.mp hr
    cases ht
    rfl
  · cases h; rfl

theorem encodeBit_prob {c : Ctx} {b : Bool} {s t : State} (h : encodeBit c b s = .ok t) : t.prob = (s.update c b).prob := by
  rw [(normalizeEnc_frame h).2]
  cases b <;> rfl

theorem encodeDirectBit_prob {b : Bool} {s t : State} (h : normalizeEnc (narrowDirect b s) = .ok t) : t.prob = s.prob := by
  rw [(normalizeEnc_frame h).2]
  cases b <;> rfl

theorem decodeBit_prob {c : Ctx} {s : State} {r : Bool × State} (h : decodeBit c s = .ok r) :
    r.2.prob = (s.update c (codedBit c s)).prob := by
  obtain ⟨t, ht, hr⟩ := run_bind_eq_ok.mp h
  cases hr
  show t.prob = _
  rw [normalizeDec_prob ht]
  cases codedBit c s <;> rfl

theorem decodeDirectBit_prob {s t : State} (h : normalizeDec (narrowDecDirect (codedDirect s) s) = .ok t) :
    t.prob = s.prob := by
  rw [normalizeDec_prob h]
  cases codedDirect s <;> rfl

/-! ### The canonical form is kept -/

theorem Emits.canonical {s t u : State} (h : Emits s t) (hs : s.Canonical) (hu : u.Canonical) (hp : t.prob = u.prob) :
    t.Canonical := by
  obtain ⟨⟨hf, -, -⟩, -, hwf⟩ := h
  exact canonical_of_parts hs hu hp (congrArg State.head hf :) (congrArg State.chain hf :) (congrArg State.winbuf hf :)
    (congrArg State.ibuf hf :) hwf

theorem DecFrame.canonical {s t u : State} (h : DecFrame s t) (hs : s.Canonical) (hu : u.Canonical) (hp : t.prob = u.prob) :
    t.Canonical := by
  have hf := h.1
  have ho : t.obuf = s.obuf := (congrArg State.obuf hf :)
  exact canonical_of_parts hs hu hp (congrArg State.head hf :) (congrArg State.chain hf :) (congrArg State.winbuf hf :)
    (congrArg State.ibuf hf :) (ho ▸ id)

theorem canonical_insertPos {s : State} (p : Nat) (h : s.Canonical) : (insertPos p s).Canonical := by
  unfold insertPos
  split
  · exact h
  · obtain ⟨hprob, hlisted, hhead, hchain, hrest⟩ := h
    have hlt : p % s.win < 2 ^ 28 := (Nat.mod_lt _ (win_pos s)).trans_le (win_le s)
    exact ⟨hprob, hlisted, wf_insert _ (hash3_lt _ _ _) hhead, wf_insert _ hlt hchain, hrest⟩

theorem canonical_put {s : State} (b : Byte) (h : s.Canonical) : (put b s).Canonical := by
  obtain ⟨hprob, hlisted, hhead, hchain, hwin, hibuf, hobuf⟩ := h
  have hlt : s.opos.toNat % s.win < 2 ^ 28 := (Nat.mod_lt _ (win_pos s)).trans_le (win_le s)
  exact ⟨hprob, hlisted, hhead, hchain, wf_insert _ hlt hwin, hibuf, memory_wf_writeObuf s.opos b hobuf⟩

theorem Action.canonical {s t : State} (a : Action s t) (hs : s.Canonical) : t.Canonical := by
  cases a with
  | encBit _ h => exact (encodeBit_emits h).canonical hs (canonical_setProb _ _ hs) (encodeBit_prob h)
  | encDirect _ h => exact (encodeDirectBit_emits h).canonical hs hs (encodeDirectBit_prob h)
  | shift _ h => exact (shiftLow_emits h).canonical hs hs (shiftLow_frame h).2.2.2
  | decBit h => exact (decodeBit_frame h).2.1.canonical hs (canonical_setProb _ _ hs) (decodeBit_prob h)
  | decDirect h =>
    exact ((narrowDecDirect_frame _ s).trans (normalizeDec_frame h).1).canonical hs hs (decodeDirectBit_prob h)
  | update c b => exact canonical_setProb c _ hs
  | clear => exact canonical_clearProb hs
  | insert p => exact canonical_insertPos p hs
  | put b => exact canonical_put b hs
  | seek | context | token => exact hs

/-! ### The coders' ranges and the estimators stay in bounds (R66 (a)-(c)) -/

/-- R66 (a)-(c) of a state: what the machine invariant says of an open stream. -/
def State.StreamOk (s : State) : Prop := s.ProbOk ∧ s.EncOk ∧ s.DecOk

/-- R66 (a) is about the mode and `PROB` alone. -/
theorem probOk_of_prob {s t : State} (hm : t.mode = s.mode) (hp : t.prob = s.prob) (h : s.ProbOk) : t.ProbOk := by
  have ha : ∀ c, t.probAt c = s.probAt c := fun c => by simp only [State.probAt, hp]
  simp only [State.ProbOk, hm, hp, ha]
  exact h

theorem probOk_update {s : State} (c : Ctx) (b : Bool) (h : s.ProbOk) : (s.update c b).ProbOk := by
  intro hm
  obtain ⟨hf, hr⟩ := h hm
  refine ⟨hf, fun c' => ?_⟩
  rw [State.update, probAt_setProb]
  split
  · exact adapt_range _ b (hr c)
  · exact hr c'

theorem probOk_clearProb (s : State) : s.clearProb.ProbOk :=
  fun _ => ⟨rfl, fun c => by rw [probAt_clearProb]; decide⟩

/-- An estimator in bounds splits a range of 2^24 or more into two parts of more than 2^16 (R300, R352). -/
theorem split_bounds {range : Word} {p : Prob} (hr : 2 ^ 24 ≤ range.toNat) (hp : 31 ≤ p.toNat ∧ p.toNat ≤ 2017) :
    2 ^ 16 ≤ ((range >>> 11) * p.setWidth 32).toNat ∧
      ((range >>> 11) * p.setWidth 32).toNat + 2 ^ 16 ≤ range.toNat := by
  have hlt := range.isLt
  have hlo : range.toNat / 2 ^ 11 * 31 ≤ range.toNat / 2 ^ 11 * p.toNat := Nat.mul_le_mul_left _ hp.1
  have hhi : range.toNat / 2 ^ 11 * p.toNat ≤ range.toNat / 2 ^ 11 * 2017 := Nat.mul_le_mul_left _ hp.2
  have hv : ((range >>> 11) * p.setWidth 32).toNat = range.toNat / 2 ^ 11 * p.toNat := by
    rw [BitVec.toNat_mul, BitVec.toNat_ushiftRight, BitVec.toNat_setWidth, Nat.shiftRight_eq_div_pow,
      Nat.mod_eq_of_lt (a := p.toNat) (by omega), Nat.mod_eq_of_lt (by omega)]
  rw [hv]
  omega

/-- The encoder's interval has a range of at least m and lies below 2^33. -/
def Interval (m : Nat) (s : State) : Prop := m ≤ s.encRange.toNat ∧ s.encLow.toNat + s.encRange.toNat ≤ 2 ^ 33

theorem shifted_low (low : BitVec 33) : ((low.setWidth 24).setWidth 33 <<< 8).toNat = low.toNat % 2 ^ 24 * 2 ^ 8 := by
  rw [BitVec.toNat_shiftLeft, BitVec.toNat_setWidth, BitVec.toNat_setWidth, Nat.shiftLeft_eq]
  omega

/-- A range below 2^24 shifted by a byte. -/
theorem shifted_range {range : Word} (h : range < Config.top) : (range <<< 8).toNat = range.toNat * 2 ^ 8 := by
  have hlt : range.toNat < 2 ^ 24 := h
  rw [BitVec.toNat_shiftLeft, Nat.shiftLeft_eq]
  omega

theorem shiftLow_interval {s t : State} (h : shiftLow s = .ok t) {m : Nat} (hs : m ≤ s.encRange.toNat) : Interval m t := by
  obtain ⟨-, hl, hr, -⟩ := shiftLow_frame h
  have hlt := s.encRange.isLt
  rw [Interval, hl, hr, shifted_low]
  exact ⟨hs, by omega⟩

/-- One renormalisation brings a range of 2^16 or more back to 2^24 (R302). -/
theorem normalizeEnc_interval {s t : State} (h : normalizeEnc s = .ok t) (hs : Interval (2 ^ 16) s) : Interval (2 ^ 24) t := by
  obtain ⟨hr, hl⟩ := hs
  unfold normalizeEnc at h
  split at h
  · next hlt =>
    refine shiftLow_interval h ?_
    show _ ≤ (s.encRange <<< 8).toNat
    rw [shifted_range hlt]
    omega
  · next hge =>
    cases h
    exact ⟨BitVec.not_lt.mp hge, hl⟩

/-- A sum of the encoder's low and a part of its range does not wrap (R300). -/
theorem raised_low {s : State} {bound : Word} (hb : bound.toNat < s.encRange.toNat) (hs : Interval 0 s) :
    (s.encLow + bound.setWidth 33).toNat = s.encLow.toNat + bound.toNat := by
  have hsum := hs.2
  rw [BitVec.toNat_add, BitVec.toNat_setWidth]
  omega

theorem narrow_interval {s : State} (c : Ctx) (b : Bool) (hs : Interval (2 ^ 24) s)
    (hp : 31 ≤ (s.probAt c).toNat ∧ (s.probAt c).toNat ≤ 2017) : Interval (2 ^ 16) (narrow c b s) := by
  obtain ⟨hr, hl⟩ := hs
  obtain ⟨hlo, hhi⟩ : 2 ^ 16 ≤ (encBound c s).toNat ∧ (encBound c s).toNat + 2 ^ 16 ≤ s.encRange.toNat :=
    split_bounds hr hp
  cases b
  · exact ⟨hlo, show s.encLow.toNat + (encBound c s).toNat ≤ 2 ^ 33 by omega⟩
  · have hlow : (s.encLow + (encBound c s).setWidth 33).toNat = s.encLow.toNat + (encBound c s).toNat :=
      raised_low (by omega) ⟨Nat.zero_le _, hl⟩
    have hrange : (s.encRange - encBound c s).toNat = s.encRange.toNat - (encBound c s).toNat :=
      BitVec.toNat_sub_of_le (BitVec.le_def.mpr (by omega))
    show 2 ^ 16 ≤ (s.encRange - encBound c s).toNat ∧
      (s.encLow + (encBound c s).setWidth 33).toNat + (s.encRange - encBound c s).toNat ≤ 2 ^ 33
    rw [hlow, hrange]
    omega

theorem narrowDirect_interval {s : State} (b : Bool) (hs : Interval (2 ^ 24) s) : Interval (2 ^ 16) (narrowDirect b s) := by
  obtain ⟨hr, hl⟩ := hs
  have hhalf : (s.encRange >>> 1).toNat = s.encRange.toNat / 2 := by
    rw [BitVec.toNat_ushiftRight, Nat.shiftRight_eq_div_pow, pow_one]
  cases b
  · show 2 ^ 16 ≤ (s.encRange >>> 1).toNat ∧ s.encLow.toNat + (s.encRange >>> 1).toNat ≤ 2 ^ 33
    omega
  · have hlow : (s.encLow + (s.encRange >>> 1).setWidth 33).toNat = s.encLow.toNat + (s.encRange >>> 1).toNat :=
      raised_low (by omega) ⟨Nat.zero_le _, hl⟩
    show 2 ^ 16 ≤ (s.encRange >>> 1).toNat ∧
      (s.encLow + (s.encRange >>> 1).setWidth 33).toNat + (s.encRange >>> 1).toNat ≤ 2 ^ 33
    omega

/-- One refill brings a range of 2^16 or more back to 2^24 (R351). -/
theorem normalizeDec_range {s t : State} (h : normalizeDec s = .ok t) (hs : 2 ^ 16 ≤ s.decRange.toNat) :
    2 ^ 24 ≤ t.decRange.toNat := by
  unfold normalizeDec at h
  split at h
  · next hlt =>
    obtain ⟨r, hr, ht⟩ := run_bind_eq_ok.mp h
    obtain ⟨-, rfl⟩ := inByte_eq_ok.mp hr
    cases ht
    show _ ≤ (s.decRange <<< 8).toNat
    rw [shifted_range hlt]
    omega
  · next hge =>
    cases h
    exact BitVec.not_lt.mp hge

theorem narrowDec_range {s : State} (c : Ctx) (b : Bool) (hr : 2 ^ 24 ≤ s.decRange.toNat)
    (hp : 31 ≤ (s.probAt c).toNat ∧ (s.probAt c).toNat ≤ 2017) : 2 ^ 16 ≤ (narrowDec c b s).decRange.toNat := by
  obtain ⟨hlo, hhi⟩ : 2 ^ 16 ≤ (decBound c s).toNat ∧ (decBound c s).toNat + 2 ^ 16 ≤ s.decRange.toNat :=
    split_bounds hr hp
  cases b
  · exact hlo
  · have hrange : (s.decRange - decBound c s).toNat = s.decRange.toNat - (decBound c s).toNat :=
      BitVec.toNat_sub_of_le (BitVec.le_def.mpr (by omega))
    show _ ≤ (s.decRange - decBound c s).toNat
    omega

theorem narrowDecDirect_range {s : State} (b : Bool) (hr : 2 ^ 24 ≤ s.decRange.toNat) :
    2 ^ 16 ≤ (narrowDecDirect b s).decRange.toNat := by
  have hhalf : (s.decRange >>> 1).toNat = s.decRange.toNat / 2 := by
    rw [BitVec.toNat_ushiftRight, Nat.shiftRight_eq_div_pow, pow_one]
  cases b <;> (show 2 ^ 16 ≤ (s.decRange >>> 1).toNat; omega)

/-! ### Every action keeps R66 (a)-(c) -/

theorem DecFrame.encOk {s t : State} (h : DecFrame s t) (hs : s.EncOk) : t.EncOk := by
  rw [h.1]; exact hs

theorem Action.probOk {s t : State} (a : Action s t) (hs : s.ProbOk) : t.ProbOk := by
  have hm : t.mode = s.mode := (congrArg State.mode a.corePart :)
  cases a with
  | encBit _ h => exact probOk_of_prob (s := s.update _ _) hm (encodeBit_prob h) (probOk_update _ _ hs)
  | encDirect _ h => exact probOk_of_prob hm (encodeDirectBit_prob h) hs
  | shift _ h => exact probOk_of_prob hm (shiftLow_frame h).2.2.2 hs
  | decBit h => exact probOk_of_prob (s := s.update _ _) hm (decodeBit_prob h) (probOk_update _ _ hs)
  | decDirect h => exact probOk_of_prob hm (decodeDirectBit_prob h) hs
  | update c b => exact probOk_update c b hs
  | clear => exact probOk_clearProb s
  | insert p => unfold insertPos; split <;> exact hs
  | put | seek | context | token => exact hs

theorem Action.encOk {s t : State} (a : Action s t) (hp : s.ProbOk) (hs : s.EncOk) : t.EncOk := by
  cases a with
  | encBit hm h =>
    obtain ⟨-, hr⟩ := hp (by rw [hm]; nofun)
    exact fun _ => normalizeEnc_interval h (narrow_interval _ _ (hs hm) (hr _))
  | encDirect hm h => exact fun _ => normalizeEnc_interval h (narrowDirect_interval _ (hs hm))
  | shift hm h => exact fun _ => shiftLow_interval h (hs hm).1
  | decBit h => exact (decodeBit_frame h).2.1.encOk hs
  | decDirect h => exact ((narrowDecDirect_frame _ s).trans (normalizeDec_frame h).1).encOk hs
  | insert p => unfold insertPos; split <;> exact hs
  | update | clear | put | seek | context | token => exact hs

theorem EncFrame.decOk {s t : State} (h : EncFrame s t) (hs : s.DecOk) : t.DecOk := by
  rw [h.1]; exact hs

theorem Action.decOk {s t : State} (a : Action s t) (hp : s.ProbOk) (hs : s.DecOk) : t.DecOk := by
  have hm : t.mode = s.mode := (congrArg State.mode a.corePart :)
  cases a with
  | encBit _ h => exact (encodeBit_frame h).decOk hs
  | encDirect _ h => exact (encodeDirectBit_emits h).1.decOk hs
  | shift _ h => exact (shiftLow_frame h).1.decOk hs
  | @decBit c _ _ h =>
    intro hd
    rw [hm] at hd
    obtain ⟨-, hr⟩ := hp (by rw [hd]; nofun)
    obtain ⟨u, hu, hr'⟩ := run_bind_eq_ok.mp h
    cases hr'
    exact normalizeDec_range hu (narrowDec_range c _ (hs hd) (hr c))
  | decDirect h =>
    intro hd
    exact normalizeDec_range h (narrowDecDirect_range _ (hs (hm ▸ hd)))
  | insert p => unfold insertPos; split <;> exact hs
  | update | clear | put | seek | context | token => exact hs

theorem Actions.streamOk {s t : State} (h : Actions s t) (hs : s.StreamOk) : t.StreamOk :=
  h.keep (P := State.StreamOk) (fun a ⟨hp, he, hd⟩ => ⟨a.probOk hp, a.encOk hp he, a.decOk hp hd⟩) hs

theorem Actions.canonical {s t : State} (h : Actions s t) (hs : s.Canonical) : t.Canonical :=
  h.keep (P := State.Canonical) Action.canonical hs

theorem Actions.inputOk {s t : State} (h : Actions s t) (hs : s.InputOk) : t.InputOk :=
  h.keep (P := State.InputOk) Action.inputOk hs

end Sys2Proof.Machine
end

section
/-! SUPPORT. What a step can do, said once (`step_moved`), and the two invariants of a step: the machine invariant and the decoder's
window. -/

namespace Sys2Proof.Machine

/-! ### What a step can do -/

/-- A step takes the next move; with none left the core has its turn (R30). -/
theorem step_eq (s : State) : step s = takeMove (s.moves.headD .core) { s with moves := s.moves.tail } := by
  unfold step nextMove
  split
  · next h =>
    have he : { s with moves := s.moves.tail } = s := by rw [h, List.tail_nil, ← h]
    rw [he, h]
    rfl
  · next m rest h => rw [h]; rfl

/-- State t with the busy interval over (R65, R121). -/
def settled (t : State) : State := { t with pending := none, raced := [], draws := t.draws + 1, overrun := none }

/-- A completed command is settled, perhaps with an overrun recorded over that (R507). -/
theorem complete_cases (s t : State) :
    complete s t = settled t ∨ ∃ v, complete s t = recordFault .busyOverrun v s (settled t) := by
  unfold complete
  split
  · next v _ _ => exact .inr ⟨v, rfl⟩
  · exact .inl rfl

/-- What one move can do: the core completes a command, the host issues one or writes other registers, or reads, or writes a byte,
or the platform resets the core. -/
inductive Moved (s : State) : State → Prop where
  | idle : Moved s s
  | completes {w : Word} {u : State} : s.pending = some w → runCommand w s = .next u → Moved s (complete s u)
  | issues {w : Word} : s.err = false ∨ w = resetWord → Moved s { s with pending := some w }
  | registers {t : State} :
    t = { s with
      arg := t.arg, tokKind := t.tokKind, tokLit := t.tokLit, tokDist := t.tokDist, tokLen := t.tokLen, ilen := t.ilen
      olim := t.olim, overrun := t.overrun, bus := t.bus, draws := t.draws } → Moved s t
  | fills (i : Pos) (b : Byte) : Moved s (hostFill i b s)
  | resets : Moved s (hardwareReset s)

theorem moved_storeRegister (off : Nat) (v : Word) (s : State) : Moved s (storeRegister off v s) := by
  unfold storeRegister
  split
  · unfold issue
    split
    · next h => exact .issues h
    · exact .idle
  all_goals exact .registers rfl

theorem moved_overrunWrite (off : Nat) (v : Word) (s : State) : Moved s (overrunWrite off v s) := by
  unfold overrunWrite
  split
  · exact .registers rfl
  · exact .idle

theorem takeMove_moved {m : Move} {s t : State} (h : takeMove m s = .next t) : Moved s t := by
  cases m with
  | core =>
    cases hp : s.pending with
    | none =>
      cases (coreTurn_idle hp).symm.trans h
      exact .idle
    | some w =>
      obtain ⟨u, hu⟩ := runCommand_next w s
      cases (coreTurn_busy hp hu).symm.trans h
      exact .completes hp hu
  | regWrite width off v =>
    obtain ⟨-, -, -, rfl⟩ := access_next h
    split
    · exact moved_overrunWrite off v s
    · exact moved_storeRegister off v s
  | regRead width off =>
    obtain ⟨-, -, -, rfl⟩ := access_next h
    split <;> exact .registers rfl
  | ibufWrite i b => cases h; exact .fills i b
  | obufRead i =>
    cases h
    unfold hostFetch
    split <;> exact .registers rfl
  | hwReset => cases h; exact .resets

/-- What a step can do. -/
theorem step_moved {s t : State} (h : step s = .next t) : Moved { s with moves := s.moves.tail } t :=
  takeMove_moved ((step_eq s).symm.trans h)

/-- What running a word can do: a fault is recorded, or a command completes (R155). -/
theorem runCommand_cases {w : Word} {s t : State} (h : runCommand w s = .next t) :
    (∃ k v u, k ≠ .none ∧ Loosened true s u ∧ t = recordFault k v s u) ∨ ∃ i, Completed s i t := by
  unfold runCommand at h
  split at h
  · cases h
    exact .inl ⟨.illegalCmd, w, s, nofun, .refl _ s, rfl⟩
  · next i _ =>
    rcases exec_answers h with ⟨k, u, hk, ⟨hhost, hmode, hcan, -, hout⟩, rfl⟩ | hc
    · exact .inl ⟨k, encode i, u, hk, ⟨hhost, hmode, hcan, .inr rfl, hout⟩, rfl⟩
    · exact .inr ⟨i, hc⟩

/-! ### The machine invariant -/

/-- A state with a fault recorded meets the invariant if its memories are canonical and an earlier fault had a code. -/
theorem inv_recordFault {k : Errcode} {w : Word} {s u : State} (hk : k ≠ .none) (hc : u.Canonical)
    (he : u.err = false ↔ u.errcode = .none) : (recordFault k w s u).Inv := by
  cases hu : u.err with
  | false =>
    rw [recordFault_of_clear hu]
    exact ⟨hc, ⟨⟨nofun, fun h => absurd h hk⟩, nofun, nofun⟩, nofun⟩
  | true =>
    rw [recordFault_of_set hu]
    exact ⟨hc, ⟨he, nofun, fun h => absurd (hu.symm.trans h) nofun⟩, fun h => absurd (hu.symm.trans h) nofun⟩

theorem inv_settled {t : State} (h : t.Inv) : (settled t).Inv := by
  obtain ⟨hc, ⟨he, -, hl⟩, hs⟩ := h
  exact ⟨hc, ⟨he, nofun, hl⟩, hs⟩

theorem inv_complete {s t : State} (h : t.Inv) : (complete s t).Inv := by
  have hi := inv_settled h
  rcases complete_cases s t with he | ⟨v, he⟩
  · rw [he]; exact hi
  · rw [he]; exact inv_recordFault nofun hi.1 hi.2.1.1

/-- An opened stream has a level that the core has a window for (R200). -/
theorem level_of_checks {lvl : BitVec 6} {s : State} (hl : levelOk lvl = true) (hw : windowFits lvl s = true) :
    (lvl.setWidth 4).toNat ≤ 9 ∧ Config.winLog2 (lvl.setWidth 4).toNat ≤ s.winMaxLog2 := by
  have h9 : lvl.toNat ≤ 9 := of_decide_eq_true hl
  have hn : (lvl.setWidth 4).toNat = lvl.toNat := by
    rw [BitVec.toNat_setWidth, Nat.mod_eq_of_lt (by omega)]
  rw [hn]
  exact ⟨h9, of_decide_eq_true hw⟩

/-- With no stream, no command and no fault only the memories matter. -/
theorem inv_of_cleared {t : State} (hc : t.Canonical) (he : t.err = false) (hk : t.errcode = .none) (hp : t.pending = none)
    (hl : t.level = 0) (hm : t.mode = .idle) : t.Inv := by
  refine ⟨hc, ⟨⟨fun _ => hk, fun _ => he⟩, fun w hw => absurd (hp.symm.trans hw) nofun, fun _ => ?_⟩, fun _ => ?_⟩
  · rw [hl]
    exact ⟨Nat.zero_le 9, Nat.le_add_left 16 _⟩
  · exact ⟨fun h => absurd hm h, fun h => absurd (hm.symm.trans h) nofun, fun h => absurd (hm.symm.trans h) nofun⟩

theorem inv_resetRegisters {s : State} (h : s.Canonical) : s.resetRegisters.Inv := inv_of_cleared h rfl rfl rfl rfl rfl

theorem inv_hardwareReset {s : State} (h : s.Canonical) : (hardwareReset s).Inv := by
  obtain ⟨-, -, -, -, -, hbytes⟩ := canonical_looseObufTo (couldWriteTo s) h
  exact inv_of_cleared ⟨rfl, nofun, rfl, rfl, rfl, hbytes⟩ rfl rfl rfl rfl rfl

/-- The range both coders start with (R310, R360). -/
theorem full_range : 2 ^ 24 ≤ (0xFFFFFFFF#32).toNat ∧ (0 : BitVec 33).toNat + (0xFFFFFFFF#32).toNat ≤ 2 ^ 33 := by decide

theorem inv_openEncode {lvl : BitVec 6} {s : State} (hl : levelOk lvl = true) (hw : windowFits lvl s = true) (h : s.Inv) :
    (openEncode lvl s).Inv := by
  obtain ⟨⟨-, -, -, -, hrest⟩, ⟨he, hp, -⟩, -⟩ := h
  have hc : (openEncode lvl s).Canonical := ⟨rfl, fun _ _ hm => (List.not_mem_nil hm).elim, rfl, rfl, hrest⟩
  exact ⟨hc, ⟨he, hp, fun _ => level_of_checks hl hw⟩,
    fun _ => ⟨fun _ => probOk_clearProb { s with mode := .enc } nofun, fun _ => full_range, nofun⟩⟩

theorem inv_openDecode {lvl : BitVec 6} {s : State} (p : Pos) (v : Word) (hl : levelOk lvl = true)
    (hw : windowFits lvl s = true) (h : s.Inv) :
    State.Inv { openDecode lvl s with ipos := p, decCode := v, mode := .dec } := by
  obtain ⟨⟨-, -, hhead, hchain, -, hbytes⟩, ⟨he, hp, -⟩, -⟩ := h
  have hc : (openDecode lvl s).Canonical := ⟨rfl, fun _ _ hm => (List.not_mem_nil hm).elim, hhead, hchain, rfl, hbytes⟩
  exact ⟨hc, ⟨he, hp, fun _ => level_of_checks hl hw⟩,
    fun _ => ⟨fun _ => probOk_clearProb { s with mode := .dec } nofun, nofun, fun _ => full_range.1⟩⟩

theorem Actions.statusOk {s t : State} (h : Actions s t) (hs : s.StatusOk) : t.StatusOk := by
  have he : t.err = s.err := (congrArg State.err h.corePart :)
  have hk : t.errcode = s.errcode := (congrArg State.errcode h.corePart :)
  have hp : t.pending = s.pending := (congrArg State.pending h.corePart :)
  have hl : t.level = s.level := (congrArg State.level h.corePart :)
  have hw : t.winMaxLog2 = s.winMaxLog2 := (congrArg State.winMaxLog2 h.corePart :)
  rw [State.StatusOk, he, hk, hp, hl, hw]
  exact hs

theorem Actions.inv {s t : State} (h : Actions s t) (hs : s.Inv) : t.Inv := by
  obtain ⟨hc, hst, hstream⟩ := hs
  have he : t.err = s.err := (congrArg State.err h.corePart :)
  exact ⟨h.canonical hc, h.statusOk hst, fun ht => h.streamOk (hstream (he ▸ ht))⟩

theorem Completed.inv {i : Instr} {s t : State} (h : Completed s i t) (hs : s.Inv) : t.Inv := by
  cases h with
  | actions h => exact h.inv hs
  | result v _ h => exact h.inv hs
  | close _ h =>
    obtain ⟨hc, hst, -⟩ := h.inv hs
    exact ⟨hc, hst, fun _ => ⟨fun hm => absurd rfl hm, nofun, nofun⟩⟩
  | reset => exact inv_resetRegisters hs.1
  | openEnc hl hw => exact inv_openEncode hl hw hs
  | openDec p v hl hw _ => exact inv_openDecode p v hl hw hs

theorem runCommand_inv {w : Word} {s t : State} (h : runCommand w s = .next t) (hs : s.Inv) : t.Inv := by
  rcases runCommand_cases h with ⟨k, v, u, hk, ⟨hhost, -, hcan, -⟩, rfl⟩ | ⟨i, hc⟩
  · have he : u.err = s.err := (congrArg State.err hhost :)
    have hcode : u.errcode = s.errcode := (congrArg State.errcode hhost :)
    exact inv_recordFault hk (hcan hs.1) (by rw [he, hcode]; exact hs.2.1.1)
  · exact hc.inv hs

theorem Moved.inv {s t : State} (h : Moved s t) (hs : s.Inv) : t.Inv := by
  cases h with
  | idle => exact hs
  | completes _ hr => exact inv_complete (runCommand_inv hr hs)
  | @issues w hw =>
    obtain ⟨hc, ⟨he, -, hl⟩, hstream⟩ := hs
    refine ⟨hc, ⟨he, fun v hv herr => ?_, hl⟩, hstream⟩
    cases hv
    exact hw.resolve_left (herr ▸ nofun)
  | registers h => rw [h]; exact hs
  | fills i b =>
    obtain ⟨⟨hprob, hlisted, hhead, hchain, hwin, hibuf, hobuf⟩, hrest⟩ := hs
    exact ⟨⟨hprob, hlisted, hhead, hchain, hwin, memory_wf_hostFill i b hibuf, hobuf⟩, hrest⟩
  | resets => exact inv_hardwareReset hs.1

/-- Settles O58: a step is one of the moves of `Moved`, and a command is a fault recorded over a canonical state or is made of actions,
each of which keeps R66 (a)-(c). -/
theorem stepKeepsInvariant : Obligations.StepKeepsInvariant :=
  fun _ _ hs h => (step_moved h).inv hs

/-! ### The decoder's window -/

/-- The slots of two of the last `WIN` positions differ. -/
theorem slot_ne {i o w : Nat} (hi : i < o) (hw : o < i + w) : i % w ≠ o % w := by
  intro h
  have hd : w ∣ o - i := (Nat.modEq_iff_dvd' hi.le).mp h
  exact absurd (Nat.le_of_dvd (by omega) hd) (by omega)

theorem put_windowOk {s : State} (b : Byte) (h : s.opos.toNat < s.olim.toNat) (hs : s.WindowOk) : (put b s).WindowOk := by
  intro he hm i hi hw
  rw [put_opos b h] at hi hw
  rw [show (put b s).win = s.win from rfl] at hw ⊢
  rw [put_winbufAt, put_obufByte]
  by_cases hlast : i = s.opos.toNat
  · rw [if_pos (by rw [hlast]), if_pos hlast]
  · rw [if_neg (slot_ne (by omega) (by omega)), if_neg hlast]
    exact hs he hm i (by omega) (by omega)

theorem DecFrame.windowOk {s t : State} (h : DecFrame s t) (hs : s.WindowOk) : t.WindowOk := by
  rw [h.1]; exact hs

/-- Outside DEC mode nothing is claimed of the window. -/
theorem windowOk_of_enc {s : State} (h : s.mode = .enc) : s.WindowOk := fun _ hd => absurd (h.symm.trans hd) nofun

theorem Action.windowOk {s t : State} (a : Action s t) (hs : s.WindowOk) : t.WindowOk := by
  have hm : t.mode = s.mode := (congrArg State.mode a.corePart :)
  cases a with
  | encBit he | encDirect he | shift he => exact windowOk_of_enc (hm.trans he)
  | decBit h => exact (decodeBit_frame h).2.1.windowOk hs
  | decDirect h => exact ((narrowDecDirect_frame _ s).trans (normalizeDec_frame h).1).windowOk hs
  | insert p => unfold insertPos; split <;> exact hs
  | put b h => exact put_windowOk b h hs
  | update | clear | seek | context | token => exact hs

theorem Completed.windowOk {i : Instr} {s t : State} (h : Completed s i t) (hs : s.WindowOk) : t.WindowOk := by
  cases h with
  | actions h => exact h.keep (P := State.WindowOk) Action.windowOk hs
  | result v _ h => exact h.keep (P := State.WindowOk) Action.windowOk hs
  | close | reset | openEnc => exact nofun
  | openDec => exact fun _ _ _ hi => absurd hi (Nat.not_lt_zero _)

theorem windowOk_recordFault (k : Errcode) (w : Word) (s u : State) : (recordFault k w s u).WindowOk :=
  fun h => absurd ((recordFault_err k w s u).symm.trans h) nofun

theorem runCommand_windowOk {w : Word} {s t : State} (h : runCommand w s = .next t) (hs : s.WindowOk) : t.WindowOk := by
  rcases runCommand_cases h with ⟨k, v, u, -, -, rfl⟩ | ⟨i, hc⟩
  · exact windowOk_recordFault k v s u
  · exact hc.windowOk hs

theorem Moved.windowOk {s t : State} (h : Moved s t) (hs : s.WindowOk) : t.WindowOk := by
  cases h with
  | @completes w u _ hr =>
    have hw := runCommand_windowOk hr hs
    have hu : (settled u).WindowOk := hw
    rcases complete_cases s u with he | ⟨v, he⟩
    · rw [he]; exact hu
    · rw [he]; exact windowOk_recordFault _ _ _ _
  | registers h => rw [h]; exact hs
  | resets => exact nofun
  | idle | issues | fills => exact hs

/-- Settles O60: in DEC mode only `Put` writes the output, and it writes the same byte to its slot of the window. -/
theorem stepKeepsWindow : Obligations.StepKeepsWindow :=
  fun _ _ hs h => (step_moved h).windowOk hs

end Sys2Proof.Machine
end

section
/-! SUPPORT. Rules that hold of every command, read off `exec_answers`; the turn of the core; and the registers as the host writes and
reads them. -/

namespace Sys2Proof.Machine

open Sys2Proof.Claims

/-! ### Rules that hold of every command -/

theorem Actions.hostPart {s t : State} (h : Actions s t) : t.hostPart = s.hostPart := hostPart_of_corePart h.corePart

theorem Actions.result {s t : State} (h : Actions s t) : t.result = s.result := (congrArg State.result h.corePart :)

/-- A command that completes leaves the host's part of the state, or it is `RESET`. -/
theorem Completed.hostPart_or_reset {i : Instr} {s t : State} (hc : Completed s i t) :
    t.hostPart = s.hostPart ∨ (i = .reset ∧ t = s.resetRegisters) := by
  cases hc with
  | actions ha | result _ _ ha | close _ ha => exact .inl ha.hostPart
  | reset => exact .inr ⟨rfl, rfl⟩
  | openEnc | openDec => exact .inl rfl

/-- Settles O51: a fault and every completed command but `RESET` leave the host's part of the state. -/
theorem onlyTheHostWritesItsRegisters : Obligations.OnlyTheHostWritesItsRegisters := by
  intro i s t h
  rcases exec_answers h with ⟨k, u, -, ⟨hhost, -⟩, rfl⟩ | hc
  · simp only [recordFault_winExtra, recordFault_ibuf, recordFault_arg, recordFault_ilen, recordFault_olim]
    exact ⟨(congrArg State.winExtra hhost :), (congrArg State.ibuf hhost :), fun _ =>
      ⟨(congrArg State.arg hhost :), (congrArg State.ilen hhost :), (congrArg State.olim hhost :)⟩⟩
  · rcases hc.hostPart_or_reset with hhost | ⟨hi, rfl⟩
    · exact ⟨(congrArg State.winExtra hhost :), (congrArg State.ibuf hhost :), fun _ =>
        ⟨(congrArg State.arg hhost :), (congrArg State.ilen hhost :), (congrArg State.olim hhost :)⟩⟩
    · exact ⟨rfl, rfl, fun hne => absurd hi hne⟩

theorem recordFault_obufByte (k : Errcode) (w : Word) (s u : State) (j : Nat) :
    (recordFault k w s u).obufByte j = u.obufByte j := by
  simp only [State.obufByte, recordFault_obuf, recordFault_obufFree]

theorem Completed.obufByte {i : Instr} {s t : State} (h : Completed s i t) {j : Nat}
    (hj : s.olim.toNat ≤ j ∨ j < s.opos.toNat) : t.obufByte j = s.obufByte j := by
  cases h with
  | actions ha | result _ _ ha | close _ ha => exact ha.output.2.2 j hj
  | reset | openEnc | openDec => rfl

/-- Settles O52: a fault frees, and an action writes, only bytes from `OPOS` to `OLIM`. -/
theorem outputStaysBelowTheLimit : Obligations.OutputStaysBelowTheLimit := by
  intro i s t j h hj
  rcases exec_answers h with ⟨k, u, -, ⟨-, -, -, -, hout⟩, rfl⟩ | hc
  · rw [recordFault_obufByte]
    exact hout j hj
  · exact hc.obufByte hj

/-- Settles O53: an action does not write `RESULT`, and a fault leaves it unspecified only for the commands that do. -/
theorem onlyFiveCommandsWriteResult : Obligations.OnlyFiveCommandsWriteResult := by
  refine ⟨fun i s t h hr h1 h2 h3 => ?_, rfl⟩
  have hw : writesResult i ≠ true := by
    cases i with
    | pmPredict c => exact absurd rfl (h1 c).1
    | decBit c => exact absurd rfl (h1 c).2
    | decDirect n => exact absurd rfl (h2 n)
    | decTree c n => exact absurd rfl (h3 c n).1
    | decRtree c n => exact absurd rfl (h3 c n).2
    | _ => exact nofun
  rcases exec_answers h with ⟨k, u, -, ⟨-, -, -, hres, -⟩, rfl⟩ | hc
  · rw [recordFault_result]
    exact hres.resolve_right hw
  · cases hc with
    | actions ha | close _ ha => exact ha.result
    | result _ hi => exact absurd hi hw
    | reset => exact absurd rfl hr
    | openEnc | openDec => rfl

theorem Completed.err {i : Instr} {s t : State} (hc : Completed s i t) (hs : s.err = false) : t.err = false := by
  rcases hc.hostPart_or_reset with hhost | ⟨-, rfl⟩
  · exact (congrArg State.err hhost :).trans hs
  · rfl

/-- Settles O54: an action and a fault leave the mode. -/
theorem modeTransitions : Obligations.ModeTransitions := by
  intro i s t hs h
  rcases exec_answers h with ⟨k, u, -, ⟨-, hmode, -⟩, rfl⟩ | hc
  · rw [recordFault_mode]
    exact ⟨fun _ => hmode, .inl hmode⟩
  · refine ⟨fun ht => absurd ((hc.err hs).symm.trans ht) nofun, ?_⟩
    cases hc with
    | actions ha | result _ _ ha => exact .inl ha.mode
    | reset => exact .inr (.inr (.inr ⟨rfl, by simp⟩))
    | openEnc => exact .inr (.inl ⟨rfl, _, rfl⟩)
    | openDec => exact .inr (.inr (.inl ⟨rfl, _, rfl⟩))
    | close hi =>
      refine .inr (.inr (.inr ⟨rfl, ?_⟩))
      cases i with
      | encFlush | encStream | decFinish | decStream => simp
      | _ => cases hi

theorem Actions.cursors {s t : State} (h : Actions s t) :
    (s.opos ≤ s.olim → t.opos ≤ t.olim) ∧ (s.ipos ≤ s.ilen → t.ipos ≤ t.ilen) := by
  rw [h.olim]
  exact ⟨h.output.2.1, h.inputOk⟩

/-- Settles O57: every action keeps both bounds, and an opened stream starts at 0. -/
theorem cursorsStayInBounds : Obligations.CursorsStayInBounds := by
  rintro i s t ⟨h, ht⟩
  rcases exec_answers h with ⟨k, u, -, -, rfl⟩ | hc
  · exact absurd ((recordFault_err k _ s u).symm.trans ht) nofun
  · cases hc with
    | actions ha | result _ _ ha | close _ ha => exact ha.cursors
    | reset => exact ⟨fun _ => Nat.zero_le _, fun _ => Nat.zero_le _⟩
    | openEnc => exact ⟨fun _ => Nat.zero_le _, fun _ => Nat.zero_le _⟩
    | openDec _ _ _ _ hp => exact ⟨fun _ => Nat.zero_le _, fun _ => hp⟩

/-! ### The turn of the core -/

/-- No command latches an overrun (R507). -/
theorem exec_overrun {i : Instr} {s t : State} (h : exec i s = .next t) (hs : s.overrun = none) : t.overrun = none := by
  rcases exec_answers h with ⟨k, u, -, ⟨hhost, -⟩, rfl⟩ | hc
  · rw [recordFault_overrun]
    exact (congrArg State.overrun hhost :).trans hs
  · rcases hc.hostPart_or_reset with hhost | ⟨-, rfl⟩
    · exact (congrArg State.overrun hhost :).trans hs
    · rfl

theorem runCommand_of_ok {w : Word} {i : Instr} (h : decodeWord w = .ok i) (s : State) : runCommand w s = exec i s := by
  unfold runCommand
  rw [h]

/-- A word that does not decode records `ILLEGAL_CMD` and does nothing else (R156). -/
theorem runCommand_of_illegal {w : Word} {s : State} (h : ∀ i, decodeWord w ≠ .ok i) (hs : s.err = false) :
    runCommand w s = .next (faulted .illegalCmd w s) := by
  unfold runCommand
  split
  · exact congrArg _ (recordFault_of_clear hs _ w s)
  · next i hi => exact absurd hi (h i)

/-- A command's own fault goes before an overrun (R507). -/
theorem complete_of_err (s : State) {t : State} (h : t.err = true) : complete s t = settled t := by
  unfold complete
  split
  · next h' _ => exact absurd (h.symm.trans h') nofun
  · rfl

/-- With no move left, or the core's next, a step is the core's turn (R572). -/
theorem step_core {s : State} (h : s.moves = [] ∨ s.moves.head? = some .core) :
    step s = coreTurn { s with moves := s.moves.tail } := by
  have hc : s.moves.headD .core = .core := by
    rcases h with h | h
    · rw [h]; rfl
    · rw [List.headD_eq_head?_getD, h]; rfl
  rw [step_eq, hc]
  rfl

/-- Settles O5: a step of the core runs the pending word and settles it. -/
theorem stepRunsDecodedCommand : Obligations.StepRunsDecodedCommand := by
  intro s h
  have hc := step_core h
  refine ⟨hc, fun w i t hp ho hd hx => ?_, fun w hp hd he => ?_⟩
  · have hr : runCommand w { s with moves := s.moves.tail } = .next t := (runCommand_of_ok hd _).trans hx
    rw [hc, coreTurn_busy (s := { s with moves := s.moves.tail }) hp hr, complete_no_overrun _ (exec_overrun hx ho)]
  · have hr := runCommand_of_illegal (s := { s with moves := s.moves.tail }) hd he
    rw [hc, coreTurn_busy (s := { s with moves := s.moves.tail }) hp hr, complete_of_err _ rfl]
    rfl

/-! ### Register accesses -/

theorem access_aligned {off : Nat} (hlt : off < 0x100) (hal : off % 4 = 0) (body : State) : access 4 off body = .next body := by
  rw [access, if_neg (by omega), if_pos ⟨rfl, hal⟩]

theorem hostWrite_idle {s : State} {off : Nat} (hlt : off < 0x100) (hal : off % 4 = 0) (hs : s.busy = false) (v : Word) :
    hostWrite 4 off v s = .next (storeRegister off v s) := by
  rw [hostWrite, access_aligned hlt hal, hs]
  rfl

theorem hostWrite_busy {s : State} {off : Nat} (hle : off ≤ 0x78) (hal : off % 4 = 0) (hs : s.busy = true) (v : Word) :
    hostWrite 4 off v s = .next { s with overrun := some (s.overrun.getD v) } := by
  rw [hostWrite, access_aligned (by omega) hal, hs, if_pos rfl, overrunWrite, if_pos hle]

theorem hostRead_idle {s : State} {off : Nat} (hlt : off < 0x100) (hal : off % 4 = 0) (hs : s.busy = false) :
    hostRead 4 off s = .next { s with bus := registerValue off s } := by
  rw [hostRead, access_aligned hlt hal, hs, if_neg (by simp)]
  rfl

/-- Settles O7: the cases of `issue`, and the overrun. -/
theorem cmdWriteIssuesCommand : Obligations.CmdWriteIssuesCommand := by
  intro s w
  have hw : s.busy = false → hostWrite 4 0x00 w s = .next (issue w s) := fun hb => hostWrite_idle (by decide) rfl hb w
  refine ⟨fun hb he => ?_, fun hb he hr => ?_, fun hb he hr => ?_, fun hb => hostWrite_busy (by decide) rfl hb w,
    fun hb => hostRead_idle (by decide) rfl hb⟩
  · rw [hw hb, issue, if_pos (.inl he)]
  · rw [hw hb, issue, if_pos (.inr hr)]
  · rw [hw hb, issue, if_neg]
    rintro (h | h)
    · exact absurd (he.symm.trans h) nofun
    · exact hr h

/-! ### The halves of a 64-bit register (R32) -/

theorem lo32_setLo (p : Pos) (v : Word) : lo32 (setLo p v) = v := BitVec.extractLsb'_append_eq_right

theorem hi32_setLo (p : Pos) (v : Word) : hi32 (setLo p v) = hi32 p := BitVec.extractLsb'_append_eq_left

theorem lo32_setHi (p : Pos) (v : Word) : lo32 (setHi p v) = lo32 p := BitVec.extractLsb'_append_eq_right

theorem hi32_setHi (p : Pos) (v : Word) : hi32 (setHi p v) = v := BitVec.extractLsb'_append_eq_left

/-! ### Writes of RW registers (R33, R113)

The field behind an RW register is read at that register's offset alone. -/

section OneField

variable {off : Nat} {s : State}

theorem registerValue_arg (h : off ≠ 0x0C) (v : Word) : registerValue off { s with arg := v } = registerValue off s := by
  unfold registerValue
  split
  case h_3 => exact absurd rfl h
  all_goals rfl

theorem registerValue_tokKind (h : off ≠ 0x18) (k : Bool) :
    registerValue off { s with tokKind := k } = registerValue off s := by
  unfold registerValue
  split
  case h_6 => exact absurd rfl h
  all_goals rfl

theorem registerValue_tokLit (h : off ≠ 0x1C) (b : Byte) :
    registerValue off { s with tokLit := b } = registerValue off s := by
  unfold registerValue
  split
  case h_7 => exact absurd rfl h
  all_goals rfl

theorem registerValue_tokDist (h : off ≠ 0x20) (v : Word) :
    registerValue off { s with tokDist := v } = registerValue off s := by
  unfold registerValue
  split
  case h_8 => exact absurd rfl h
  all_goals rfl

theorem registerValue_tokLen (h : off ≠ 0x24) (l : BitVec 9) :
    registerValue off { s with tokLen := l } = registerValue off s := by
  unfold registerValue
  split
  case h_9 => exact absurd rfl h
  all_goals rfl

theorem registerValue_ilen {p : Pos} (hlo : off = 0x58 → lo32 p = lo32 s.ilen) (hhi : off = 0x5C → hi32 p = hi32 s.ilen) :
    registerValue off { s with ilen := p } = registerValue off s := by
  unfold registerValue
  split
  case h_22 => exact hlo rfl
  case h_23 => exact hhi rfl
  all_goals rfl

theorem registerValue_olim {p : Pos} (hlo : off = 0x60 → lo32 p = lo32 s.olim) (hhi : off = 0x64 → hi32 p = hi32 s.olim) :
    registerValue off { s with olim := p } = registerValue off s := by
  unfold registerValue
  split
  case h_24 => exact hlo rfl
  case h_25 => exact hhi rfl
  all_goals rfl

end OneField

/-- A write changes what its own register reads alone; `CMD`, at 0, is no such register. -/
theorem registerValue_storeRegister_other {off off' : Nat} (h0 : off ≠ 0) (hne : off' ≠ off) (v : Word) (s : State) :
    registerValue off' (storeRegister off v s) = registerValue off' s := by
  unfold storeRegister
  split
  · exact absurd rfl h0
  · exact registerValue_arg hne v
  · exact registerValue_tokKind hne _
  · exact registerValue_tokLit hne _
  · exact registerValue_tokDist hne v
  · exact registerValue_tokLen hne _
  · exact registerValue_ilen (fun h => absurd h hne) fun _ => hi32_setLo s.ilen v
  · exact registerValue_ilen (fun _ => lo32_setHi s.ilen v) fun h => absurd h hne
  · exact registerValue_olim (fun h => absurd h hne) fun _ => hi32_setLo s.olim v
  · exact registerValue_olim (fun _ => lo32_setHi s.olim v) fun h => absurd h hne
  · rfl

/-- The low n bits of a word, as the bits a register of n bits keeps. -/
theorem setWidth_setWidth_eq_and (v : Word) (n : Nat) : (v.setWidth n).setWidth 32 = v &&& (BitVec.allOnes n).setWidth 32 := by
  ext i hi
  simp [hi, Bool.and_comm]

theorem ofNat_bit_eq_and (v : Word) : BitVec.ofNat 32 (bit (v.getLsbD 0)) = v &&& 1#32 := by
  have hb : bit (v.getLsbD 0) = v.toNat % 2 := by
    rw [BitVec.getLsbD, Nat.testBit_zero, bit]
    rcases Nat.mod_two_eq_zero_or_one v.toNat with h | h <;> simp [h]
  apply BitVec.eq_of_toNat_eq
  rw [hb, BitVec.toNat_and, BitVec.toNat_ofNat, show (1#32).toNat = 1 from rfl, Nat.and_one_is_mod]
  omega

theorem and_allOnes_word (v : Word) : v = v &&& 0xFFFFFFFF#32 := (BitVec.and_allOnes (x := v)).symm

/-- An RW register reads the bits of the written value that it keeps. -/
theorem registerValue_storeRegister_same (v : Word) (s : State) :
    ∀ r ∈ rwRegisters, registerValue r.1 (storeRegister r.1 v s) = v &&& r.2 := by
  simp only [rwRegisters, List.forall_mem_cons]
  refine ⟨and_allOnes_word v, ofNat_bit_eq_and v, setWidth_setWidth_eq_and v 8, and_allOnes_word v,
    setWidth_setWidth_eq_and v 9, ?_, ?_, ?_, ?_, nofun⟩
  · exact (lo32_setLo s.ilen v).trans (and_allOnes_word v)
  · exact (hi32_setHi s.ilen v).trans (and_allOnes_word v)
  · exact (lo32_setLo s.olim v).trans (and_allOnes_word v)
  · exact (hi32_setHi s.olim v).trans (and_allOnes_word v)

/-- Only the seven fields behind the RW registers can differ after a write to a register other than `CMD`. -/
theorem storeRegister_frame {off : Nat} (h0 : off ≠ 0) (v : Word) (s : State) :
    storeRegister off v s = { s with
      arg := (storeRegister off v s).arg, tokKind := (storeRegister off v s).tokKind
      tokLit := (storeRegister off v s).tokLit, tokDist := (storeRegister off v s).tokDist
      tokLen := (storeRegister off v s).tokLen, ilen := (storeRegister off v s).ilen
      olim := (storeRegister off v s).olim } := by
  unfold storeRegister
  split
  · exact absurd rfl h0
  all_goals rfl

/-- A write to a register that is neither `CMD` nor RW is ignored. -/
theorem storeRegister_ignored {off : Nat} (h0 : off ≠ 0) (h : ∀ r ∈ rwRegisters, off ≠ r.1) (v : Word) (s : State) :
    storeRegister off v s = s := by
  simp only [rwRegisters, List.forall_mem_cons] at h
  obtain ⟨harg, hkind, hlit, hdist, hlen, hilo, hihi, holo, hohi, -⟩ := h
  unfold storeRegister
  split
  · exact absurd rfl h0
  · exact absurd rfl harg
  · exact absurd rfl hkind
  · exact absurd rfl hlit
  · exact absurd rfl hdist
  · exact absurd rfl hlen
  · exact absurd rfl hilo
  · exact absurd rfl hihi
  · exact absurd rfl holo
  · exact absurd rfl hohi
  · rfl

/-- An RW register is at an aligned offset below 0x100, and is not `CMD`. -/
theorem rwRegisters_aligned : ∀ r ∈ rwRegisters, r.1 < 0x100 ∧ r.1 % 4 = 0 ∧ r.1 ≠ 0 := by decide

/-- Settles O12: `storeRegister` by its registers, and the move of a step. -/
theorem registerWriteReadBack : Obligations.RegisterWriteReadBack := by
  refine ⟨fun s v hb => ⟨fun r hr => ?_, fun off hlt hal h0 hoff => ?_⟩, fun s rest width off v hm => ?_⟩
  · obtain ⟨hlt, hal, h0⟩ := rwRegisters_aligned r hr
    exact ⟨_, hostWrite_idle hlt hal hb v, registerValue_storeRegister_same v s r hr,
      fun _ hne => registerValue_storeRegister_other h0 hne v s, storeRegister_frame h0 v s⟩
  · rw [hostWrite_idle hlt hal hb, storeRegister_ignored h0 hoff]
  · rw [step_eq, hm]
    rfl

/-! ### What registers read (R33, R35, R40, R56) -/

theorem bit_le (b : Bool) : bit b ≤ 1 := by cases b <;> decide

/-- A field of a register put together as a number. -/
theorem ofNat_field {n i w v : Nat} (hn : n < 2 ^ 32) (h : n / 2 ^ i % 2 ^ w = v) :
    ((BitVec.ofNat 32 n).extractLsb' i w).toNat = v := by
  rw [BitVec.extractLsb'_toNat, BitVec.toNat_ofNat, Nat.mod_eq_of_lt hn, Nat.shiftRight_eq_div_pow, h]

/-- A single bit of a register put together as a number. -/
theorem ofNat_bit {n i : Nat} {b : Bool} (hi : i < 32) (h : n / 2 ^ i % 2 = bit b) : (BitVec.ofNat 32 n).getLsbD i = b := by
  rw [BitVec.getLsbD_ofNat, Nat.testBit_eq_decide_div_mod_eq, h]
  cases b <;> simp [hi, bit]

theorem modeCode_le (m : Mode) : m.code ≤ 2 := by cases m <;> decide

theorem errcodeCode_lt (k : Errcode) : k.code < 256 := by cases k <;> decide

theorem faultCodes_code : ∀ r ∈ faultCodes, r.1.code = r.2.toNat := by decide

theorem mode_field (m : Mode) : m.code = (if m = .idle then 0 else if m = .enc then 1 else 2 : BitVec 2).toNat := by
  cases m <;> rfl

theorem statusFields (s : State) :
    s.status.getLsbD 0 = s.busy ∧ s.status.getLsbD 1 = s.err ∧
      s.status.extractLsb' 2 2 = (if s.mode = .idle then 0 else if s.mode = .enc then 1 else 2) ∧
      s.status.extractLsb' 4 4 = 0 ∧ (∀ r ∈ faultCodes, s.errcode = r.1 → s.status.extractLsb' 8 8 = r.2) ∧
      s.status.extractLsb' 16 4 = s.level ∧ s.status.extractLsb' 20 12 = 0 := by
  have hb := bit_le s.busy
  have he := bit_le s.err
  have hm := modeCode_le s.mode
  have hk := errcodeCode_lt s.errcode
  have hl := s.level.isLt
  unfold State.status
  refine ⟨ofNat_bit (by decide) (by omega), ofNat_bit (by decide) (by omega), ?_, ?_, fun r hr hkr => ?_, ?_, ?_⟩
  all_goals refine BitVec.eq_of_toNat_eq (ofNat_field (by omega) ?_)
  · rw [← mode_field]; omega
  · show _ = 0; omega
  · rw [← faultCodes_code r hr, ← hkr]; omega
  · omega
  · show _ = 0; omega

theorem ctxstateFields (s : State) :
    s.ctxstate.extractLsb' 0 8 = s.prevByte ∧ s.ctxstate.getLsbD 8 = s.prevMatch ∧ s.ctxstate.extractLsb' 9 23 = 0 := by
  have hp := s.prevByte.isLt
  have hb := bit_le s.prevMatch
  unfold State.ctxstate
  refine ⟨?_, ofNat_bit (by decide) (by omega), ?_⟩
  all_goals refine BitVec.eq_of_toNat_eq (ofNat_field (by omega) ?_)
  · omega
  · show _ = 0; omega

theorem capsFields (s : State) :
    (s.caps.extractLsb' 0 5).toNat = s.winExtra.val + 16 ∧ s.caps.extractLsb' 5 3 = 0 ∧ s.caps.extractLsb' 8 8 = 1 ∧
      s.caps.extractLsb' 16 16 = 0 := by
  have hx := s.winExtra.isLt
  have hc : s.caps = BitVec.ofNat 32 (s.winExtra.val + 16 + 256) := rfl
  rw [hc]
  refine ⟨ofNat_field (by omega) (by omega), ?_, ?_, ?_⟩
  all_goals refine BitVec.eq_of_toNat_eq (ofNat_field (by omega) ?_)
  · show _ = 0; omega
  · show _ = 1; omega
  · show _ = 0; omega

/-- The halves of a 64-bit register give its value (R32). -/
theorem halves_toNat (p : Pos) : (lo32 p).toNat + 2 ^ 32 * (hi32 p).toNat = p.toNat := by
  have hp := p.isLt
  simp only [lo32, hi32, BitVec.extractLsb'_toNat, Nat.shiftRight_eq_div_pow]
  omega

theorem encLow_halves (low : BitVec 33) :
    (low.extractLsb' 0 32).toNat + 2 ^ 32 * ((low.extractLsb' 32 1).setWidth 32).toNat = low.toNat := by
  have hl := low.isLt
  simp only [BitVec.extractLsb'_toNat, BitVec.toNat_setWidth, Nat.shiftRight_eq_div_pow]
  omega

/-- While busy a read of any register but `STATUS` draws a value (R120 (e)). -/
theorem hostRead_busy {s : State} {off : Nat} (hle : off ≤ 0x78) (hal : off % 4 = 0) (hne : off ≠ 0x04) (hs : s.busy = true) :
    hostRead 4 off s = .next (answerFree s) := by
  rw [hostRead, access_aligned (by omega) hal, if_pos ⟨hs, hne, hle⟩]

/-- `STATUS` is read in every state (R573). -/
theorem hostRead_status (s : State) : hostRead 4 0x04 s = .next { s with bus := registerValue 0x04 s } := by
  rw [hostRead, access_aligned (by decide) rfl, if_neg (by simp)]
  rfl

/-- Settles O13: the fields of the three packed registers, the halves of the 64-bit ones, and `hostRead` idle and busy. -/
theorem registersReadTheirFields : Obligations.RegistersReadTheirFields := by
  intro s
  refine ⟨statusFields s, ctxstateFields s, capsFields s, ?_, ?_, fun hb off hlt hal => hostRead_idle hlt hal hb,
    fun hb => ⟨hostRead_status s, fun off hle hal hne => ⟨_, hostRead_busy hle hal hne hb⟩⟩, fun rest width off hm => ?_⟩
  · refine ⟨rfl, rfl, rfl, rfl, ?_, ?_, rfl, ?_, rfl, ?_, rfl, rfl⟩
    · show (BitVec.ofNat 32 (bit s.tokKind)).toNat = _
      cases s.tokKind <;> rfl
    · exact BitVec.toNat_setWidth_of_le (by decide)
    · exact BitVec.toNat_setWidth_of_le (by decide)
    · exact BitVec.toNat_setWidth_of_le (by decide)
  · simp only [List.forall_mem_cons]
    exact ⟨encLow_halves s.encLow, halves_toNat s.encCsize, halves_toNat s.ipos, halves_toNat s.opos, halves_toNat s.ilen,
      halves_toNat s.olim, halves_toNat s.errIpos, halves_toNat s.errOpos, nofun⟩
  · rw [step_eq, hm]
    rfl

end Sys2Proof.Machine
end

section
/-! SUPPORT. The host's accesses at the edges of the register space (R110-R112) and to the byte memories (R101, R102, R121). -/

namespace Sys2Proof.Machine

/-! ### Reserved offsets (R111) -/

theorem registerValue_reserved {off : Nat} (h : 0x7C ≤ off) (s : State) : registerValue off s = 0 := by
  unfold registerValue
  split
  case h_31 => rfl
  all_goals exact absurd h (by decide)

theorem storeRegister_reserved {off : Nat} (h : 0x7C ≤ off) (v : Word) (s : State) : storeRegister off v s = s := by
  have hrw : ∀ r ∈ Claims.rwRegisters, r.1 < 0x7C := by decide
  exact storeRegister_ignored (by omega) (fun r hr => by have := hrw r hr; omega) v s

/-- A reserved offset sets no overrun latch (R507). -/
theorem overrunWrite_reserved {off : Nat} (h : 0x7C ≤ off) (v : Word) (s : State) : overrunWrite off v s = s :=
  if_neg (by omega)

/-- Settles O11: a reserved offset is none of the registers, busy or not. -/
theorem reservedOffsetsReadZero : Obligations.ReservedOffsetsReadZero := by
  intro s off v hlo hhi hal
  have hlt : off < 0x100 := by omega
  constructor
  · rw [hostRead, access_aligned hlt hal, if_neg (fun ⟨_, _, hle⟩ => by omega), registerValue_reserved hlo]
    rfl
  · rw [hostWrite, access_aligned hlt hal, overrunWrite_reserved hlo, storeRegister_reserved hlo, ite_self]

/-! ### Accesses that are not defined (R110, R112) -/

theorem access_undefined {width off : Nat} (hlt : off < 0x100) (h : width ≠ 4 ∨ off % 4 ≠ 0) (body : State) :
    access width off body = .refused .undefinedAccess := by
  rw [access, if_neg (by omega), if_neg (by omega)]

theorem access_outside {off : Nat} (h : 0x100 ≤ off) (width : Nat) (body : State) :
    access width off body = .fault .outsideRegisterSpace := if_pos h

/-- Settles O15: a read and a write answer what `access` answers, which looks at the width and the offset alone. -/
theorem undefinedAccessStops : Obligations.UndefinedAccessStops := fun _ width _ _ =>
  ⟨fun hlt h => ⟨access_undefined hlt h _, access_undefined hlt h _⟩,
    fun h => ⟨access_outside h width _, access_outside h width _⟩⟩

/-! ### A host write of `IBUF` (R101, R121) -/

theorem ibufByte_hostFill (i : Pos) (b : Byte) (s : State) (j : Nat) :
    (hostFill i b s).ibufByte j = if j = i.toNat then b else s.ibufByte j := by
  simp only [State.ibufByte, hostFill, lookup_insert]
  split_ifs <;> rfl

theorem raced_hostFill_idle {s : State} (h : s.busy = false) (i : Pos) (b : Byte) : (hostFill i b s).raced = s.raced := by
  simp [hostFill, h]

/-- While busy the replaced byte joins those the running command may still see. -/
theorem racedAt_hostFill_same {s : State} (h : s.busy = true) (i : Pos) (b : Byte) :
    racedAt (hostFill i b s).raced i.toNat = s.ibufByte i.toNat :: racedAt s.raced i.toNat := by
  simp [hostFill, h, racedAt]

theorem racedAt_hostFill_other {i : Pos} {j : Nat} (h : j ≠ i.toNat) (b : Byte) (s : State) :
    racedAt (hostFill i b s).raced j = racedAt s.raced j := by
  cases hb : s.busy <;> simp [hostFill, hb, racedAt, h.symm]

/-- What a read sees is decided by the byte held, the bytes replaced and the draw. -/
theorem readIbuf_congr {s t : State} {j : Nat} (hd : t.draws = s.draws) (hb : t.ibufByte j = s.ibufByte j)
    (hr : racedAt t.raced j = racedAt s.raced j) (site : Config.ReadSite) : t.readIbuf site j = s.readIbuf site j := by
  simp only [State.readIbuf, hd, hb, hr]

theorem readIbuf_hostFill_other {i : Pos} {j : Nat} (h : j ≠ i.toNat) (b : Byte) (s : State) (site : Config.ReadSite) :
    (hostFill i b s).readIbuf site j = s.readIbuf site j :=
  readIbuf_congr (s := s) (t := hostFill i b s) rfl ((ibufByte_hostFill i b s j).trans (if_neg h))
    (racedAt_hostFill_other h b s) site

/-- A racing read of the index written sees the new byte or one that was replaced (U5). -/
theorem readIbuf_hostFill_same {s : State} (h : s.busy = true) (i : Pos) (b : Byte) (site : Config.ReadSite) :
    (hostFill i b s).readIbuf site i.toNat = b ∨
      (hostFill i b s).readIbuf site i.toNat ∈ s.ibufByte i.toNat :: racedAt s.raced i.toNat := by
  have hm := readIbuf_mem (hostFill i b s) site i.toNat
  rwa [ibufByte_hostFill, if_pos rfl, racedAt_hostFill_same h] at hm

/-! ### A host read of `OBUF` (R102, R120) -/

theorem hostFetch_specified {s : State} {i : Pos} (h : s.busy = false ∨ i.toNat < s.opos.toNat) :
    hostFetch i s = { s with bus := BitVec.ofNat 32 (s.obufByte i.toNat).toNat } := by
  have hn : ¬ (s.busy = true ∧ s.opos ≤ i) := by
    rintro ⟨hb, hle⟩
    rcases h with h | h
    · exact absurd (hb.symm.trans h) nofun
    · exact absurd (BitVec.le_def.mp hle) (by omega)
  rw [hostFetch, if_neg hn, answer, BitVec.ofNat_toNat]

theorem hostFetch_busy {s : State} {i : Pos} (hb : s.busy = true) (hle : s.opos.toNat ≤ i.toNat) :
    hostFetch i s = answerFree s := if_pos ⟨hb, BitVec.le_def.mpr hle⟩

/-- A step takes the move at the head of the list (R30). -/
theorem step_of_moves {s : State} {m : Move} {rest : List Move} (h : s.moves = m :: rest) :
    step s = takeMove m { s with moves := rest } := by
  rw [step_eq, h]
  rfl

/-- Settles O14: the step is `hostFill` or `hostFetch` on the state with the move taken off. -/
theorem hostReachesTheByteMemories : Obligations.HostReachesTheByteMemories := by
  intro s i b rest
  refine ⟨fun hm => ?_, fun hm => ⟨fun h => ?_, fun hb hle => ⟨Config.freeRead s.draws, ?_⟩⟩⟩
  · exact ⟨_, step_of_moves hm, rfl, ibufByte_hostFill i b _, fun site _ hj => readIbuf_hostFill_other hj b _ site,
      fun hb => raced_hostFill_idle hb i b, fun hb => readIbuf_hostFill_same hb i b⟩
  · exact (step_of_moves hm).trans (congrArg _ (hostFetch_specified (s := { s with moves := rest }) h))
  · exact (step_of_moves hm).trans (congrArg _ (hostFetch_busy (s := { s with moves := rest }) hb hle))

end Sys2Proof.Machine
end

section
/-! SUPPORT. The command word (R150-R157, R161): its fields, the words a format admits, the two directions of decoding, the words
that do not decode, and the mode check. -/

namespace Sys2Proof.Machine

open Sys2Proof.Claims Sys2Proof.Laws.OpcodeField

/-! ### The fields of a command word (R151, R161) -/

@[simp] theorem ctxField_commandWord (opc : BitVec 8) (ctx : Ctx) (b : Bool) (n : BitVec 6) :
    ctxField (commandWord opc ctx b n) = ctx := by
  ext i hi
  have hb : (BitVec.ofBool b).getLsbD (12 + i - 8) = false := BitVec.getLsbD_of_ge _ _ (by omega)
  have hn : n.getLsbD (12 + i) = false := BitVec.getLsbD_of_ge _ _ (by omega)
  simp [ctxField, commandWord, hi, hb, hn, show 12 + i < 32 by omega, show 12 + i < 24 by omega]

@[simp] theorem bField_commandWord (opc : BitVec 8) (ctx : Ctx) (b : Bool) (n : BitVec 6) :
    bField (commandWord opc ctx b n) = b := by
  simp [bField, commandWord]

@[simp] theorem nField_commandWord (opc : BitVec 8) (ctx : Ctx) (b : Bool) (n : BitVec 6) :
    nField (commandWord opc ctx b n) = n := by
  ext i hi
  simp [nField, commandWord, hi, show i < 8 by omega, show i < 12 by omega, show i < 24 by omega, show i < 32 by omega]

/-- A field put back at its place is the word masked to it. -/
theorem field_in_place (w : Word) (i n : Nat) :
    (w.extractLsb' i n).setWidth 32 <<< i = w &&& ((BitVec.allOnes n).setWidth 32 <<< i) := by
  ext j hj
  by_cases h : j < i
  · simp [h]
  · simp [h, show i + (j - i) = j by omega, Bool.and_comm, hj]

theorem opcField_in_place (w : Word) : (opcField w).setWidth 32 <<< 24 = w &&& 0xFF000000#32 := field_in_place w 24 8

theorem ctxField_in_place (w : Word) : (ctxField w).setWidth 32 <<< 12 = w &&& 0x00FFF000#32 := field_in_place w 12 12

theorem bField_in_place (w : Word) : (BitVec.ofBool (bField w)).setWidth 32 <<< 8 = w &&& 0x00000100#32 := by
  have hb : BitVec.ofBool (bField w) = w.extractLsb' 8 1 := by
    ext i hi
    obtain rfl : i = 0 := by omega
    simp [bField]
  rw [hb]
  exact field_in_place w 8 1

theorem nField_in_place (w : Word) : (nField w).setWidth 32 = w &&& 0x0000003F#32 := by
  rw [← BitVec.shiftLeft_zero ((nField w).setWidth 32)]
  exact field_in_place w 0 6

/-! ### The words a format admits (R152) -/

/-- The command word with the fields of w that the format has, every other bit 0. -/
def fieldsWord : Format → Word → Word
  | .z, w => commandWord (opcField w) 0 false 0
  | .c, w => commandWord (opcField w) (ctxField w) false 0
  | .cb, w => commandWord (opcField w) (ctxField w) (bField w) 0
  | .n, w | .l, w => commandWord (opcField w) 0 false (nField w)
  | .cn, w => commandWord (opcField w) (ctxField w) false (nField w)

/-- The fields of a format are the opcode and the bits that its mask leaves free. -/
theorem fieldsWord_eq_and (f : Format) (w : Word) : fieldsWord f w = w &&& (0xFF000000#32 ||| ~~~f.mask) := by
  cases f <;>
    simp [fieldsWord, commandWord, opcField_in_place, ctxField_in_place, bField_in_place, nField_in_place,
      ← BitVec.and_or_distrib_left, Format.mask]

/-- The opcode is under every mask. -/
theorem opcode_under_mask (f : Format) : (0xFF000000#32 ||| ~~~f.mask) &&& f.mask = 0xFF000000#32 := by
  cases f <;> decide

/-- A word has 0 in every bit its format fixes exactly if its fields make it up again (R155, R161). -/
theorem masked_iff_fieldsWord (f : Format) (w : Word) :
    w &&& f.mask = (opcField w).setWidth 32 <<< 24 ↔ fieldsWord f w = w := by
  rw [opcField_in_place, fieldsWord_eq_and]
  constructor
  · intro h
    rw [BitVec.and_or_distrib_left, ← h, ← BitVec.and_or_distrib_left, BitVec.or_not_self, BitVec.and_allOnes]
  · intro h
    calc w &&& f.mask = w &&& (0xFF000000#32 ||| ~~~f.mask) &&& f.mask := by rw [h]
      _ = w &&& 0xFF000000#32 := by rw [BitVec.and_assoc, opcode_under_mask]

/-! ### Decoding and encoding -/

theorem decodeWord_of_row {w : Word} {f : Format} {build : Word → Instr} (h : rowOf (opcField w) = some (f, build)) :
    decodeWord w = if fieldsWord f w = w then .ok (build w) else .error .fixedBitSet := by
  simp only [decodeWord, h, masked_iff_fieldsWord]

/-- What a word decodes to (R155): the command its row builds, if its fields make it up again. -/
theorem decodeWord_eq_ok {w : Word} {i : Instr} :
    decodeWord w = .ok i ↔ ∃ f build, rowOf (opcField w) = some (f, build) ∧ fieldsWord f w = w ∧ build w = i := by
  rcases h : rowOf (opcField w) with _ | ⟨f, build⟩
  · simp [decodeWord, h]
  · rw [decodeWord_of_row h]
    by_cases hw : fieldsWord f w = w <;> simp [hw]

/-- The rows of the decoder (R154): each is in the opcode map, and the command it builds from a word of its opcode has that opcode and the
fields of its format. -/
theorem rowOf_eq_some {opc : BitVec 8} {f : Format} {build : Word → Instr} (h : rowOf opc = some (f, build)) :
    (opc, f.mask) ∈ opcodeTable ∧ ∀ w, opcField w = opc → encode (build w) = fieldsWord f w := by
  unfold rowOf at h
  split at h
  case h_24 => cases h
  all_goals
    next hopc =>
      cases h
      obtain ⟨-, rfl⟩ := BitVec.toNat_eq_nat.mp hopc
      exact ⟨by decide, fun w hw => by rw [fieldsWord, hw]; rfl⟩

@[simp] theorem opcField_encode (i : Instr) : opcField (encode i) = opcode i := by
  cases i <;> exact opcField_commandWord _ _ _ _

/-- The row of a command's opcode has the format of the command's operands and builds the command from its word (R154). -/
theorem row_of_encode (i : Instr) :
    ∃ f build, rowOf (opcode i) = some (f, build) ∧ fieldsWord f (encode i) = encode i ∧ build (encode i) = i := by
  cases i <;> exact ⟨_, _, rfl, by simp [fieldsWord, encode, opcField_commandWord], by simp [encode]⟩

/-- Settles O1: the row of the command's opcode admits the command's word, and reads each operand back from its field. -/
theorem decodeOfEncode : Obligations.DecodeOfEncode := by
  intro i
  rw [decodeWord_eq_ok, opcField_encode]
  exact row_of_encode i

/-- Settles O2: a word that decodes is made up of its fields, and they are the operands of its command. -/
theorem encodeOfDecode : Obligations.EncodeOfDecode := by
  intro w i h
  obtain ⟨f, build, hrow, hfields, rfl⟩ := decodeWord_eq_ok.mp h
  exact ((rowOf_eq_some hrow).2 w rfl).trans hfields

/-- Settles O4: the words are the encodings of their commands, or fail the lookup or the mask. -/
theorem vectorWordsDecode : Obligations.VectorWordsDecode := by
  unfold Obligations.VectorWordsDecode
  decide

/-! ### Words that do not decode (R156) -/

/-- Settles O3: a word that decodes matches its row of the map. -/
theorem reservedWordRaisesIllegalCmd : Obligations.ReservedWordRaisesIllegalCmd := by
  refine ⟨rfl, fun w s hs h => runCommand_of_illegal (fun i hi => ?_) hs⟩
  obtain ⟨f, build, hrow, hfields, -⟩ := decodeWord_eq_ok.mp hi
  exact h _ (rowOf_eq_some hrow).1 ⟨rfl, (masked_iff_fieldsWord f w).mpr hfields⟩

/-! ### The mode check (R157) -/

/-- A command with a mode checks it first. -/
theorem exec_eq_inMode {i : Instr} {m : Mode} (h : requiredMode i = some m) (s : State) :
    ∃ body, exec i s = .next (inMode m (encode i) s body) := by
  cases i <;> cases h <;> exact ⟨_, rfl⟩

theorem preFault_of_clear {s : State} (h : s.err = false) (k : Errcode) (w : Word) :
    preFault k w s = faulted k w s := recordFault_of_clear h k w s

theorem refill_eq_error {s : State} {k : Errcode} (h : refill s = .error k) : k = .truncated := by
  rcases run_bind_eq_error.mp h with h | ⟨r, -, h⟩
  · exact (inByte_eq_error.mp h).2
  · cases h

theorem refills_eq_error {n : Nat} {s : State} {k : Errcode} (h : refills n s = .error k) : k = .truncated := by
  induction n generalizing s with
  | zero => cases h
  | succ n ih =>
    rcases run_bind_eq_error.mp h with h | ⟨t, -, h⟩
    · exact refill_eq_error h
    · exact ih h

/-- The mid-command faults of `DEC_INIT` (R360). -/
theorem decInitBody_eq_error {lvl : BitVec 6} {s : State} {k : Errcode} (h : decInitBody lvl s = .error k) :
    k = .truncated ∨ k = .badStreamStart := by
  rcases run_bind_eq_error.mp h with h | ⟨r, -, h⟩
  · exact .inl (inByte_eq_error.mp h).2
  · rcases run_bind_eq_error.mp h with h | ⟨t, -, h⟩
    · exact .inl (refills_eq_error h)
    · split at h
      · cases h
      · cases h
        exact .inr rfl

theorem Loosened.err {w : Bool} {s u : State} (h : Loosened w s u) : u.err = s.err := (congrArg State.err h.1 :)

/-- State t has no fault recorded, or one with its code in ks. -/
def RaisesOnly (ks : List Errcode) (t : State) : Prop := t.err = false ∨ t.errcode ∈ ks

theorem raisesOnly_recordFault {ks : List Errcode} {k : Errcode} {u : State} (hk : k ∈ ks) (hu : u.err = false) (w : Word)
    (s : State) : RaisesOnly ks (recordFault k w s u) := by
  rw [recordFault_of_clear hu]
  exact .inr hk

/-- The faults of opening a stream (R310, R360). -/
def openFaults : List Errcode := [.levelRange, .alloc, .truncated, .badStreamStart]

/-- A body under the two checks of a level. -/
theorem raisesOnly_openChecks {s body : State} (hs : s.err = false) (hb : RaisesOnly openFaults body) (lvl : BitVec 6)
    (w : Word) :
    RaisesOnly openFaults
      (if levelOk lvl then if windowFits lvl s then body else preFault .alloc w s else preFault .levelRange w s) := by
  split
  · split
    · exact hb
    · exact raisesOnly_recordFault (by decide) hs w s
  · exact raisesOnly_recordFault (by decide) hs w s

/-- What `DEC_INIT` ends with past its checks (R360). -/
theorem raisesOnly_decInitBody {s loose : State} (hs : s.err = false) (hl : loose.err = false) (lvl : BitVec 6) (w : Word) :
    RaisesOnly openFaults (finish w s loose (decInitBody lvl s)) := by
  have hends := decInitBody_ends lvl s
  cases hb : decInitBody lvl s with
  | ok t =>
    rw [hb] at hends
    obtain ⟨p, v, rfl, -⟩ := hends
    exact .inl hs
  | error k =>
    refine raisesOnly_recordFault ?_ hl w s
    rcases decInitBody_eq_error hb with rfl | rfl <;> decide

/-- A command of mode "any" raises only the faults of opening a stream. -/
theorem exec_raisesOnly_openFaults {i : Instr} {s t : State} (hi : requiredMode i = none) (hs : s.err = false) (h : exec i s = .next t) :
    RaisesOnly openFaults t := by
  cases i with
  | nop | pmReset | pmPredict | pmUpdate => cases h; exact .inl hs
  | reset => cases h; exact .inl rfl
  | encInit lvl =>
    cases h
    exact raisesOnly_openChecks hs (body := openEncode lvl s) (.inl hs) lvl _
  | decInit lvl =>
    cases h
    have hl := ((Loosened.refl true s).obuf rfl).opos.prob.decoder.ctxstate.ipos.level.drawn
    exact raisesOnly_openChecks hs (raisesOnly_decInitBody hs (hl.err.trans hs) lvl _) lvl _
  | _ => cases hi

/-- Settles O16: a command with a mode is its mode check, and a command without one raises other faults. -/
theorem modeCheckComesFirst : Obligations.ModeCheckComesFirst := by
  constructor
  · intro i m s hi hm hs
    obtain ⟨body, hb⟩ := exec_eq_inMode hi s
    rw [hb, inMode_of_ne hm, preFault_of_clear hs]
  · intro i s t hi hs h ht hk
    rcases exec_raisesOnly_openFaults hi hs h with he | he
    · exact absurd (ht.symm.trans he) nofun
    · rw [hk] at he
      exact absurd he (by decide)

end Sys2Proof.Machine
end

section
/-! SUPPORT. The match finder's history (R203, R208, R209): what `Insert` records, and that every command of an open encode stream keeps
the insertion discipline. -/

namespace Sys2Proof.Machine

open Sys2Proof.Claims

/-! ### A command that records no fault passed its checks -/

theorem inMode_clear {m : Mode} {w : Word} {s body t : State} (h : inMode m w s body = t) (ht : t.err = false) :
    s.mode = m ∧ body = t := by
  unfold inMode at h
  split at h
  · next hm => exact ⟨hm, h⟩
  · rw [← h, preFault, recordFault_err] at ht
    cases ht

/-- A command of mode m that records no fault ran its body in mode m (R157). -/
theorem body_of_runs {i : Instr} {m : Mode} {w : Word} {s body t : State} (h : Runs i s t)
    (hx : exec i s = .next (inMode m w s body)) : s.mode = m ∧ body = t :=
  inMode_clear (Host.Outcome.next.inj (hx.symm.trans h.1)) h.2

theorem check_clear {c : Prop} [Decidable c] {k : Errcode} {w : Word} {s body t : State}
    (h : (if c then body else preFault k w s) = t) (ht : t.err = false) : c ∧ body = t := by
  split at h
  · next hc => exact ⟨hc, h⟩
  · rw [← h, preFault, recordFault_err] at ht
    cases ht

theorem stop_clear {c : Prop} [Decidable c] {k : Errcode} {w : Word} {s body t : State}
    (h : (if c then preFault k w s else body) = t) (ht : t.err = false) : ¬ c ∧ body = t := by
  split at h
  · rw [← h, preFault, recordFault_err] at ht
    cases ht
  · next hc => exact ⟨hc, h⟩

/-! ### What the discipline speaks of -/

/-- The fields that `State.History` reads, every other field blank. -/
def State.finderPart (s : State) : State :=
  { State.reset with
    level := s.level, ipos := s.ipos, ilen := s.ilen, head := s.head, chain := s.chain, ibuf := s.ibuf }

theorem EncFrame.finderPart {s t : State} (h : EncFrame s t) : t.finderPart = s.finderPart :=
  (congrArg State.finderPart h.1 :)

theorem EncFrame.raced {s t : State} (h : EncFrame s t) : t.raced = s.raced := (congrArg State.raced h.1 :)

/-- The discipline with every position before n inserted, wherever `IPOS` stands (R209). -/
def State.InsertedTo (s : State) (n : Nat) : Prop :=
  (∀ h, (s.headAt h).map BitVec.toNat = s.latest h n) ∧
  (∀ p, p < n → p + 3 ≤ s.ilen.toNat → n ≤ p + s.win →
    (s.chainAt (p % s.win)).map BitVec.toNat = s.latest (s.hashAt p) p)

theorem history_iff_insertedTo (s : State) : s.History ↔ s.InsertedTo s.ipos.toNat := Iff.rfl

theorem State.InsertedTo.of_finderPart {s t : State} {n : Nat} (h : s.InsertedTo n) (he : t.finderPart = s.finderPart) :
    t.InsertedTo n := by
  have hs : s.finderPart.InsertedTo n := h
  rw [← he] at hs
  exact hs

theorem State.History.of_finderPart {s t : State} (h : s.History) (he : t.finderPart = s.finderPart) : t.History := by
  rw [history_iff_insertedTo, show t.ipos = s.ipos from (congrArg State.ipos he :)]
  exact State.InsertedTo.of_finderPart h he

theorem EncFrame.history {s t : State} (h : EncFrame s t) (hs : s.History) : t.History := hs.of_finderPart h.finderPart

theorem EncFrame.insertedTo {s t : State} (h : EncFrame s t) (hs : s.History) : t.InsertedTo s.ipos.toNat :=
  State.InsertedTo.of_finderPart ((history_iff_insertedTo s).mp hs) h.finderPart

/-- The latest position below n + 1 is n itself, or the latest below n. -/
theorem latest_succ (s : State) (h n : Nat) :
    s.latest h (n + 1) = if n + 3 ≤ s.ilen.toNat ∧ s.hashAt n = h then some n else s.latest h n := by
  unfold State.latest
  rw [List.range_succ, List.reverse_append, List.reverse_singleton, List.singleton_append, List.find?_cons]
  by_cases hn : n + 3 ≤ s.ilen.toNat ∧ s.hashAt n = h
  · simp [hn]
  · rw [if_neg hn, ← Bool.decide_and, decide_eq_false hn]

/-! ### `Insert` (R203) -/

/-- `Insert` writes `HEAD` and `CHAIN` only. -/
theorem insertPos_frame (p : Nat) (s : State) :
    insertPos p s = { s with head := (insertPos p s).head, chain := (insertPos p s).chain } := by
  unfold insertPos
  split <;> rfl

@[simp] theorem insertPos_raced (p : Nat) (s : State) : (insertPos p s).raced = s.raced := by rw [insertPos_frame]
@[simp] theorem insertPos_ilen (p : Nat) (s : State) : (insertPos p s).ilen = s.ilen := by rw [insertPos_frame]
@[simp] theorem insertPos_win (p : Nat) (s : State) : (insertPos p s).win = s.win := by rw [insertPos_frame]; rfl
@[simp] theorem insertPos_hashAt (p : Nat) (s : State) (q : Nat) : (insertPos p s).hashAt q = s.hashAt q := by
  rw [insertPos_frame]; rfl
@[simp] theorem insertPos_latest (p : Nat) (s : State) (h n : Nat) : (insertPos p s).latest h n = s.latest h n := by
  rw [insertPos_frame]; rfl

theorem insertHash_of_not_raced {s : State} (h : s.raced = []) (p : Nat) : insertHash s p = s.hashAt p := by
  simp [insertHash, State.hashAt, h]

/-- `HEAD` after `Insert` (R203). -/
theorem headAt_insertPos {s : State} (hr : s.raced = []) (p h : Nat) :
    (insertPos p s).headAt h =
      if p + 3 ≤ s.ilen.toNat ∧ s.hashAt p = h then some (BitVec.ofNat 64 p) else s.headAt h := by
  unfold insertPos
  split
  · next hlt => rw [if_neg (by omega)]
  · next hge =>
    rw [headAt_setHead, insertHash_of_not_raced hr]
    by_cases hh : s.hashAt p = h
    · rw [if_pos hh.symm, if_pos ⟨by omega, hh⟩]
    · rw [if_neg (Ne.symm hh), if_neg fun hc => hh hc.2]
      rfl

/-- `CHAIN` after `Insert` (R203). -/
theorem chainAt_insertPos {s : State} (hr : s.raced = []) (p j : Nat) :
    (insertPos p s).chainAt j =
      if p + 3 ≤ s.ilen.toNat ∧ j = p % s.win then s.headAt (s.hashAt p) else s.chainAt j := by
  unfold insertPos
  split
  · next hlt => rw [if_neg (by omega)]
  · next hge =>
    show (s.setChain (p % s.win) (s.headAt (insertHash s p))).chainAt j = _
    rw [chainAt_setChain, insertHash_of_not_raced hr]
    by_cases hj : j = p % s.win
    · rw [if_pos hj, if_pos ⟨by omega, hj⟩]
    · rw [if_neg hj, if_neg fun hc => hj hc.2]

/-- Two positions less than a window apart have entries of their own in `CHAIN` (R61). -/
theorem mod_ne_of_lt {q p w : Nat} (hlt : q < p) (hw : p < q + w) : q % w ≠ p % w := by
  intro he
  have hd : w ∣ p - q := (Nat.modEq_iff_dvd' hlt.le).mp he
  have := Nat.le_of_dvd (by omega) hd
  omega

/-- `Insert` of the next position extends the discipline by it (R209). -/
theorem insertedTo_insertPos {s : State} {p : Nat} (hr : s.raced = []) (h : s.InsertedTo p) :
    (insertPos p s).InsertedTo (p + 1) := by
  obtain ⟨hhead, hchain⟩ := h
  constructor
  · intro x
    rw [insertPos_latest, latest_succ, headAt_insertPos hr]
    split
    · next hx =>
      have hp : p < 2 ^ 64 := by have := s.ilen.isLt; omega
      exact congrArg some ((BitVec.toNat_ofNat p 64).trans (Nat.mod_eq_of_lt hp))
    · exact hhead x
  · intro q hq hlen hwin
    simp only [insertPos_ilen, insertPos_win, insertPos_hashAt, insertPos_latest] at hlen hwin ⊢
    rw [chainAt_insertPos hr]
    rcases Nat.lt_succ_iff_lt_or_eq.mp hq with hlt | rfl
    · rw [if_neg fun hc => mod_ne_of_lt hlt (by omega) hc.2]
      exact hchain q hlt hlen (by omega)
    · rw [if_pos ⟨hlen, rfl⟩]
      exact hhead _

theorem insertedTo_insertRun {s : State} {l p : Nat} (hr : s.raced = []) (h : s.InsertedTo p) :
    (insertRun l p s).InsertedTo (p + l) := by
  induction l generalizing p s with
  | zero => exact h
  | succ l ih =>
    have hi := ih (s := insertPos p s) (by simpa using hr) (insertedTo_insertPos hr h)
    rw [show p + (l + 1) = p + 1 + l by omega]
    exact hi

/-- The discipline at a state that differs from one with the positions before n inserted by `IPOS`, now n, and `CTXSTATE`. -/
theorem State.InsertedTo.history {s : State} {n : Nat} (h : s.InsertedTo n) {q : Pos} (hq : q.toNat = n) (pb : Byte) (pm : Bool) :
    State.History { s with ipos := q, prevByte := pb, prevMatch := pm } := by
  subst hq
  exact h

/-! ### The commands of an encode stream -/

/-- `ENC_INIT` starts with no position inserted (R310). -/
theorem openEncode_history (lvl : BitVec 6) (s : State) : (openEncode lvl s).History :=
  ⟨fun _ => rfl, fun _ hp => absurd hp (Nat.not_lt_zero _)⟩

theorem encInit_history {lvl : BitVec 6} {s t : State} (h : Runs (.encInit lvl) s t) : t.History := by
  obtain ⟨-, hl⟩ := check_clear (Host.Outcome.next.inj h.1) h.2
  obtain ⟨-, rfl⟩ := check_clear hl h.2
  exact openEncode_history lvl s

theorem encLitBody_history {s t : State} (hr : s.raced = []) (hs : s.History) (h : encLitBody s = .ok t) : t.History := by
  unfold encLitBody at h
  split at h
  · cases h
  · next hi =>
    obtain ⟨u, hu, ht⟩ := run_bind_eq_ok.mp h
    cases ht
    have hf := encodeLiteralToken_frame hu
    have hlt : s.ipos.toNat < s.ilen.toNat := by rw [BitVec.le_def] at hi; omega
    exact (insertedTo_insertPos (hf.raced.trans hr) (hf.insertedTo hs)).history (ipos_succ hlt) _ _

/-- Past its checks `ENC_MATCH` steps to a position of the input, so without a wrap (R431). -/
theorem ipos_add_of_matchOk {s : State} (hk : matchOk s = true) :
    (s.ipos + BitVec.ofNat 64 s.tokLen.toNat).toNat = s.ipos.toNat + s.tokLen.toNat := by
  have hl : s.tokLen.toNat ≤ s.ilen.toNat - s.ipos.toNat := by
    simp only [matchOk, Bool.and_eq_true, decide_eq_true_eq] at hk
    obtain ⟨⟨-, hmax⟩, -⟩ := hk
    exact hmax.trans (Nat.min_le_right _ _)
  have := s.ilen.isLt
  have := s.ipos.isLt
  rw [BitVec.toNat_add, BitVec.toNat_ofNat]
  omega

theorem encMatchCode_history {s t : State} (hr : s.raced = []) (hs : s.History) (hk : matchOk s = true)
    (h : encMatchCode s = .ok t) : t.History := by
  obtain ⟨u, hu, ht⟩ := run_bind_eq_ok.mp h
  cases ht
  have hf := encodeMatchToken_frame hu
  exact (insertedTo_insertRun (hf.raced.trans hr) (hf.insertedTo hs)).history (ipos_add_of_matchOk hk) _ _

theorem encFlushBody_mode {s t : State} (h : encFlushBody s = .ok t) : t.mode = .idle := by
  obtain ⟨u, -, ht⟩ := run_bind_eq_ok.mp h
  cases ht
  rfl

theorem decInit_mode {lvl : BitVec 6} {s t : State} (h : Runs (.decInit lvl) s t) : t.mode = .dec := by
  obtain ⟨-, hl⟩ := check_clear (Host.Outcome.next.inj h.1) h.2
  obtain ⟨-, hb⟩ := check_clear hl h.2
  have he := decInitBody_ends lvl s
  rw [finish_clear hb h.2] at he
  obtain ⟨p, v, rfl, -⟩ := he
  rfl

theorem mfFindBody_finderPart (s : State) : (mfFindBody s).finderPart = s.finderPart := by
  unfold mfFindBody
  dsimp only
  split <;> rfl

/-- A command that completes in an open encode stream and leaves one open keeps the discipline: the coding commands do not touch what it
speaks of, and `ENC_LIT` and `ENC_MATCH` insert exactly the positions they step over. -/
theorem history_of_runs {i : Instr} {s t : State} (h : Runs i s t) (hm : s.mode = .enc) (hr : s.raced = []) (hs : s.History)
    (ht : t.mode = .enc) : t.History := by
  cases i with
  | nop | pmReset | pmPredict | pmUpdate => cases h.1; exact hs
  | encInit lvl => exact encInit_history h
  | mfFind =>
    obtain ⟨-, rfl⟩ := body_of_runs h rfl
    exact hs.of_finderPart (mfFindBody_finderPart s)
  | encBit c b =>
    exact (encodeBit_frame (finish_clear (body_of_runs h rfl).2 h.2)).history hs
  | encDirect n =>
    obtain ⟨-, hb⟩ := check_clear (body_of_runs h rfl).2 h.2
    exact (encodeDirect_frame (finish_clear hb h.2)).1.history hs
  | encTree c n =>
    obtain ⟨-, hb⟩ := check_clear (body_of_runs h rfl).2 h.2
    exact (encodeTreeFrom_frame (finish_clear hb h.2)).history hs
  | encRtree c n =>
    obtain ⟨-, hb⟩ := check_clear (body_of_runs h rfl).2 h.2
    exact (encodeRtreeFrom_frame (finish_clear hb h.2)).history hs
  | encLit =>
    obtain ⟨-, hb⟩ := stop_clear (body_of_runs h rfl).2 h.2
    exact encLitBody_history hr hs (finish_clear hb h.2)
  | encMatch =>
    obtain ⟨hk, hb⟩ := check_clear (body_of_runs h rfl).2 h.2
    exact encMatchCode_history hr hs hk (finish_clear hb h.2)
  | encFlush =>
    have hb := finish_clear (body_of_runs h rfl).2 h.2
    exact absurd ((encFlushBody_mode hb).symm.trans ht) nofun
  | encStream =>
    obtain ⟨u, -, hb⟩ := run_bind_eq_ok.mp (finish_clear (body_of_runs h rfl).2 h.2)
    exact absurd ((encFlushBody_mode hb).symm.trans ht) nofun
  | reset => cases h.1; cases ht
  | decInit lvl => exact absurd ((decInit_mode h).symm.trans ht) nofun
  | decBit | decDirect | decTree | decRtree | decFinish | decToken | decStream =>
    exact absurd (hm.symm.trans (body_of_runs h rfl).1) nofun

/-- Settles O33: `ENC_INIT` starts with the empty history, and `history_of_runs` is the step. -/
theorem historyIsKept : Obligations.HistoryIsKept := by
  rintro i s t - hr (⟨hm, hs⟩ | ⟨lvl, rfl⟩) h ht
  · exact history_of_runs h hm hr hs ht
  · exact encInit_history h

end Sys2Proof.Machine
end

section
/-! SUPPORT. The search of the match finder (R206, R207, R208, R210): the lengths it can report, the walk along `CHAIN` as a pass over the
candidates of R208, and the best of these. -/

namespace Sys2Proof.Machine

open Sys2Proof.Claims

theorem exec_mfFind {s : State} (hm : s.mode = .enc) : exec .mfFind s = .next (mfFindBody s) :=
  congrArg _ (inMode_of_eq hm _ _)

/-! ### The lengths of a search -/

theorem matchLenFrom_le (s : State) (q pos fuel l : Nat) : matchLenFrom s q pos fuel l ≤ l + fuel := by
  induction fuel generalizing l with
  | zero => exact le_rfl
  | succ fuel ih =>
    unfold matchLenFrom
    split
    · have := ih (l + 1)
      omega
    · omega

theorem matchLen_le (s : State) (q pos maxlen : Nat) : matchLen s q pos maxlen ≤ maxlen := by
  have := matchLenFrom_le s q pos maxlen 0
  unfold matchLen
  omega

/-- The longer of two lengths is kept (R207). -/
theorem better_length (d l : Nat) (best : Nat × Nat) : (better d l best).2 = max best.2 l := by
  unfold better
  split
  · next h => exact (max_eq_right h.le).symm
  · next h => exact (max_eq_left (not_lt.mp h)).symm

theorem walk_length_le (s : State) (pos maxlen fuel : Nat) (e : Option Pos) {best : Nat × Nat} (hb : best.2 ≤ maxlen) :
    (walk s pos maxlen fuel e best).2 ≤ maxlen := by
  induction fuel generalizing e best with
  | zero => exact hb
  | succ fuel ih =>
    cases e with
    | none => exact hb
    | some q =>
      unfold walk
      split
      · exact hb
      · split
        · rw [better_length]
          exact max_le hb le_rfl
        · refine ih _ ?_
          rw [better_length]
          exact max_le hb (matchLen_le s _ _ _)

/-- `FindMatch` at pos once three bytes are left (R207). -/
theorem findMatch_of_rest {s : State} {pos : Nat} (h : pos + 3 ≤ s.ilen.toNat) {best : Nat × Nat}
    (hb : walk s pos (min 273 (s.ilen.toNat - pos)) s.depth (s.headAt (searchHash s pos)) (0, 0) = best) :
    findMatch s pos = if best.2 < 3 then (0, 0) else best := by
  have hrem : ¬ s.ilen.toNat - pos < Config.hashBytes := by unfold Config.hashBytes; omega
  simp only [findMatch, if_neg hrem]
  rw [← hb]
  rfl

theorem findMatch_of_no_rest {s : State} {pos : Nat} (h : s.ilen.toNat < pos + 3) : findMatch s pos = (0, 0) := by
  have hrem : s.ilen.toNat - pos < Config.hashBytes := by unfold Config.hashBytes; omega
  simp only [findMatch, if_pos hrem]

/-- `FindMatch` reports nothing, or a length from 3 to 273 and with three bytes left (R207). -/
theorem findMatch_cases (s : State) (pos : Nat) :
    findMatch s pos = (0, 0) ∨
      pos + 3 ≤ s.ilen.toNat ∧ ∃ d l, findMatch s pos = (d, l) ∧ 3 ≤ l ∧ l ≤ 273 := by
  by_cases h : s.ilen.toNat < pos + 3
  · exact .inl (findMatch_of_no_rest h)
  · have hle := walk_length_le s pos (min 273 (s.ilen.toNat - pos)) s.depth (s.headAt (searchHash s pos))
      (best := (0, 0)) (Nat.zero_le _)
    rw [findMatch_of_rest (not_lt.mp h) rfl]
    split
    · exact .inl rfl
    · next hge => exact .inr ⟨not_lt.mp h, _, _, rfl, not_lt.mp hge, hle.trans (min_le_left _ _)⟩

/-! ### What `MF_FIND` reports (R210) -/

theorem mfFindBody_none {s : State} (h : findMatch s s.ipos.toNat = (0, 0)) :
    mfFindBody s = { s with tokKind := false, tokDist := 0, tokLen := 0 } := by
  simp [mfFindBody, h]

theorem mfFindBody_some {s : State} {d l : Nat} (h : findMatch s s.ipos.toNat = (d, l)) (hl : l ≠ 0) :
    mfFindBody s = { s with tokKind := true, tokDist := BitVec.ofNat 32 d, tokLen := BitVec.ofNat 9 l } := by
  simp [mfFindBody, h, hl]

theorem toNat_tokLen {l : Nat} (h : l ≤ 273) : (BitVec.ofNat 9 l).toNat = l :=
  (BitVec.toNat_ofNat l 9).trans (Nat.mod_eq_of_lt (by omega))

/-- Settles O31: the lengths that `FindMatch` can answer, and none with fewer than three bytes left. -/
theorem mfFindWritesTokenRegisters : Obligations.MfFindWritesTokenRegisters := by
  intro s hm
  refine ⟨mfFindBody s, exec_mfFind hm, ?_⟩
  rcases findMatch_cases s s.ipos.toNat with hf | ⟨hrest, d, l, hf, hmin, hmax⟩
  · rw [mfFindBody_none hf]
    exact ⟨rfl, fun _ => ⟨rfl, rfl⟩, nofun, fun _ => rfl⟩
  · rw [mfFindBody_some hf (by omega)]
    refine ⟨rfl, nofun, fun _ => ?_, fun h => absurd h (not_lt.mpr hrest)⟩
    dsimp only
    rw [toNat_tokLen hmax]
    exact ⟨hmin, hmax⟩

/-! ### `MatchLen` without a race (R206) -/

theorem matchLenFrom_eq {s : State} (hr : s.raced = []) (q pos fuel l : Nat) :
    matchLenFrom s q pos fuel l =
      l + ((List.range' l fuel).takeWhile fun k => decide (s.ibufByte (q + k) = s.ibufByte (pos + k))).length := by
  induction fuel generalizing l with
  | zero => rfl
  | succ fuel ih =>
    simp only [matchLenFrom, readIbuf_of_not_raced hr, List.range'_succ, List.takeWhile_cons, decide_eq_true_eq]
    split
    · rw [ih, List.length_cons]
      omega
    · rfl

theorem matchLen_eq_common {s : State} (hr : s.raced = []) (q pos maxlen : Nat) :
    matchLen s q pos maxlen = s.common q pos maxlen := by
  rw [matchLen, matchLenFrom_eq hr, State.common, List.range_eq_range', Nat.zero_add]

/-- Hashes are the three bytes themselves (R202). -/
theorem hash3_inj {a b c a' b' c' : Byte} (h : hash3 a b c = hash3 a' b' c') : a = a' ∧ b = b' ∧ c = c' := by
  have ha := a.isLt; have hb := b.isLt; have hc := c.isLt
  have ha' := a'.isLt; have hb' := b'.isLt; have hc' := c'.isLt
  simp only [hash3] at h
  refine ⟨BitVec.eq_of_toNat_eq ?_, BitVec.eq_of_toNat_eq ?_, BitVec.eq_of_toNat_eq ?_⟩ <;> omega

/-- A candidate agrees on three bytes at least (R207). -/
theorem three_le_common {s : State} {q pos maxlen : Nat} (h : s.hashAt q = s.hashAt pos) (hl : 3 ≤ maxlen) :
    3 ≤ s.common q pos maxlen := by
  obtain ⟨h0, h1, h2⟩ := hash3_inj h
  obtain ⟨k, rfl⟩ : ∃ k, maxlen = k + 3 := ⟨maxlen - 3, by omega⟩
  simp [State.common, List.range_eq_range', List.range'_succ, h0, h1, h2]

/-! ### The candidates (R208) -/

/-- The candidates of R208 for a search at pos that lie below n. -/
def State.candidatesBelow (s : State) (pos n : Nat) : List Nat :=
  (List.range n).reverse.filter fun q => decide (pos ≤ q + s.win) && decide (s.hashAt q = s.hashAt pos)

theorem candidates_eq (s : State) (pos : Nat) : s.candidates pos = s.candidatesBelow pos pos := rfl

theorem candidatesBelow_succ (s : State) (pos n : Nat) :
    s.candidatesBelow pos (n + 1) =
      if pos ≤ n + s.win ∧ s.hashAt n = s.hashAt pos then n :: s.candidatesBelow pos n else s.candidatesBelow pos n := by
  unfold State.candidatesBelow
  rw [List.range_succ, List.reverse_append, List.reverse_singleton, List.singleton_append, List.filter_cons]
  simp only [Bool.and_eq_true, decide_eq_true_eq]

theorem mem_candidatesBelow {s : State} {pos n q : Nat} (h : q ∈ s.candidatesBelow pos n) :
    q < n ∧ pos ≤ q + s.win ∧ s.hashAt q = s.hashAt pos := by
  simpa [State.candidatesBelow] using h

/-- Newest first. -/
theorem candidatesBelow_descending (s : State) (pos n : Nat) : (s.candidatesBelow pos n).Pairwise (· > ·) :=
  (List.pairwise_reverse.mpr List.pairwise_lt_range).filter _

/-- Outside the window there is none. -/
theorem candidatesBelow_of_far {s : State} {pos n : Nat} (h : n + s.win ≤ pos) : s.candidatesBelow pos n = [] :=
  List.eq_nil_iff_forall_not_mem.mpr fun q hq => by
    obtain ⟨hlt, hwin, -⟩ := mem_candidatesBelow hq
    omega

/-- What the latest position with a hash is (R203). -/
theorem of_latest_eq_some {s : State} {h n q : Nat} (hq : s.latest h n = some q) :
    q < n ∧ q + 3 ≤ s.ilen.toNat ∧ s.hashAt q = h := by
  have hp := List.find?_some hq
  have hm := List.mem_of_find?_eq_some hq
  simp only [Bool.and_eq_true, decide_eq_true_eq] at hp
  simp only [List.mem_reverse, List.mem_range] at hm
  exact ⟨hm, hp⟩

section

variable {s : State} {pos n : Nat} (hn : n ≤ pos) (hlen : pos + 3 ≤ s.ilen.toNat)
include hn hlen

theorem candidatesBelow_of_latest_none (h : s.latest (s.hashAt pos) n = none) : s.candidatesBelow pos n = [] := by
  induction n with
  | zero => rfl
  | succ n ih =>
    rw [latest_succ] at h
    split at h
    · cases h
    · next hc =>
      rw [candidatesBelow_succ, if_neg fun hx => hc ⟨by omega, hx.2⟩]
      exact ih (by omega) h

/-- The latest position with the hash searched for is the first candidate, if it is in the window. -/
theorem candidatesBelow_of_latest_some {q : Nat} (h : s.latest (s.hashAt pos) n = some q) :
    s.candidatesBelow pos n = if pos ≤ q + s.win then q :: s.candidatesBelow pos q else [] := by
  induction n with
  | zero => cases h
  | succ n ih =>
    rw [latest_succ] at h
    rw [candidatesBelow_succ]
    split at h
    · next hc =>
      cases h
      by_cases hw : pos ≤ q + s.win
      · rw [if_pos ⟨hw, hc.2⟩, if_pos hw]
      · rw [if_neg fun hx => hw hx.1, if_neg hw, candidatesBelow_of_far (by omega)]
    · next hc =>
      rw [if_neg fun hx => hc ⟨by omega, hx.2⟩]
      exact ih (by omega) h

end

/-! ### The walk is a pass over the candidates -/

/-- The best pair after candidate q of a search at pos (R207). -/
def State.consider (s : State) (pos maxlen : Nat) (best : Nat × Nat) (q : Nat) : Nat × Nat :=
  better (pos - q) (s.common q pos maxlen) best

theorem common_le {s : State} (q pos maxlen : Nat) : s.common q pos maxlen ≤ maxlen := by
  unfold State.common
  exact (List.takeWhile_sublist _).length_le.trans (List.length_range).le

/-- A pair of the greatest length stays: what leaving the loop early rests on. -/
theorem foldl_consider_of_max {s : State} {pos maxlen : Nat} {best : Nat × Nat} (h : maxlen ≤ best.2) (qs : List Nat) :
    qs.foldl (s.consider pos maxlen) best = best := by
  induction qs with
  | nil => rfl
  | cons q qs ih =>
    have hq : s.consider pos maxlen best q = best := if_neg (by have := common_le (s := s) q pos maxlen; omega)
    rw [List.foldl_cons, hq, ih]

/-- With the history inserted, the loop of `FindMatch` from the latest position below n considers the candidates below n, at most `fuel`
of them (R207, R208). -/
theorem walk_eq_foldl {s : State} (hr : s.raced = []) (hs : s.History) (hlen : s.ipos.toNat + 3 ≤ s.ilen.toNat) (maxlen fuel : Nat)
    {n : Nat} (hn : n ≤ s.ipos.toNat) {e : Option Pos}
    (he : e.map BitVec.toNat = s.latest (s.hashAt s.ipos.toNat) n) (best : Nat × Nat) :
    walk s s.ipos.toNat maxlen fuel e best =
      ((s.candidatesBelow s.ipos.toNat n).take fuel).foldl (s.consider s.ipos.toNat maxlen) best := by
  induction fuel generalizing n e best with
  | zero => rfl
  | succ fuel ih =>
    cases e with
    | none => rw [candidatesBelow_of_latest_none hn hlen he.symm]; rfl
    | some q =>
      obtain ⟨hqn, hq3, hqh⟩ := of_latest_eq_some he.symm
      rw [candidatesBelow_of_latest_some hn hlen he.symm]
      unfold walk
      by_cases hw : s.ipos.toNat ≤ q.toNat + s.win
      · rw [if_neg (by omega), if_pos hw, List.take_succ_cons, List.foldl_cons, matchLen_eq_common hr]
        split
        · next hmax =>
          have hc : s.consider s.ipos.toNat maxlen best q.toNat = better (s.ipos.toNat - q.toNat) maxlen best := by
            rw [State.consider, hmax]
          rw [hc, foldl_consider_of_max (by rw [better_length]; exact le_max_right _ _)]
        · refine ih (by omega) ?_ _
          rw [hs.2 q.toNat (by omega) hq3 hw, hqh]
      · rw [if_pos (by omega), if_neg hw]
        rfl

/-- The pair that a pass over newest-first candidates ends with: the longest, and of those of that length the newest, or the pair it
began with when none is longer. -/
theorem foldl_consider_best (s : State) (pos maxlen : Nat) {qs : List Nat} (hd : qs.Pairwise (· > ·)) (best : Nat × Nat) :
    (qs.foldl (s.consider pos maxlen) best = best ∧ ∀ q ∈ qs, s.common q pos maxlen ≤ best.2) ∨
    ∃ q ∈ qs, qs.foldl (s.consider pos maxlen) best = (pos - q, s.common q pos maxlen) ∧ best.2 < s.common q pos maxlen ∧
      ∀ q' ∈ qs, s.common q' pos maxlen < s.common q pos maxlen ∨
        s.common q' pos maxlen = s.common q pos maxlen ∧ q' ≤ q := by
  induction qs generalizing best with
  | nil => exact .inl ⟨rfl, nofun⟩
  | cons q qs ih =>
    obtain ⟨hq, hd⟩ := List.pairwise_cons.mp hd
    rw [List.foldl_cons]
    by_cases hlt : best.2 < s.common q pos maxlen
    · rw [show s.consider pos maxlen best q = (pos - q, s.common q pos maxlen) from if_pos hlt]
      right
      rcases ih hd (pos - q, s.common q pos maxlen) with ⟨hf, hle⟩ | ⟨r, hr, hf, hgt, hbest⟩
      · refine ⟨q, List.mem_cons_self, hf, hlt, fun q' hq' => ?_⟩
        rcases List.mem_cons.mp hq' with rfl | hq'
        · exact .inr ⟨rfl, le_rfl⟩
        · exact (hle q' hq').lt_or_eq.imp_right fun he => ⟨he, (hq q' hq').le⟩
      · refine ⟨r, List.mem_cons_of_mem _ hr, hf, hlt.trans hgt, fun q' hq' => ?_⟩
        rcases List.mem_cons.mp hq' with rfl | hq'
        · exact .inl hgt
        · exact hbest q' hq'
    · rw [show s.consider pos maxlen best q = best from if_neg hlt]
      rcases ih hd best with ⟨hf, hle⟩ | ⟨r, hr, hf, hgt, hbest⟩
      · exact .inl ⟨hf, List.forall_mem_cons.mpr ⟨not_lt.mp hlt, hle⟩⟩
      · refine .inr ⟨r, List.mem_cons_of_mem _ hr, hf, hgt, List.forall_mem_cons.mpr ⟨.inl ?_, hbest⟩⟩
        exact (not_lt.mp hlt).trans_lt hgt

/-- `FindMatch` at `IPOS` with the history inserted (R207, R208). -/
theorem findMatch_of_history {s : State} (hr : s.raced = []) (hs : s.History) (hlen : s.ipos.toNat + 3 ≤ s.ilen.toNat)
    {best : Nat × Nat}
    (hb : ((s.candidates s.ipos.toNat).take s.depth).foldl
      (s.consider s.ipos.toNat (min 273 (s.ilen.toNat - s.ipos.toNat))) (0, 0) = best) :
    findMatch s s.ipos.toNat = if best.2 < 3 then (0, 0) else best := by
  have hsearch : searchHash s s.ipos.toNat = s.hashAt s.ipos.toNat := by simp [searchHash, State.hashAt, hr]
  refine findMatch_of_rest hlen (Eq.trans ?_ hb)
  rw [hsearch]
  exact walk_eq_foldl hr hs hlen _ _ le_rfl (hs.1 _) _

/-- Settles O32: the walk considers the candidates newest first, so it ends with the longest, and the nearest of those. -/
theorem mfFindGivesTheBestCandidate : Obligations.MfFindGivesTheBestCandidate := by
  intro s qs hm hr hs hqs
  refine ⟨mfFindBody s, exec_mfFind hm, ?_⟩
  split
  · next hnone =>
    have h0 : findMatch s s.ipos.toNat = (0, 0) := by
      by_cases hlen : s.ilen.toNat < s.ipos.toNat + 3
      · exact findMatch_of_no_rest hlen
      · exact findMatch_of_history (best := (0, 0)) hr hs (not_lt.mp hlen) (by rw [← hqs, hnone.resolve_left hlen]; rfl)
    rw [mfFindBody_none h0]
    exact ⟨rfl, rfl, rfl⟩
  · next hsome =>
    obtain ⟨hlen, hne⟩ := not_or.mp hsome
    have hfold := findMatch_of_history hr hs (not_lt.mp hlen) rfl
    rw [← hqs] at hfold
    have hmin : 3 ≤ min 273 (s.ilen.toNat - s.ipos.toNat) := by omega
    have hmax : min 273 (s.ilen.toNat - s.ipos.toNat) ≤ 273 := min_le_left _ _
    generalize min 273 (s.ilen.toNat - s.ipos.toNat) = maxlen at hfold hmin hmax ⊢
    have hcand : ∀ q ∈ qs, q < s.ipos.toNat ∧ s.ipos.toNat ≤ q + s.win ∧ s.hashAt q = s.hashAt s.ipos.toNat :=
      fun q hq => mem_candidatesBelow (List.mem_of_mem_take (hqs ▸ hq))
    have hthree : ∀ q ∈ qs, 3 ≤ s.common q s.ipos.toNat maxlen := fun q hq => three_le_common (hcand q hq).2.2 hmin
    have hdesc : qs.Pairwise (· > ·) := hqs ▸ (candidatesBelow_descending s _ _).sublist (List.take_sublist _ _)
    rcases foldl_consider_best s s.ipos.toNat maxlen hdesc (0, 0) with ⟨-, hle⟩ | ⟨q, hq, hf, -, hbest⟩
    · obtain ⟨q, hq⟩ := List.exists_mem_of_ne_nil qs hne
      exact absurd ((hthree q hq).trans (hle q hq)) (by decide)
    · have hq3 := hthree q hq
      obtain ⟨-, hwin, -⟩ := hcand q hq
      rw [hf, if_neg (not_lt.mpr hq3)] at hfold
      rw [mfFindBody_some hfold (by omega)]
      have hd : s.ipos.toNat - q < 2 ^ 32 := by have := win_le s; omega
      exact ⟨q, hq, rfl, (BitVec.toNat_ofNat _ 32).trans (Nat.mod_eq_of_lt hd), toNat_tokLen ((common_le _ _ _).trans hmax), hbest⟩

end Sys2Proof.Machine
end

section
/-! SUPPORT. The estimator commands (R260-R262): what `Update` leaves in every estimator, and the words of which a field that the format
fixes at 0 is not 0. -/

namespace Sys2Proof.Machine

open Sys2Proof.Claims

/-! ### A field fixed at 0 (R152, R156) -/

/-- A word that decodes has 0 in every field that its format's mask covers, the opcode apart. -/
theorem field_eq_zero_of_decodes {w : Word} {f : Format} {build : Word → Instr} {start len : Nat} {i : Instr}
    (hrow : rowOf (opcField w) = some (f, build)) (hmask : f.mask.extractLsb' start len = BitVec.allOnes len)
    (hopc : (0xFF000000#32).extractLsb' start len = 0#len) (h : decodeWord w = .ok i) : w.extractLsb' start len = 0 := by
  have hw : w &&& f.mask = w &&& 0xFF000000#32 := by
    obtain ⟨f', build', hrow', hfields, -⟩ := decodeWord_eq_ok.mp h
    cases hrow.symm.trans hrow'
    rw [(masked_iff_fieldsWord f w).mpr hfields, opcField_in_place]
  have hfield := congrArg (BitVec.extractLsb' start len) hw
  rwa [BitVec.extractLsb'_and, BitVec.extractLsb'_and, hmask, hopc, BitVec.and_allOnes, BitVec.and_zero] at hfield

/-- A word with a bit set in a field that its format fixes at 0 raises `ILLEGAL_CMD` (R156). -/
theorem runCommand_of_fixedField {w : Word} {s : State} {f : Format} {build : Word → Instr} (start len : Nat)
    (hrow : rowOf (opcField w) = some (f, build)) (hmask : f.mask.extractLsb' start len = BitVec.allOnes len)
    (hopc : (0xFF000000#32).extractLsb' start len = 0#len) (hw : w.extractLsb' start len ≠ 0) (hs : s.err = false) :
    runCommand w s = .next (faulted .illegalCmd w s) :=
  runCommand_of_illegal (fun _ hi => hw (field_eq_zero_of_decodes hrow hmask hopc hi)) hs

/-! ### The estimators -/

/-- `Update` adapts its own estimator only (R251). -/
theorem probAt_update (s : State) (c c' : Ctx) (b : Bool) :
    (s.update c b).probAt c' = if c' = c then adapt (s.probAt c) b else s.probAt c' :=
  probAt_setProb s c c' _

/-- Settles O24: `PM_UPDATE` is `Update`, whose new value is the rule's; both fields the format fixes are under its mask. -/
theorem pmUpdateAdaptsOneEstimator : Obligations.PmUpdateAdaptsOneEstimator := by
  refine ⟨fun s c b => ⟨s.update c b, rfl, rfl, ?_, fun c' hc => ?_⟩, fun s w hs hw hfield => ?_⟩
  · rw [probAt_update, if_pos rfl, adapt_toNat]
  · rw [probAt_update, if_neg hc]
  · have hrow : rowOf (opcField w) = rowOf 0x0A := congrArg rowOf hw
    rcases hfield with hfield | hfield
    · exact runCommand_of_fixedField 9 3 hrow (by decide) (by decide) hfield hs
    · exact runCommand_of_fixedField 0 8 hrow (by decide) (by decide) hfield hs

/-- Settles O23: `PM_RESET` clears the array to its fill, `PM_PREDICT` widens the estimator, and the bits after the opcode or under the
context are under the masks of their formats. -/
theorem pmResetAndPredict : Obligations.PmResetAndPredict := by
  intro s c
  refine ⟨⟨s.clearProb, rfl, rfl, fun c' => ?_⟩, ⟨{ s with result := (s.probAt c).setWidth 32 }, rfl, rfl, ?_⟩,
    fun hs w hw => ?_⟩
  · rw [probAt_clearProb]; rfl
  · exact BitVec.toNat_setWidth_of_le (by decide)
  · rcases hw with ⟨hw, hfield⟩ | ⟨hw, hfield⟩
    · have hrow : rowOf (opcField w) = rowOf 0x08 := congrArg rowOf hw
      exact runCommand_of_fixedField 0 24 hrow (by decide) (by decide) hfield hs
    · have hrow : rowOf (opcField w) = rowOf 0x09 := congrArg rowOf hw
      exact runCommand_of_fixedField 0 12 hrow (by decide) (by decide) hfield hs

end Sys2Proof.Machine
end

section
/-! SUPPORT. The encoding commands as runs of their bodies, and the bodies' arithmetic in natural numbers: when the pending bytes fit
below `OLIM`, what is written, and what one renormalisation leaves (R300-R304). -/

namespace Sys2Proof.Machine

open Sys2Proof.Claims

/-! ### A command as the run of its body -/

/-- From s command i is the run r: it completes as r does, and a fault that r raises is recorded (R502, R503). -/
structure Executes (i : Instr) (s : State) (r : Run State) : Prop where
  answer : ∃ loose, loose.err = s.err ∧ exec i s = .next (finish (encode i) s loose r)
  keeps_err : ∀ t, r = .ok t → t.err = s.err

namespace Executes

variable {i : Instr} {s t : State} {r : Run State} {k : Errcode}

theorem next (h : Executes i s r) (hr : r = .ok t) : exec i s = .next t := by
  obtain ⟨loose, -, hx⟩ := h.answer
  rw [hx, hr, finish]

theorem faults (h : Executes i s r) (hs : s.err = false) (hr : r = .error k) : Faults i s k := by
  obtain ⟨loose, hl, hx⟩ := h.answer
  rw [hr, finish, recordFault_of_clear (hl.trans hs)] at hx
  exact ⟨_, hx, rfl, rfl⟩

theorem runs_iff (h : Executes i s r) (hs : s.err = false) : Runs i s t ↔ r = .ok t := by
  refine ⟨fun ⟨hx, ht⟩ => ?_, fun hr => ⟨h.next hr, (h.keeps_err t hr).trans hs⟩⟩
  obtain ⟨loose, -, hf⟩ := h.answer
  exact finish_clear (Host.Outcome.next.inj (hf.symm.trans hx)) ht

theorem faults_iff (h : Executes i s r) (hs : s.err = false) : Faults i s k ↔ r = .error k := by
  refine ⟨fun ⟨t, hx, ht, hk⟩ => ?_, h.faults hs⟩
  cases hr : r with
  | ok u =>
    rw [h.next hr] at hx
    obtain rfl := Host.Outcome.next.inj hx
    exact absurd (ht.symm.trans ((h.keeps_err _ hr).trans hs)) nofun
  | error k' =>
    obtain ⟨u, hu, -, hk'⟩ := h.faults hs hr
    rw [hu] at hx
    cases hx
    rw [← hk, hk']

end Executes

theorem EncFrame.err {s t : State} (h : EncFrame s t) : t.err = s.err := (congrArg State.err h.1 :)

theorem EncFrame.mode {s t : State} (h : EncFrame s t) : t.mode = s.mode := (congrArg State.mode h.1 :)

theorem looseEncoder_err (cs : List Ctx) (s : State) : (drawn (looseEncoder (looseProbs cs s))).err = s.err :=
  (((Loosened.refl true s).probs cs).encoder (looseProbs_opos cs s)).drawn.err

theorem executes_encBit {s : State} (hm : s.mode = .enc) (c : Ctx) (b : Bool) :
    Executes (.encBit c b) s (encodeBit c b s) :=
  ⟨⟨_, looseEncoder_err [c] s, congrArg _ (inMode_of_eq hm _ _)⟩, fun _ ht => (encodeBit_frame ht).err⟩

theorem executes_encDirect {s : State} {n : BitVec 6} (hm : s.mode = .enc) (hk : encDirectOk n s.arg = true) :
    Executes (.encDirect n) s (encodeDirect s.arg n.toNat s) :=
  ⟨⟨_, looseEncoder_err [] s, congrArg _ ((inMode_of_eq hm _ _).trans (if_pos hk))⟩,
    fun _ ht => (encodeDirect_frame ht).1.err⟩

theorem executes_encTree {s : State} {c : Ctx} {n : BitVec 6} (hm : s.mode = .enc) (hk : encTreeOk c n s.arg = true) :
    Executes (.encTree c n) s (encodeTree c n.toNat s.arg s) :=
  ⟨⟨_, looseEncoder_err _ s, congrArg _ ((inMode_of_eq hm _ _).trans (if_pos hk))⟩,
    fun _ ht => (encodeTreeFrom_frame ht).err⟩

theorem executes_encRtree {s : State} {c : Ctx} {n : BitVec 6} (hm : s.mode = .enc) (hk : encTreeOk c n s.arg = true) :
    Executes (.encRtree c n) s (encodeRtree c n.toNat s.arg s) :=
  ⟨⟨_, looseEncoder_err _ s, congrArg _ ((inMode_of_eq hm _ _).trans (if_pos hk))⟩,
    fun _ ht => (encodeRtreeFrom_frame ht).err⟩

theorem shiftLows_frame {n : Nat} {s t : State} (h : shiftLows n s = .ok t) :
    EncFrame s t ∧ t.encRange = s.encRange ∧ t.prob = s.prob := by
  induction n generalizing s with
  | zero => cases h; exact ⟨.refl _, rfl, rfl⟩
  | succ n ih =>
    obtain ⟨u, hu, ht⟩ := run_bind_eq_ok.mp h
    obtain ⟨hf, -, hr, hp⟩ := shiftLow_frame hu
    obtain ⟨hf', hr', hp'⟩ := ih ht
    exact ⟨hf.trans hf', hr'.trans hr, hp'.trans hp⟩

theorem executes_encFlush {s : State} (hm : s.mode = .enc) : Executes .encFlush s (encFlushBody s) := by
  refine ⟨⟨_, ?_, congrArg _ (inMode_of_eq hm _ _)⟩, fun t ht => ?_⟩
  · exact ((Loosened.refl true s).obuf rfl).encLow.pending.opos.drawn.err
  · obtain ⟨u, hu, ht⟩ := run_bind_eq_ok.mp ht
    cases ht
    exact (shiftLows_frame hu).1.err

/-! ### The pending bytes (R301, R304) -/

theorem outByte_of_full {b : Byte} {s : State} (h : s.olim.toNat ≤ s.opos.toNat) : outByte b s = .error .outLimit :=
  if_pos (BitVec.le_def.mpr h)

/-- Bytes that do not all fit below `OLIM` raise `OUT_LIMIT` (R304). -/
theorem emitPending_of_no_room {n : Nat} (temp carry : Byte) {s : State} (hn : n ≠ 0)
    (h : s.olim.toNat < s.opos.toNat + n) : emitPending n temp carry s = .error .outLimit := by
  induction n generalizing temp s with
  | zero => exact absurd rfl hn
  | succ n ih =>
    rw [emitPending]
    by_cases hlt : s.opos.toNat < s.olim.toNat
    · have hu := (outByte_eq_ok (b := temp + carry)).mpr ⟨hlt, rfl⟩
      rw [hu, run_bind_ok]
      refine ih _ (by omega) ?_
      rw [(outByte_frame hu).2.1]
      show s.olim.toNat < _
      omega
    · rw [outByte_of_full (by omega), run_bind_error]

/-- The bytes written: `temp` first, then 0xFF, each plus the carry (R301). -/
theorem emitPending_bytes {n : Nat} {temp carry : Byte} {s t : State} (h : emitPending n temp carry s = .ok t) (j : Nat)
    (hj : j < n) : t.obufByte (s.opos.toNat + j) = (if j = 0 then temp else 0xFF#8) + carry := by
  induction n generalizing temp s j with
  | zero => omega
  | succ n ih =>
    obtain ⟨u, hu, ht⟩ := run_bind_eq_ok.mp h
    have hpos := (outByte_frame hu).2.1
    cases j with
    | zero =>
      obtain ⟨-, -, hkeep⟩ := (emitPending_frame ht).1
      rw [Nat.add_zero, hkeep _ (by omega)]
      obtain ⟨-, rfl⟩ := outByte_eq_ok.mp hu
      exact (obufByte_writeObuf s s.opos _ _).trans (if_pos rfl)
    | succ j =>
      have hb := ih ht j (by omega)
      rw [hpos, show s.opos.toNat + 1 + j = s.opos.toNat + (j + 1) by omega] at hb
      rw [hb, ite_self]
      rfl

/-! ### `ShiftLow` (R301) -/

/-- The pending bytes are decided when the top byte of low is not 0xFF, or the carry out of it is 1 (R301). -/
theorem carryDecided_iff (s : State) :
    carryDecided s = true ↔ s.encLow.toNat % 2 ^ 32 < 0xFF000000 ∨ 2 ^ 32 ≤ s.encLow.toNat := by
  have hlt := s.encLow.isLt
  have hbit : s.encLow.getLsbD 32 = true ↔ 2 ^ 32 ≤ s.encLow.toNat := by
    rw [BitVec.getLsbD, Nat.testBit_eq_decide_div_mod_eq, decide_eq_true_eq]
    omega
  rw [carryDecided, Bool.or_eq_true, decide_eq_true_eq, hbit, BitVec.lt_def, BitVec.toNat_setWidth]
  exact Iff.rfl

theorem carryByte_toNat (s : State) : (carryByte s).toNat = s.encLow.toNat / 2 ^ 32 := by
  have hlt := s.encLow.isLt
  have hbit : s.encLow.getLsbD 32 = decide (s.encLow.toNat / 2 ^ 32 % 2 = 1) := Nat.testBit_eq_decide_div_mod_eq
  rw [carryByte, hbit]
  split
  · next h =>
    rw [decide_eq_true_eq] at h
    show 1 = _
    omega
  · next h =>
    rw [decide_eq_true_eq] at h
    show 0 = _
    omega

/-- What `ShiftLow` does, in natural numbers (R301). -/
theorem shiftLow_shiftedOut {s t : State} (h : shiftLow s = .ok t) : ShiftedOut s.encLow.toNat s t := by
  refine ⟨by rw [(shiftLow_frame h).2.1]; exact shifted_low _, ?_⟩
  unfold shiftLow at h
  split at h
  · next hd =>
    rw [if_pos ((carryDecided_iff s).mp hd)]
    obtain ⟨u, hu, ht⟩ := run_bind_eq_ok.mp h
    cases ht
    obtain ⟨⟨-, -, hkeep⟩, hpos, -⟩ := emitPending_frame hu
    refine ⟨rfl, ?_, hpos, fun j hj => ?_, hkeep⟩
    · show (u.encLow.extractLsb' 24 8).toNat = _
      rw [(emitPending_keeps hu).1, BitVec.extractLsb'_toNat, Nat.shiftRight_eq_div_pow]
    · show (u.obufByte _).toNat = _
      rw [emitPending_bytes hu j hj, BitVec.toNat_add, carryByte_toNat]
      split <;> rfl
  · next hd =>
    rw [if_neg (mt (carryDecided_iff s).mpr hd)]
    cases h
    exact ⟨rfl, rfl, rfl, rfl⟩

/-- Pending bytes that are decided and do not fit raise `OUT_LIMIT` (R301, R304). -/
theorem shiftLow_of_no_room {s : State} (hd : carryDecided s = true) (hc : s.encCsize ≠ 0)
    (h : s.olim.toNat < s.opos.toNat + s.encCsize.toNat) : shiftLow s = .error .outLimit := by
  have hn : s.encCsize.toNat ≠ 0 := fun h0 => hc (BitVec.eq_of_toNat_eq h0)
  rw [shiftLow, if_pos hd, emitPending_of_no_room _ _ hn h, run_bind_error]

/-- A byte that stays pending, and no pending bytes at all, need no room (R301). -/
theorem shiftLow_of_fits {s : State} (h : carryDecided s = false ∨ s.encCsize = 0 ∨
    s.opos.toNat + s.encCsize.toNat ≤ s.olim.toNat) : ∃ t, shiftLow s = .ok t := by
  rcases h with hd | hc | hroom
  · exact ⟨dropTop s, by rw [shiftLow, hd]; rfl⟩
  · unfold shiftLow
    split
    · exact ⟨_, by rw [hc]; rfl⟩
    · exact ⟨_, rfl⟩
  · exact shiftLow_room hroom

end Sys2Proof.Machine
end

section
/-! SUPPORT. One renormalisation in natural numbers, and the two commands that code one bit: `ENC_BIT` and `ENC_DIRECT 1` (R300, R302,
R303). -/

namespace Sys2Proof.Machine

open Sys2Proof.Claims

/-! ### `NormalizeEnc` (R302) -/

theorem normalizeEnc_of_lt {s : State} (h : s.encRange.toNat < 2 ^ 24) :
    normalizeEnc s = shiftLow { s with encRange := s.encRange <<< 8 } := if_pos (BitVec.lt_def.mpr h)

theorem normalizeEnc_of_ge {s : State} (h : 2 ^ 24 ≤ s.encRange.toNat) : normalizeEnc s = .ok s :=
  if_neg (BitVec.not_lt.mpr h)

/-- What one renormalisation leaves, in natural numbers (R302). -/
theorem normalizeEnc_renormalised {s t : State} (h : normalizeEnc s = .ok t) :
    Renormalised s.encLow.toNat s.encRange.toNat s t := by
  unfold Renormalised
  split
  · next hlt =>
    rw [normalizeEnc_of_lt hlt] at h
    refine ⟨?_, shiftLow_shiftedOut (s := { s with encRange := s.encRange <<< 8 }) h⟩
    rw [(shiftLow_frame h).2.2.1]
    exact shifted_range (BitVec.lt_def.mpr hlt)
  · next hge =>
    rw [normalizeEnc_of_ge (by omega)] at h
    cases h
    exact ⟨rfl, rfl, rfl, rfl, rfl, rfl⟩

theorem carryDecided_eq_false {s : State} (h : 0xFF000000 ≤ s.encLow.toNat % 2 ^ 32 ∧ s.encLow.toNat < 2 ^ 32) :
    carryDecided s = false := by
  rw [← Bool.not_eq_true, carryDecided_iff]
  omega

/-- A renormalisation whose bytes fit completes (R302, R304). -/
theorem normalizeEnc_of_fits {s : State} (h : Fits s.encLow.toNat s.encRange.toNat s) : ∃ t, normalizeEnc s = .ok t := by
  by_cases hr : 2 ^ 24 ≤ s.encRange.toNat
  · exact ⟨s, normalizeEnc_of_ge hr⟩
  · rw [normalizeEnc_of_lt (by omega)]
    refine shiftLow_of_fits (s := { s with encRange := s.encRange <<< 8 }) ?_
    exact (h.resolve_left hr).imp_left fun hp => carryDecided_eq_false (s := { s with encRange := s.encRange <<< 8 }) hp

/-- A renormalisation whose bytes do not fit raises `OUT_LIMIT` (R302, R304). -/
theorem normalizeEnc_of_not_fits {s : State} (h : ¬ Fits s.encLow.toNat s.encRange.toNat s) :
    normalizeEnc s = .error .outLimit := by
  obtain ⟨hr, hd, hc, hroom⟩ : _ ∧ _ ∧ _ ∧ _ := by simpa only [Fits, not_or] using h
  rw [normalizeEnc_of_lt (by omega)]
  refine shiftLow_of_no_room (s := { s with encRange := s.encRange <<< 8 }) ?_ hc (by simpa using hroom)
  refine (carryDecided_iff _).mpr ?_
  show s.encLow.toNat % 2 ^ 32 < _ ∨ 2 ^ 32 ≤ s.encLow.toNat
  omega

/-! ### The narrowed interval (R300, R303) -/

/-- The product of R300 and R352 does not wrap, and is no more than the range. -/
theorem bound_toNat (range : Word) (p : Prob) :
    ((range >>> 11) * p.setWidth 32).toNat = split range p ∧ split range p ≤ range.toNat := by
  have hlt := range.isLt
  have hp : range.toNat / 2048 * p.toNat ≤ range.toNat / 2048 * 2048 := Nat.mul_le_mul_left _ p.isLt.le
  have hp' := p.isLt
  have hle : split range p ≤ range.toNat := hp.trans (Nat.div_mul_le_self _ _)
  refine ⟨?_, hle⟩
  have h2048 : range.toNat / 2 ^ 11 * p.toNat ≤ range.toNat := hle
  rw [split, BitVec.toNat_mul, BitVec.toNat_ushiftRight, BitVec.toNat_setWidth, Nat.shiftRight_eq_div_pow,
    Nat.mod_eq_of_lt (a := p.toNat) (by omega), Nat.mod_eq_of_lt (by omega)]

theorem narrow_low (c : Ctx) (b : Bool) (s : State) :
    (narrow c b s).encLow.toNat =
      if b then (s.encLow.toNat + split s.encRange (s.probAt c)) % 2 ^ 33 else s.encLow.toNat := by
  cases b with
  | false => rfl
  | true =>
    show (s.encLow + (encBound c s).setWidth 33).toNat = _
    rw [BitVec.toNat_add, BitVec.toNat_setWidth_of_le (by decide), encBound, (bound_toNat _ _).1]
    rfl

theorem narrow_range (c : Ctx) (b : Bool) (s : State) :
    (narrow c b s).encRange.toNat =
      if b then s.encRange.toNat - split s.encRange (s.probAt c) else split s.encRange (s.probAt c) := by
  obtain ⟨hbound, hle⟩ := bound_toNat s.encRange (s.probAt c)
  cases b with
  | false => exact hbound
  | true =>
    show (s.encRange - encBound c s).toNat = s.encRange.toNat - _
    rw [encBound, BitVec.toNat_sub_of_le (BitVec.le_def.mpr (hbound ▸ hle)), hbound]

theorem half_toNat (range : Word) : (range >>> 1).toNat = range.toNat / 2 := by
  rw [BitVec.toNat_ushiftRight, Nat.shiftRight_eq_div_pow, pow_one]

theorem narrowDirect_low (b : Bool) (s : State) :
    (narrowDirect b s).encLow.toNat = (s.encLow.toNat + bit b * (s.encRange.toNat / 2)) % 2 ^ 33 := by
  have hlt := s.encLow.isLt
  cases b with
  | false =>
    show s.encLow.toNat = _
    rw [bit, if_neg nofun, Nat.zero_mul, Nat.add_zero, Nat.mod_eq_of_lt hlt]
  | true =>
    show (s.encLow + (s.encRange >>> 1).setWidth 33).toNat = _
    rw [BitVec.toNat_add, BitVec.toNat_setWidth_of_le (by decide), half_toNat, bit, if_pos rfl, Nat.one_mul]

theorem narrowDirect_range (b : Bool) (s : State) : (narrowDirect b s).encRange.toNat = s.encRange.toNat / 2 := by
  cases b <;> exact half_toNat s.encRange

/-- The narrowing of a bit leaves the output side. -/
theorem narrow_output (c : Ctx) (b : Bool) (s : State) (low range : Nat) :
    (Fits low range ((narrow c b s).update c b) ↔ Fits low range s) ∧
      ∀ t, Renormalised low range ((narrow c b s).update c b) t ↔ Renormalised low range s t := by
  cases b <;> exact ⟨Iff.rfl, fun _ => Iff.rfl⟩

theorem narrowDirect_output (b : Bool) (s : State) (low range : Nat) :
    (Fits low range (narrowDirect b s) ↔ Fits low range s) ∧
      ∀ t, Renormalised low range (narrowDirect b s) t ↔ Renormalised low range s t := by
  cases b <;> exact ⟨Iff.rfl, fun _ => Iff.rfl⟩

/-! ### One bit (R300, R303) -/

section OneBit

variable {s t : State} {c : Ctx} {b : Bool}

theorem encodeBit_renormalised (h : encodeBit c b s = .ok t) :
    Renormalised (narrow c b s).encLow.toNat (narrow c b s).encRange.toNat s t :=
  ((narrow_output c b s _ _).2 t).mp (normalizeEnc_renormalised (s := (narrow c b s).update c b) h)

theorem encodeBit_of_fits (h : Fits (narrow c b s).encLow.toNat (narrow c b s).encRange.toNat s) :
    ∃ t, encodeBit c b s = .ok t :=
  normalizeEnc_of_fits (s := (narrow c b s).update c b) ((narrow_output c b s _ _).1.mpr h)

theorem encodeBit_of_not_fits (h : ¬ Fits (narrow c b s).encLow.toNat (narrow c b s).encRange.toNat s) :
    encodeBit c b s = .error .outLimit :=
  normalizeEnc_of_not_fits (s := (narrow c b s).update c b) (mt (narrow_output c b s _ _).1.mp h)

/-- One bit of `EncodeDirect` (R303). -/
def encodeDirectBit (b : Bool) (s : State) : Run State := normalizeEnc (narrowDirect b s)

theorem encodeDirectBit_renormalised (h : encodeDirectBit b s = .ok t) :
    Renormalised (narrowDirect b s).encLow.toNat (narrowDirect b s).encRange.toNat s t :=
  ((narrowDirect_output b s _ _).2 t).mp (normalizeEnc_renormalised h)

theorem encodeDirectBit_of_fits (h : Fits (narrowDirect b s).encLow.toNat (narrowDirect b s).encRange.toNat s) :
    ∃ t, encodeDirectBit b s = .ok t :=
  normalizeEnc_of_fits ((narrowDirect_output b s _ _).1.mpr h)

theorem encodeDirectBit_of_not_fits (h : ¬ Fits (narrowDirect b s).encLow.toNat (narrowDirect b s).encRange.toNat s) :
    encodeDirectBit b s = .error .outLimit :=
  normalizeEnc_of_not_fits (mt (narrowDirect_output b s _ _).1.mp h)

end OneBit

/-- Settles O26: the body is one renormalisation of the narrowed interval, and `Update` moves its own estimator. -/
theorem encBitNarrowsAndRenormalises : Obligations.EncBitNarrowsAndRenormalises := by
  rintro s c b _ low range hm rfl hl hr hf
  rw [← narrow_low] at hl
  rw [← narrow_range] at hr
  subst hl hr
  obtain ⟨t, ht⟩ := encodeBit_of_fits hf
  refine ⟨t, (executes_encBit hm c b).next ht, (encodeBit_frame ht).1, encodeBit_renormalised ht, ?_, fun c' hc => ?_⟩
  · rw [encodeBit_probAt ht, if_pos rfl, adapt_toNat]
  · rw [encodeBit_probAt ht, if_neg hc]

/-! ### Direct bits (R303) -/

theorem encDirectOk_one {v : Word} (h : v.toNat ≤ 1) : encDirectOk 1 v = true := by
  have hlt : v.toNat < 2 := by omega
  simpa [encDirectOk, directCountOk, argFits] using hlt

/-- `ENC_DIRECT 1` codes bit 0 of `ARG` (R303). -/
theorem executes_encDirect_one {s : State} (hm : s.mode = .enc) (h : s.arg.toNat ≤ 1) :
    Executes (.encDirect 1) s (encodeDirectBit (s.arg.getLsbD 0) s) := by
  have hx := executes_encDirect hm (encDirectOk_one h)
  have hb : encodeDirect s.arg (1 : BitVec 6).toNat s = encodeDirectBit (s.arg.getLsbD 0) s := by
    show (encodeDirectBit (s.arg.getLsbD 0) s).bind (encodeDirect s.arg 0) = _
    cases encodeDirectBit (s.arg.getLsbD 0) s <;> rfl
  rwa [hb] at hx

theorem bit_testBit (v n : Nat) : bit (v.testBit n) = v / 2 ^ n % 2 := by
  rw [← Nat.toNat_testBit]
  cases v.testBit n <;> rfl

theorem bit_getLsbD_zero {v : Word} (h : v.toNat ≤ 1) : bit (v.getLsbD 0) = v.toNat := by
  rw [BitVec.getLsbD, bit_testBit, Nat.pow_zero, Nat.div_one, Nat.mod_eq_of_lt (by omega)]


end Sys2Proof.Machine
end

section
/-! SUPPORT. `ENC_DIRECT n` as its top bit and the bits below it (R303, R312): the coder does not read `ARG`, and the room for n bytes is
enough for n bits. -/

namespace Sys2Proof.Machine

open Sys2Proof.Claims

/-! ### The coder does not read `ARG` (R38) -/

/-- The state with another word in `ARG`. -/
def State.withArg (s : State) (a : Word) : State := { s with arg := a }

/-- The run with another word in `ARG` of the state it completes in. -/
def runWithArg (a : Word) (r : Run State) : Run State := r.map (State.withArg · a)

@[simp] theorem runWithArg_ok (a : Word) (s : State) : runWithArg a (.ok s) = .ok (s.withArg a) := rfl

@[simp] theorem runWithArg_error (a : Word) (k : Errcode) : runWithArg a (.error k) = .error k := rfl

/-- A sequence of two parts that both do not read `ARG` does not read it. -/
theorem runWithArg_bind {a : Word} {x : Run State} {f : State → Run State} (hf : ∀ s, f (s.withArg a) = runWithArg a (f s)) :
    (runWithArg a x).bind f = runWithArg a (x.bind f) := by
  cases x with
  | ok s => exact hf s
  | error k => rfl

theorem outByte_withArg (b : Byte) (s : State) (a : Word) : outByte b (s.withArg a) = runWithArg a (outByte b s) := by
  unfold outByte
  rw [show (s.withArg a).olim = s.olim from rfl, show (s.withArg a).opos = s.opos from rfl]
  split <;> rfl

theorem emitPending_withArg (n : Nat) (temp carry : Byte) (s : State) (a : Word) :
    emitPending n temp carry (s.withArg a) = runWithArg a (emitPending n temp carry s) := by
  induction n generalizing temp s with
  | zero => rfl
  | succ n ih =>
    rw [emitPending, emitPending, outByte_withArg]
    exact runWithArg_bind (ih _)

theorem shiftLow_withArg (s : State) (a : Word) : shiftLow (s.withArg a) = runWithArg a (shiftLow s) := by
  unfold shiftLow
  rw [show carryDecided (s.withArg a) = carryDecided s from rfl]
  split
  · rw [show (s.withArg a).encCsize = s.encCsize from rfl, emitPending_withArg]
    exact runWithArg_bind fun _ => rfl
  · rfl

theorem normalizeEnc_withArg (s : State) (a : Word) : normalizeEnc (s.withArg a) = runWithArg a (normalizeEnc s) := by
  unfold normalizeEnc
  rw [show (s.withArg a).encRange = s.encRange from rfl]
  split
  · exact shiftLow_withArg { s with encRange := s.encRange <<< 8 } a
  · rfl

theorem encodeDirectBit_withArg (b : Bool) (s : State) (a : Word) :
    encodeDirectBit b (s.withArg a) = runWithArg a (encodeDirectBit b s) := by
  have hn : narrowDirect b (s.withArg a) = (narrowDirect b s).withArg a := by cases b <;> rfl
  rw [encodeDirectBit, hn, normalizeEnc_withArg]
  rfl

theorem encodeDirect_succ (v : Word) (n : Nat) (s : State) :
    encodeDirect v (n + 1) s = (encodeDirectBit (v.getLsbD n) s).bind (encodeDirect v n) := rfl

theorem encodeDirect_withArg (v : Word) (n : Nat) (s : State) (a : Word) :
    encodeDirect v n (s.withArg a) = runWithArg a (encodeDirect v n s) := by
  induction n generalizing s with
  | zero => rfl
  | succ n ih =>
    rw [encodeDirect_succ, encodeDirect_succ, encodeDirectBit_withArg]
    exact runWithArg_bind ih

/-! ### The top bit and the rest -/

/-- `EncodeDirect` reads the n low bits of its word only. -/
theorem encodeDirect_congr {v w : Word} {n : Nat} (h : ∀ i, i < n → v.getLsbD i = w.getLsbD i) (s : State) :
    encodeDirect v n s = encodeDirect w n s := by
  induction n generalizing s with
  | zero => rfl
  | succ n ih =>
    rw [encodeDirect_succ, encodeDirect_succ, h n (by omega)]
    exact congrArg _ (funext (ih fun i hi => h i (by omega)))

/-- The top bit of a word of k + 1 bits, as a word of its own. -/
def topBit (v : Word) (k : Nat) : Word := BitVec.ofNat 32 (v.toNat / 2 ^ k)

/-- The k low bits of a word, as a word of their own. -/
def lowBits (v : Word) (k : Nat) : Word := BitVec.ofNat 32 (v.toNat % 2 ^ k)

theorem topBit_toNat (v : Word) (k : Nat) : (topBit v k).toNat = v.toNat / 2 ^ k :=
  Nat.mod_eq_of_lt ((Nat.div_le_self _ _).trans_lt v.isLt)

theorem lowBits_toNat (v : Word) (k : Nat) : (lowBits v k).toNat = v.toNat % 2 ^ k :=
  Nat.mod_eq_of_lt ((Nat.mod_le _ _).trans_lt v.isLt)

theorem topBit_le_one {v : Word} {k : Nat} (h : v.toNat < 2 ^ (k + 1)) : (topBit v k).toNat ≤ 1 := by
  rw [topBit_toNat]
  exact Nat.le_of_lt_succ (Nat.div_lt_of_lt_mul (by rwa [← Nat.pow_succ]))

theorem getLsbD_topBit (v : Word) (k : Nat) : (topBit v k).getLsbD 0 = v.getLsbD k := by
  rw [BitVec.getLsbD, topBit_toNat, Nat.testBit_div_two_pow, Nat.zero_add]
  rfl

theorem getLsbD_lowBits (v : Word) {k i : Nat} (h : i < k) : (lowBits v k).getLsbD i = v.getLsbD i := by
  rw [BitVec.getLsbD, lowBits_toNat, Nat.testBit_mod_two_pow, decide_eq_true h, Bool.true_and]
  rfl

/-- Coding k + 1 bits is coding the top bit and then the rest, each from an `ARG` of its own (R303). -/
theorem encodeDirect_split (v : Word) (k : Nat) (s : State) :
    encodeDirect v (k + 1) s =
      runWithArg s.arg ((encodeDirectBit (v.getLsbD k) (s.withArg (topBit v k))).bind fun u =>
        encodeDirect (lowBits v k) k (u.withArg (lowBits v k))) := by
  rw [show encodeDirect v (k + 1) s = runWithArg s.arg (encodeDirect v (k + 1) s) from encodeDirect_withArg v _ s s.arg,
    encodeDirectBit_withArg, encodeDirect_succ]
  cases encodeDirectBit (v.getLsbD k) s with
  | error e => rfl
  | ok u =>
    rw [runWithArg_ok, run_bind_ok, run_bind_ok, ← encodeDirect_withArg, ← encodeDirect_withArg]
    exact encodeDirect_congr (fun i hi => (getLsbD_lowBits v hi).symm) _

/-! ### Room for n bytes is room for n bits (R301) -/

/-- A call of `ShiftLow` adds at most 1 to `OPOS + ENC_CSIZE` (R301). -/
theorem shiftLow_room_left {k : Nat} {s t : State} (h : shiftLow s = .ok t) (hk : Room (k + 1) s) : Room k t := by
  have hl := (shiftLow_frame h).1.olim
  unfold Room at *
  have ho := (shiftLow_shiftedOut h).2
  split at ho
  · obtain ⟨hc, -, hp, -⟩ := ho
    rw [hc, hl, show (1 : Pos).toNat = 1 from rfl]
    omega
  · obtain ⟨hc, -, hp, -⟩ := ho
    have hle : (s.encCsize + 1).toNat ≤ s.encCsize.toNat + 1 := Nat.mod_le _ _
    rw [hc, hl, hp]
    omega

theorem normalizeEnc_of_room {k : Nat} {s : State} (h : Room (k + 1) s) : ∃ t, normalizeEnc s = .ok t ∧ Room k t := by
  have hroom : s.opos.toNat + s.encCsize.toNat ≤ s.olim.toNat := by unfold Room at h; omega
  obtain ⟨t, ht⟩ := normalizeEnc_room hroom
  refine ⟨t, ht, ?_⟩
  unfold normalizeEnc at ht
  split at ht
  · exact shiftLow_room_left ht h
  · cases ht
    unfold Room at *
    omega

theorem encodeBit_of_room {k : Nat} {s : State} (c : Ctx) (b : Bool) (h : Room (k + 1) s) :
    ∃ t, encodeBit c b s = .ok t ∧ Room k t :=
  normalizeEnc_of_room (s := (narrow c b s).update c b) (by cases b <;> exact h)

theorem encodeDirectBit_of_room {k : Nat} {s : State} (b : Bool) (h : Room (k + 1) s) :
    ∃ t, encodeDirectBit b s = .ok t ∧ Room k t :=
  normalizeEnc_of_room (s := narrowDirect b s) (by cases b <;> exact h)

theorem encodeDirect_of_room (v : Word) {n : Nat} {s : State} (h : Room n s) : ∃ t, encodeDirect v n s = .ok t := by
  induction n generalizing s with
  | zero => exact ⟨s, rfl⟩
  | succ n ih =>
    obtain ⟨u, hu, hr⟩ := encodeDirectBit_of_room (v.getLsbD n) h
    obtain ⟨t, ht⟩ := ih hr
    exact ⟨t, run_bind_eq_ok.mpr ⟨u, hu, ht⟩⟩

/-! ### `ENC_DIRECT n` -/

theorem encDirectOk_of_lt {n : BitVec 6} {v : Word} (h1 : 1 ≤ n.toNat) (h32 : n.toNat ≤ 32) (hv : v.toNat < 2 ^ n.toNat) :
    encDirectOk n v = true := by
  rw [encDirectOk, directCountOk, argFits, decide_eq_true ⟨h1, h32⟩, decide_eq_true hv]
  rfl

/-- `ENC_DIRECT 1` of the top bit of k + 1 (R303). -/
theorem executes_topBit {s : State} {v : Word} {k : Nat} (hm : s.mode = .enc) (hv : v.toNat < 2 ^ (k + 1)) :
    Executes (.encDirect 1) (s.withArg (topBit v k)) (encodeDirectBit (v.getLsbD k) (s.withArg (topBit v k))) := by
  rw [← getLsbD_topBit]
  exact executes_encDirect_one (s := s.withArg (topBit v k)) hm (topBit_le_one hv)

/-- `ENC_DIRECT` of the k low bits, after the top one (R303). -/
theorem executes_lowBits {u : State} {v : Word} {k : Nat} (hm : u.mode = .enc) (h1 : 1 ≤ k) (h31 : k ≤ 31) :
    Executes (.encDirect (BitVec.ofNat 6 k)) (u.withArg (lowBits v k))
      (encodeDirect (lowBits v k) k (u.withArg (lowBits v k))) := by
  have hk : (BitVec.ofNat 6 k).toNat = k := Nat.mod_eq_of_lt (by omega)
  have hv : (lowBits v k).toNat < 2 ^ k := by rw [lowBits_toNat]; exact Nat.mod_lt _ (Nat.two_pow_pos k)
  have hx := executes_encDirect (s := u.withArg (lowBits v k)) (n := BitVec.ofNat 6 k) hm
    (encDirectOk_of_lt (by omega) (by omega) (by rw [hk]; exact hv))
  rwa [hk] at hx

/-- Settles O27: one bit is a renormalisation of the halved interval, and more bits are `encodeDirect_split`. -/
theorem encDirectIsMostSignificantFirst : Obligations.EncDirectIsMostSignificantFirst := by
  constructor
  · intro s low range hm harg hl hr hf
    rw [← bit_getLsbD_zero harg, ← narrowDirect_low] at hl
    rw [← narrowDirect_range (s.arg.getLsbD 0)] at hr
    subst hl hr
    obtain ⟨t, ht⟩ := encodeDirectBit_of_fits hf
    have hx := executes_encDirect_one hm harg
    rw [ht] at hx
    obtain ⟨hframe, -⟩ := (narrowDirect_frame _ s).trans (normalizeEnc_frame ht).1
    refine ⟨t, hx.next rfl, ?_, encodeDirectBit_renormalised ht⟩
    exact hframe.trans (by rw [encodeDirectBit_prob ht])
  · rintro s _ n k hm hs hn h1 h31 harg rfl
    have htop := executes_topBit hm harg
    have hall := executes_encDirect (n := n) hm (encDirectOk_of_lt (by omega) (by omega) (by rwa [hn]))
    rw [hn, encodeDirect_split] at hall
    have hrest {u : State} (hu : encodeDirectBit (s.arg.getLsbD k) (s.withArg (topBit s.arg k)) = .ok u) :=
      executes_lowBits (v := s.arg) ((encodeDirectBit_emits hu).1.mode.trans hm) h1 h31
    have hruns {u v : State} (hu : Runs (.encDirect 1) (s.withArg (topBit s.arg k)) u)
        (hv : Runs (.encDirect (BitVec.ofNat 6 k)) (u.withArg (lowBits s.arg k)) v) :
        exec (.encDirect n) s = .next (v.withArg s.arg) := by
      have hu' := (htop.runs_iff hs).mp hu
      refine hall.next ?_
      rw [hu', run_bind_ok, ((hrest hu').runs_iff hu.2).mp hv, runWithArg_ok]
    refine ⟨fun hroom => ?_, fun u v hu hv => hruns hu hv, fun e he => ?_, fun u e hu he => ?_⟩
    · obtain ⟨u, hu', hroom'⟩ := encodeDirectBit_of_room (s := s.withArg (topBit s.arg k)) (s.arg.getLsbD k) hroom
      have hu := (htop.runs_iff hs).mpr hu'
      obtain ⟨v, hv'⟩ := encodeDirect_of_room (lowBits s.arg k) (s := u.withArg (lowBits s.arg k)) hroom'
      have hv := ((hrest hu').runs_iff hu.2).mpr hv'
      exact ⟨u, v, hu, hv, hruns hu hv⟩
    · refine hall.faults hs ?_
      rw [(htop.faults_iff hs).mp he, run_bind_error, runWithArg_error]
    · have hu' := (htop.runs_iff hs).mp hu
      refine hall.faults hs ?_
      rw [hu', run_bind_ok, ((hrest hu').faults_iff hu.2).mp he, runWithArg_error]

end Sys2Proof.Machine
end

section
/-! SUPPORT. A list of bits coded in order (`encodeBits`): what a sequence of `ENC_BIT` commands is, and what both trees are (R305, R306). -/

namespace Sys2Proof.Machine

open Sys2Proof.Claims

/-! ### A list of bits -/

/-- The bits of a list coded in order, each with its estimator. -/
def encodeBits : List (Ctx × Bool) → State → Run State
  | [], s => .ok s
  | (c, b) :: rest, s => (encodeBit c b s).bind (encodeBits rest)

theorem encodeBits_cons (c : Ctx) (b : Bool) (rest : List (Ctx × Bool)) (s : State) :
    encodeBits ((c, b) :: rest) s = (encodeBit c b s).bind (encodeBits rest) := rfl

theorem encodeBits_frame {l : List (Ctx × Bool)} {s t : State} (h : encodeBits l s = .ok t) : EncFrame s t := by
  induction l generalizing s with
  | nil => cases h; exact .refl _
  | cons x rest ih =>
    obtain ⟨u, hu, ht⟩ := run_bind_eq_ok.mp h
    exact (encodeBit_frame hu).trans (ih ht)

/-- Coded bits leave every estimator but their own (R252). -/
theorem encodeBits_probAt {l : List (Ctx × Bool)} {s t : State} (h : encodeBits l s = .ok t) {c : Ctx}
    (hc : c ∉ l.map Prod.fst) : t.probAt c = s.probAt c := by
  induction l generalizing s with
  | nil => cases h; rfl
  | cons x rest ih =>
    obtain ⟨hne, hrest⟩ : c ≠ x.1 ∧ c ∉ rest.map Prod.fst := by simpa using hc
    obtain ⟨u, hu, ht⟩ := run_bind_eq_ok.mp h
    rw [ih ht hrest, encodeBit_probAt hu, if_neg hne]

theorem encodeBits_of_room {l : List (Ctx × Bool)} {s : State} (h : Room l.length s) : ∃ t, encodeBits l s = .ok t := by
  induction l generalizing s with
  | nil => exact ⟨s, rfl⟩
  | cons x rest ih =>
    obtain ⟨u, hu, hr⟩ := encodeBit_of_room x.1 x.2 h
    obtain ⟨t, ht⟩ := ih hr
    exact ⟨t, run_bind_eq_ok.mpr ⟨u, hu, ht⟩⟩

/-! ### The list as commands -/

theorem runs_encBit_iff {s t : State} (hm : s.mode = .enc) (hs : s.err = false) (c : Ctx) (b : Bool) :
    Runs (.encBit c b) s t ↔ encodeBit c b s = .ok t := (executes_encBit hm c b).runs_iff hs

theorem faults_encBit_iff {s : State} {k : Errcode} (hm : s.mode = .enc) (hs : s.err = false) (c : Ctx) (b : Bool) :
    Faults (.encBit c b) s k ↔ encodeBit c b s = .error k := (executes_encBit hm c b).faults_iff hs

/-- The commands complete exactly as the list is coded. -/
theorem encodesBits_iff {l : List (Ctx × Bool)} {s t : State} (hm : s.mode = .enc) (hs : s.err = false) :
    EncodesBits l s t ↔ encodeBits l s = .ok t := by
  induction l generalizing s with
  | nil => exact ⟨fun h => h ▸ rfl, fun h => by cases h; rfl⟩
  | cons x rest ih =>
    refine Iff.trans ?_ run_bind_eq_ok.symm
    refine exists_congr fun u => (and_congr_left' (runs_encBit_iff hm hs x.1 x.2)).trans (and_congr_right fun hu => ?_)
    have hf := encodeBit_frame hu
    exact ih (hf.mode.trans hm) (hf.err.trans hs)

/-- The first command records the fault, or it completes and one of the rest records it. -/
theorem bitsFault_cons {c : Ctx} {b : Bool} {rest : List (Ctx × Bool)} {s : State} {k : Errcode} :
    BitsFault ((c, b) :: rest) s k ↔
      Faults (.encBit c b) s k ∨ ∃ u, Runs (.encBit c b) s u ∧ BitsFault rest u k := by
  constructor
  · rintro ⟨j, c', b', u, hj, hrun, hk⟩
    cases j with
    | zero =>
      cases hj
      cases hrun
      exact .inl hk
    | succ j =>
      obtain ⟨v, hv, hrun⟩ := hrun
      exact .inr ⟨v, hv, j, c', b', u, hj, hrun, hk⟩
  · rintro (hk | ⟨v, hv, j, c', b', u, hj, hrun, hk⟩)
    · exact ⟨0, c, b, s, rfl, rfl, hk⟩
    · exact ⟨j + 1, c', b', u, hj, ⟨v, hv, hrun⟩, hk⟩

/-- The commands record the fault that coding the list raises. -/
theorem bitsFault_iff {l : List (Ctx × Bool)} {s : State} {k : Errcode} (hm : s.mode = .enc) (hs : s.err = false) :
    BitsFault l s k ↔ encodeBits l s = .error k := by
  induction l generalizing s with
  | nil =>
    refine ⟨?_, nofun⟩
    rintro ⟨j, c, b, u, hj, -⟩
    cases hj
  | cons x rest ih =>
    rw [bitsFault_cons, encodeBits_cons, run_bind_eq_error, faults_encBit_iff hm hs]
    refine or_congr_right (exists_congr fun u => ?_)
    rw [runs_encBit_iff hm hs]
    refine and_congr_right fun hu => ?_
    have hf := encodeBit_frame hu
    exact ih (hf.mode.trans hm) (hf.err.trans hs)

/-! ### The bits of a symbol most significant first (R305) -/

/-- The bits of a symbol from node m down, n to go, each with its node. -/
def treeBitsFrom (base : Ctx) (sym : Nat) : Nat → Nat → List (Ctx × Bool)
  | 0, _ => []
  | n + 1, m => (node base m, sym.testBit n) :: treeBitsFrom base sym n (2 * m + bit (sym.testBit n))

theorem encodeTreeFrom_eq (base : Ctx) (sym : Word) (n m : Nat) :
    encodeTreeFrom base sym n m = encodeBits (treeBitsFrom base sym.toNat n m) := by
  induction n generalizing m with
  | zero => rfl
  | succ n ih =>
    funext s
    rw [encodeTreeFrom, ih]
    rfl

theorem treePath_eq (base : Ctx) (sym : Word) (n m : Nat) :
    treePath base sym n m = (treeBitsFrom base sym.toNat n m).map Prod.fst := by
  induction n generalizing m with
  | zero => rfl
  | succ n ih =>
    rw [treePath, ih]
    rfl

/-- The symbol's n + 1 low bits are bit n and the n bits below it. -/
theorem mod_two_pow_succ (sym n : Nat) : sym % 2 ^ (n + 1) = bit (sym.testBit n) * 2 ^ n + sym % 2 ^ n := by
  rw [bit_testBit, Nat.pow_succ, Nat.mod_mul, Nat.mul_comm, Nat.add_comm]

/-- After j of the bits the node is the bits so far below the node the descent started at. -/
theorem treeBitsFrom_eq (base : Ctx) (sym n m : Nat) :
    treeBitsFrom base sym n m =
      (List.range n).map fun j => (node base (m * 2 ^ j + sym % 2 ^ n / 2 ^ (n - j)), sym.testBit (n - 1 - j)) := by
  induction n generalizing m with
  | zero => rfl
  | succ n ih =>
    have hlt : sym % 2 ^ (n + 1) < 2 ^ (n + 1) := Nat.mod_lt _ (Nat.two_pow_pos _)
    rw [treeBitsFrom, ih, List.range_succ_eq_map, List.map_cons, List.map_map]
    refine congrArg₂ _ ?_ (List.map_congr_left fun j hj => ?_)
    · rw [Nat.pow_zero, Nat.mul_one, Nat.sub_zero, Nat.div_eq_of_lt hlt]
      rfl
    · have hjn : j < n := List.mem_range.mp hj
      have hpow : 2 ^ n = 2 ^ j * 2 ^ (n - j) := by rw [← Nat.pow_add, Nat.add_sub_cancel' hjn.le]
      have hnode : m * 2 ^ (j + 1) + sym % 2 ^ (n + 1) / 2 ^ (n + 1 - (j + 1)) =
          (2 * m + bit (sym.testBit n)) * 2 ^ j + sym % 2 ^ n / 2 ^ (n - j) := by
        rw [mod_two_pow_succ, Nat.succ_sub_succ, show bit (sym.testBit n) * 2 ^ n =
          bit (sym.testBit n) * 2 ^ j * 2 ^ (n - j) by rw [hpow, Nat.mul_assoc], Nat.add_comm (_ * 2 ^ (n - j)),
          Nat.add_mul_div_right _ _ (Nat.two_pow_pos _), Nat.pow_succ]
        ring
      show _ = (node base (m * 2 ^ (j + 1) + sym % 2 ^ (n + 1) / 2 ^ (n + 1 - (j + 1))), sym.testBit (n + 1 - 1 - (j + 1)))
      rw [hnode, show n + 1 - 1 - (j + 1) = n - 1 - j by omega]

/-- The statements' list of a symbol that fits is the descent from node 1. -/
theorem treeBits_eq (base : Ctx) {n sym : Nat} (h : sym < 2 ^ n) : treeBits base n sym = treeBitsFrom base sym n 1 := by
  rw [treeBitsFrom_eq, Nat.mod_eq_of_lt h]
  simp only [Nat.one_mul]
  rfl

theorem encodeTree_eq (base : Ctx) {n : Nat} {sym : Word} (h : sym.toNat < 2 ^ n) (s : State) :
    encodeTree base n sym s = encodeBits (treeBits base n sym.toNat) s := by
  rw [encodeTree, encodeTreeFrom_eq, treeBits_eq base h]

/-! ### The bits of a symbol least significant first (R306) -/

theorem rtreeBits_succ (base : Ctx) (sym : Word) (k i m : Nat) :
    rtreeBits base (sym.toNat / 2 ^ i) (k + 1) m =
      (node base m, sym.getLsbD i) ::
        rtreeBits base (sym.toNat / 2 ^ (i + 1)) k (2 * m + bit (sym.getLsbD i)) := by
  have hb : (sym.toNat / 2 ^ i).testBit 0 = sym.getLsbD i := by rw [Nat.testBit_div_two_pow, Nat.zero_add]; rfl
  rw [rtreeBits, ← hb, bit_testBit, Nat.pow_zero, Nat.div_one, Nat.div_div_eq_div_mul, ← Nat.pow_succ]
  rfl

theorem encodeRtreeFrom_eq (base : Ctx) (sym : Word) (k i m : Nat) :
    encodeRtreeFrom base sym k i m = encodeBits (rtreeBits base (sym.toNat / 2 ^ i) k m) := by
  induction k generalizing i m with
  | zero => rfl
  | succ k ih =>
    funext s
    rw [encodeRtreeFrom, ih, rtreeBits_succ]
    rfl

theorem rtreePath_eq (base : Ctx) (sym : Word) (k i m : Nat) :
    rtreePath base sym k i m = (rtreeBits base (sym.toNat / 2 ^ i) k m).map Prod.fst := by
  induction k generalizing i m with
  | zero => rfl
  | succ k ih =>
    rw [rtreePath, ih, rtreeBits_succ]
    rfl

theorem encodeRtree_eq (base : Ctx) (n : Nat) (sym : Word) (s : State) :
    encodeRtree base n sym s = encodeBits (rtreeBits base sym.toNat n 1) s := by
  rw [encodeRtree, encodeRtreeFrom_eq, Nat.pow_zero, Nat.div_one]

end Sys2Proof.Machine
end

section
/-! SUPPORT. The two tree commands as lists of `ENC_BIT` commands (R305, R306, R313, R314), and the estimator of the base, which no path
uses. -/

namespace Sys2Proof.Machine

open Sys2Proof.Claims

/-! ### The nodes of a path (R305, R306) -/

/-- The subtree of a child is in the subtree of its parent. -/
theorem mem_subtree_of_child {base c : Ctx} {n m : Nat} {b : Bool} (h : c ∈ subtree base n (2 * m + bit b)) :
    c ∈ subtree base (n + 1) m := by
  refine List.mem_cons_of_mem _ (List.mem_append.mpr ?_)
  cases b with
  | false => exact .inl h
  | true => exact .inr h

theorem treePath_sub_subtree {base : Ctx} {sym : Word} {n m : Nat} : ∀ c ∈ treePath base sym n m, c ∈ subtree base n m := by
  induction n generalizing m with
  | zero => exact fun _ h => h
  | succ n ih => exact List.forall_mem_cons.mpr ⟨List.mem_cons_self, fun c hc => mem_subtree_of_child (ih c hc)⟩

theorem rtreePath_sub_subtree {base : Ctx} {sym : Word} {k i m : Nat} :
    ∀ c ∈ rtreePath base sym k i m, c ∈ subtree base k m := by
  induction k generalizing i m with
  | zero => exact fun _ h => h
  | succ k ih => exact List.forall_mem_cons.mpr ⟨List.mem_cons_self, fun c hc => mem_subtree_of_child (ih c hc)⟩

/-- The nodes of a tree that lies in `PROB` are 1 to 2^n - 1, so none is at the base (R305). -/
theorem base_not_mem_subtree {base : Ctx} {n : Nat} (h : base.toNat + 2 ^ n ≤ 4096) : base ∉ subtree base n 1 := by
  rw [mem_subtree]
  rintro ⟨j, m, hj, hm, he⟩
  have hle : 2 ^ (j + 1) ≤ 2 ^ n := Nat.pow_le_pow_right (by omega) hj
  obtain ⟨hlo, hhi⟩ := (Nat.div_eq_iff (Nat.two_pow_pos j)).mp hm
  have hpos := Nat.two_pow_pos j
  have hnode := congrArg BitVec.toNat he
  rw [node, BitVec.toNat_add, BitVec.toNat_ofNat] at hnode
  rw [Nat.pow_succ] at hle
  omega

/-! ### The tree commands -/

theorem encTreeOk_of_lt {c : Ctx} {n : BitVec 6} {v : Word} (h1 : 1 ≤ n.toNat) (hc : c.toNat + 2 ^ n.toNat ≤ 4096)
    (hv : v.toNat < 2 ^ n.toNat) : encTreeOk c n v = true := by
  rw [encTreeOk, treeOk, argFits, decide_eq_true ⟨h1, hc⟩, decide_eq_true hv]
  rfl

/-- A command that codes a list of bits is these `ENC_BIT` commands: it leaves the state they leave, records the fault they record, and with
room for a byte for each bit it completes. -/
theorem executes_encodeBits {i : Instr} {l : List (Ctx × Bool)} {s : State} (h : Executes i s (encodeBits l s))
    (hm : s.mode = .enc) (hs : s.err = false) {c : Ctx} (hc : c ∉ l.map Prod.fst) :
    (Room l.length s → ∃ t, exec i s = .next t ∧ EncodesBits l s t) ∧
      (∀ t, EncodesBits l s t → exec i s = .next t ∧ t.probAt c = s.probAt c) ∧ ∀ k, BitsFault l s k → Faults i s k := by
  refine ⟨fun hroom => ?_, fun t ht => ?_, fun k hk => ?_⟩
  · obtain ⟨t, ht⟩ := encodeBits_of_room hroom
    exact ⟨t, h.next ht, (encodesBits_iff hm hs).mpr ht⟩
  · have ht := (encodesBits_iff hm hs).mp ht
    exact ⟨h.next ht, encodeBits_probAt ht hc⟩
  · exact h.faults hs ((bitsFault_iff hm hs).mp hk)

/-- Settles O28: `EncodeTree` codes the list of the statement, and the base is no node of the path. -/
theorem encTreeIsBitsDownTheTree : Obligations.EncTreeIsBitsDownTheTree := by
  intro s c n hm hs h1 hc harg
  have hx := executes_encTree hm (encTreeOk_of_lt h1 hc harg)
  rw [encodeTree_eq c harg] at hx
  have hbase : c ∉ (treeBits c n.toNat s.arg.toNat).map Prod.fst := by
    rw [treeBits_eq c harg, ← treePath_eq]
    exact fun h => base_not_mem_subtree hc (treePath_sub_subtree c h)
  have hlen : (treeBits c n.toNat s.arg.toNat).length = n.toNat := by simp [treeBits]
  have hbits := executes_encodeBits hx hm hs hbase
  rwa [hlen] at hbits

theorem length_rtreeBits (base : Ctx) (sym n m : Nat) : (rtreeBits base sym n m).length = n := by
  induction n generalizing sym m with
  | zero => rfl
  | succ n ih => rw [rtreeBits, List.length_cons, ih]

/-- Settles O29: the same of `EncodeRTree`. -/
theorem encRtreeIsBitsDownTheTree : Obligations.EncRtreeIsBitsDownTheTree := by
  intro s c n hm hs h1 hc harg
  have hx := executes_encRtree hm (encTreeOk_of_lt h1 hc harg)
  rw [encodeRtree_eq] at hx
  have hbase : c ∉ (rtreeBits c s.arg.toNat n.toNat 1).map Prod.fst := by
    have hpath := rtreePath_eq c s.arg n.toNat 0 1
    rw [Nat.pow_zero, Nat.div_one] at hpath
    rw [← hpath]
    exact fun h => base_not_mem_subtree hc (rtreePath_sub_subtree c h)
  have hbits := executes_encodeBits hx hm hs hbase
  rwa [length_rtreeBits] at hbits

end Sys2Proof.Machine
end

section
/-! SUPPORT. `ENC_FLUSH` (R320): the bytes written, the pending bytes and `ENC_LOW` as one number, which each `ShiftLow` moves up by one
byte (R301, R308). -/

namespace Sys2Proof.Machine

open Sys2Proof.Claims

/-! ### Bytes as a number (R105) -/

theorem bytesValue_congr {f g : Nat → Byte} {i n : Nat} (h : ∀ j, j < n → f (i + j) = g (i + j)) :
    bytesValue f i n = bytesValue g i n := by
  induction n with
  | zero => rfl
  | succ n ih => rw [bytesValue, bytesValue, ih fun j hj => h j (by omega), h n (by omega)]

theorem bytesValue_add (f : Nat → Byte) (i n m : Nat) :
    bytesValue f i (n + m) = bytesValue f i n * 256 ^ m + bytesValue f (i + n) m := by
  induction m with
  | zero => simp [bytesValue]
  | succ m ih => rw [← Nat.add_assoc, bytesValue, bytesValue, ih, Nat.pow_succ, Nat.add_assoc]; ring

/-- A byte and then n bytes 0xFF, each with the carry k added modulo 256, are their number with the carry added (R301). -/
theorem bytesValue_carried {f : Nat → Byte} {i n cache k : Nat} (hk : k ≤ 1)
    (h : ∀ j, j < n + 1 → (f (i + j)).toNat = ((if j = 0 then cache else 255) + k) % 256) :
    bytesValue f i (n + 1) = ((cache + 1) * 256 ^ n - 1 + k) % 256 ^ (n + 1) := by
  induction n with
  | zero =>
    rw [bytesValue, bytesValue, h 0 (by omega), if_pos rfl]
    simp
  | succ n ih =>
    rw [bytesValue, ih fun j hj => h j (by omega), h (n + 1) (by omega), if_neg (by omega)]
    have hpos : 0 < (cache + 1) * 256 ^ n := Nat.mul_pos (by omega) (Nat.pow_pos (by omega))
    have htop : (cache + 1) * 256 ^ (n + 1) = (cache + 1) * 256 ^ n * 256 := by rw [Nat.pow_succ, Nat.mul_assoc]
    have hmod : 256 ^ (n + 1 + 1) = 256 * 256 ^ (n + 1) := Nat.pow_succ'
    have hdigit : ((cache + 1) * 256 ^ n * 256 - 1 + k) / 256 = (cache + 1) * 256 ^ n - 1 + k := by omega
    rw [htop, hmod, Nat.mod_mul, hdigit]
    omega

/-! ### The number of the stream so far -/

/-- The bytes of `OBUF` from p to `OPOS` as a number. -/
def State.writtenValue (s : State) (p : Nat) : Nat := bytesValue s.obufByte p (s.opos.toNat - p)

/-- The bytes from p on, the pending bytes and `ENC_LOW` as one number. -/
def State.streamValue (s : State) (p : Nat) : Nat :=
  (s.writtenValue p * 256 ^ s.encCsize.toNat + pendingValue s) * 2 ^ 32 + s.encLow.toNat

theorem pendingValue_lt {s : State} (hc : 1 ≤ s.encCsize.toNat) : pendingValue s < 256 ^ s.encCsize.toNat := by
  have hcache : (s.encCache.toNat + 1) * 256 ^ (s.encCsize.toNat - 1) ≤ 256 * 256 ^ (s.encCsize.toNat - 1) :=
    Nat.mul_le_mul_right _ s.encCache.isLt
  have hpos : 0 < (s.encCache.toNat + 1) * 256 ^ (s.encCsize.toNat - 1) :=
    Nat.mul_pos (by omega) (Nat.pow_pos (by omega))
  rw [← Nat.pow_succ', Nat.succ_eq_add_one, Nat.sub_add_cancel hc] at hcache
  unfold pendingValue
  omega

theorem EncFrame.writtenValue {s t : State} (h : EncFrame s t) {p : Nat} (hp : p ≤ s.opos.toNat) :
    t.writtenValue p = s.writtenValue p * 256 ^ (t.opos.toNat - s.opos.toNat) +
      bytesValue t.obufByte s.opos.toNat (t.opos.toNat - s.opos.toNat) := by
  obtain ⟨-, hle, hkeep⟩ := h
  rw [State.writtenValue, show t.opos.toNat - p = (s.opos.toNat - p) + (t.opos.toNat - s.opos.toNat) by omega,
    bytesValue_add, Nat.add_sub_cancel' hp, bytesValue_congr fun j hj => hkeep (p + j) (by omega)]
  rfl

/-- `ShiftLow` moves the number up by one byte, and the carry into the pending bytes, out of which it may be lost (R301). -/
theorem shiftLow_streamValue {s t : State} (h : shiftLow s = .ok t) {p : Nat} (hp : p ≤ s.opos.toNat)
    (hc : 1 ≤ s.encCsize.toNat) (hw : s.encCsize.toNat + 1 < 2 ^ 64 ∨ s.encLow.toNat = 0) :
    (1 ≤ t.encCsize.toNat ∧ t.opos.toNat + t.encCsize.toNat = s.opos.toNat + s.encCsize.toNat + 1) ∧
      t.streamValue p = 256 * ((s.writtenValue p * 256 ^ s.encCsize.toNat +
        (pendingValue s + s.encLow.toNat / 2 ^ 32) % 256 ^ s.encCsize.toNat) * 2 ^ 32 + s.encLow.toNat % 2 ^ 32) := by
  have hlt := s.encLow.isLt
  have hwritten := (shiftLow_frame h).1.writtenValue hp
  obtain ⟨hlow, hout⟩ := shiftLow_shiftedOut h
  split at hout
  · obtain ⟨hcsize, hcache, hpos, hbytes, -⟩ := hout
    have hcsize : t.encCsize.toNat = 1 := by rw [hcsize]; rfl
    have hemit : bytesValue t.obufByte s.opos.toNat s.encCsize.toNat =
        (pendingValue s + s.encLow.toNat / 2 ^ 32) % 256 ^ s.encCsize.toNat := by
      obtain ⟨n, hn⟩ := Nat.exists_eq_add_of_le' hc
      rw [hn] at hbytes
      rw [pendingValue, hn]
      exact bytesValue_carried (by omega) hbytes
    have hpend : pendingValue t = s.encLow.toNat / 2 ^ 24 % 256 := by simp [pendingValue, hcsize, hcache]
    refine ⟨by omega, ?_⟩
    rw [hpos, Nat.add_sub_cancel_left, hemit] at hwritten
    rw [State.streamValue, hwritten, hpend, hcsize, hlow]
    omega
  · next hd =>
    obtain ⟨hcsize, hcache, hpos, -⟩ := hout
    have hcsize : t.encCsize.toNat = s.encCsize.toNat + 1 := by
      rw [hcsize]
      exact BitVec.toNat_add_of_lt (show s.encCsize.toNat + 1 < 2 ^ 64 by omega)
    have hpend : pendingValue t = 256 * pendingValue s + 255 := by
      have hpow : 256 ^ s.encCsize.toNat = 256 ^ (s.encCsize.toNat - 1) * 256 := by
        rw [← Nat.pow_succ, Nat.succ_eq_add_one, Nat.sub_add_cancel hc]
      have hpos : 0 < (s.encCache.toNat + 1) * 256 ^ (s.encCsize.toNat - 1) :=
        Nat.mul_pos (by omega) (Nat.pow_pos (by omega))
      rw [pendingValue, pendingValue, hcsize, hcache, Nat.add_sub_cancel, hpow, ← Nat.mul_assoc]
      omega
    have hcarry : (pendingValue s + s.encLow.toNat / 2 ^ 32) % 256 ^ s.encCsize.toNat = pendingValue s := by
      rw [show s.encLow.toNat / 2 ^ 32 = 0 by omega, Nat.add_zero, Nat.mod_eq_of_lt (pendingValue_lt hc)]
    refine ⟨by rw [hpos]; omega, ?_⟩
    rw [hpos, Nat.sub_self, Nat.pow_zero, Nat.mul_one] at hwritten
    rw [State.streamValue, hwritten, hpend, hcsize, hlow, hcarry, Nat.pow_succ, ← Nat.mul_assoc, bytesValue, Nat.add_zero]
    omega

/-! ### The five calls of the flush -/

/-- n calls of `ShiftLow` add n to `OPOS + ENC_CSIZE` (R301). -/
theorem shiftLows_count {n : Nat} {s t : State} (h : shiftLows n s = .ok t) (hw : s.encCsize.toNat + n < 2 ^ 64) :
    t.opos.toNat + t.encCsize.toNat = s.opos.toNat + s.encCsize.toNat + n := by
  induction n generalizing s with
  | zero => cases h; rfl
  | succ n ih =>
    obtain ⟨u, hu, ht⟩ := run_bind_eq_ok.mp h
    have hcount := shiftLow_count hu (by omega)
    have hpos := (shiftLow_frame hu).1.2.1
    have hcounts := ih ht (by omega)
    omega

/-- n + 1 calls of `ShiftLow` move the low 32 bits up by as many bytes (R301). -/
theorem shiftLows_low {n : Nat} {s t : State} (h : shiftLows (n + 1) s = .ok t) :
    t.encLow.toNat = s.encLow.toNat * 256 ^ (n + 1) % 2 ^ 32 := by
  induction n generalizing s with
  | zero =>
    obtain ⟨u, hu, ht⟩ := run_bind_eq_ok.mp h
    cases ht
    rw [(shiftLow_frame hu).2.1, shifted_low]
    omega
  | succ n ih =>
    obtain ⟨u, hu, ht⟩ := run_bind_eq_ok.mp h
    have hlow : u.encLow.toNat = s.encLow.toNat * 256 % 2 ^ 32 := by
      rw [(shiftLow_frame hu).2.1, shifted_low]
      omega
    rw [ih ht, hlow, Nat.mod_mul_mod, Nat.mul_assoc, ← Nat.pow_succ']

/-- With no carry in `ENC_LOW`, n calls of `ShiftLow` move the number up by n bytes (R308). -/
theorem shiftLows_streamValue {n : Nat} {s t : State} (h : shiftLows n s = .ok t) {p : Nat} (hp : p ≤ s.opos.toNat)
    (hc : 1 ≤ s.encCsize.toNat) (hw : s.encCsize.toNat + n < 2 ^ 64) (hl : s.encLow.toNat < 2 ^ 32) :
    1 ≤ t.encCsize.toNat ∧ t.streamValue p = 256 ^ n * s.streamValue p := by
  induction n generalizing s with
  | zero =>
    cases h
    exact ⟨hc, (Nat.one_mul _).symm⟩
  | succ n ih =>
    obtain ⟨u, hu, ht⟩ := run_bind_eq_ok.mp h
    obtain ⟨⟨-, hpos, -⟩, hlow, -⟩ := shiftLow_frame hu
    have hlow : u.encLow.toNat < 2 ^ 32 := by rw [hlow, shifted_low]; omega
    obtain ⟨⟨hcu, hcount⟩, hvalue⟩ := shiftLow_streamValue hu hp hc (.inl (by omega))
    rw [Nat.div_eq_of_lt hl, Nat.add_zero, Nat.mod_eq_of_lt (pendingValue_lt hc), Nat.mod_eq_of_lt hl] at hvalue
    obtain ⟨hct, hvalues⟩ := ih ht (hp.trans hpos) hcu (by omega) hlow
    refine ⟨hct, ?_⟩
    rw [hvalues, hvalue, ← Nat.mul_assoc, ← Nat.pow_succ]
    rfl

theorem shiftLows_succ_last (n : Nat) (s : State) : shiftLows (n + 1) s = (shiftLows n s).bind shiftLow := by
  induction n generalizing s with
  | zero =>
    show (shiftLow s).bind (shiftLows 0) = shiftLow s
    cases shiftLow s <;> rfl
  | succ n ih =>
    show (shiftLow s).bind (shiftLows (n + 1)) = ((shiftLow s).bind (shiftLows n)).bind shiftLow
    cases shiftLow s with
    | error k => rfl
    | ok t => exact ih t

/-- The fifth call sees an `ENC_LOW` of 0, so the flush leaves one pending byte 0 (R308). -/
theorem shiftLows_five_registers {s v t : State} (hv : shiftLows 4 s = .ok v) (ht : shiftLow v = .ok t) :
    v.encLow.toNat = 0 ∧ t.encLow = 0 ∧ t.encCache = 0 ∧ t.encCsize = 1 := by
  have hl : v.encLow.toNat = 0 := by
    rw [shiftLows_low hv]
    omega
  obtain ⟨hlow, hout⟩ := shiftLow_shiftedOut ht
  rw [hl] at hlow hout
  obtain ⟨hcsize, hcache, -⟩ := (if_pos (show 0 % 2 ^ 32 < 0xFF000000 ∨ 2 ^ 32 ≤ 0 by omega)).mp hout
  exact ⟨hl, BitVec.eq_of_toNat_eq hlow, BitVec.eq_of_toNat_eq hcache, hcsize⟩

theorem shiftLows_of_room {n : Nat} {s : State} (h : Room n s) : ∃ t, shiftLows n s = .ok t := by
  induction n generalizing s with
  | zero => exact ⟨s, rfl⟩
  | succ n ih =>
    obtain ⟨u, hu⟩ := shiftLow_room (s := s) (by unfold Room at h; omega)
    obtain ⟨t, ht⟩ := ih (shiftLow_room_left hu h)
    exact ⟨t, run_bind_eq_ok.mpr ⟨u, hu, ht⟩⟩

/-- What the first call carries into the pending bytes and leaves in low is the number modulo the bytes there are for it. -/
theorem carried_number (pending low c : Nat) :
    (pending + low / 2 ^ 32) % 256 ^ c * 2 ^ 32 + low % 2 ^ 32 = (pending * 2 ^ 32 + low) % 256 ^ (c + 4) := by
  have hpow : 256 ^ (c + 4) = 2 ^ 32 * 256 ^ c := by rw [Nat.pow_add, show 256 ^ 4 = 2 ^ 32 from rfl, Nat.mul_comm]
  have hdigits : (pending * 2 ^ 32 + low) / 2 ^ 32 = pending + low / 2 ^ 32 := by omega
  rw [hpow, Nat.mod_mul, hdigits]
  omega

/-- The five calls write every pending byte and the four bytes of `ENC_LOW` (R308, R320). -/
theorem shiftLows_five {s t : State} (h : shiftLows 5 s = .ok t) (hc : 1 ≤ s.encCsize.toNat) (hroom : Room 5 s) :
    (t.encLow = 0 ∧ t.encCache = 0 ∧ t.encCsize = 1) ∧ t.opos.toNat = s.opos.toNat + s.encCsize.toNat + 4 ∧
      t.writtenValue s.opos.toNat = (pendingValue s * 2 ^ 32 + s.encLow.toNat) % 256 ^ (s.encCsize.toNat + 4) := by
  rw [shiftLows_succ_last] at h
  obtain ⟨v, hv, ht⟩ := run_bind_eq_ok.mp h
  obtain ⟨hlowv, hlow, hcache, hcsize⟩ := shiftLows_five_registers hv ht
  obtain ⟨u, hu, hv⟩ : ∃ u, shiftLow s = .ok u ∧ shiftLows 3 u = .ok v := run_bind_eq_ok.mp hv
  have hw : s.encCsize.toNat + 4 < 2 ^ 64 := by
    have := s.olim.isLt
    unfold Room at hroom
    omega
  have hlowu : u.encLow.toNat < 2 ^ 32 := by
    rw [(shiftLow_frame hu).2.1, shifted_low]
    omega
  have hpu := (shiftLow_frame hu).1.2.1
  have hpv := hpu.trans (shiftLows_frame hv).1.2.1
  obtain ⟨⟨hcu, hcountu⟩, hvalueu⟩ := shiftLow_streamValue hu le_rfl hc (.inl (by omega))
  obtain ⟨hcv, hvaluev⟩ := shiftLows_streamValue hv hpu hcu (by omega) hlowu
  have hcountv := shiftLows_count hv (by omega)
  obtain ⟨⟨-, hcountt⟩, hvaluet⟩ := shiftLow_streamValue ht hpv hcv (.inr hlowv)
  refine ⟨⟨hlow, hcache, hcsize⟩, ?_, ?_⟩
  · rw [hcsize] at hcountt
    have : (1 : Pos).toNat = 1 := rfl
    omega
  · have hstart : s.writtenValue s.opos.toNat = 0 := by rw [State.writtenValue, Nat.sub_self, bytesValue]
    rw [hlowv, Nat.zero_div, Nat.add_zero, Nat.mod_eq_of_lt (pendingValue_lt hcv), Nat.zero_mod, ← hlowv] at hvaluet
    change t.streamValue s.opos.toNat = 256 * v.streamValue s.opos.toNat at hvaluet
    rw [hstart, Nat.zero_mul, Nat.zero_add, carried_number] at hvalueu
    have hend : t.streamValue s.opos.toNat = t.writtenValue s.opos.toNat * 256 ^ 5 := by
      rw [State.streamValue, pendingValue, hlow, hcache, hcsize]
      show (_ * 256 ^ 1 + ((0 + 1) * 256 ^ (1 - 1) - 1)) * 2 ^ 32 + 0 = _
      omega
    rw [hend, hvaluev, hvalueu] at hvaluet
    omega

/-- Settles O30: the five calls have room, and what they write is `shiftLows_five`. -/
theorem encFlushWritesTheNumber : Obligations.EncFlushWritesTheNumber := by
  intro s hm hc hroom
  obtain ⟨u, hu⟩ := shiftLows_of_room hroom
  obtain ⟨⟨hlow, hcache, hcsize⟩, hpos, hvalue⟩ := shiftLows_five hu hc hroom
  obtain ⟨⟨hframe, -, hkeep⟩, hrange, hprob⟩ := shiftLows_frame hu
  have hbody : encFlushBody s = .ok { u with mode := .idle } := run_bind_eq_ok.mpr ⟨u, hu, rfl⟩
  refine ⟨_, (executes_encFlush hm).next hbody, ?_, hpos, ?_, hkeep⟩
  · rw [hlow, hcache, hcsize, hrange, hprob] at hframe
    exact congrArg (fun t : State => { t with mode := .idle }) hframe
  · rw [State.writtenValue, hpos, Nat.add_assoc, Nat.add_sub_cancel_left] at hvalue
    exact hvalue

end Sys2Proof.Machine
end

section
/-! SUPPORT. What the encode commands leave alone, in every outcome (R311-R320, R430-R432 "Writes", R502, R503). -/

namespace Sys2Proof.Machine

open Sys2Proof.Claims

/-! ### How an encode command ends -/

/-- Command i with body r ends from s in t: a fault is recorded over s, or over what a mid-command fault leaves, or r completed. -/
def EndsIn (i : Instr) (s loose : State) (r : Run State) (t : State) : Prop :=
  (∃ k u, (u = s ∨ u = loose) ∧ t = recordFault k (encode i) s u) ∨ r = .ok t

section

variable {i : Instr} {s loose t body : State} {r : Run State}

theorem endsIn_preFault (k : Errcode) : EndsIn i s loose r (preFault k (encode i) s) := .inl ⟨k, s, .inl rfl, rfl⟩

theorem endsIn_finish : EndsIn i s loose r (finish (encode i) s loose r) := by
  cases r with
  | ok t => exact .inr rfl
  | error k => exact .inl ⟨k, loose, .inr rfl, rfl⟩

theorem endsIn_inMode {m : Mode} (h : EndsIn i s loose r body) : EndsIn i s loose r (inMode m (encode i) s body) := by
  unfold inMode
  split
  · exact h
  · exact endsIn_preFault _

theorem endsIn_check {c : Prop} [Decidable c] {k : Errcode} (h : c → EndsIn i s loose r body) :
    EndsIn i s loose r (if c then body else preFault k (encode i) s) := by
  split
  · next hc => exact h hc
  · exact endsIn_preFault _

theorem endsIn_stop {c : Prop} [Decidable c] {k : Errcode} (h : EndsIn i s loose r body) :
    EndsIn i s loose r (if c then preFault k (encode i) s else body) := by
  split
  · exact endsIn_preFault _
  · exact h

/-- What recording a fault, losing the "Writes" and the body all leave, the command leaves. -/
theorem EndsIn.keeps {α : Type} {π : State → α} (h : EndsIn i s loose r t)
    (hπ : ∀ k w v u, π (recordFault k w v u) = π u) (hl : π loose = π s) (hr : ∀ t, r = .ok t → π t = π s) : π t = π s := by
  rcases h with ⟨k, u, rfl | rfl, rfl⟩ | ht
  · exact hπ k _ _ _
  · exact (hπ k _ _ _).trans hl
  · exact hr t ht

end

/-! ### The parts of the state -/

/-- State s with the fields that an encode command of bits can change as they are in t (R311-R320). -/
def State.withEncoder (s t : State) : State :=
  { s with
    pending := t.pending, err := t.err, errcode := t.errcode, errCmd := t.errCmd, errIpos := t.errIpos
    errOpos := t.errOpos, encLow := t.encLow, encRange := t.encRange, encCache := t.encCache, encCsize := t.encCsize
    opos := t.opos, obuf := t.obuf, obufFree := t.obufFree, prob := t.prob, mode := t.mode, draws := t.draws }

/-- Also the fields that `ENC_LIT` and `ENC_MATCH` can change (R430, R431). -/
def State.withTokens (s t : State) : State :=
  { s.withEncoder t with
    head := t.head, chain := t.chain, ipos := t.ipos, prevByte := t.prevByte, prevMatch := t.prevMatch }

/-- Also the fields that `ENC_STREAM` can change (R432). -/
def State.withStream (s t : State) : State :=
  { s.withTokens t with tokKind := t.tokKind, tokDist := t.tokDist, tokLen := t.tokLen }

/-- The fields an encode command of bits leaves, every other field blank. -/
def State.besideEncoder (s : State) : State := s.withEncoder State.reset

/-- The fields `ENC_LIT` and `ENC_MATCH` leave, every other field blank. -/
def State.besideTokens (s : State) : State := s.withTokens State.reset

/-- The fields `ENC_STREAM` leaves, every other field blank. -/
def State.besideStream (s : State) : State := s.withStream State.reset

theorem eq_withEncoder {s t : State} (h : t.besideEncoder = s.besideEncoder) : t = s.withEncoder t :=
  (congrArg (State.withEncoder · t) h :)

theorem eq_withTokens {s t : State} (h : t.besideTokens = s.besideTokens) : t = s.withTokens t :=
  (congrArg (State.withTokens · t) h :)

theorem eq_withStream {s t : State} (h : t.besideStream = s.besideStream) : t = s.withStream t :=
  (congrArg (State.withStream · t) h :)

theorem besideTokens_of_besideEncoder {s t : State} (h : t.besideEncoder = s.besideEncoder) :
    t.besideTokens = s.besideTokens :=
  (congrArg (State.withTokens · State.reset) h :)

theorem besideStream_of_besideTokens {s t : State} (h : t.besideTokens = s.besideTokens) :
    t.besideStream = s.besideStream :=
  (congrArg (State.withStream · State.reset) h :)

theorem recordFault_besideEncoder (k : Errcode) (w : Word) (v u : State) :
    (recordFault k w v u).besideEncoder = u.besideEncoder := by
  unfold recordFault
  split <;> rfl

theorem recordFault_besideTokens (k : Errcode) (w : Word) (v u : State) :
    (recordFault k w v u).besideTokens = u.besideTokens := by
  unfold recordFault
  split <;> rfl

theorem recordFault_besideStream (k : Errcode) (w : Word) (v u : State) :
    (recordFault k w v u).besideStream = u.besideStream := by
  unfold recordFault
  split <;> rfl

theorem recordFault_probAt (c : Ctx) (k : Errcode) (w : Word) (v u : State) :
    (recordFault k w v u).probAt c = u.probAt c := by
  simp only [State.probAt, recordFault_prob]

theorem EncFrame.besideEncoder {s t : State} (h : EncFrame s t) : t.besideEncoder = s.besideEncoder :=
  (congrArg State.besideEncoder h.1 :)

/-! ### What a fault leaves unspecified (R502) -/

theorem looseProbs_besideEncoder (cs : List Ctx) (s : State) : (looseProbs cs s).besideEncoder = s.besideEncoder :=
  (congrArg State.besideEncoder (looseProbs_frame cs s) :)

theorem looseEncoder_besideEncoder (s : State) : (looseEncoder s).besideEncoder = s.besideEncoder := by
  simp only [looseEncoder, looseOpos, loosePending, looseEncRange, looseEncLow, looseObuf, looseObufTo, State.besideEncoder, State.withEncoder]

theorem looseEncoder_prob (s : State) : (looseEncoder s).prob = s.prob := by
  simp only [looseEncoder, looseOpos, loosePending, looseEncRange, looseEncLow, looseObuf, looseObufTo]

/-- What a fault of `ENC_FLUSH` leaves unspecified (R320). -/
def looseFlush (s : State) : State := drawn (looseOpos (loosePending (looseEncLow (looseObuf s))))

theorem looseFlush_frame (s : State) :
    (looseFlush s).besideEncoder = s.besideEncoder ∧ (looseFlush s).encRange = s.encRange ∧ (looseFlush s).prob = s.prob := by
  simp only [looseFlush, drawn, looseOpos, loosePending, looseEncLow, looseObuf, looseObufTo, State.besideEncoder, State.withEncoder,
    and_self]

/-- What a fault of `ENC_LIT` or `ENC_MATCH` leaves unspecified, the estimators apart (R430, R431). -/
def looseTokens (s : State) : State := looseIpos (looseCtxstate (looseFinder s))

theorem looseTokens_prob (s : State) : (looseTokens s).prob = s.prob := by
  simp only [looseTokens, looseIpos, looseCtxstate, looseFinder]

theorem looseProb_besideEncoder (s : State) : (looseProb s).besideEncoder = s.besideEncoder := rfl

theorem looseTokMatch_besideStream (s : State) : (looseTokMatch s).besideStream = s.besideStream := rfl

theorem drawn_besideTokens (s : State) : (drawn s).besideTokens = s.besideTokens := rfl

theorem drawn_besideStream (s : State) : (drawn s).besideStream = s.besideStream := rfl

theorem looseTokens_besideTokens (s : State) : (looseTokens s).besideTokens = s.besideTokens := by
  simp only [looseTokens, looseIpos, looseCtxstate, looseFinder, State.besideTokens, State.withTokens, State.withEncoder]

theorem probAt_of_prob {s t : State} (h : t.prob = s.prob) (c : Ctx) : t.probAt c = s.probAt c := by
  simp only [State.probAt, h]

/-! ### The commands of bits -/

/-- A command that codes a list of bits leaves all but the encoder, the output and the estimators of the list. -/
theorem encodeBits_leaves {i : Instr} {l : List (Ctx × Bool)} {s t : State}
    (h : EndsIn i s (drawn (looseEncoder (looseProbs (l.map Prod.fst) s))) (encodeBits l s) t) :
    t.besideEncoder = s.besideEncoder ∧ ∀ c, c ∉ l.map Prod.fst → t.probAt c = s.probAt c := by
  refine ⟨h.keeps recordFault_besideEncoder ?_ fun _ ht => (encodeBits_frame ht).besideEncoder,
    fun c hc => h.keeps (recordFault_probAt c) ?_ fun _ ht => encodeBits_probAt ht hc⟩
  · exact (looseEncoder_besideEncoder _).trans (looseProbs_besideEncoder _ s)
  · exact (probAt_of_prob (looseEncoder_prob _) c).trans (probAt_looseProbs hc s)

theorem encBit_leaves {s t : State} {c : Ctx} {b : Bool} (h : exec (.encBit c b) s = .next t) :
    t.besideEncoder = s.besideEncoder ∧ ∀ c', c' ≠ c → t.probAt c' = s.probAt c' := by
  have hbits : encodeBits [(c, b)] s = encodeBit c b s := by
    rw [encodeBits_cons]
    cases encodeBit c b s <;> rfl
  have hl := encodeBits_leaves (i := .encBit c b) (l := [(c, b)]) (s := s) (t := t) (by
    cases h
    rw [hbits]
    exact endsIn_inMode endsIn_finish)
  exact ⟨hl.1, fun c' hc => hl.2 c' (List.mem_singleton.not.mpr hc)⟩

theorem lt_of_encTreeOk {c : Ctx} {n : BitVec 6} {v : Word} (h : encTreeOk c n v = true) : v.toNat < 2 ^ n.toNat :=
  of_decide_eq_true (Bool.and_eq_true_iff.mp h).2

theorem encTree_leaves {s t : State} {c : Ctx} {n : BitVec 6} (h : exec (.encTree c n) s = .next t) :
    t.besideEncoder = s.besideEncoder ∧
      ∀ c', c' ∉ (treeBits c n.toNat s.arg.toNat).map Prod.fst → t.probAt c' = s.probAt c' := by
  refine encodeBits_leaves (i := .encTree c n) ?_
  cases h
  refine endsIn_inMode (endsIn_check fun hk => ?_)
  have hlt := lt_of_encTreeOk hk
  rw [encodeTree_eq c hlt, treePath_eq, ← treeBits_eq c hlt]
  exact endsIn_finish

theorem encRtree_leaves {s t : State} {c : Ctx} {n : BitVec 6} (h : exec (.encRtree c n) s = .next t) :
    t.besideEncoder = s.besideEncoder ∧
      ∀ c', c' ∉ (rtreeBits c s.arg.toNat n.toNat 1).map Prod.fst → t.probAt c' = s.probAt c' := by
  refine encodeBits_leaves (i := .encRtree c n) ?_
  cases h
  refine endsIn_inMode (endsIn_check fun _ => ?_)
  rw [encodeRtree_eq, rtreePath_eq, Nat.pow_zero, Nat.div_one]
  exact endsIn_finish

theorem encDirect_leaves {s t : State} {n : BitVec 6} (h : exec (.encDirect n) s = .next t) :
    t.besideEncoder = s.besideEncoder ∧ t.prob = s.prob := by
  have he : EndsIn (.encDirect n) s (drawn (looseEncoder s)) (encodeDirect s.arg n.toNat s) t := by
    cases h
    exact endsIn_inMode (endsIn_check fun _ => endsIn_finish)
  exact ⟨he.keeps recordFault_besideEncoder (looseEncoder_besideEncoder s)
      fun _ ht => (encodeDirect_frame ht).1.besideEncoder,
    he.keeps recordFault_prob (looseEncoder_prob s) fun _ ht => (encodeDirect_frame ht).2⟩

theorem encFlushBody_leaves {s t : State} (h : encFlushBody s = .ok t) :
    t.besideEncoder = s.besideEncoder ∧ t.encRange = s.encRange ∧ t.prob = s.prob := by
  obtain ⟨u, hu, ht⟩ := run_bind_eq_ok.mp h
  cases ht
  obtain ⟨hf, hr, hp⟩ := shiftLows_frame hu
  exact ⟨hf.besideEncoder, hr, hp⟩

theorem encFlush_leaves {s t : State} (h : exec .encFlush s = .next t) :
    t.besideEncoder = s.besideEncoder ∧ t.encRange = s.encRange ∧ t.prob = s.prob := by
  have he : EndsIn .encFlush s (looseFlush s) (encFlushBody s) t := by
    cases h
    exact endsIn_inMode endsIn_finish
  obtain ⟨hl, hr, hp⟩ := looseFlush_frame s
  exact ⟨he.keeps recordFault_besideEncoder hl fun _ ht => (encFlushBody_leaves ht).1,
    he.keeps recordFault_encRange hr fun _ ht => (encFlushBody_leaves ht).2.1,
    he.keeps recordFault_prob hp fun _ ht => (encFlushBody_leaves ht).2.2⟩

/-- A command of an open stream that does not close it leaves the mode, also by a fault (R36). -/
theorem exec_mode {i : Instr} {m : Mode} {s t : State} (h : exec i s = .next t) (hi : requiredMode i = some m)
    (hc : closesStream i ≠ true) : t.mode = s.mode := by
  rcases exec_answers h with ⟨k, u, -, ⟨-, hmode, -⟩, rfl⟩ | hd
  · rw [recordFault_mode]
    exact hmode
  · cases hd with
    | actions ha | result _ _ ha => exact ha.mode
    | close hc' => exact absurd hc' hc
    | reset | openEnc | openDec => cases hi

/-! ### The commands of tokens -/

theorem insertPos_besideTokens (p : Nat) (s : State) : (insertPos p s).besideTokens = s.besideTokens :=
  (congrArg State.besideTokens (insertPos_frame p s) :)

theorem insertRun_besideTokens (l p : Nat) (s : State) : (insertRun l p s).besideTokens = s.besideTokens := by
  induction l generalizing p s with
  | zero => rfl
  | succ l ih => exact (ih _ _).trans (insertPos_besideTokens p s)

/-- The bits of a literal token: the flag 0, and the byte down the tree of the byte before (R405, R430). -/
def literalBits (b : Byte) (s : State) : List (Ctx × Bool) := (flag s, false) :: treeBits (litTree s) 8 b.toNat

theorem flagCtx_eq (s : State) : flagCtx s = flag s := by
  unfold flagCtx flag
  cases s.prevMatch <;> rfl

theorem litBase_eq (s : State) : litBase s = litTree s := by
  rw [litBase, litTree, Nat.shiftRight_eq_div_pow]

theorem byte_lt_tree (b : Byte) : (b.setWidth 32).toNat < 2 ^ 8 := by
  rw [BitVec.toNat_setWidth_of_le (by decide)]
  exact b.isLt

theorem encodeLiteralToken_eq (b : Byte) (s : State) : encodeLiteralToken b s = encodeBits (literalBits b s) s := by
  have htree : encodeTree (litTree s) 8 (b.setWidth 32) = encodeBits (treeBits (litTree s) 8 b.toNat) := by
    funext u
    rw [encodeTree_eq _ (byte_lt_tree b), BitVec.toNat_setWidth_of_le (by decide)]
  rw [encodeLiteralToken, flagCtx_eq, litBase_eq, htree]
  rfl

theorem literalCtxs_eq (b : Byte) (s : State) : literalCtxs b s = (literalBits b s).map Prod.fst := by
  rw [literalCtxs, flagCtx_eq, litBase_eq, treePath_eq, ← treeBits_eq _ (byte_lt_tree b),
    BitVec.toNat_setWidth_of_le (by decide)]
  rfl

/-- `ENC_LIT` that completes: the literal token, `Insert`, and `IPOS` and `CTXSTATE` (R430). -/
theorem encLitBody_leaves {s t : State} (h : encLitBody s = .ok t) :
    t.besideTokens = s.besideTokens ∧ ∀ c,
      c ∉ (literalBits (s.readIbuf (.literal s.ipos.toNat) s.ipos.toNat) s).map Prod.fst → t.probAt c = s.probAt c := by
  unfold encLitBody at h
  split at h
  · cases h
  · obtain ⟨u, hu, ht⟩ := run_bind_eq_ok.mp h
    cases ht
    rw [encodeLiteralToken_eq] at hu
    refine ⟨?_, fun c hc => ?_⟩
    · exact (insertPos_besideTokens _ u).trans (besideTokens_of_besideEncoder (encodeBits_frame hu).besideEncoder)
    · rw [← encodeBits_probAt hu hc, insertPos_frame]
      rfl

theorem encLit_leaves {s t : State} (h : exec .encLit s = .next t) :
    t.besideTokens = s.besideTokens ∧ ∀ c,
      c ∉ (literalBits (s.readIbuf (.literal s.ipos.toNat) s.ipos.toNat) s).map Prod.fst → t.probAt c = s.probAt c := by
  generalize hb : s.readIbuf (.literal s.ipos.toNat) s.ipos.toNat = b
  have he : EndsIn .encLit s (drawn (looseTokens (looseEncoder (looseProbs ((literalBits b s).map Prod.fst) s))))
      (encLitBody s) t := by
    cases h
    rw [hb, literalCtxs_eq]
    exact endsIn_inMode (endsIn_stop endsIn_finish)
  refine ⟨he.keeps recordFault_besideTokens ?_ fun _ ht => (encLitBody_leaves ht).1,
    fun c hc => he.keeps (recordFault_probAt c) ?_ fun _ ht => (encLitBody_leaves ht).2 c (hb ▸ hc)⟩
  · rw [drawn_besideTokens, looseTokens_besideTokens]
    exact besideTokens_of_besideEncoder ((looseEncoder_besideEncoder _).trans (looseProbs_besideEncoder _ s))
  · refine (probAt_of_prob ?_ c).trans (probAt_looseProbs hc s)
    rw [drawn_prob, looseTokens_prob, looseEncoder_prob]

theorem encMatchCode_besideTokens {s t : State} (h : encMatchCode s = .ok t) : t.besideTokens = s.besideTokens := by
  obtain ⟨u, hu, ht⟩ := run_bind_eq_ok.mp h
  cases ht
  exact (insertRun_besideTokens _ _ u).trans (besideTokens_of_besideEncoder (encodeMatchToken_frame hu).besideEncoder)

theorem encMatch_leaves {s t : State} (h : exec .encMatch s = .next t) : t.besideTokens = s.besideTokens := by
  have he : EndsIn .encMatch s (drawn (looseTokens (looseProb (looseEncoder s)))) (encMatchCode s) t := by
    cases h
    exact endsIn_inMode (endsIn_check fun _ => endsIn_finish)
  refine he.keeps recordFault_besideTokens ?_ fun _ ht => encMatchCode_besideTokens ht
  rw [drawn_besideTokens, looseTokens_besideTokens]
  exact besideTokens_of_besideEncoder ((looseProb_besideEncoder _).trans (looseEncoder_besideEncoder s))

/-! ### The stream -/

theorem mfFindBody_besideStream (s : State) : (mfFindBody s).besideStream = s.besideStream := by
  unfold mfFindBody
  dsimp only
  split <;> rfl

theorem encMatchBody_besideTokens {s t : State} (h : encMatchBody s = .ok t) : t.besideTokens = s.besideTokens := by
  unfold encMatchBody at h
  split at h
  · exact encMatchCode_besideTokens h
  · cases h

theorem encLoop_besideStream {fuel : Nat} {s t : State} (h : encLoop fuel s = .ok t) : t.besideStream = s.besideStream := by
  induction fuel generalizing s with
  | zero => cases h; rfl
  | succ fuel ih =>
    unfold encLoop at h
    split at h
    · obtain ⟨u, hu, ht⟩ := run_bind_eq_ok.mp h
      refine (ih ht).trans (Eq.trans ?_ (mfFindBody_besideStream s))
      split at hu
      · exact besideStream_of_besideTokens (encMatchBody_besideTokens hu)
      · exact besideStream_of_besideTokens (encLitBody_leaves hu).1
    · cases h; rfl

theorem encStream_leaves {s t : State} (h : exec .encStream s = .next t) : t.besideStream = s.besideStream := by
  have he : EndsIn .encStream s (drawn (looseTokMatch (looseTokens (looseProb (looseEncoder s))))) (encStreamBody s) t := by
    cases h
    exact endsIn_inMode endsIn_finish
  refine he.keeps recordFault_besideStream ?_ fun t ht => ?_
  · rw [drawn_besideStream, looseTokMatch_besideStream, besideStream_of_besideTokens (looseTokens_besideTokens _)]
    refine besideStream_of_besideTokens (besideTokens_of_besideEncoder ?_)
    exact (looseProb_besideEncoder _).trans (looseEncoder_besideEncoder s)
  · obtain ⟨u, hu, ht⟩ := run_bind_eq_ok.mp ht
    have hflush := besideTokens_of_besideEncoder (encFlushBody_leaves ht).1
    exact (besideStream_of_besideTokens hflush).trans (encLoop_besideStream hu)

/-- Settles O55: what each command leaves, by its recording, its "Writes" and its body. -/
theorem encoderCommandFrame : Obligations.EncoderCommandFrame := by
  refine ⟨fun i s t hi h => ⟨?_, ?_, fun hne => ?_, ?_, ?_, ?_, ?_⟩, fun i s t hi h => ⟨?_, ?_⟩, fun s t h => ?_⟩
  · refine eq_withEncoder ?_
    rcases hi with ⟨c, b, rfl⟩ | ⟨n, rfl⟩ | ⟨c, n, rfl | rfl⟩ | rfl
    · exact (encBit_leaves h).1
    · exact (encDirect_leaves h).1
    · exact (encTree_leaves h).1
    · exact (encRtree_leaves h).1
    · exact (encFlush_leaves h).1
  · rintro rfl
    exact (encFlush_leaves h).2
  · rcases hi with ⟨c, b, rfl⟩ | ⟨n, rfl⟩ | ⟨c, n, rfl | rfl⟩ | rfl
    · exact exec_mode h rfl nofun
    · exact exec_mode h rfl nofun
    · exact exec_mode h rfl nofun
    · exact exec_mode h rfl nofun
    · exact absurd rfl hne
  · rintro ⟨n, rfl⟩
    exact (encDirect_leaves h).2
  · rintro c b rfl
    exact (encBit_leaves h).2
  · rintro c n rfl
    exact (encTree_leaves h).2
  · rintro c n rfl
    exact (encRtree_leaves h).2
  · have hm : t.mode = s.mode := by rcases hi with rfl | rfl <;> exact exec_mode h rfl nofun
    have hb : t.besideTokens = s.besideTokens := by
      rcases hi with rfl | rfl
      · exact (encLit_leaves h).1
      · exact encMatch_leaves h
    have ht := eq_withTokens hb
    rw [State.withTokens, State.withEncoder, hm] at ht
    exact ht
  · rintro rfl hr c hflag htree
    refine (encLit_leaves h).2 c ?_
    rw [readIbuf_of_not_raced hr]
    exact List.not_mem_cons_of_ne_of_not_mem hflag htree
  · exact eq_withStream (encStream_leaves h)

end Sys2Proof.Machine
end

section
/-! SUPPORT. `ENC_INIT` (R310), and the primitive commands at the end of a buffer (R304, R351). -/

namespace Sys2Proof.Machine

open Sys2Proof.Claims

/-! ### Opening an encode stream (R200, R310) -/

/-- The two columns of the level table, and that it ends at level 9 (R200). -/
theorem levelTable {n k d : Nat} (hk : [16, 18, 20, 21, 22, 23, 24, 25, 26, 28][n]? = some k)
    (hd : [1, 2, 4, 8, 16, 32, 64, 128, 256, 1024][n]? = some d) :
    n ≤ 9 ∧ Config.winLog2 n = k ∧ Config.depth n = d := by
  have hrows : ∀ n : Fin 10, [16, 18, 20, 21, 22, 23, 24, 25, 26, 28][n.val]? = some (Config.winLog2 n.val) ∧
      [1, 2, 4, 8, 16, 32, 64, 128, 256, 1024][n.val]? = some (Config.depth n.val) := by decide
  have hlt : n < 10 := (List.getElem?_eq_some_iff.mp hk).1
  obtain ⟨hk', hd'⟩ := hrows ⟨n, hlt⟩
  exact ⟨by omega, Option.some.inj (hk'.symm.trans hk), Option.some.inj (hd'.symm.trans hd)⟩

/-- Settles O25: both checks of the level pass, and `openEncode` is the state of the statement. -/
theorem encInitOpensStream : Obligations.EncInitOpensStream := by
  intro s lvl k d hk hd hfit
  obtain ⟨hle, rfl, rfl⟩ := levelTable hk hd
  have hlevel : levelOk lvl = true := decide_eq_true hle
  have hwin : windowFits lvl s = true := decide_eq_true hfit
  have hto : (lvl.setWidth 4).toNat = lvl.toNat := by
    rw [BitVec.toNat_setWidth]
    omega
  have hof : lvl.setWidth 4 = BitVec.ofNat 4 lvl.toNat := BitVec.eq_of_toNat_eq (BitVec.toNat_setWidth ..)
  refine ⟨openEncode lvl s, congrArg _ ((if_pos hlevel).trans (if_pos hwin)), ?_, ?_, ?_, fun c => ?_, fun h => rfl⟩
  · rw [← hof]
    rfl
  · show 2 ^ Config.winLog2 (lvl.setWidth 4).toNat = _
    rw [hto]
  · show Config.depth (lvl.setWidth 4).toNat = _
    rw [hto]
  · show (s.clearProb.probAt c).toNat = 1024
    rw [probAt_clearProb]
    rfl

/-! ### The encoder at `OLIM` (R304) -/

theorem emitPending_eq_error {n : Nat} {temp carry : Byte} {s : State} {k : Errcode} (h : emitPending n temp carry s = .error k) :
    k = .outLimit := by
  induction n generalizing temp s with
  | zero => cases h
  | succ n ih =>
    rcases run_bind_eq_error.mp h with h | ⟨u, -, h⟩
    · unfold outByte at h
      split at h
      · cases h; rfl
      · cases h
    · exact ih h

theorem shiftLow_eq_error {s : State} {k : Errcode} (h : shiftLow s = .error k) : k = .outLimit := by
  unfold shiftLow at h
  split at h
  · rcases run_bind_eq_error.mp h with h | ⟨u, -, h⟩
    · exact emitPending_eq_error h
    · cases h
  · cases h

theorem shiftLows_eq_error {n : Nat} {s : State} {k : Errcode} (h : shiftLows n s = .error k) : k = .outLimit := by
  induction n generalizing s with
  | zero => cases h
  | succ n ih =>
    rcases run_bind_eq_error.mp h with h | ⟨u, -, h⟩
    · exact shiftLow_eq_error h
    · exact ih h

theorem shiftLows_emits {n : Nat} {s t : State} (h : shiftLows n s = .ok t) : Emits s t := by
  induction n generalizing s with
  | zero => cases h; exact (EncFrame.refl _).emits rfl rfl
  | succ n ih =>
    obtain ⟨u, hu, ht⟩ := run_bind_eq_ok.mp h
    exact (shiftLow_emits hu).trans (ih ht)

/-- A flush that completes has written `ENC_CSIZE + 4` bytes below `OLIM`, so without the room for them it raises `OUT_LIMIT` (R320). -/
theorem encFlushBody_of_no_room {s : State} (hw : s.encCsize.toNat + 5 < 2 ^ 64)
    (h : s.olim.toNat < s.opos.toNat + s.encCsize.toNat + 4) : encFlushBody s = .error .outLimit := by
  unfold encFlushBody
  cases hr : shiftLows 5 s with
  | error k => rw [shiftLows_eq_error hr, run_bind_error]
  | ok t =>
    exfalso
    have hcount := shiftLows_count hr hw
    obtain ⟨-, hpos, -⟩ := shiftLows_emits hr
    rw [shiftLows_succ_last] at hr
    obtain ⟨v, hv, ht⟩ := run_bind_eq_ok.mp hr
    obtain ⟨-, -, -, hcsize⟩ := shiftLows_five_registers hv ht
    rw [hcsize, show (1 : Pos).toNat = 1 from rfl] at hcount
    rcases hpos with he | hle
    · rw [he] at hcount
      omega
    · omega

/-! ### The decoder at `ILEN` (R351) -/

/-- A refill with no byte left raises `TRUNCATED` (R351). -/
theorem normalizeDec_of_no_input {s : State} (hi : s.ilen.toNat ≤ s.ipos.toNat) (hr : s.decRange.toNat < 2 ^ 24) :
    normalizeDec s = .error .truncated := by
  have hin : inByte { s with decRange := s.decRange <<< 8 } = .error .truncated := inByte_eq_error.mpr ⟨hi, rfl⟩
  rw [normalizeDec, if_pos (BitVec.lt_def.mpr hr), refill, hin, run_bind_error]

/-- The decoder's range after a bit (R352). -/
theorem narrowDec_decRange (c : Ctx) (s : State) :
    (narrowDec c (codedBit c s) s).decRange.toNat =
      if s.decCode.toNat < split s.decRange (s.probAt c) then split s.decRange (s.probAt c)
      else s.decRange.toNat - split s.decRange (s.probAt c) := by
  obtain ⟨hbound, hle⟩ := bound_toNat s.decRange (s.probAt c)
  have hlt : s.decCode < decBound c s ↔ s.decCode.toNat < split s.decRange (s.probAt c) := by
    rw [BitVec.lt_def, decBound, hbound]
  by_cases h : s.decCode < decBound c s
  · rw [if_pos (hlt.mp h), codedBit, decide_eq_true h]
    exact hbound
  · rw [if_neg (mt hlt.mpr h), codedBit, decide_eq_false h]
    show (s.decRange - decBound c s).toNat = _
    rw [decBound, BitVec.toNat_sub_of_le (BitVec.le_def.mpr (hbound ▸ hle)), hbound]

theorem decodeBit_of_no_input {s : State} {c : Ctx} (hi : s.ilen.toNat ≤ s.ipos.toNat)
    (hr : (narrowDec c (codedBit c s) s).decRange.toNat < 2 ^ 24) : decodeBit c s = .error .truncated := by
  have hn : normalizeDec ((narrowDec c (codedBit c s) s).update c (codedBit c s)) = .error .truncated := by
    refine normalizeDec_of_no_input ?_ hr
    cases codedBit c s <;> exact hi
  rw [decodeBit, hn, run_bind_error]

theorem decodeDirect_one_of_no_input {s : State} (hi : s.ilen.toNat ≤ s.ipos.toNat) (hr : s.decRange.toNat / 2 < 2 ^ 24) :
    decodeDirect 1 s = .error .truncated := by
  have hn : normalizeDec (narrowDecDirect (codedDirect s) s) = .error .truncated := by
    refine normalizeDec_of_no_input ?_ ?_
    · cases codedDirect s <;> exact hi
    · rw [← half_toNat] at hr
      cases codedDirect s <;> exact hr
  rw [decodeDirect, decodeDirectFrom, hn, run_bind_error]

/-- What a fault of `DEC_BIT` leaves unspecified (R361). -/
def looseDecBit (c : Ctx) (s : State) : State := drawn (looseIpos (looseDecoder (looseProbs [c] (looseObuf s))))

/-- What a fault of `DEC_DIRECT` leaves unspecified (R362). -/
def looseDecDirect (s : State) : State := drawn (looseIpos (looseDecoder (looseResult (looseObuf s))))

theorem exec_decBit_error {s : State} {c : Ctx} {k : Errcode} (hm : s.mode = .dec) (h : decodeBit c s = .error k) :
    exec (.decBit c) s = .next (recordFault k (encode (.decBit c)) s (looseDecBit c s)) := by
  refine congrArg _ ((inMode_of_eq hm _ _).trans ?_)
  rw [h]
  rfl

theorem exec_decDirect_one_error {s : State} {k : Errcode} (hm : s.mode = .dec) (h : decodeDirect 1 s = .error k) :
    exec (.decDirect 1) s = .next (recordFault k (encode (.decDirect 1)) s (looseDecDirect s)) := by
  refine congrArg _ ((inMode_of_eq hm _ _).trans ((if_pos (by decide)).trans ?_))
  rw [show (1 : BitVec 6).toNat = 1 from rfl, h]
  rfl

theorem looseDecBit_keeps (c : Ctx) (s : State) :
    (looseDecBit c s).err = s.err ∧ (looseDecBit c s).result = s.result ∧
      ∀ c', c' ≠ c → (looseDecBit c s).probAt c' = s.probAt c' := by
  have hl := (((Loosened.refl false s).obuf rfl).probs [c]).decoder.ipos.drawn
  have hprob : (looseDecBit c s).prob = (looseProbs [c] (looseObuf s)).prob := by
    simp only [looseDecBit, drawn, looseIpos, looseDecoder]
  have herr := hl.err
  obtain ⟨-, -, -, hres, -⟩ := hl
  refine ⟨herr, hres.resolve_right nofun, fun c' hc => (probAt_of_prob hprob c').trans ?_⟩
  exact probAt_looseProbs (List.mem_singleton.not.mpr hc) _

theorem looseDecDirect_keeps (s : State) : (looseDecDirect s).err = s.err ∧ (looseDecDirect s).prob = s.prob := by
  simp only [looseDecDirect, drawn, looseIpos, looseDecoder, looseResult, looseObuf, looseObufTo, and_self]

theorem recordFault_errcode_of_clear {u : State} (h : u.err = false) (k : Errcode) (w : Word) (s : State) :
    (recordFault k w s u).errcode = k := by
  rw [recordFault_of_clear h]

/-- Settles O19: each primitive raises its fault there, its fault leaves what it does not write, and no command touches a byte outside the
output range. -/
theorem bytesOutsideTheBuffersFault : Obligations.BytesOutsideTheBuffersFault := by
  have hout {i : Instr} {s t : State} (h : exec i s = .next t) (j : Nat) (hj : j < s.opos.toNat ∨ s.olim.toNat ≤ j) :
      t.obufByte j = s.obufByte j := outputStaysBelowTheLimit i s t j h hj.symm
  refine ⟨?_, ?_, ?_, ?_, ?_⟩
  · rintro s c b _ low range hm hs rfl hl hr hf
    rw [← narrow_low] at hl
    rw [← narrow_range] at hr
    subst hl hr
    obtain ⟨t, hx, he, hk⟩ := (executes_encBit hm c b).faults hs (encodeBit_of_not_fits hf)
    exact ⟨t, hx, he, hk, (encBit_leaves hx).2, hout hx⟩
  · intro s low range hm hs harg hl hr hf
    rw [← bit_getLsbD_zero harg, ← narrowDirect_low] at hl
    rw [← narrowDirect_range (s.arg.getLsbD 0)] at hr
    subst hl hr
    obtain ⟨t, hx, he, hk⟩ := (executes_encDirect_one hm harg).faults hs (encodeDirectBit_of_not_fits hf)
    exact ⟨t, hx, he, hk, (encDirect_leaves hx).2, hout hx⟩
  · intro s hm hs hw hroom
    obtain ⟨t, hx, he, hk⟩ := (executes_encFlush hm).faults hs (encFlushBody_of_no_room hw hroom)
    exact ⟨t, hx, he, hk, (encFlush_leaves hx).2.2, hout hx⟩
  · rintro s c _ hm hs hi rfl hr
    rw [← narrowDec_decRange] at hr
    have hx := exec_decBit_error hm (decodeBit_of_no_input hi hr)
    obtain ⟨he, hres, hprob⟩ := looseDecBit_keeps c s
    refine ⟨_, hx, recordFault_err .., recordFault_errcode_of_clear (he.trans hs) .., ?_, fun c' hc => ?_, hout hx⟩
    · rw [recordFault_result, hres]
    · rw [recordFault_probAt, hprob c' hc]
  · intro s hm hs hi hr
    have hx := exec_decDirect_one_error hm (decodeDirect_one_of_no_input hi hr)
    obtain ⟨he, hprob⟩ := looseDecDirect_keeps s
    refine ⟨_, hx, recordFault_err .., recordFault_errcode_of_clear (he.trans hs) .., ?_, hout hx⟩
    rw [recordFault_prob, hprob]

end Sys2Proof.Machine
end

section
/-! SUPPORT. The close and the opening of a decode stream (`DEC_FINISH`, `DEC_INIT`: R370, R360), and refills in natural numbers
(R351). -/

namespace Sys2Proof.Machine

open Sys2Proof.Claims

/-! ### `DEC_FINISH` (R370) -/

theorem exec_decFinish {s : State} (hm : s.mode = .dec) :
    exec .decFinish s = .next (finish (encode .decFinish) s s (decFinishBody s)) := congrArg _ (inMode_of_eq hm _ _)

theorem decFinishBody_of_end {s : State} (hc : s.decCode = 0) (hi : s.ipos = s.ilen) :
    decFinishBody s = .ok { s with mode := .idle } :=
  (if_neg (not_not.mpr hc)).trans (if_neg (not_not.mpr hi))

theorem decFinishBody_of_code {s : State} (hc : s.decCode ≠ 0) : decFinishBody s = .error .corruptEnd := if_pos hc

theorem decFinishBody_of_input {s : State} (hc : s.decCode = 0) (hi : s.ipos ≠ s.ilen) :
    decFinishBody s = .error .trailing :=
  (if_neg (not_not.mpr hc)).trans (if_pos hi)

/-- The one word of opcode 0x25 that decodes (R152, R154). -/
theorem eq_decFinish_of_decodes {w : Word} {i : Instr} (hw : w.extractLsb' 24 8 = 0x25) (h : decodeWord w = .ok i) :
    w = 0x25000000 := by
  obtain ⟨f, build, hrow, hfields, -⟩ := decodeWord_eq_ok.mp h
  have hopc : opcField w = 0x25 := hw
  rw [hopc] at hrow
  cases hrow
  rw [← hfields, fieldsWord, hopc]
  decide

/-- Settles O46: the body's two checks in their order, the mode check before them, and the one word of the opcode. -/
theorem decFinishChecksTheEnd : Obligations.DecFinishChecksTheEnd := by
  intro s
  refine ⟨fun hm hc hi => ?_, fun hm hs hc => ?_, fun hm hs hc hi => ?_, fun hm hs => ?_, fun hs w hw hne => ?_⟩
  · rw [exec_decFinish hm, decFinishBody_of_end hc hi, finish]
  · rw [exec_decFinish hm, decFinishBody_of_code hc]
    exact congrArg _ (preFault_of_clear hs _ _)
  · rw [exec_decFinish hm, decFinishBody_of_input hc hi]
    exact congrArg _ (preFault_of_clear hs _ _)
  · exact congrArg _ ((inMode_of_ne hm _ _).trans (preFault_of_clear hs _ _))
  · exact runCommand_of_illegal (fun _ hi => hne (eq_decFinish_of_decodes hw hi)) hs

/-! ### Refills (R351, R360) -/

/-- A byte shifted into the code (R351). -/
theorem shifted_code (code : Word) (b : Byte) :
    ((code <<< 8) ||| b.setWidth 32).toNat = code.toNat * 256 % 2 ^ 32 + b.toNat := by
  have hb := b.isLt
  have hd : code.toNat * 256 % 2 ^ 32 = 2 ^ 8 * (code.toNat % 2 ^ 24) := by omega
  rw [BitVec.toNat_or, BitVec.toNat_shiftLeft, BitVec.toNat_setWidth_of_le (by decide), Nat.shiftLeft_eq, hd,
    Nat.two_pow_add_eq_or_of_lt hb]

/-- The state with `IPOS` and `DEC_CODE` as refills leave them. -/
def State.withInput (s : State) (p : Pos) (code : Word) : State := { s with ipos := p, decCode := code }

theorem inByte_of_input {s : State} (hr : s.raced = []) (h : s.ipos.toNat < s.ilen.toNat) :
    inByte s = .ok (s.ibufByte s.ipos.toNat, s.withInput (s.ipos + 1) s.decCode) := by
  rw [inByte_eq_ok.mpr ⟨h, rfl⟩, readIbuf_of_not_raced hr]
  rfl

theorem refill_of_input {s : State} (hr : s.raced = []) (h : s.ipos.toNat < s.ilen.toNat) :
    refill s = .ok (s.withInput (s.ipos + 1) ((s.decCode <<< 8) ||| (s.ibufByte s.ipos.toNat).setWidth 32)) := by
  rw [refill, inByte_of_input hr h]
  rfl

/-- The code of n refills, one byte at a time or all at once (R351, R105). -/
theorem shifted_codes (code : Word) (f : Nat → Byte) (i n : Nat) :
    BitVec.ofNat 32 (((code <<< 8) ||| (f i).setWidth 32).toNat * 256 ^ n + bytesValue f (i + 1) n) =
      BitVec.ofNat 32 (code.toNat * 256 ^ (n + 1) + bytesValue f i (n + 1)) := by
  have hfirst : bytesValue f i (n + 1) = (f i).toNat * 256 ^ n + bytesValue f (i + 1) n := by
    rw [Nat.add_comm n, bytesValue_add]
    simp [bytesValue]
  have hmod : (code.toNat * 256 % 2 ^ 32 + (f i).toNat) * 256 ^ n + bytesValue f (i + 1) n ≡
      (code.toNat * 256 + (f i).toNat) * 256 ^ n + bytesValue f (i + 1) n [MOD 2 ^ 32] :=
    (((Nat.mod_modEq _ _).add_right _).mul_right _).add_right _
  have hsum : (code.toNat * 256 + (f i).toNat) * 256 ^ n + bytesValue f (i + 1) n =
      code.toNat * 256 ^ (n + 1) + bytesValue f i (n + 1) := by
    rw [hfirst, Nat.pow_succ]
    ring
  rw [shifted_code, ← hsum]
  exact BitVec.eq_of_toNat_eq hmod

/-- n refills shift the next n bytes of the input into the code (R351, R360). -/
theorem refills_of_input {n : Nat} {s : State} (hr : s.raced = []) (h : s.ipos.toNat + n ≤ s.ilen.toNat) :
    refills n s = .ok (s.withInput (s.ipos + BitVec.ofNat 64 n)
      (BitVec.ofNat 32 (s.decCode.toNat * 256 ^ n + bytesValue s.ibufByte s.ipos.toNat n))) := by
  induction n generalizing s with
  | zero => simp [refills, bytesValue, State.withInput]
  | succ n ih =>
    have hlt : s.ipos.toNat < s.ilen.toNat := by omega
    have hpos : s.ipos + 1 + BitVec.ofNat 64 n = s.ipos + BitVec.ofNat 64 (n + 1) := by
      rw [BitVec.add_assoc, BitVec.ofNat_add, BitVec.add_comm 1]
      rfl
    have hread := ih (s := s.withInput (s.ipos + 1) ((s.decCode <<< 8) ||| (s.ibufByte s.ipos.toNat).setWidth 32)) hr
      (by show (s.ipos + 1).toNat + n ≤ s.ilen.toNat; rw [ipos_succ hlt]; omega)
    rw [refills, refill_of_input hr hlt, run_bind_ok, hread, ← hpos, ← shifted_codes, ← ipos_succ hlt]
    rfl

/-- Refills that complete read bytes below `ILEN` (R351). -/
theorem refills_input {n : Nat} {s t : State} (h : refills n s = .ok t) (hi : s.ipos.toNat ≤ s.ilen.toNat) :
    s.ipos.toNat + n ≤ s.ilen.toNat := by
  induction n generalizing s with
  | zero => exact hi
  | succ n ih =>
    obtain ⟨u, hu, ht⟩ := run_bind_eq_ok.mp h
    have hl : u.ilen = s.ilen := (congrArg State.ilen (refill_frame hu).1.1 :)
    have hle := ih ht (refill_inputOk hu)
    rw [(refill_frame hu).2, hl] at hle
    omega

/-! ### `DEC_INIT` (R360) -/

/-- What a fault of `DEC_INIT` leaves unspecified (R360). -/
def looseDecInit (s : State) : State :=
  drawn (looseLevel (looseIpos (looseCtxstate (looseDecoder (looseProb (looseOpos (looseObuf s)))))))

theorem exec_decInit {s : State} {lvl : BitVec 6} (hl : levelOk lvl = true) (hw : windowFits lvl s = true) :
    exec (.decInit lvl) s = .next (finish (encode (.decInit lvl)) s (looseDecInit s) (decInitBody lvl s)) :=
  congrArg _ ((if_pos hl).trans (if_pos hw))

theorem executes_decInit {s : State} {lvl : BitVec 6} (hl : levelOk lvl = true) (hw : windowFits lvl s = true) :
    Executes (.decInit lvl) s (decInitBody lvl s) := by
  refine ⟨⟨looseDecInit s, ?_, exec_decInit hl hw⟩, fun t ht => ?_⟩
  · exact ((Loosened.refl true s).obuf rfl).opos.prob.decoder.ctxstate.ipos.level.drawn.err
  · have he := decInitBody_ends lvl s
    rw [ht] at he
    obtain ⟨p, v, rfl, -⟩ := he
    rfl

/-- With five bytes `DEC_INIT` reads them all, and then looks at the first (R360). -/
theorem decInitBody_of_input {s : State} (lvl : BitVec 6) (hr : s.raced = []) (h : 5 ≤ s.ilen.toNat) :
    decInitBody lvl s =
      if s.ibufByte 0 = 0#8 then
        .ok { openDecode lvl s with ipos := 5, decCode := BitVec.ofNat 32 (bytesValue s.ibufByte 1 4), mode := .dec }
      else .error .badStreamStart := by
  have hfirst : inByte (openDecode lvl s) = .ok (s.ibufByte 0, (openDecode lvl s).withInput 1 0) :=
    inByte_of_input (s := openDecode lvl s) hr (show 0 < s.ilen.toNat by omega)
  have hrest := refills_of_input (n := 4) (s := (openDecode lvl s).withInput 1 0) hr h
  have hcode : (0 : Word).toNat * 256 ^ 4 + bytesValue s.ibufByte 1 4 = bytesValue s.ibufByte 1 4 := Nat.zero_add _
  rw [decInitBody, hfirst, run_bind_ok, hrest, run_bind_ok, ← hcode]
  rfl

/-- With fewer than five bytes it raises `TRUNCATED`, whatever the first one is (R360). -/
theorem decInitBody_of_no_input {s : State} (lvl : BitVec 6) (h : s.ilen.toNat < 5) :
    decInitBody lvl s = .error .truncated := by
  unfold decInitBody
  cases hb : inByte (openDecode lvl s) with
  | error k => rw [(inByte_eq_error.mp hb).2, run_bind_error]
  | ok r =>
    obtain ⟨hlt, rfl⟩ := inByte_eq_ok.mp hb
    rw [run_bind_ok]
    cases hc : refills 4 { openDecode lvl s with ipos := (openDecode lvl s).ipos + 1 } with
    | error k => rw [refills_eq_error hc, run_bind_error]
    | ok t =>
      have hle : 1 + 4 ≤ s.ilen.toNat := refills_input hc hlt
      omega

theorem bytesValue_lt (f : Nat → Byte) (i n : Nat) : bytesValue f i n < 256 ^ n := by
  induction n with
  | zero => exact Nat.one_pos
  | succ n ih =>
    have hb := (f (i + n)).isLt
    rw [bytesValue, Nat.pow_succ]
    omega

/-- Settles O40: both checks of the level pass, and the body reads five bytes or finds the input too short. -/
theorem decInitOpensStream : Obligations.DecInitOpensStream := by
  intro s lvl k hk hfit hr hs
  have hlt := (List.getElem?_eq_some_iff.mp hk).1
  have hdepth : lvl.toNat < [1, 2, 4, 8, 16, 32, 64, 128, 256, 1024].length := hlt
  obtain ⟨hle, rfl, -⟩ := levelTable hk (List.getElem?_eq_getElem hdepth)
  have hx := executes_decInit (s := s) (lvl := lvl) (decide_eq_true hle) (decide_eq_true hfit)
  refine ⟨fun h5 h0 => ?_, fun h5 => hx.faults hs (decInitBody_of_no_input lvl h5), fun h5 h0 => ?_⟩
  · have hof : lvl.setWidth 4 = BitVec.ofNat 4 lvl.toNat := BitVec.eq_of_toNat_eq (BitVec.toNat_setWidth ..)
    refine ⟨_, hx.next ((decInitBody_of_input lvl hr h5).trans (if_pos h0)), ?_, ?_, fun c => ?_⟩
    · rw [← hof]
      rfl
    · exact Nat.mod_eq_of_lt (bytesValue_lt s.ibufByte 1 4)
    · show (s.clearProb.probAt c).toNat = 1024
      rw [probAt_clearProb]
      rfl
  · exact hx.faults hs ((decInitBody_of_input lvl hr h5).trans (if_neg h0))

end Sys2Proof.Machine
end

section
/-! SUPPORT. A decode command of bits as a procedure and then the write of `RESULT`; one decoded bit in natural numbers (R351, R352,
R361). -/

namespace Sys2Proof.Machine

open Sys2Proof.Claims

/-! ### A procedure and then the write of `RESULT` (R39) -/

theorem DecFrame.err {s t : State} (h : DecFrame s t) : t.err = s.err := (congrArg State.err h.1 :)

theorem DecFrame.mode {s t : State} (h : DecFrame s t) : t.mode = s.mode := (congrArg State.mode h.1 :)

theorem DecFrame.ilen {s t : State} (h : DecFrame s t) : t.ilen = s.ilen := (congrArg State.ilen h.1 :)

/-- The state with another word in `RESULT`. -/
def State.withResult (s : State) (v : Word) : State := { s with result := v }

/-- What a decode command of bits runs: a procedure, and then the write of what it read to `RESULT`. -/
def writeResult {α : Type} (f : α → Word) (r : Run (α × State)) : Run State := r.bind fun x => .ok (x.2.withResult (f x.1))

theorem writeResult_eq_ok {α : Type} {f : α → Word} {r : Run (α × State)} {t : State} :
    writeResult f r = .ok t ↔ ∃ x, r = .ok x ∧ t = x.2.withResult (f x.1) :=
  run_bind_eq_ok.trans (exists_congr fun _ => and_congr_right fun _ => by rw [Except.ok.injEq, eq_comm])

theorem writeResult_eq_error {α : Type} {f : α → Word} {r : Run (α × State)} {k : Errcode} :
    writeResult f r = .error k ↔ r = .error k := by
  cases r <;> simp [writeResult]

/-- A decode command of bits runs its procedure, over which a fault is recorded that leaves `STATUS.ERR` to the recording. -/
theorem executes_writeResult {α : Type} {i : Instr} {s loose : State} {f : α → Word} {r : Run (α × State)}
    (hl : loose.err = s.err) (hx : exec i s = .next (finish (encode i) s loose (writeResult f r)))
    (hf : ∀ x, r = .ok x → DecFrame s x.2) : Executes i s (writeResult f r) := by
  refine ⟨⟨loose, hl, hx⟩, fun t ht => ?_⟩
  obtain ⟨x, hr, rfl⟩ := writeResult_eq_ok.mp ht
  exact (hf x hr).err

/-- A decoded bit as `RESULT` holds it (R361). -/
def bitWord (b : Bool) : Word := BitVec.ofNat 32 (bit b)

theorem bitWord_toNat (b : Bool) : (bitWord b).toNat = bit b := by cases b <;> rfl

theorem executes_decBit {s : State} (hm : s.mode = .dec) (c : Ctx) :
    Executes (.decBit c) s (writeResult bitWord (decodeBit c s)) :=
  executes_writeResult (looseDecBit_keeps c s).1 (congrArg _ (inMode_of_eq hm _ _)) fun _ hx => (decodeBit_frame hx).2.1

theorem executes_decDirect {s : State} {n : BitVec 6} (hm : s.mode = .dec) (hk : directCountOk n = true) :
    Executes (.decDirect n) s (writeResult id (decodeDirect n.toNat s)) :=
  executes_writeResult (looseDecDirect_keeps s).1 (congrArg _ ((inMode_of_eq hm _ _).trans (if_pos hk)))
    fun _ hx => (decodeDirectFrom_frame hx).1

/-! ### One refill in natural numbers (R351) -/

theorem normalizeDec_of_lt {s : State} (h : s.decRange.toNat < 2 ^ 24) :
    normalizeDec s = refill { s with decRange := s.decRange <<< 8 } := if_pos (BitVec.lt_def.mpr h)

theorem normalizeDec_of_ge {s : State} (h : 2 ^ 24 ≤ s.decRange.toNat) : normalizeDec s = .ok s :=
  if_neg (BitVec.not_lt.mpr h)

/-- A refill needs a byte, or none is needed (R351). -/
theorem normalizeDec_of_input {s : State} (h : s.ipos.toNat < s.ilen.toNat ∨ 2 ^ 24 ≤ s.decRange.toNat) :
    ∃ t, normalizeDec s = .ok t := by
  rcases h with hi | hr
  · exact normalizeDec_input hi
  · exact ⟨s, normalizeDec_of_ge hr⟩

/-- What one renormalisation leaves, in natural numbers (R351). -/
theorem normalizeDec_refilled {s t : State} (hr : s.raced = []) (h : normalizeDec s = .ok t) :
    Refilled s.decCode.toNat s.decRange.toNat s t := by
  unfold Refilled
  split
  · next hlt =>
    rw [normalizeDec_of_lt hlt] at h
    have hi : s.ipos.toNat < s.ilen.toNat := by
      obtain ⟨r, hr, -⟩ := run_bind_eq_ok.mp h
      exact (inByte_eq_ok.mp hr).1
    rw [refill_of_input (s := { s with decRange := s.decRange <<< 8 }) hr hi] at h
    cases h
    exact ⟨shifted_range (BitVec.lt_def.mpr hlt), shifted_code _ _, ipos_succ hi⟩
  · next hge =>
    rw [normalizeDec_of_ge (by omega)] at h
    cases h
    exact ⟨rfl, rfl, rfl⟩

/-! ### One bit (R352) -/

/-- The bit is 1 exactly when the code is not below the split (R352). -/
theorem codedBit_eq (c : Ctx) (s : State) : codedBit c s = decide (split s.decRange (s.probAt c) ≤ s.decCode.toNat) := by
  have hlt : s.decCode < decBound c s ↔ s.decCode.toNat < split s.decRange (s.probAt c) := by
    rw [BitVec.lt_def, decBound, (bound_toNat _ _).1]
  rw [codedBit, decide_eq_decide.mpr hlt, ← decide_not, decide_eq_decide, Nat.not_lt]

theorem narrowDec_code (c : Ctx) (s : State) :
    (narrowDec c (codedBit c s) s).decCode.toNat =
      if codedBit c s then s.decCode.toNat - split s.decRange (s.probAt c) else s.decCode.toNat := by
  split
  · next hb =>
    rw [hb]
    rw [codedBit_eq, decide_eq_true_eq, ← (bound_toNat _ _).1] at hb
    show (s.decCode - decBound c s).toNat = _
    rw [decBound, BitVec.toNat_sub_of_le (BitVec.le_def.mpr hb), (bound_toNat _ _).1]
  · next hb =>
    rw [Bool.not_eq_true] at hb
    rw [hb]
    rfl

theorem narrowDec_width (c : Ctx) (s : State) :
    (narrowDec c (codedBit c s) s).decRange.toNat =
      if codedBit c s then s.decRange.toNat - split s.decRange (s.probAt c) else split s.decRange (s.probAt c) := by
  rw [narrowDec_decRange, codedBit_eq]
  simp only [decide_eq_true_eq, ← Nat.not_lt, ite_not]

section OneBit

variable {s : State} {c : Ctx} {r : Bool × State}

theorem decodeBit_of_input (h : s.ipos.toNat < s.ilen.toNat ∨ 2 ^ 24 ≤ (narrowDec c (codedBit c s) s).decRange.toNat) :
    ∃ r, decodeBit c s = .ok r := by
  obtain ⟨t, ht⟩ : ∃ t, normalizeDec ((narrowDec c (codedBit c s) s).update c (codedBit c s)) = .ok t := by
    refine normalizeDec_of_input ?_
    generalize codedBit c s = b at h ⊢
    cases b <;> exact h
  exact ⟨_, run_bind_eq_ok.mpr ⟨t, ht, rfl⟩⟩

theorem decodeBit_refilled (hr : s.raced = []) (h : decodeBit c s = .ok r) :
    Refilled (narrowDec c (codedBit c s) s).decCode.toNat (narrowDec c (codedBit c s) s).decRange.toNat s r.2 := by
  obtain ⟨t, ht, hx⟩ := run_bind_eq_ok.mp h
  cases hx
  have hn := normalizeDec_refilled (by cases codedBit c s <;> exact hr) ht
  cases hb : codedBit c s <;> rw [hb] at hn <;> exact hn

/-- `DecodeBit` adapts its own estimator only (R252). -/
theorem decodeBit_probAt (h : decodeBit c s = .ok r) (c' : Ctx) :
    r.2.probAt c' = if c' = c then adapt (s.probAt c) (codedBit c s) else s.probAt c' := by
  rw [probAt_of_prob (decodeBit_prob h), probAt_update]

end OneBit

/-- Settles O41: the body is one renormalisation of the part that the code selects, and `Update` moves its own estimator. -/
theorem decBitSelectsAndRefills : Obligations.DecBitSelectsAndRefills := by
  rintro s c _ range b hm hr rfl hb hrange hi
  rw [← codedBit_eq] at hb
  subst hb
  rw [← narrowDec_width] at hrange
  subst hrange
  obtain ⟨r, hd⟩ := decodeBit_of_input hi
  obtain ⟨hbit, ⟨hframe, -⟩, -⟩ := decodeBit_frame hd
  refine ⟨r.2.withResult (bitWord r.1), (executes_decBit hm c).next (writeResult_eq_ok.mpr ⟨r, hd, rfl⟩), ?_, ?_, ?_, ?_,
    fun c' hc => ?_⟩
  · exact congrArg (State.withResult · (bitWord r.1)) hframe
  · exact (bitWord_toNat r.1).trans (by rw [hbit]; rfl)
  · rw [← narrowDec_code]
    exact decodeBit_refilled hr hd
  · show (r.2.probAt c).toNat = _
    rw [decodeBit_probAt hd, if_pos rfl, adapt_toNat]
  · show r.2.probAt c' = _
    rw [decodeBit_probAt hd, if_neg hc]

end Sys2Proof.Machine
end

section
/-! SUPPORT. Direct bits (R353, R362): no procedure reads `RESULT`, and `DecodeDirect` is its top bit and the bits below it. -/

namespace Sys2Proof.Machine

open Sys2Proof.Claims

/-! ### The coder does not read `RESULT` (R39) -/

/-- The run with another word in `RESULT` of the state it completes in. -/
def runWithResult {α : Type} (v : Word) (r : Run (α × State)) : Run (α × State) := r.map fun x => (x.1, x.2.withResult v)

theorem runWithResult_eq_ok {α : Type} {v : Word} {r : Run (α × State)} {y : α × State} :
    runWithResult v r = .ok y ↔ ∃ x, r = .ok x ∧ y = (x.1, x.2.withResult v) := by
  cases r <;> simp [runWithResult, Except.map, eq_comm]

theorem runWithResult_eq_error {α : Type} {v : Word} {r : Run (α × State)} {k : Errcode} :
    runWithResult v r = .error k ↔ r = .error k := by
  cases r <;> simp [runWithResult, Except.map]

/-- A sequence of parts that do not read `RESULT` does not read it. -/
theorem runWithResult_bind {α β : Type} {v : Word} {r : Run (α × State)} {f : α × State → Run (β × State)}
    (hf : ∀ a s, f (a, s.withResult v) = runWithResult v (f (a, s))) :
    (runWithResult v r).bind f = runWithResult v (r.bind f) := by
  cases r with
  | ok x => exact hf x.1 x.2
  | error k => rfl

theorem inByte_withResult (s : State) (v : Word) : inByte (s.withResult v) = runWithResult v (inByte s) := by
  unfold inByte
  rw [show (s.withResult v).ilen = s.ilen from rfl, show (s.withResult v).ipos = s.ipos from rfl]
  split <;> rfl

theorem refill_withResult (s : State) (v : Word) : refill (s.withResult v) = (refill s).map (State.withResult · v) := by
  rw [refill, refill, inByte_withResult]
  cases inByte s <;> rfl

theorem normalizeDec_withResult (s : State) (v : Word) :
    normalizeDec (s.withResult v) = (normalizeDec s).map (State.withResult · v) := by
  unfold normalizeDec
  rw [show (s.withResult v).decRange = s.decRange from rfl]
  split
  · exact refill_withResult { s with decRange := s.decRange <<< 8 } v
  · rfl

/-- One bit of `DecodeDirect` (R353). -/
def decodeDirectBit (s : State) : Run (Bool × State) :=
  (normalizeDec (narrowDecDirect (codedDirect s) s)).bind fun t => .ok (codedDirect s, t)

theorem decodeDirectBit_withResult (s : State) (v : Word) :
    decodeDirectBit (s.withResult v) = runWithResult v (decodeDirectBit s) := by
  have hn : narrowDecDirect (codedDirect s) (s.withResult v) = (narrowDecDirect (codedDirect s) s).withResult v := by
    cases codedDirect s <;> rfl
  rw [decodeDirectBit, show codedDirect (s.withResult v) = codedDirect s from rfl, hn, normalizeDec_withResult, decodeDirectBit]
  cases normalizeDec (narrowDecDirect (codedDirect s) s) <;> rfl

theorem decodeBit_withResult (c : Ctx) (s : State) (v : Word) :
    decodeBit c (s.withResult v) = runWithResult v (decodeBit c s) := by
  have hn : (narrowDec c (codedBit c s) (s.withResult v)).update c (codedBit c s) =
      ((narrowDec c (codedBit c s) s).update c (codedBit c s)).withResult v := by
    cases codedBit c s <;> rfl
  rw [decodeBit, show codedBit c (s.withResult v) = codedBit c s from rfl, hn, normalizeDec_withResult, decodeBit]
  cases normalizeDec ((narrowDec c (codedBit c s) s).update c (codedBit c s)) <;> rfl

theorem decodeDirectFrom_succ (n : Nat) (w : Word) (s : State) :
    decodeDirectFrom (n + 1) w s =
      (decodeDirectBit s).bind fun x => decodeDirectFrom n (w <<< 1 ||| (BitVec.ofBool x.1).setWidth 32) x.2 := by
  rw [decodeDirectFrom, decodeDirectBit]
  cases normalizeDec (narrowDecDirect (codedDirect s) s) <;> rfl

theorem decodeDirect_withResult (n : Nat) (s : State) (v : Word) :
    decodeDirect n (s.withResult v) = runWithResult v (decodeDirect n s) := by
  unfold decodeDirect
  generalize (0 : Word) = w
  induction n generalizing w s with
  | zero => rfl
  | succ n ih =>
    rw [decodeDirectFrom_succ, decodeDirectFrom_succ, decodeDirectBit_withResult]
    exact runWithResult_bind fun b t => ih t _

/-! ### The top bit and the rest (R353) -/

/-- A direct bit read is added to twice what was read so far (R353). -/
theorem appendBit_toNat (v : Word) (b : Bool) :
    (v <<< 1 ||| (BitVec.ofBool b).setWidth 32).toNat = (v.toNat * 2 + bit b) % 2 ^ 32 := by
  have hd : v.toNat * 2 % 2 ^ 32 = 2 ^ 1 * (v.toNat % 2 ^ 31) := by omega
  have hb : (BitVec.ofBool b).toNat = bit b := by cases b <;> rfl
  have hlt : bit b < 2 ^ 1 := by cases b <;> decide
  rw [BitVec.toNat_or, BitVec.toNat_shiftLeft, BitVec.toNat_setWidth_of_le (by decide), Nat.shiftLeft_eq, pow_one, hd,
    hb, ← Nat.two_pow_add_eq_or_of_lt hlt]
  omega

/-- The word of n bits read after the word v (R353). -/
def appendWord (v : Word) (n : Nat) (x : Word) : Word := BitVec.ofNat 32 (v.toNat * 2 ^ n + x.toNat)

theorem appendWord_bit (v x : Word) (n : Nat) (b : Bool) :
    appendWord (v <<< 1 ||| (BitVec.ofBool b).setWidth 32) n x = appendWord v (n + 1) (appendWord (bitWord b) n x) := by
  refine BitVec.eq_of_toNat_eq ?_
  have hsum : v.toNat * 2 ^ (n + 1) + (bit b * 2 ^ n + x.toNat) = (v.toNat * 2 + bit b) * 2 ^ n + x.toNat := by
    rw [Nat.pow_succ]
    ring
  simp only [appendWord, BitVec.toNat_ofNat, appendBit_toNat, bitWord_toNat]
  rw [Nat.add_mod_mod, hsum]
  exact ((Nat.mod_modEq _ _).mul_right _).add_right _

/-- The first bit read, after none (R353). -/
theorem zero_append_bit (b : Bool) : (0 : Word) <<< 1 ||| (BitVec.ofBool b).setWidth 32 = bitWord b := by
  cases b <;> decide

theorem appendWord_zero (v : Word) : appendWord v 0 0 = v := by simp [appendWord]

/-- What is read after v is read as if from 0, and put after v. -/
theorem decodeDirectFrom_eq (n : Nat) (v : Word) (s : State) :
    decodeDirectFrom n v s = (decodeDirect n s).map fun x => (appendWord v n x.1, x.2) := by
  unfold decodeDirect
  induction n generalizing v s with
  | zero => exact congrArg (fun w => Except.ok (w, s)) (appendWord_zero v).symm
  | succ n ih =>
    rw [decodeDirectFrom_succ, decodeDirectFrom_succ]
    cases decodeDirectBit s with
    | error k => rfl
    | ok x =>
      rw [run_bind_ok, run_bind_ok, zero_append_bit, ih (bitWord x.1), ih (v <<< 1 ||| _)]
      cases decodeDirectFrom n 0 x.2 with
      | error k => rfl
      | ok y => exact congrArg (fun w => Except.ok (w, y.2)) (appendWord_bit v y.1 n x.1)

/-- n + 1 direct bits are one, the top bit, and then n (R353). -/
theorem decodeDirect_succ (n : Nat) (s : State) :
    decodeDirect (n + 1) s =
      (decodeDirectBit s).bind fun x => (decodeDirect n x.2).map fun y => (appendWord (bitWord x.1) n y.1, y.2) := by
  rw [decodeDirect, decodeDirectFrom_succ]
  refine congrArg _ (funext fun x => ?_)
  rw [decodeDirectFrom_eq, zero_append_bit]

theorem decodeDirectBit_frame {s : State} {x : Bool × State} (h : decodeDirectBit s = .ok x) :
    x.1 = codedDirect s ∧ DecFrame s x.2 ∧ x.2.prob = s.prob ∧ x.2.ipos.toNat ≤ s.ipos.toNat + 1 := by
  obtain ⟨t, ht, hx⟩ := run_bind_eq_ok.mp h
  cases hx
  obtain ⟨hframe, hpos⟩ := normalizeDec_frame ht
  have hi : (narrowDecDirect (codedDirect s) s).ipos = s.ipos := by cases codedDirect s <;> rfl
  exact ⟨rfl, (narrowDecDirect_frame _ s).trans hframe, decodeDirectBit_prob ht, hi ▸ hpos⟩

theorem narrowDecDirect_width (b : Bool) (s : State) : (narrowDecDirect b s).decRange.toNat = s.decRange.toNat / 2 := by
  cases b <;> exact half_toNat s.decRange

theorem decodeDirectBit_of_input {s : State} (h : s.ipos.toNat < s.ilen.toNat ∨ 2 ^ 24 ≤ s.decRange.toNat / 2) :
    ∃ x, decodeDirectBit s = .ok x := by
  obtain ⟨t, ht⟩ : ∃ t, normalizeDec (narrowDecDirect (codedDirect s) s) = .ok t := by
    refine normalizeDec_of_input ?_
    rw [narrowDecDirect_width]
    cases codedDirect s <;> exact h
  exact ⟨_, run_bind_eq_ok.mpr ⟨t, ht, rfl⟩⟩

/-- n bytes are enough for n bits (R351). -/
theorem decodeDirect_of_input {n : Nat} {s : State} (h : s.ipos.toNat + n ≤ s.ilen.toNat) :
    ∃ y, decodeDirect n s = .ok y := by
  induction n generalizing s with
  | zero => exact ⟨_, rfl⟩
  | succ n ih =>
    obtain ⟨x, hx⟩ := decodeDirectBit_of_input (s := s) (.inl (by omega))
    obtain ⟨-, hframe, -, hpos⟩ := decodeDirectBit_frame hx
    obtain ⟨y, hy⟩ := ih (s := x.2) (by rw [hframe.ilen]; omega)
    exact ⟨_, by rw [decodeDirect_succ, hx, run_bind_ok, hy]; rfl⟩

/-! ### `DEC_DIRECT` (R362) -/

/-- The code after a direct bit (R353). -/
theorem narrowDecDirect_code (s : State) :
    (narrowDecDirect (codedDirect s) s).decCode.toNat = s.decCode.toNat - bit (codedDirect s) * (s.decRange.toNat / 2) := by
  by_cases h : s.decRange >>> 1 ≤ s.decCode
  · rw [codedDirect, decide_eq_true h]
    show (s.decCode - s.decRange >>> 1).toNat = s.decCode.toNat - 1 * _
    rw [BitVec.toNat_sub_of_le h, half_toNat, Nat.one_mul]
  · rw [codedDirect, decide_eq_false h]
    show s.decCode.toNat = s.decCode.toNat - 0 * _
    rw [Nat.zero_mul, Nat.sub_zero]

theorem decodeDirectBit_refilled {s : State} {x : Bool × State} (hr : s.raced = []) (h : decodeDirectBit s = .ok x) :
    Refilled (s.decCode.toNat - bit (codedDirect s) * (s.decRange.toNat / 2)) (s.decRange.toNat / 2) s x.2 := by
  obtain ⟨t, ht, hx⟩ := run_bind_eq_ok.mp h
  cases hx
  have hn := normalizeDec_refilled (by cases codedDirect s <;> exact hr) ht
  rw [narrowDecDirect_width, narrowDecDirect_code] at hn
  generalize s.decCode.toNat - bit (codedDirect s) * (s.decRange.toNat / 2) = code at hn ⊢
  cases hb : codedDirect s <;> rw [hb] at hn <;> exact hn

theorem executes_decDirect_one {s : State} (hm : s.mode = .dec) :
    Executes (.decDirect 1) s (writeResult bitWord (decodeDirectBit s)) := by
  have hx := executes_decDirect (n := 1) hm (by decide)
  have hone : writeResult id (decodeDirect (1 : BitVec 6).toNat s) = writeResult bitWord (decodeDirectBit s) := by
    rw [show (1 : BitVec 6).toNat = 0 + 1 from rfl, decodeDirect_succ]
    cases decodeDirectBit s with
    | error k => rfl
    | ok x => exact congrArg (fun w => Except.ok (x.2.withResult w)) (appendWord_zero (bitWord x.1))
  rwa [hone] at hx

theorem directCountOk_of_le {n : BitVec 6} (h1 : 1 ≤ n.toNat) (h32 : n.toNat ≤ 32) : directCountOk n = true :=
  decide_eq_true ⟨h1, h32⟩

/-- `DEC_DIRECT k` in the state that `DEC_DIRECT 1` leaves. -/
theorem executes_decDirect_rest {s : State} {x : Bool × State} {k : Nat} (hm : s.mode = .dec)
    (hx : decodeDirectBit s = .ok x) (h1 : 1 ≤ k) (h31 : k ≤ 31) :
    Executes (.decDirect (BitVec.ofNat 6 k)) (x.2.withResult (bitWord x.1))
      (writeResult id (runWithResult (bitWord x.1) (decodeDirect k x.2))) := by
  have hk : (BitVec.ofNat 6 k).toNat = k := Nat.mod_eq_of_lt (by omega)
  have hmode : x.2.mode = .dec := (decodeDirectBit_frame hx).2.1.mode.trans hm
  have he := executes_decDirect (s := x.2.withResult (bitWord x.1)) (n := BitVec.ofNat 6 k) hmode
    (directCountOk_of_le (by omega) (by omega))
  rwa [hk, decodeDirect_withResult] at he

/-- Settles O42: one bit is a renormalisation of the half that the code selects, and more bits are `decodeDirect_succ`. -/
theorem decDirectIsMostSignificantFirst : Obligations.DecDirectIsMostSignificantFirst := by
  constructor
  · intro s hm hr hi
    obtain ⟨x, hx⟩ := decodeDirectBit_of_input hi
    obtain ⟨hbit, ⟨hframe, -⟩, hprob, -⟩ := decodeDirectBit_frame hx
    rw [hprob] at hframe
    have hres : (x.2.withResult (bitWord x.1)).result.toNat = bit (codedDirect s) := hbit ▸ bitWord_toNat x.1
    refine ⟨_, (executes_decDirect_one hm).next (writeResult_eq_ok.mpr ⟨x, hx, rfl⟩), ?_, ?_, ?_⟩
    · exact congrArg (State.withResult · (bitWord x.1)) hframe
    · rw [hres, bit, codedDirect, ← half_toNat]
      simp only [decide_eq_true_eq, BitVec.le_def]
    · rw [hres]
      exact decodeDirectBit_refilled hr hx
  · intro s n k hm hs hn h1 h31
    have hone := executes_decDirect_one hm
    have hall := executes_decDirect (n := n) hm (directCountOk_of_le (by omega) (by omega))
    rw [hn, decodeDirect_succ] at hall
    refine ⟨fun hi => ?_, fun u v hu hv => ?_, fun t ht => ?_, fun e he => ?_, fun u e hu he => ?_⟩
    · obtain ⟨y, hy⟩ := decodeDirect_of_input (n := k + 1) hi
      rw [decodeDirect_succ] at hy
      exact ⟨_, (hall.runs_iff hs).mpr (writeResult_eq_ok.mpr ⟨y, hy, rfl⟩)⟩
    · obtain ⟨x, hx, rfl⟩ := writeResult_eq_ok.mp ((hone.runs_iff hs).mp hu)
      have hrest := executes_decDirect_rest hm hx h1 h31
      obtain ⟨y', hy', rfl⟩ := writeResult_eq_ok.mp ((hrest.runs_iff hu.2).mp hv)
      obtain ⟨y, hy, rfl⟩ := runWithResult_eq_ok.mp hy'
      refine hall.next (writeResult_eq_ok.mpr ⟨(appendWord (bitWord x.1) k y.1, y.2), ?_, rfl⟩)
      rw [hx, run_bind_ok, hy]
      rfl
    · obtain ⟨z, hz, rfl⟩ := writeResult_eq_ok.mp ((hall.runs_iff hs).mp ht)
      obtain ⟨x, hx, hz⟩ := run_bind_eq_ok.mp hz
      have hu := (hone.runs_iff hs).mpr (writeResult_eq_ok.mpr ⟨x, hx, rfl⟩)
      have hrest := executes_decDirect_rest hm hx h1 h31
      cases hy : decodeDirect k x.2 with
      | error e => rw [hy] at hz; cases hz
      | ok y =>
        have hy' := runWithResult_eq_ok (v := bitWord x.1).mpr ⟨y, hy, rfl⟩
        exact ⟨_, _, hu, (hrest.runs_iff hu.2).mpr (writeResult_eq_ok.mpr ⟨_, hy', rfl⟩)⟩
    · have hx := writeResult_eq_error.mp ((hone.faults_iff hs).mp he)
      exact hall.faults hs (writeResult_eq_error.mpr (by rw [hx, run_bind_error]))
    · obtain ⟨x, hx, rfl⟩ := writeResult_eq_ok.mp ((hone.runs_iff hs).mp hu)
      have hrest := executes_decDirect_rest hm hx h1 h31
      have hy := runWithResult_eq_error.mp (writeResult_eq_error.mp ((hrest.faults_iff hu.2).mp he))
      refine hall.faults hs (writeResult_eq_error.mpr ?_)
      rw [hx, run_bind_ok, hy]
      rfl

end Sys2Proof.Machine
end

section
/-! SUPPORT. Bits decoded down a tree (R354): what both tree commands decode, as `DEC_BIT` commands and as a symbol. -/

namespace Sys2Proof.Machine

open Sys2Proof.Claims

/-! ### A list of bits and its node -/

/-- n bits decoded down the tree at `base` from node m. -/
def decodePath (base : Ctx) : Nat → Nat → State → Run (List Bool × State)
  | 0, _, s => .ok ([], s)
  | n + 1, m, s => (decodeBit (node base m) s).bind fun x =>
      (decodePath base n (2 * m + bit x.1) x.2).map fun y => (x.1 :: y.1, y.2)

/-- The node these bits lead to from node m (R305). -/
def nodeAfter (m : Nat) (bits : List Bool) : Nat := bits.foldl (fun m b => 2 * m + bit b) m

/-- The number of these bits, the first one bit 0 (R306). -/
def lsbValue : List Bool → Nat
  | [] => 0
  | b :: bits => bit b + 2 * lsbValue bits

theorem nodeAfter_cons (m : Nat) (b : Bool) (bits : List Bool) : nodeAfter m (b :: bits) = nodeAfter (2 * m + bit b) bits := rfl

theorem bit_lt_two (b : Bool) : bit b < 2 := by cases b <;> decide

/-- The node the bits started at is that many levels above. -/
theorem nodeAfter_div (m : Nat) (bits : List Bool) : nodeAfter m bits / 2 ^ bits.length = m := by
  induction bits generalizing m with
  | nil => exact Nat.div_one m
  | cons b bits ih =>
    have hb := bit_lt_two b
    rw [nodeAfter_cons, List.length_cons, Nat.pow_succ, ← Nat.div_div_eq_div_mul, ih]
    omega

theorem lsbValue_lt (bits : List Bool) : lsbValue bits < 2 ^ bits.length := by
  induction bits with
  | nil => exact Nat.one_pos
  | cons b bits ih =>
    have hb := bit_lt_two b
    rw [lsbValue, List.length_cons, Nat.pow_succ]
    omega

/-- A path of one bit more. -/
theorem decodePath_succ_eq_ok {base : Ctx} {n m : Nat} {s : State} {y : List Bool × State} :
    decodePath base (n + 1) m s = .ok y ↔
      ∃ x z, decodeBit (node base m) s = .ok x ∧ decodePath base n (2 * m + bit x.1) x.2 = .ok z ∧ y = (x.1 :: z.1, z.2) := by
  rw [decodePath, run_bind_eq_ok]
  refine exists_congr fun x => ?_
  cases decodePath base n (2 * m + bit x.1) x.2 <;> simp [Except.map, eq_comm]

theorem decodePath_frame {base : Ctx} {n m : Nat} {s : State} {y : List Bool × State} (h : decodePath base n m s = .ok y) :
    DecFrame s y.2 ∧ y.1.length = n := by
  induction n generalizing m s y with
  | zero => cases h; exact ⟨.refl _, rfl⟩
  | succ n ih =>
    obtain ⟨x, z, hx, hz, rfl⟩ := decodePath_succ_eq_ok.mp h
    obtain ⟨hframe, hlen⟩ := ih hz
    exact ⟨(decodeBit_frame hx).2.1.trans hframe, congrArg (· + 1) hlen⟩

/-- n bytes are enough for n bits (R351). -/
theorem decodePath_of_input {base : Ctx} {n m : Nat} {s : State} (h : s.ipos.toNat + n ≤ s.ilen.toNat) :
    ∃ y, decodePath base n m s = .ok y := by
  induction n generalizing m s with
  | zero => exact ⟨_, rfl⟩
  | succ n ih =>
    obtain ⟨x, hx⟩ := decodeBit_input (node base m) (s := s) (by omega)
    obtain ⟨-, hframe, hpos⟩ := decodeBit_frame hx
    obtain ⟨z, hz⟩ := ih (s := x.2) (m := 2 * m + bit x.1) (by rw [hframe.ilen]; omega)
    exact ⟨_, decodePath_succ_eq_ok.mpr ⟨x, z, hx, hz, rfl⟩⟩

theorem decodePath_withResult (base : Ctx) (n m : Nat) (s : State) (v : Word) :
    decodePath base n m (s.withResult v) = runWithResult v (decodePath base n m s) := by
  induction n generalizing m s with
  | zero => rfl
  | succ n ih =>
    rw [decodePath, decodePath, decodeBit_withResult]
    refine runWithResult_bind fun b t => ?_
    rw [ih]
    cases decodePath base n (2 * m + bit b) t <;> rfl

/-- `DecodeTree` answers the node the bits lead to (R354). -/
theorem decodeTreeFrom_eq (base : Ctx) (n m : Nat) (s : State) :
    decodeTreeFrom base n m s = (decodePath base n m s).map fun y => (nodeAfter m y.1, y.2) := by
  induction n generalizing m s with
  | zero => rfl
  | succ n ih =>
    rw [decodeTreeFrom, decodePath]
    cases decodeBit (node base m) s with
    | error k => rfl
    | ok x =>
      rw [run_bind_ok, run_bind_ok, ih]
      cases decodePath base n (2 * m + bit x.1) x.2 <;> rfl

/-- `DecodeRTree` adds up the bits, the first one bit 0 (R354). -/
theorem decodeRtreeFrom_eq (base : Ctx) (n i m sym : Nat) (s : State) :
    decodeRtreeFrom base n i m sym s = (decodePath base n m s).map fun y => (sym + lsbValue y.1 * 2 ^ i, y.2) := by
  induction n generalizing i m sym s with
  | zero => exact congrArg (fun v => Except.ok (v, s)) (by simp [lsbValue])
  | succ n ih =>
    rw [decodeRtreeFrom, decodePath]
    cases decodeBit (node base m) s with
    | error k => rfl
    | ok x =>
      rw [run_bind_ok, run_bind_ok, ih]
      cases decodePath base n (2 * m + bit x.1) x.2 with
      | error k => rfl
      | ok z =>
        refine congrArg (fun v => Except.ok (v, z.2)) ?_
        rw [lsbValue, Nat.pow_succ]
        ring

theorem bit_injective {a b : Bool} (h : bit a = bit b) : a = b := by
  cases a <;> cases b <;> cases h <;> rfl

/-! ### The path as commands (R361) -/

/-- `RESULT` after a `DEC_BIT` for each of these bits: the last one. -/
def lastResult (v : Word) (bits : List Bool) : Word := bits.foldl (fun _ b => bitWord b) v

theorem runs_decBit_iff {s t : State} (hm : s.mode = .dec) (hs : s.err = false) (c : Ctx) :
    Runs (.decBit c) s t ↔ ∃ x, decodeBit c s = .ok x ∧ t = x.2.withResult (bitWord x.1) :=
  ((executes_decBit hm c).runs_iff hs).trans writeResult_eq_ok

theorem faults_decBit_iff {s : State} {k : Errcode} (hm : s.mode = .dec) (hs : s.err = false) (c : Ctx) :
    Faults (.decBit c) s k ↔ decodeBit c s = .error k :=
  ((executes_decBit hm c).faults_iff hs).trans writeResult_eq_error

/-- A `DEC_BIT` that completes leaves a bit in `RESULT` and the decode stream open. -/
theorem decBit_leaves_bit {s u : State} (hm : s.mode = .dec) (hs : s.err = false) {c : Ctx} (h : Runs (.decBit c) s u) :
    (∃ b, u.result.toNat = bit b) ∧ u.mode = .dec := by
  obtain ⟨x, hx, rfl⟩ := (runs_decBit_iff hm hs c).mp h
  exact ⟨⟨x.1, bitWord_toNat x.1⟩, (decodeBit_frame hx).2.1.mode.trans hm⟩

/-- A path whose bits meet P ends in t, where `RESULT` holds its last bit. -/
def PathTo (base : Ctx) (n m : Nat) (s : State) (P : List Bool → Prop) (t : State) : Prop :=
  ∃ y, decodePath base n m s = .ok y ∧ P y.1 ∧ t = y.2.withResult (lastResult s.result y.1)

theorem pathTo_zero {base : Ctx} {m : Nat} {s t : State} {P : List Bool → Prop} : PathTo base 0 m s P t ↔ P [] ∧ t = s := by
  constructor
  · rintro ⟨y, hy, hp, rfl⟩
    cases hy
    exact ⟨hp, rfl⟩
  · rintro ⟨hp, rfl⟩
    exact ⟨_, rfl, hp, rfl⟩

/-- The first bit of a path is a `DEC_BIT`, and the rest of it does not read what that wrote to `RESULT`. -/
theorem pathTo_succ {base : Ctx} {n m : Nat} {s t : State} {P : List Bool → Prop} (hm : s.mode = .dec) (hs : s.err = false) :
    PathTo base (n + 1) m s P t ↔ ∃ u b, Runs (.decBit (node base m)) s u ∧ u.result.toNat = bit b ∧
      PathTo base n (2 * m + bit b) u (fun bits => P (b :: bits)) t := by
  constructor
  · rintro ⟨y, hy, hp, rfl⟩
    obtain ⟨x, z, hx, hz, rfl⟩ := decodePath_succ_eq_ok.mp hy
    refine ⟨x.2.withResult (bitWord x.1), x.1, (runs_decBit_iff hm hs _).mpr ⟨x, hx, rfl⟩, bitWord_toNat x.1,
      (z.1, z.2.withResult (bitWord x.1)), ?_, hp, rfl⟩
    rw [decodePath_withResult]
    exact runWithResult_eq_ok.mpr ⟨z, hz, rfl⟩
  · rintro ⟨u, b, hu, hb, y, hy, hp, rfl⟩
    obtain ⟨x, hx, rfl⟩ := (runs_decBit_iff hm hs _).mp hu
    obtain rfl := bit_injective ((bitWord_toNat x.1).symm.trans hb)
    rw [decodePath_withResult] at hy
    obtain ⟨z, hz, rfl⟩ := runWithResult_eq_ok.mp hy
    exact ⟨(x.1 :: z.1, z.2), decodePath_succ_eq_ok.mpr ⟨x, z, hx, hz, rfl⟩, hp, rfl⟩

/-- `DEC_BIT` commands down a tree complete exactly as the path is decoded (R363). -/
theorem decodesTree_iff {base : Ctx} {n m m' : Nat} {s t : State} (hm : s.mode = .dec) (hs : s.err = false) :
    DecodesTree base n m s m' t ↔ PathTo base n m s (m' = nodeAfter m ·) t := by
  induction n generalizing m s with
  | zero => exact (pathTo_zero (P := (m' = nodeAfter m ·))).symm
  | succ n ih =>
    rw [pathTo_succ hm hs]
    constructor
    · rintro ⟨u, hu, ht⟩
      obtain ⟨⟨b, hb⟩, hmode⟩ := decBit_leaves_bit hm hs hu
      rw [ih hmode hu.2, hb] at ht
      exact ⟨u, b, hu, hb, ht⟩
    · rintro ⟨u, b, hu, hb, ht⟩
      refine ⟨u, hu, ?_⟩
      rw [ih (decBit_leaves_bit hm hs hu).2 hu.2, hb]
      exact ht

/-- The same for a reverse tree (R364). -/
theorem decodesRtree_iff {base : Ctx} {n m sym : Nat} {s t : State} (hm : s.mode = .dec) (hs : s.err = false) :
    DecodesRtree base n m s sym t ↔ PathTo base n m s (sym = lsbValue ·) t := by
  induction n generalizing m s sym with
  | zero => exact (pathTo_zero (P := (sym = lsbValue ·))).symm
  | succ n ih =>
    rw [pathTo_succ hm hs]
    constructor
    · rintro ⟨u, rest, hu, rfl, ht⟩
      obtain ⟨⟨b, hb⟩, hmode⟩ := decBit_leaves_bit hm hs hu
      rw [ih hmode hu.2, hb] at ht
      obtain ⟨y, hy, rfl, rfl⟩ := ht
      exact ⟨u, b, hu, hb, y, hy, congrArg (· + 2 * lsbValue y.1) hb, rfl⟩
    · rintro ⟨u, b, hu, hb, y, hy, rfl, rfl⟩
      refine ⟨u, lsbValue y.1, hu, congrArg (· + 2 * lsbValue y.1) hb.symm, ?_⟩
      rw [ih (decBit_leaves_bit hm hs hu).2 hu.2, hb]
      exact ⟨y, hy, rfl, rfl⟩

/-! ### A fault on the path (R502) -/

section Fault

variable {base : Ctx} {j i m₀ : Nat} {s : State} {y : List Bool × State} {k : Errcode}

/-- A bit that faults stops the path. -/
theorem decodePath_of_fault (hy : decodePath base j m₀ s = .ok y)
    (hk : decodeBit (node base (nodeAfter m₀ y.1)) y.2 = .error k) : decodePath base (j + 1 + i) m₀ s = .error k := by
  induction j generalizing m₀ s y with
  | zero =>
    cases hy
    rw [Nat.zero_add, Nat.add_comm, decodePath]
    exact run_bind_eq_error.mpr (.inl hk)
  | succ j ih =>
    obtain ⟨x, z, hx, hz, rfl⟩ := decodePath_succ_eq_ok.mp hy
    rw [show j + 1 + 1 + i = j + 1 + i + 1 by omega, decodePath, hx, run_bind_ok, ih hz hk]
    rfl

end Fault

/-! ### The estimators a fault leaves unspecified (R502) -/

/-- Estimator c is that of a node of the n levels from node m down, on the way to node `child` or below it. -/
def OnWay (base : Ctx) (n m child : Nat) (c : Ctx) : Prop :=
  ∃ m', c = node base m' ∧ (∃ q, q < n ∧ m' / 2 ^ q = m) ∧ ∃ q, m' = child / 2 ^ q ∨ child = m' / 2 ^ q

theorem onWay_root {base : Ctx} {n m child q : Nat} (h : child / 2 ^ q = m) : OnWay base (n + 1) m child (node base m) :=
  ⟨m, rfl, ⟨0, Nat.succ_pos n, Nat.div_one m⟩, q, .inl h.symm⟩

theorem onWay_below {base c : Ctx} {n m child : Nat} (h : child / 2 = m) (hc : c ∈ subtree base n child) :
    OnWay base (n + 1) m child c := by
  obtain ⟨q, m', hq, hm, rfl⟩ := mem_subtree.mp hc
  refine ⟨m', rfl, ⟨q + 1, by omega, ?_⟩, q, .inr hm.symm⟩
  rw [Nat.pow_succ, ← Nat.div_div_eq_div_mul, hm, h]

theorem onWay_of_child {base c : Ctx} {n m child : Nat} {b : Bool} (h : OnWay base n (2 * m + bit b) child c) :
    OnWay base (n + 1) m child c := by
  obtain ⟨m', hc, ⟨q, hq, hm⟩, hway⟩ := h
  have hb := bit_lt_two b
  refine ⟨m', hc, ⟨q + 1, by omega, ?_⟩, hway⟩
  rw [Nat.pow_succ, ← Nat.div_div_eq_div_mul, hm]
  omega

/-- The node that the bit of node m leads to. -/
def childOf (base : Ctx) (m : Nat) (s : State) : Nat := 2 * m + bit (codedBit (node base m) s)

theorem childOf_div (base : Ctx) (m : Nat) (s : State) : childOf base m s / 2 = m := by
  have hb := bit_lt_two (codedBit (node base m) s)
  rw [childOf]
  omega

/-- Where the bit of node m faults after a path to it, the estimators that can be on the path are on the way to the node the bit leads
to, or below it. -/
theorem reach_of_fault {base c : Ctx} {j i m₀ : Nat} {s : State} {y : List Bool × State} {k : Errcode}
    (hy : decodePath base j m₀ s = .ok y) (hk : decodeBit (node base (nodeAfter m₀ y.1)) y.2 = .error k)
    (hc : c ∈ reach base (j + 1 + i) m₀ s) : OnWay base (j + 1 + i) m₀ (childOf base (nodeAfter m₀ y.1) y.2) c := by
  induction j generalizing m₀ s y with
  | zero =>
    cases hy
    have hroot : childOf base m₀ s / 2 = m₀ := childOf_div base m₀ s
    rw [Nat.zero_add, Nat.add_comm] at hc ⊢
    simp only [nodeAfter, List.foldl_nil] at hk ⊢
    rw [reach, hk] at hc
    rcases List.mem_cons.mp hc with rfl | hc
    · exact onWay_root (q := 1) hroot
    · exact onWay_below hroot hc
  | succ j ih =>
    obtain ⟨x, z, hx, hz, rfl⟩ := decodePath_succ_eq_ok.mp hy
    rw [show j + 1 + 1 + i = j + 1 + i + 1 by omega] at hc ⊢
    rw [reach, hx] at hc
    rcases List.mem_cons.mp hc with rfl | hc
    · refine onWay_root (q := (x.1 :: z.1).length + 1) ?_
      rw [Nat.pow_succ', ← Nat.div_div_eq_div_mul, childOf_div, nodeAfter_div]
    · exact onWay_of_child (ih hz hk hc)

/-- A node of the n levels from node 1 down has a number below 2^n (R305). -/
theorem bounds_of_below_root {n q m : Nat} (hq : q < n) (h : m / 2 ^ q = 1) : 1 ≤ m ∧ m < 2 ^ n := by
  obtain ⟨hlo, hhi⟩ := (Nat.div_eq_iff (Nat.two_pow_pos q)).mp h
  have hpos := Nat.two_pow_pos q
  have hle : 2 ^ (q + 1) ≤ 2 ^ n := Nat.pow_le_pow_right (by omega) hq
  rw [Nat.pow_succ] at hle
  exact ⟨by omega, by omega⟩

/-- From the root of a tree of n-bit symbols these are the nodes of the statements. -/
theorem onPath_of_onWay {base c : Ctx} {n child : Nat} (h : OnWay base n 1 child c) :
    ∃ m', OnPath n child m' ∧ c = base + BitVec.ofNat 12 m' := by
  obtain ⟨m', hc, ⟨q, hq, hm⟩, hway⟩ := h
  obtain ⟨h1, hlt⟩ := bounds_of_below_root hq hm
  exact ⟨m', ⟨h1, hlt, hway⟩, hc⟩

end Sys2Proof.Machine
end

section
/-! SUPPORT. `DEC_TREE` and `DEC_RTREE` as `DEC_BIT` commands down the tree (R363, R364). -/

namespace Sys2Proof.Machine

open Sys2Proof.Claims

/-! ### A symbol (R354) -/

/-- n bits down the tree at `base`, and the symbol they are. -/
def decodeSymbol (value : List Bool → Nat) (base : Ctx) (n : Nat) (s : State) : Run (Nat × State) :=
  (decodePath base n 1 s).map fun y => (value y.1, y.2)

theorem decodeSymbol_eq_ok {value : List Bool → Nat} {base : Ctx} {n : Nat} {s : State} {z : Nat × State} :
    decodeSymbol value base n s = .ok z ↔ ∃ y, decodePath base n 1 s = .ok y ∧ z = (value y.1, y.2) := by
  unfold decodeSymbol
  cases decodePath base n 1 s <;> simp [Except.map, eq_comm]

theorem decodeTree_eq (base : Ctx) (n : Nat) (s : State) :
    decodeTree base n s = decodeSymbol (nodeAfter 1 · - 2 ^ n) base n s := by
  rw [decodeTree, decodeTreeFrom_eq, decodeSymbol]
  cases decodePath base n 1 s <;> rfl

theorem decodeRtree_eq (base : Ctx) (n : Nat) (s : State) : decodeRtree base n s = decodeSymbol lsbValue base n s := by
  rw [decodeRtree, decodeRtreeFrom_eq, decodeSymbol]
  simp only [Nat.zero_add, Nat.pow_zero, Nat.mul_one]

/-! ### The tree commands (R363, R364) -/

/-- What a fault of a tree command leaves unspecified (R363, R364). -/
def looseDecTree (c : Ctx) (n : Nat) (s : State) : State :=
  drawn (looseIpos (looseDecoder (looseResult (looseProbs (reach c n 1 s) (looseObuf s)))))

theorem looseDecTree_err (c : Ctx) (n : Nat) (s : State) : (looseDecTree c n s).err = s.err :=
  (((Loosened.refl true s).obuf rfl).probs _).result.decoder.ipos.drawn.err

theorem looseDecTree_probAt {c c' : Ctx} {n : Nat} {s : State} (h : c' ∉ reach c n 1 s) :
    (looseDecTree c n s).probAt c' = s.probAt c' := by
  have hprob : (looseDecTree c n s).prob = (looseProbs (reach c n 1 s) (looseObuf s)).prob := by
    simp only [looseDecTree, drawn, looseIpos, looseDecoder, looseResult]
  exact (probAt_of_prob hprob c').trans (probAt_looseProbs h _)

/-- Command i decodes a symbol down the tree of n-bit symbols at c, and reports it. -/
def ReportsSymbol (i : Instr) (value : List Bool → Nat) (c : Ctx) (n : Nat) (s : State) : Prop :=
  exec i s = .next (finish (encode i) s (looseDecTree c n s) (writeResult (BitVec.ofNat 32) (decodeSymbol value c n s)))

theorem decTree_reports {s : State} {c : Ctx} {n : BitVec 6} (hm : s.mode = .dec) (hk : treeOk c n = true) :
    ReportsSymbol (.decTree c n) (nodeAfter 1 · - 2 ^ n.toNat) c n.toNat s := by
  rw [ReportsSymbol, ← decodeTree_eq]
  exact congrArg _ ((inMode_of_eq hm _ _).trans (if_pos hk))

theorem decRtree_reports {s : State} {c : Ctx} {n : BitVec 6} (hm : s.mode = .dec) (hk : treeOk c n = true) :
    ReportsSymbol (.decRtree c n) lsbValue c n.toNat s := by
  rw [ReportsSymbol, ← decodeRtree_eq]
  exact congrArg _ ((inMode_of_eq hm _ _).trans (if_pos hk))

theorem treeOk_of_le {c : Ctx} {n : BitVec 6} (h1 : 1 ≤ n.toNat) (hc : c.toNat + 2 ^ n.toNat ≤ 4096) : treeOk c n = true :=
  decide_eq_true ⟨h1, hc⟩

/-- The node where the fault is and the node its bit leads to, as the statements have them (R352, R354). -/
theorem childOf_eq (c : Ctx) (m : Nat) (u : State) :
    childOf c m u =
      if u.decCode.toNat < split u.decRange (u.probAt (c + BitVec.ofNat 12 m)) then 2 * m else 2 * m + 1 := by
  rw [childOf, codedBit_eq, node]
  split
  · next h => rw [decide_eq_false (Nat.not_le.mpr h)]; rfl
  · next h => rw [decide_eq_true (Nat.not_lt.mp h)]; rfl

/-- The path to the node of the fault, with levels left below it. -/
theorem path_of_treeFaults {c : Ctx} {n m : Nat} {s u : State} {k : Errcode} (hm : s.mode = .dec) (hs : s.err = false)
    (h : TreeFaults c n s m u k) :
    ∃ j d y, n = j + 1 + d ∧ decodePath c j 1 s = .ok y ∧ decodeBit (node c (nodeAfter 1 y.1)) y.2 = .error k ∧
      childOf c (nodeAfter 1 y.1) y.2 = childOf c m u := by
  obtain ⟨j, hj, hd, hk⟩ := h
  obtain ⟨y, hy, rfl, rfl⟩ := (decodesTree_iff hm hs).mp hd
  obtain ⟨hframe, -⟩ := decodePath_frame hy
  have hmode : (y.2.withResult (lastResult s.result y.1)).mode = .dec := hframe.mode.trans hm
  have herr : (y.2.withResult (lastResult s.result y.1)).err = false := hframe.err.trans hs
  rw [faults_decBit_iff hmode herr, decodeBit_withResult, runWithResult_eq_error] at hk
  exact ⟨j, n - (j + 1), y, by omega, hy, hk, rfl⟩

section

variable {i : Instr} {value : List Bool → Nat} {c : Ctx} {n : Nat} {s : State}

theorem ReportsSymbol.executes (h : ReportsSymbol i value c n s) :
    Executes i s (writeResult (BitVec.ofNat 32) (decodeSymbol value c n s)) := by
  refine executes_writeResult (looseDecTree_err c n s) h fun z hz => ?_
  obtain ⟨y, hy, rfl⟩ := decodeSymbol_eq_ok.mp hz
  exact (decodePath_frame hy).1

/-- A symbol is reported in the state its bits leave. -/
theorem ReportsSymbol.next (h : ReportsSymbol i value c n s) {y : List Bool × State} (hy : decodePath c n 1 s = .ok y) :
    exec i s = .next (y.2.withResult (BitVec.ofNat 32 (value y.1))) :=
  h.executes.next (writeResult_eq_ok.mpr ⟨_, decodeSymbol_eq_ok.mpr ⟨y, hy, rfl⟩, rfl⟩)

theorem ReportsSymbol.runs (h : ReportsSymbol i value c n s) (hs : s.err = false) {y : List Bool × State}
    (hy : decodePath c n 1 s = .ok y) : Runs i s (y.2.withResult (BitVec.ofNat 32 (value y.1))) :=
  ⟨h.next hy, (decodePath_frame hy).1.err.trans hs⟩

/-- A `DEC_BIT` of the descent that faults stops the command, with the estimators off the decided path unchanged (R502). -/
theorem ReportsSymbol.faults (h : ReportsSymbol i value c n s) (hm : s.mode = .dec) (hs : s.err = false) {m : Nat}
    {u : State} {k : Errcode} (hf : TreeFaults c n s m u k) :
    ∃ t, exec i s = .next t ∧ t.err = true ∧ t.errcode = k ∧
      ∀ c', (∀ m', OnPath n
        (if u.decCode.toNat < split u.decRange (u.probAt (c + BitVec.ofNat 12 m)) then 2 * m else 2 * m + 1) m' →
          c' ≠ c + BitVec.ofNat 12 m') → t.probAt c' = s.probAt c' := by
  obtain ⟨j, d, y, rfl, hy, hk, hchild⟩ := path_of_treeFaults hm hs hf
  have hpath : decodeSymbol value c (j + 1 + d) s = .error k := by
    rw [decodeSymbol, decodePath_of_fault hy hk]
    rfl
  refine ⟨_, ?_, recordFault_err k (encode i) s (looseDecTree c (j + 1 + d) s),
    recordFault_errcode_of_clear ((looseDecTree_err ..).trans hs) .., fun c' hc => ?_⟩
  · rw [h, writeResult_eq_error.mpr hpath, finish]
  · rw [recordFault_probAt]
    refine looseDecTree_probAt fun hr => ?_
    obtain ⟨m', hon, he⟩ := onPath_of_onWay (reach_of_fault hy hk hr)
    rw [hchild, childOf_eq] at hon
    exact hc m' hon he

end

/-- Settles O43: the path is decoded as the `DEC_BIT` commands complete, and its last node is the symbol with a 1 before it. -/
theorem decTreeIsBitsDownTheTree : Obligations.DecTreeIsBitsDownTheTree := by
  intro s c n hm hs h1 hc
  have hx := decTree_reports hm (treeOk_of_le h1 hc)
  refine ⟨fun hi => ?_, fun m u hd => ?_, fun m u k hf => hx.faults hm hs hf⟩
  · obtain ⟨y, hy⟩ := decodePath_of_input (base := c) (m := 1) hi
    exact ⟨⟨_, _, (decodesTree_iff hm hs).mpr ⟨y, hy, rfl, rfl⟩⟩, _, hx.runs hs hy⟩
  · obtain ⟨y, hy, rfl, rfl⟩ := (decodesTree_iff hm hs).mp hd
    have hdiv := nodeAfter_div 1 y.1
    rw [(decodePath_frame hy).2, Nat.div_eq_iff (Nat.two_pow_pos _)] at hdiv
    have hpos := Nat.two_pow_pos n.toNat
    exact ⟨by omega, by omega, hx.next hy⟩

/-- Settles O44: the same with the bits' number, the first one bit 0. -/
theorem decRtreeIsBitsDownTheTree : Obligations.DecRtreeIsBitsDownTheTree := by
  intro s c n hm hs h1 hc
  have hx := decRtree_reports hm (treeOk_of_le h1 hc)
  refine ⟨fun hi => ?_, fun sym u hd => ?_, fun m u k hf => hx.faults hm hs hf⟩
  · obtain ⟨y, hy⟩ := decodePath_of_input (base := c) (m := 1) hi
    exact ⟨⟨_, _, (decodesRtree_iff hm hs).mpr ⟨y, hy, rfl, rfl⟩⟩, _, hx.runs hs hy⟩
  · obtain ⟨y, hy, rfl, rfl⟩ := (decodesRtree_iff hm hs).mp hd
    have hlt := lsbValue_lt y.1
    rw [(decodePath_frame hy).2] at hlt
    exact ⟨hlt, hx.next hy⟩

end Sys2Proof.Machine
end

section
/-! SUPPORT. Encoder and decoder in step (R351, R354, R355): coding what was decoded moves range and estimators alike. -/

namespace Sys2Proof.Machine

open Sys2Proof.Claims

/-! ### In step -/

/-- The encoder of e has the range and the estimators of the decoder of d (R355). -/
def Mirrors (e d : State) : Prop := e.encRange = d.decRange ∧ ∀ c, e.probAt c = d.probAt c

/-- A renormalised range (R302, R351). -/
def renormalised (range : Word) : Word := if range < Config.top then range <<< 8 else range

theorem normalizeEnc_encRange {s t : State} (h : normalizeEnc s = .ok t) : t.encRange = renormalised s.encRange := by
  unfold normalizeEnc at h
  unfold renormalised
  split at h
  · next hlt =>
    obtain ⟨-, -, hr, -⟩ := shiftLow_frame h
    rw [if_pos hlt, hr]
  · next hge =>
    cases h
    rw [if_neg hge]

theorem normalizeDec_decRange {s t : State} (h : normalizeDec s = .ok t) : t.decRange = renormalised s.decRange := by
  unfold normalizeDec at h
  unfold renormalised
  split at h
  · next hlt =>
    obtain ⟨r, hr, ht⟩ := run_bind_eq_ok.mp h
    obtain ⟨-, rfl⟩ := inByte_eq_ok.mp hr
    cases ht
    rw [if_pos hlt]
  · next hge =>
    cases h
    rw [if_neg hge]

/-- A decoded bit coded with the same estimator (R300, R352). -/
theorem mirrors_bit {e d e' : State} {x : Bool × State} {c : Ctx} (h : Mirrors e d) (hd : decodeBit c d = .ok x)
    (he : encodeBit c x.1 e = .ok e') : Mirrors e' x.2 := by
  obtain ⟨hrange, hprob⟩ := h
  obtain ⟨hbit, -⟩ := decodeBit_frame hd
  obtain ⟨t, ht, hx⟩ := run_bind_eq_ok.mp hd
  refine ⟨?_, fun c' => ?_⟩
  · have hbound : encBound c e = decBound c d := by rw [encBound, decBound, hrange, hprob]
    cases hx
    rw [normalizeEnc_encRange he, normalizeDec_decRange ht]
    refine congrArg renormalised ?_
    cases codedBit c d with
    | false => exact hbound
    | true => exact congrArg₂ (· - ·) hrange hbound
  · rw [encodeBit_probAt he, decodeBit_probAt hd, hbit, hprob, hprob]

/-- The range after n direct bits, whatever they are (R303, R353). -/
def directRange : Nat → Word → Word
  | 0, range => range
  | n + 1, range => directRange n (renormalised (range >>> 1))

theorem encodeDirect_encRange {v : Word} {n : Nat} {s t : State} (h : encodeDirect v n s = .ok t) :
    t.encRange = directRange n s.encRange := by
  induction n generalizing s with
  | zero => cases h; rfl
  | succ n ih =>
    rw [encodeDirect_succ] at h
    obtain ⟨u, hu, ht⟩ := run_bind_eq_ok.mp h
    have hr : (narrowDirect (v.getLsbD n) s).encRange = s.encRange >>> 1 := by cases v.getLsbD n <;> rfl
    rw [ih ht, normalizeEnc_encRange hu, hr, directRange]

theorem decodeDirect_decRange {n : Nat} {s : State} {y : Word × State} (h : decodeDirect n s = .ok y) :
    y.2.decRange = directRange n s.decRange := by
  unfold decodeDirect at h
  generalize (0 : Word) = w at h
  induction n generalizing w s with
  | zero => cases h; rfl
  | succ n ih =>
    obtain ⟨u, hu, hy⟩ := run_bind_eq_ok.mp h
    have hr : (narrowDecDirect (codedDirect s) s).decRange = s.decRange >>> 1 := by cases codedDirect s <;> rfl
    rw [ih _ hy, normalizeDec_decRange hu, hr, directRange]

theorem mirrors_direct {e d e' : State} {n : Nat} {v : Word} {y : Word × State} (h : Mirrors e d)
    (hd : decodeDirect n d = .ok y) (he : encodeDirect v n e = .ok e') : Mirrors e' y.2 := by
  obtain ⟨hrange, hprob⟩ := h
  refine ⟨?_, fun c => ?_⟩
  · rw [encodeDirect_encRange he, decodeDirect_decRange hd, hrange]
  · rw [probAt_of_prob (encodeDirect_frame he).2, probAt_of_prob (decodeDirectFrom_frame hd).2, hprob]

/-! ### Paths (R305, R306, R354) -/

/-- Bits with the nodes they are coded at, from node m down. -/
def pathBits (base : Ctx) : Nat → List Bool → List (Ctx × Bool)
  | _, [] => []
  | m, b :: bits => (node base m, b) :: pathBits base (2 * m + bit b) bits

theorem mirrors_path {base : Ctx} {n m : Nat} {e d e' : State} {y : List Bool × State} (h : Mirrors e d)
    (hd : decodePath base n m d = .ok y) (he : encodeBits (pathBits base m y.1) e = .ok e') : Mirrors e' y.2 := by
  induction n generalizing m e d y with
  | zero =>
    cases hd
    cases he
    exact h
  | succ n ih =>
    obtain ⟨x, z, hx, hz, rfl⟩ := decodePath_succ_eq_ok.mp hd
    obtain ⟨u, hu, ht⟩ := run_bind_eq_ok.mp he
    exact ih (y := z) (mirrors_bit h hx hu) hz ht

theorem nodeAfter_eq (m : Nat) (bits : List Bool) : nodeAfter m bits = m * 2 ^ bits.length + nodeAfter 0 bits := by
  induction bits generalizing m with
  | nil => simp [nodeAfter]
  | cons b bits ih =>
    rw [nodeAfter_cons, nodeAfter_cons, ih, ih (2 * 0 + bit b), List.length_cons, Nat.pow_succ]
    ring

theorem nodeAfter_zero_lt (bits : List Bool) : nodeAfter 0 bits < 2 ^ bits.length :=
  (Nat.div_eq_zero_iff_lt (Nat.two_pow_pos _)).mp (nodeAfter_div 0 bits)

/-- The bits that lead to a node are the bits of its number, most significant first (R305, R354). -/
theorem treeBitsFrom_of_bits (base : Ctx) {sym m : Nat} {bits : List Bool}
    (h : sym % 2 ^ bits.length = nodeAfter 0 bits) : treeBitsFrom base sym bits.length m = pathBits base m bits := by
  induction bits generalizing m with
  | nil => rfl
  | cons b bits ih =>
    rw [List.length_cons, mod_two_pow_succ, nodeAfter_cons, nodeAfter_eq, Nat.mul_zero, Nat.zero_add] at h
    have hlt := Nat.mod_lt sym (Nat.two_pow_pos bits.length)
    have hlt' := nodeAfter_zero_lt bits
    have hpos := Nat.two_pow_pos bits.length
    have htop : sym.testBit bits.length = b := by
      refine bit_injective ?_
      have hdiv := congrArg (· / 2 ^ bits.length) h
      simpa only [Nat.add_comm (_ * _), Nat.add_mul_div_right _ _ hpos, Nat.div_eq_of_lt hlt, Nat.div_eq_of_lt hlt',
        Nat.zero_add] using hdiv
    rw [htop] at h
    rw [List.length_cons, treeBitsFrom, pathBits, htop, ih (Nat.add_left_cancel h)]

/-- The same of the bits of a number, least significant first (R306, R354). -/
theorem rtreeBits_of_bits (base : Ctx) (m : Nat) (bits : List Bool) :
    rtreeBits base (lsbValue bits) bits.length m = pathBits base m bits := by
  induction bits generalizing m with
  | nil => rfl
  | cons b bits ih =>
    have hb := bit_lt_two b
    have hdiv : lsbValue (b :: bits) / 2 = lsbValue bits := by rw [lsbValue]; omega
    have hmod : lsbValue (b :: bits) % 2 = bit b := by rw [lsbValue]; omega
    have hbit : (lsbValue (b :: bits)).testBit 0 = b := bit_injective (by rw [bit_testBit, Nat.pow_zero, Nat.div_one, hmod])
    rw [List.length_cons, rtreeBits, pathBits, hbit, hdiv, hmod, ih]
    rfl

/-! ### The commands -/

theorem encodeBit_of_runs {s t : State} {c : Ctx} {b : Bool} (h : Runs (.encBit c b) s t) : encodeBit c b s = .ok t :=
  finish_clear (body_of_runs h rfl).2 h.2

theorem encodeDirect_of_runs {s t : State} {n : BitVec 6} (h : Runs (.encDirect n) s t) :
    encodeDirect s.arg n.toNat s = .ok t :=
  finish_clear (check_clear (body_of_runs h rfl).2 h.2).2 h.2

/-- `ENC_TREE` of a symbol that is these bits codes them down the tree (R305). -/
theorem encodeBits_of_encTree {s t : State} {c : Ctx} {n : BitVec 6} {bits : List Bool} (h : Runs (.encTree c n) s t)
    (hn : bits.length = n.toNat) (hv : s.arg.toNat = nodeAfter 0 bits) : encodeBits (pathBits c 1 bits) s = .ok t := by
  obtain ⟨hk, hbody⟩ := check_clear (body_of_runs h rfl).2 h.2
  have hlt := lt_of_encTreeOk hk
  have hbits : treeBits c n.toNat s.arg.toNat = pathBits c 1 bits := by
    rw [treeBits_eq c hlt, ← hn]
    exact treeBitsFrom_of_bits c (by rw [hn, Nat.mod_eq_of_lt hlt, hv])
  rw [← hbits, ← encodeTree_eq c hlt]
  exact finish_clear hbody h.2

/-- The same of `ENC_RTREE` (R306). -/
theorem encodeBits_of_encRtree {s t : State} {c : Ctx} {n : BitVec 6} {bits : List Bool} (h : Runs (.encRtree c n) s t)
    (hn : bits.length = n.toNat) (hv : s.arg.toNat = lsbValue bits) : encodeBits (pathBits c 1 bits) s = .ok t := by
  rw [← rtreeBits_of_bits, hn, ← hv, ← encodeRtree_eq]
  exact finish_clear (check_clear (body_of_runs h rfl).2 h.2).2 h.2

theorem bitWord_getLsbD_zero (b : Bool) : (bitWord b).getLsbD 0 = b := by cases b <;> rfl

theorem decodeBit_of_runs {s t : State} {c : Ctx} (h : Runs (.decBit c) s t) :
    ∃ x, decodeBit c s = .ok x ∧ t.result.getLsbD 0 = x.1 ∧ t = x.2.withResult t.result := by
  obtain ⟨x, hx, rfl⟩ := writeResult_eq_ok.mp (finish_clear (r := writeResult bitWord _) (body_of_runs h rfl).2 h.2)
  exact ⟨x, hx, bitWord_getLsbD_zero x.1, rfl⟩

theorem decodeDirect_of_runs {s t : State} {n : BitVec 6} (h : Runs (.decDirect n) s t) :
    ∃ y, decodeDirect n.toNat s = .ok y ∧ t = y.2.withResult t.result := by
  obtain ⟨y, hy, rfl⟩ :=
    writeResult_eq_ok.mp (finish_clear (r := writeResult id _) (check_clear (body_of_runs h rfl).2 h.2).2 h.2)
  exact ⟨y, hy, rfl⟩

/-- A tree that passes its check has symbols of at most 12 bits (R313, R363). -/
theorem two_pow_of_treeOk {c : Ctx} {n : BitVec 6} (h : treeOk c n = true) : 2 ^ n.toNat ≤ 4096 := by
  have hle := (of_decide_eq_true h).2
  omega

/-- A symbol that is reported was decoded (R363, R364). -/
theorem ReportsSymbol.path {i : Instr} {value : List Bool → Nat} {c : Ctx} {n : Nat} {s t : State}
    (h : ReportsSymbol i value c n s) (ht : Runs i s t) :
    ∃ y, decodePath c n 1 s = .ok y ∧ t = y.2.withResult (BitVec.ofNat 32 (value y.1)) := by
  obtain ⟨z, hz, rfl⟩ := writeResult_eq_ok.mp (finish_clear (Host.Outcome.next.inj (h.symm.trans ht.1)) ht.2)
  obtain ⟨y, hy, rfl⟩ := decodeSymbol_eq_ok.mp hz
  exact ⟨y, hy, rfl⟩

/-- `DEC_TREE` that completes decoded the bits of its result (R363). -/
theorem decodePath_of_decTree {s t : State} {c : Ctx} {n : BitVec 6} (h : Runs (.decTree c n) s t) :
    ∃ y, decodePath c n.toNat 1 s = .ok y ∧ y.1.length = n.toNat ∧ t.result.toNat = nodeAfter 0 y.1 ∧
      t = y.2.withResult t.result := by
  obtain ⟨hm, hbody⟩ := body_of_runs h rfl
  obtain ⟨hk, -⟩ := check_clear hbody h.2
  obtain ⟨y, hy, rfl⟩ := (decTree_reports hm hk).path h
  have hlen := (decodePath_frame hy).2
  have hlt := nodeAfter_zero_lt y.1
  have hle := two_pow_of_treeOk hk
  have hsym : nodeAfter 1 y.1 - 2 ^ n.toNat = nodeAfter 0 y.1 := by
    rw [nodeAfter_eq, hlen, Nat.one_mul, Nat.add_sub_cancel_left]
  rw [hlen] at hlt
  exact ⟨y, hy, hlen, (congrArg (· % 2 ^ 32) hsym).trans (Nat.mod_eq_of_lt (by omega)), rfl⟩

/-- The same of `DEC_RTREE` (R364). -/
theorem decodePath_of_decRtree {s t : State} {c : Ctx} {n : BitVec 6} (h : Runs (.decRtree c n) s t) :
    ∃ y, decodePath c n.toNat 1 s = .ok y ∧ y.1.length = n.toNat ∧ t.result.toNat = lsbValue y.1 ∧
      t = y.2.withResult t.result := by
  obtain ⟨hm, hbody⟩ := body_of_runs h rfl
  obtain ⟨hk, -⟩ := check_clear hbody h.2
  obtain ⟨y, hy, rfl⟩ := (decRtree_reports hm hk).path h
  have hlen := (decodePath_frame hy).2
  have hlt := lsbValue_lt y.1
  have hle := two_pow_of_treeOk hk
  rw [hlen] at hlt
  exact ⟨y, hy, hlen, Nat.mod_eq_of_lt (by omega), rfl⟩

/-- Settles O45: the bits that were decoded are the bits that are coded, at the same nodes. -/
theorem encoderMirrorsDecoder : Obligations.EncoderMirrorsDecoder := by
  intro e e' d d' j i hr hp _ _ hpair hd he
  have hm : Mirrors (e.withArg d'.result) d := ⟨hr, hp⟩
  change Runs i (e.withArg d'.result) e' at he
  rcases hpair with ⟨c, rfl, rfl⟩ | ⟨n, rfl, rfl⟩ | ⟨c, n, rfl, rfl⟩ | ⟨c, n, rfl, rfl⟩
  · obtain ⟨x, hx, hbit, hd'⟩ := decodeBit_of_runs hd
    have hcode := encodeBit_of_runs he
    rw [hbit] at hcode
    rw [hd']
    exact mirrors_bit hm hx hcode
  · obtain ⟨y, hy, hd'⟩ := decodeDirect_of_runs hd
    rw [hd']
    exact mirrors_direct hm hy (encodeDirect_of_runs he)
  · obtain ⟨y, hy, hlen, hsym, hd'⟩ := decodePath_of_decTree hd
    rw [hd']
    exact mirrors_path hm hy (encodeBits_of_encTree he hlen hsym)
  · obtain ⟨y, hy, hlen, hsym, hd'⟩ := decodePath_of_decRtree hd
    rw [hd']
    exact mirrors_path hm hy (encodeBits_of_encRtree he hlen hsym)

end Sys2Proof.Machine
end

section
/-! SUPPORT. What the decode commands leave alone, in every outcome (R360-R364, R440, R441 "Writes", R502, R503). -/

namespace Sys2Proof.Machine

open Sys2Proof.Claims

/-! ### The parts of the state -/

/-- State s with the error capture, the decoder, the input position and what a fault can free as they are in t. -/
def State.withDecoding (s t : State) : State :=
  { s with
    pending := t.pending, err := t.err, errcode := t.errcode, errCmd := t.errCmd, errIpos := t.errIpos
    errOpos := t.errOpos, decCode := t.decCode, decRange := t.decRange, ipos := t.ipos, prob := t.prob
    obuf := t.obuf, obufFree := t.obufFree, draws := t.draws }

/-- Also the register that the decode commands of bits report in (R361-R364). -/
def State.withDecodedBits (s t : State) : State := { s.withDecoding t with result := t.result }

/-- Also the fields that `DEC_INIT` can change (R360). -/
def State.withDecInit (s t : State) : State :=
  { s.withDecoding t with
    level := t.level, opos := t.opos, prevByte := t.prevByte, prevMatch := t.prevMatch, winbuf := t.winbuf, mode := t.mode }

/-- Also the fields that `DEC_TOKEN` and `DEC_STREAM` can change (R440, R441). -/
def State.withReplay (s t : State) : State :=
  { s.withDecoding t with
    opos := t.opos, winbuf := t.winbuf, prevByte := t.prevByte, prevMatch := t.prevMatch
    tokKind := t.tokKind, tokLit := t.tokLit, tokDist := t.tokDist, tokLen := t.tokLen, mode := t.mode }

/-- The fields a decode command of bits leaves, every other field blank. -/
def State.besideDecodedBits (s : State) : State := s.withDecodedBits State.reset

/-- The fields `DEC_INIT` leaves, every other field blank. -/
def State.besideDecInit (s : State) : State := s.withDecInit State.reset

/-- The fields `DEC_TOKEN` and `DEC_STREAM` leave, every other field blank. -/
def State.besideReplay (s : State) : State := s.withReplay State.reset

theorem eq_withDecodedBits {s t : State} (h : t.besideDecodedBits = s.besideDecodedBits) : t = s.withDecodedBits t :=
  (congrArg (State.withDecodedBits · t) h :)

theorem eq_withDecInit {s t : State} (h : t.besideDecInit = s.besideDecInit) : t = s.withDecInit t :=
  (congrArg (State.withDecInit · t) h :)

theorem eq_withReplay {s t : State} (h : t.besideReplay = s.besideReplay) : t = s.withReplay t :=
  (congrArg (State.withReplay · t) h :)

theorem recordFault_besideDecodedBits (k : Errcode) (w : Word) (v u : State) :
    (recordFault k w v u).besideDecodedBits = u.besideDecodedBits := by
  unfold recordFault
  split <;> rfl

theorem recordFault_besideDecInit (k : Errcode) (w : Word) (v u : State) :
    (recordFault k w v u).besideDecInit = u.besideDecInit := by
  unfold recordFault
  split <;> rfl

theorem recordFault_besideReplay (k : Errcode) (w : Word) (v u : State) :
    (recordFault k w v u).besideReplay = u.besideReplay := by
  unfold recordFault
  split <;> rfl

theorem DecFrame.besideReplay {s t : State} (h : DecFrame s t) : t.besideReplay = s.besideReplay :=
  (congrArg State.besideReplay h.1 :)

/-- A command that records no fault ended with its body. -/
theorem EndsIn.eq_ok_of_clear {i : Instr} {s loose t : State} {r : Run State} (h : EndsIn i s loose r t)
    (ht : t.err = false) : r = .ok t := by
  rcases h with ⟨k, u, -, rfl⟩ | hr
  · exact absurd ((recordFault_err ..).symm.trans ht) nofun
  · exact hr

/-! ### The commands of bits -/

/-- A command that reports what a procedure of the decoder read, by its "Writes" and the procedure. -/
theorem writeResult_leaves {α : Type} {i : Instr} {s loose t : State} {f : α → Word} {r : Run (α × State)}
    (h : EndsIn i s loose (writeResult f r) t) (hl : loose.besideDecodedBits = s.besideDecodedBits)
    (hf : ∀ x, r = .ok x → DecFrame s x.2) :
    t.besideDecodedBits = s.besideDecodedBits ∧ (t.err = false → t.obuf = s.obuf ∧ t.obufFree = s.obufFree) := by
  refine ⟨h.keeps recordFault_besideDecodedBits hl fun u hu => ?_, fun ht => ?_⟩
  · obtain ⟨x, hx, rfl⟩ := writeResult_eq_ok.mp hu
    exact (congrArg State.besideDecodedBits (hf x hx).1 :)
  · obtain ⟨x, hx, rfl⟩ := writeResult_eq_ok.mp (h.eq_ok_of_clear ht)
    exact ⟨(congrArg State.obuf (hf x hx).1 :), (congrArg State.obufFree (hf x hx).1 :)⟩

theorem looseProbs_besideDecodedBits (cs : List Ctx) (s : State) :
    (looseProbs cs s).besideDecodedBits = s.besideDecodedBits :=
  (congrArg State.besideDecodedBits (looseProbs_frame cs s) :)

/-- The "Writes" of the decode commands of bits, the estimators and `RESULT` apart. -/
theorem looseInput_besideDecodedBits (s : State) :
    (drawn (looseIpos (looseDecoder s))).besideDecodedBits = s.besideDecodedBits := rfl

theorem looseResult_besideDecodedBits (s : State) : (looseResult s).besideDecodedBits = s.besideDecodedBits := rfl

theorem looseObuf_besideDecodedBits (s : State) : (looseObuf s).besideDecodedBits = s.besideDecodedBits := rfl

theorem looseDecBit_besideDecodedBits (c : Ctx) (s : State) :
    (looseDecBit c s).besideDecodedBits = s.besideDecodedBits := by
  rw [looseDecBit, looseInput_besideDecodedBits, looseProbs_besideDecodedBits, looseObuf_besideDecodedBits]

theorem looseDecDirect_besideDecodedBits (s : State) : (looseDecDirect s).besideDecodedBits = s.besideDecodedBits := by
  rw [looseDecDirect, looseInput_besideDecodedBits, looseResult_besideDecodedBits, looseObuf_besideDecodedBits]

theorem looseDecTree_besideDecodedBits (c : Ctx) (n : Nat) (s : State) :
    (looseDecTree c n s).besideDecodedBits = s.besideDecodedBits := by
  rw [looseDecTree, looseInput_besideDecodedBits, looseResult_besideDecodedBits, looseProbs_besideDecodedBits,
    looseObuf_besideDecodedBits]

theorem decBit_leaves {s t : State} {c : Ctx} (h : exec (.decBit c) s = .next t) :
    (t.besideDecodedBits = s.besideDecodedBits ∧ (t.err = false → t.obuf = s.obuf ∧ t.obufFree = s.obufFree)) ∧
      ∀ c', c' ≠ c → t.probAt c' = s.probAt c' := by
  have he : EndsIn (.decBit c) s (looseDecBit c s) (writeResult bitWord (decodeBit c s)) t := by
    cases h
    exact endsIn_inMode endsIn_finish
  refine ⟨writeResult_leaves he (looseDecBit_besideDecodedBits c s) fun x hx => (decodeBit_frame hx).2.1, fun c' hc => ?_⟩
  refine he.keeps (π := (State.probAt · c')) (recordFault_probAt c') ((looseDecBit_keeps c s).2.2 c' hc) fun u hu => ?_
  obtain ⟨x, hx, rfl⟩ := writeResult_eq_ok.mp hu
  exact (decodeBit_probAt hx c').trans (if_neg hc)

theorem decDirect_leaves {s t : State} {n : BitVec 6} (h : exec (.decDirect n) s = .next t) :
    (t.besideDecodedBits = s.besideDecodedBits ∧ (t.err = false → t.obuf = s.obuf ∧ t.obufFree = s.obufFree)) ∧
      t.prob = s.prob := by
  have he : EndsIn (.decDirect n) s (looseDecDirect s) (writeResult id (decodeDirect n.toNat s)) t := by
    cases h
    exact endsIn_inMode (endsIn_check fun _ => endsIn_finish)
  refine ⟨writeResult_leaves he (looseDecDirect_besideDecodedBits s) fun x hx => (decodeDirectFrom_frame hx).1, ?_⟩
  refine he.keeps recordFault_prob (looseDecDirect_keeps s).2 fun u hu => ?_
  obtain ⟨x, hx, rfl⟩ := writeResult_eq_ok.mp hu
  exact (decodeDirectFrom_frame hx).2

/-- A path leaves the estimators that are not below its first node (R252). -/
theorem decodePath_probAt {base c : Ctx} {n m : Nat} {s : State} {y : List Bool × State}
    (h : decodePath base n m s = .ok y) (hc : c ∉ subtree base n m) : y.2.probAt c = s.probAt c := by
  induction n generalizing m s y with
  | zero => cases h; rfl
  | succ n ih =>
    obtain ⟨x, z, hx, hz, rfl⟩ := decodePath_succ_eq_ok.mp h
    have hne : c ≠ node base m := fun he => hc (he ▸ List.mem_cons_self)
    rw [ih hz fun hm => hc (mem_subtree_of_child hm), decodeBit_probAt hx, if_neg hne]

/-- A command that decodes a symbol leaves the estimators outside its tree. -/
theorem symbol_leaves {i : Instr} {value : List Bool → Nat} {c : Ctx} {n : Nat} {s t : State}
    (h : EndsIn i s (looseDecTree c n s) (writeResult (BitVec.ofNat 32) (decodeSymbol value c n s)) t) :
    (t.besideDecodedBits = s.besideDecodedBits ∧ (t.err = false → t.obuf = s.obuf ∧ t.obufFree = s.obufFree)) ∧
      ∀ c' : Ctx, (∀ m, 1 ≤ m → m < 2 ^ n → c' ≠ c + BitVec.ofNat 12 m) → t.probAt c' = s.probAt c' := by
  refine ⟨writeResult_leaves h (looseDecTree_besideDecodedBits c n s) fun x hx => ?_, fun c' hc => ?_⟩
  · obtain ⟨y, hy, rfl⟩ := decodeSymbol_eq_ok.mp hx
    exact (decodePath_frame hy).1
  · have hout : c' ∉ subtree c n 1 := fun hm => by
      obtain ⟨q, m, hq, hdiv, rfl⟩ := mem_subtree.mp hm
      obtain ⟨h1, hlt⟩ := bounds_of_below_root hq hdiv
      exact hc m h1 hlt rfl
    have hloose := looseDecTree_probAt (s := s) fun hr => hout (reach_sub_subtree c' hr)
    refine h.keeps (π := (State.probAt · c')) (recordFault_probAt c') hloose fun u hu => ?_
    obtain ⟨x, hx, rfl⟩ := writeResult_eq_ok.mp hu
    obtain ⟨y, hy, rfl⟩ := decodeSymbol_eq_ok.mp hx
    exact decodePath_probAt hy hout

theorem decTree_endsIn {s t : State} {c : Ctx} {n : BitVec 6} (h : exec (.decTree c n) s = .next t) :
    EndsIn (.decTree c n) s (looseDecTree c n.toNat s)
      (writeResult (BitVec.ofNat 32) (decodeSymbol (nodeAfter 1 · - 2 ^ n.toNat) c n.toNat s)) t := by
  cases h
  rw [← decodeTree_eq]
  exact endsIn_inMode (endsIn_check fun _ => endsIn_finish)

theorem decRtree_endsIn {s t : State} {c : Ctx} {n : BitVec 6} (h : exec (.decRtree c n) s = .next t) :
    EndsIn (.decRtree c n) s (looseDecTree c n.toNat s)
      (writeResult (BitVec.ofNat 32) (decodeSymbol lsbValue c n.toNat s)) t := by
  cases h
  rw [← decodeRtree_eq]
  exact endsIn_inMode (endsIn_check fun _ => endsIn_finish)

/-! ### `DEC_INIT` (R360) -/

theorem looseDecInit_keeps (s : State) :
    (looseDecInit s).besideDecInit = s.besideDecInit ∧ (looseDecInit s).winbuf = s.winbuf ∧
      (looseDecInit s).mode = s.mode := by
  simp only [looseDecInit, drawn, looseLevel, looseIpos, looseCtxstate, looseDecoder, looseProb, looseOpos, looseObuf,
    looseObufTo, State.besideDecInit, State.withDecInit, State.withDecoding, and_self]

theorem decInit_leaves {s t : State} {lvl : BitVec 6} (hs : s.err = false) (h : exec (.decInit lvl) s = .next t) :
    t.besideDecInit = s.besideDecInit ∧ (t.err = true → t.winbuf = s.winbuf ∧ t.mode = s.mode) ∧
      (t.err = false → t.obuf = s.obuf ∧ t.obufFree = s.obufFree) := by
  have he : EndsIn (.decInit lvl) s (looseDecInit s) (decInitBody lvl s) t := by
    cases h
    exact endsIn_check fun _ => endsIn_check fun _ => endsIn_finish
  have hbody : ∀ u, decInitBody lvl s = .ok u →
      u.besideDecInit = s.besideDecInit ∧ u.err = s.err ∧ u.obuf = s.obuf ∧ u.obufFree = s.obufFree := fun u hu => by
    have hends := decInitBody_ends lvl s
    rw [hu] at hends
    obtain ⟨p, v, rfl, -⟩ := hends
    exact ⟨rfl, rfl, rfl, rfl⟩
  obtain ⟨hl, hwin, hmode⟩ := looseDecInit_keeps s
  refine ⟨he.keeps recordFault_besideDecInit hl fun u hu => (hbody u hu).1, fun ht => ?_,
    fun ht => (hbody t (he.eq_ok_of_clear ht)).2.2⟩
  rcases he with ⟨k, u, rfl | rfl, rfl⟩ | hok
  · exact ⟨recordFault_winbuf .., recordFault_mode ..⟩
  · exact ⟨(recordFault_winbuf ..).trans hwin, (recordFault_mode ..).trans hmode⟩
  · exact absurd (ht.symm.trans ((hbody t hok).2.1.trans hs)) nofun

/-! ### The commands of tokens (R440, R441) -/

theorem decodeTree_frame {base : Ctx} {n : Nat} {s : State} {x : Nat × State} (h : decodeTree base n s = .ok x) :
    DecFrame s x.2 := by
  obtain ⟨y, hy, hx⟩ := run_bind_eq_ok.mp h
  cases hx
  exact (decodeTreeFrom_frame hy :)

theorem decodeSlotValue_frame {base : Ctx} {nbits : Nat} {s : State} {x : Nat × State}
    (h : decodeSlotValue base nbits s = .ok x) : DecFrame s x.2 := by
  obtain ⟨y, hy, h⟩ := run_bind_eq_ok.mp h
  split at h
  · cases h
    exact decodeTree_frame hy
  · obtain ⟨z, hz, hx⟩ := run_bind_eq_ok.mp h
    cases hx
    exact (decodeTree_frame hy).trans (decodeDirectFrom_frame hz).1

theorem decodeTokenFields_frame {s : State} {x : Token × State} (h : decodeTokenFields s = .ok x) : DecFrame s x.2 := by
  obtain ⟨f, hf, h⟩ := run_bind_eq_ok.mp h
  have hflag := (decodeBit_frame hf).2.1
  split at h
  · obtain ⟨n, hn, h⟩ := run_bind_eq_ok.mp h
    split at h
    · cases h
    · obtain ⟨v, hv, hx⟩ := run_bind_eq_ok.mp h
      cases hx
      exact (hflag.trans (decodeSlotValue_frame hn)).trans (decodeSlotValue_frame hv)
  · obtain ⟨y, hy, hx⟩ := run_bind_eq_ok.mp h
    cases hx
    exact hflag.trans (decodeTree_frame hy)

theorem put_besideReplay (b : Byte) (s : State) : (put b s).besideReplay = s.besideReplay := by
  simp only [put, State.writeObuf, State.setWinbuf, State.besideReplay, State.withReplay, State.withDecoding]

theorem copyMatch_besideReplay (d l : Nat) (s : State) : (copyMatch d l s).besideReplay = s.besideReplay := by
  induction l generalizing s with
  | zero => rfl
  | succ l ih => exact (ih _).trans (put_besideReplay _ s)

theorem replay_besideReplay {tok : Token} {s t : State} (h : replay tok s = .ok t) : t.besideReplay = s.besideReplay := by
  unfold replay at h
  split at h
  · next b =>
    cases h
    refine Eq.trans ?_ (put_besideReplay b s)
    simp only [State.besideReplay, State.withReplay, State.withDecoding]
  · next d l =>
    split at h
    · cases h
    · split at h
      · cases h
      · cases h
        refine Eq.trans ?_ (copyMatch_besideReplay d l s)
        simp only [State.besideReplay, State.withReplay, State.withDecoding]

theorem decTokenBody_besideReplay {s t : State} (h : decTokenBody s = .ok t) : t.besideReplay = s.besideReplay := by
  obtain ⟨x, hx, ht⟩ := run_bind_eq_ok.mp h
  exact (replay_besideReplay ht).trans (decodeTokenFields_frame hx).besideReplay

theorem decLoop_besideReplay {fuel : Nat} {s t : State} (h : decLoop fuel s = .ok t) : t.besideReplay = s.besideReplay := by
  induction fuel generalizing s with
  | zero => cases h; rfl
  | succ fuel ih =>
    unfold decLoop at h
    split at h
    · obtain ⟨u, hu, ht⟩ := run_bind_eq_ok.mp h
      exact (ih ht).trans (decTokenBody_besideReplay hu)
    · cases h; rfl

theorem decFinishBody_besideReplay {s t : State} (h : decFinishBody s = .ok t) : t.besideReplay = s.besideReplay := by
  unfold decFinishBody at h
  split at h
  · cases h
  · split at h
    · cases h
    · cases h; rfl

theorem looseDecode_besideReplay (s : State) : (looseDecode s).besideReplay = s.besideReplay := by
  simp only [looseDecode, drawn, looseTokLit, looseTokMatch, looseCtxstate, looseWinbuf, looseIpos, looseDecoder, looseProb, looseOpos,
    looseObuf, looseObufTo, State.besideReplay, State.withReplay, State.withDecoding]

theorem decToken_leaves {s t : State} (h : exec .decToken s = .next t) : t.besideReplay = s.besideReplay := by
  have he : EndsIn .decToken s (looseDecode s) (decTokenBody s) t := by
    cases h
    exact endsIn_inMode (endsIn_stop endsIn_finish)
  exact he.keeps recordFault_besideReplay (looseDecode_besideReplay s) fun _ ht => decTokenBody_besideReplay ht

theorem decStream_leaves {s t : State} (h : exec .decStream s = .next t) : t.besideReplay = s.besideReplay := by
  have he : EndsIn .decStream s (if s.olim ≤ s.opos then s else looseDecode s) (decStreamBody s) t := by
    cases h
    exact endsIn_inMode endsIn_finish
  refine he.keeps recordFault_besideReplay ?_ fun u hu => ?_
  · split
    · rfl
    · exact looseDecode_besideReplay s
  · obtain ⟨v, hv, hu⟩ := run_bind_eq_ok.mp hu
    exact (decFinishBody_besideReplay hu).trans (decLoop_besideReplay hv)

/-- Settles O56: what each command leaves, by its recording, its "Writes" and its body. -/
theorem decoderCommandFrame : Obligations.DecoderCommandFrame := by
  refine ⟨fun i s t hi h => ?_, fun s t lvl hs h => ?_, fun i s t hi h => ⟨?_, ?_⟩⟩
  · have hbits : t.besideDecodedBits = s.besideDecodedBits ∧
        (t.err = false → t.obuf = s.obuf ∧ t.obufFree = s.obufFree) := by
      rcases hi with ⟨c, rfl⟩ | ⟨n, rfl⟩ | ⟨c, n, rfl | rfl⟩
      · exact (decBit_leaves h).1
      · exact (decDirect_leaves h).1
      · exact (symbol_leaves (decTree_endsIn h)).1
      · exact (symbol_leaves (decRtree_endsIn h)).1
    obtain ⟨hb, hout⟩ := hbits
    refine ⟨eq_withDecodedBits hb, ?_, hout, ?_, ?_⟩
    · rintro ⟨n, rfl⟩
      exact (decDirect_leaves h).2
    · rintro c rfl
      exact (decBit_leaves h).2
    · rintro c n (rfl | rfl)
      · exact (symbol_leaves (decTree_endsIn h)).2
      · exact (symbol_leaves (decRtree_endsIn h)).2
  · obtain ⟨hb, hrest⟩ := decInit_leaves hs h
    exact ⟨eq_withDecInit hb, hrest⟩
  · have hb : t.besideReplay = s.besideReplay := by
      rcases hi with rfl | rfl
      · exact decToken_leaves h
      · exact decStream_leaves h
    exact eq_withReplay hb
  · rintro rfl
    exact exec_mode h rfl nofun

end Sys2Proof.Machine
end

section
/-! SUPPORT. The slot code (R402): the slot of a value is its two top bits, and its extra bits are the rest. -/

namespace Sys2Proof.Machine

open Sys2Proof.Claims

theorem slotOf_eq (v : Nat) : slotOf v = slot v := by
  rw [slotOf, slot, bit_testBit]

theorem two_le_log2 {v : Nat} (h : 4 ≤ v) : 2 ≤ v.log2 := (Nat.le_log2 (by omega)).mpr h

/-- The two top bits of a value of at least two bits are 10 or 11. -/
theorem top_two_bits {v : Nat} (h : 4 ≤ v) : v / 2 ^ (v.log2 - 1) = 2 + v / 2 ^ (v.log2 - 1) % 2 := by
  have hlog := two_le_log2 h
  have hlo : 2 * 2 ^ (v.log2 - 1) ≤ v := by
    rw [← Nat.pow_succ', Nat.succ_eq_add_one, Nat.sub_add_cancel (by omega)]
    exact Nat.log2_self_le (by omega)
  have hhi : v < 4 * 2 ^ (v.log2 - 1) := by
    rw [show 4 = 2 ^ 2 from rfl, ← Nat.pow_add, show 2 + (v.log2 - 1) = v.log2 + 1 by omega]
    exact Nat.lt_log2_self
  have h2 := (Nat.le_div_iff_mul_le (Nat.two_pow_pos _)).mpr hlo
  have h4 := (Nat.div_lt_iff_lt_mul (Nat.two_pow_pos _)).mpr hhi
  omega

/-- The slot of a value from 4 on holds the place of its top bit and the bit below that. -/
theorem slot_parts {v : Nat} (h : 4 ≤ v) :
    4 ≤ slot v ∧ slot v / 2 = v.log2 ∧ slot v % 2 = v / 2 ^ (v.log2 - 1) % 2 := by
  have hlog := two_le_log2 h
  rw [slot, if_neg (by omega)]
  omega

/-- The slot's base is the value without its extra bits. -/
theorem slotBase_slot {v : Nat} (h : 4 ≤ v) : slotBase (slot v) = 2 ^ (v.log2 - 1) * (v / 2 ^ (v.log2 - 1)) := by
  obtain ⟨-, hdiv, hmod⟩ := slot_parts h
  rw [slotBase, hdiv, hmod, ← top_two_bits h, Nat.shiftLeft_eq, Nat.mul_comm]

theorem slot_of_lt {v : Nat} (h : v < 4) : slot v = v := if_pos h

/-- A value below 4 has no extra bits. -/
theorem extraBits_of_lt {v : Nat} (h : v < 4) : v.log2 - 1 = 0 := by
  interval_cases v <;> decide

/-- `SlotOf` of every value: the extra bits are the value's bits below the top two (R402). -/
theorem slotSplit_eq (v : Nat) : slotSplit v = (slot v, v.log2 - 1, v % 2 ^ (v.log2 - 1)) := by
  unfold slotSplit
  split
  · next h => rw [slot_of_lt h, extraBits_of_lt h, Nat.pow_zero, Nat.mod_one]
  · next h =>
    have hdiv := Nat.div_add_mod v (2 ^ (v.log2 - 1))
    rw [slotOf_eq, slotBase_slot (by omega), show v - 2 ^ (v.log2 - 1) * (v / 2 ^ (v.log2 - 1)) = v % 2 ^ (v.log2 - 1) by omega]

/-- A value of k bits has one of the first 2 * k slots. -/
theorem slot_lt {v k : Nat} (hk : 2 ≤ k) (h : v < 2 ^ k) : slot v < 2 * k := by
  unfold slot
  split
  · omega
  · next h4 =>
    have hlog := (Nat.log2_lt (by omega)).mpr h
    omega

/-- Settles O37: `slotSplit_eq` and the slot's parts. -/
theorem slotCodeRoundTrip : Obligations.SlotCodeRoundTrip := by
  intro v hv
  rw [slotSplit_eq]
  have hslot : slotValue (slot v) (v % 2 ^ (v.log2 - 1)) = v ∧ v.log2 - 1 = slotExtra (slot v) := by
    rcases Nat.lt_or_ge v 4 with h | h
    · rw [slot_of_lt h, extraBits_of_lt h]
      exact ⟨if_pos h, (if_pos h).symm⟩
    · obtain ⟨h4, hdiv, -⟩ := slot_parts h
      rw [slotValue, slotExtra, if_neg (by omega), if_neg (by omega), slotBase_slot h, Nat.div_add_mod, hdiv]
      exact ⟨rfl, rfl⟩
  exact ⟨hslot.1, rfl, Nat.le_of_lt_succ (slot_lt (by omega) hv), hslot.2, Nat.mod_lt _ (Nat.two_pow_pos _)⟩

end Sys2Proof.Machine
end

section
/-! SUPPORT. A value coded by its slot and its extra bits, as commands (R402, R405), and the room that a token needs (R571). -/

namespace Sys2Proof.Machine

open Sys2Proof.Claims

/-! ### Room left after a number of bits (R301) -/

theorem encodeBits_room_left {l : List (Ctx × Bool)} {k : Nat} {s : State} (h : Room (k + l.length) s) :
    ∃ t, encodeBits l s = .ok t ∧ Room k t := by
  induction l generalizing s with
  | nil => exact ⟨s, rfl, h⟩
  | cons x rest ih =>
    obtain ⟨u, hu, hr⟩ := encodeBit_of_room x.1 x.2 h
    obtain ⟨t, ht, hk⟩ := ih hr
    exact ⟨t, run_bind_eq_ok.mpr ⟨u, hu, ht⟩, hk⟩

theorem encodeDirect_room_left (v : Word) {n k : Nat} {s : State} (h : Room (k + n) s) :
    ∃ t, encodeDirect v n s = .ok t ∧ Room k t := by
  induction n generalizing s with
  | zero => exact ⟨s, rfl, h⟩
  | succ n ih =>
    obtain ⟨u, hu, hr⟩ := encodeDirectBit_of_room (v.getLsbD n) h
    obtain ⟨t, ht, hk⟩ := ih hr
    exact ⟨t, run_bind_eq_ok.mpr ⟨u, hu, ht⟩, hk⟩

theorem room_mono {j k : Nat} {s : State} (h : Room k s) (hle : j ≤ k) : Room j s := by
  unfold Room at *
  omega

theorem length_treeBits (base : Ctx) (n sym : Nat) : (treeBits base n sym).length = n := by simp [treeBits]

/-! ### A value (R402, R405) -/

section Value

variable {base : Ctx} {nbits v : Nat} {s t : State} {k : Errcode}

/-- The extra bits of a value, as a word of their own (R402). -/
def extraBits (v : Nat) : Word := BitVec.ofNat 32 (v % 2 ^ (v.log2 - 1))

/-- The extra bits of a value, coded direct (R402). -/
def encodeExtra (v : Nat) : State → Run State := encodeDirect (extraBits v) (v.log2 - 1)

theorem encodeExtra_of_lt (h : v < 4) (s : State) : encodeExtra v s = .ok s := by
  rw [encodeExtra, extraBits_of_lt h, encodeDirect]

/-- A value whose slot fits its tree is coded as the bits of the slot and then its extra bits. -/
theorem encodeSlotValue_eq (hslot : slot v < 2 ^ nbits) (hn : nbits ≤ 32) (s : State) :
    encodeSlotValue base nbits v s = (encodeBits (treeBits base nbits (slot v)) s).bind (encodeExtra v) := by
  have hword : (BitVec.ofNat 32 (slot v)).toNat = slot v :=
    Nat.mod_eq_of_lt (hslot.trans_le (Nat.pow_le_pow_right (by omega) hn))
  rw [encodeSlotValue, slotSplit_eq, encodeTree_eq base (by rwa [hword]), hword]
  rfl

/-- A value needs room for a byte for each bit of its slot and each extra bit. -/
theorem encodeSlotValue_room_left (hslot : slot v < 2 ^ nbits) (hn : nbits ≤ 32) {k : Nat}
    (h : Room (k + (v.log2 - 1) + nbits) s) : ∃ t, encodeSlotValue base nbits v s = .ok t ∧ Room k t := by
  rw [encodeSlotValue_eq hslot hn]
  obtain ⟨u, hu, hr⟩ := encodeBits_room_left (l := treeBits base nbits (slot v)) (by rwa [length_treeBits])
  obtain ⟨t, ht, hk⟩ := encodeDirect_room_left _ hr
  exact ⟨t, run_bind_eq_ok.mpr ⟨u, hu, ht⟩, hk⟩

theorem runWithArg_eq_ok {a : Word} {r : Run State} : runWithArg a r = .ok t ↔ ∃ u, r = .ok u ∧ t = u.withArg a := by
  cases r <;> simp [eq_comm]

theorem runWithArg_eq_error {a : Word} {r : Run State} : runWithArg a r = .error k ↔ r = .error k := by
  cases r <;> simp

/-- `ENC_DIRECT` of the extra bits, in the state with them in `ARG` (R312). -/
theorem executes_extra (hm : s.mode = .enc) (hv : v < 2 ^ 32) (h4 : 4 ≤ v) :
    Executes (.encDirect (BitVec.ofNat 6 (v.log2 - 1))) (s.withArg (extraBits v))
      (runWithArg (extraBits v) (encodeExtra v s)) := by
  have hlog := two_le_log2 h4
  have hlt := (Nat.log2_lt (by omega)).mpr hv
  have hlow : lowBits (BitVec.ofNat 32 v) (v.log2 - 1) = extraBits v := by
    rw [lowBits, BitVec.toNat_ofNat, Nat.mod_eq_of_lt hv, extraBits]
  have hx := executes_lowBits (v := BitVec.ofNat 32 v) (k := v.log2 - 1) hm (by omega) (by omega)
  rwa [encodeDirect_withArg, hlow] at hx

variable (hm : s.mode = .enc) (hs : s.err = false) (hv : v < 2 ^ 32) (hslot : slot v < 2 ^ nbits) (hn : nbits ≤ 32)
include hm hs hv hslot hn

/-- The commands of a value complete exactly as it is coded, in the same state: `ARG` is put back. -/
theorem encodesValue_iff : EncodesValue base nbits v s t ↔ encodeSlotValue base nbits v s = .ok t := by
  rw [encodeSlotValue_eq hslot hn, run_bind_eq_ok]
  refine exists_congr fun u => (and_congr_left' (encodesBits_iff hm hs)).trans (and_congr_right fun hu => ?_)
  have hf := encodeBits_frame hu
  rcases Nat.lt_or_ge v 4 with h | h
  · rw [if_pos h, encodeExtra_of_lt h, Except.ok.injEq, eq_comm]
  · have hx := executes_extra (hf.mode.trans hm) hv h
    have harg {w : State} (hw : encodeExtra v u = .ok w) : w.withArg s.arg = w := by
      have ha : w.arg = s.arg := (congrArg State.arg (hf.trans (encodeDirect_frame hw).1).1 :)
      rw [← ha]
      rfl
    rw [if_neg (by omega)]
    constructor
    · rintro ⟨_, hruns, rfl⟩
      obtain ⟨w, hw, rfl⟩ := runWithArg_eq_ok.mp ((hx.runs_iff (hf.err.trans hs)).mp hruns)
      exact hw.trans (congrArg _ (harg hw).symm)
    · intro ht
      exact ⟨_, (hx.runs_iff (hf.err.trans hs)).mpr (runWithArg_eq_ok.mpr ⟨t, ht, rfl⟩), (harg ht).symm⟩

/-- They record the fault that coding the value raises. -/
theorem encodingFaults_iff : EncodingFaults base nbits v s k ↔ encodeSlotValue base nbits v s = .error k := by
  rw [encodeSlotValue_eq hslot hn, run_bind_eq_error, EncodingFaults, bitsFault_iff hm hs]
  refine or_congr_right (exists_congr fun u => ?_)
  rw [encodesBits_iff hm hs]
  refine and_congr_right fun hu => ?_
  have hf := encodeBits_frame hu
  rcases Nat.lt_or_ge v 4 with h | h
  · rw [encodeExtra_of_lt h]
    exact ⟨fun hk => absurd hk.1 (by omega), nofun⟩
  · have hx := executes_extra (hf.mode.trans hm) hv h
    exact (and_iff_right h).trans ((hx.faults_iff (hf.err.trans hs)).trans runWithArg_eq_error)

end Value

end Sys2Proof.Machine
end

section
/-! SUPPORT. `ENC_LIT` and `ENC_MATCH` (R430, R431) as runs of their bodies, and their tokens as primitive commands (R405). -/

namespace Sys2Proof.Machine

open Sys2Proof.Claims

/-! ### A command whose body ends as `exec_answers` says -/

/-- A body that completes the command, and is not that of `RESET`, leaves `STATUS.ERR`. -/
theorem executes_of_completed {i : Instr} {s loose : State} {r : Run State} (hi : i ≠ .reset) (hl : loose.err = s.err)
    (hx : exec i s = .next (finish (encode i) s loose r)) (hr : Ends (Completed s i) r) : Executes i s r := by
  refine ⟨⟨loose, hl, hx⟩, fun t ht => ?_⟩
  rw [ht] at hr
  rcases hr.hostPart_or_reset with hhost | ⟨hreset, -⟩
  · exact (congrArg State.err hhost :)
  · exact absurd hreset hi

/-! ### `ENC_LIT` (R430) -/

theorem encLitBody_of_end {s : State} (h : s.ilen ≤ s.ipos) : encLitBody s = .error .inputEnd := if_pos h

theorem executes_encLit {s : State} (hm : s.mode = .enc) : Executes .encLit s (encLitBody s) := by
  have hends := (encLitBody_actions hm (.refl s)).imp fun _ => Completed.actions (i := .encLit)
  by_cases hi : s.ilen ≤ s.ipos
  · refine executes_of_completed nofun (loose := s) rfl ?_ hends
    rw [encLitBody_of_end hi]
    exact congrArg _ ((inMode_of_eq hm _ _).trans (if_pos hi))
  · refine executes_of_completed nofun ?_ (congrArg _ ((inMode_of_eq hm _ _).trans (if_neg hi))) hends
    exact (((Loosened.refl true s).probs _).encoder (looseProbs_opos _ s)).finder.ctxstate.ipos.drawn.err

/-- What `ENC_LIT` does once its token is coded in t: it inserts the position, and steps over the byte (R430). -/
def afterLiteral (s t : State) : State :=
  { insertPos s.ipos.toNat t with ipos := s.ipos + 1, prevByte := s.ibufByte s.ipos.toNat, prevMatch := false }

/-- Before the end of the input the body codes the byte's bits and steps over it (R430). -/
theorem encLitBody_of_input {s : State} (hr : s.raced = []) (h : s.ipos.toNat < s.ilen.toNat) :
    encLitBody s = (encodeBits (literalBits (s.ibufByte s.ipos.toNat) s) s).bind fun t => .ok (afterLiteral s t) := by
  rw [encLitBody, if_neg (BitVec.not_le.mpr (BitVec.lt_def.mpr h)), readIbuf_of_not_raced hr, ← encodeLiteralToken_eq]
  rfl

theorem length_literalBits (b : Byte) (s : State) : (literalBits b s).length = 9 := by
  rw [literalBits, List.length_cons, length_treeBits]

/-- Settles O34: the body codes the list of the statement, and `Insert` is at the position it steps over. -/
theorem encLitCodesOneByte : Obligations.EncLitCodesOneByte := by
  intro s l hm hs hr hl
  have hx := executes_encLit hm
  have hbody (hi : s.ipos.toNat < s.ilen.toNat) : encLitBody s = (encodeBits l s).bind fun t => .ok (afterLiteral s t) :=
    hl ▸ encLitBody_of_input hr hi
  refine ⟨fun hi => ?_, fun hi hroom => ?_, fun hi u hu => ?_, fun hi k hk => ?_⟩
  · exact congrArg _ ((inMode_of_eq hm _ _).trans ((if_pos (BitVec.le_def.mpr hi)).trans (preFault_of_clear hs _ _)))
  · have hlen : l.length = 9 := hl ▸ length_literalBits _ s
    obtain ⟨u, hu⟩ := encodeBits_of_room (l := l) (by rwa [hlen])
    have hok : encLitBody s = .ok (afterLiteral s u) := by rw [hbody hi, hu, run_bind_ok]
    exact ⟨u, _, (encodesBits_iff hm hs).mpr hu, (hx.runs_iff hs).mpr hok⟩
  · have hu := (encodesBits_iff hm hs).mp hu
    have hf := encodeBits_frame hu
    have hpart := hf.finderPart
    have hlen : u.ilen = s.ilen := (congrArg State.ilen hpart :)
    have hwin : u.win = s.win := (congrArg State.win hpart :)
    have hhash : u.hashAt = s.hashAt := (congrArg State.hashAt hpart :)
    have hhead : u.headAt = s.headAt := (congrArg State.headAt hpart :)
    have hchain : u.chainAt = s.chainAt := (congrArg State.chainAt hpart :)
    refine ⟨afterLiteral s u, hx.next (by rw [hbody hi, hu, run_bind_ok]), ?_, fun h => ?_, fun j => ?_⟩
    · unfold afterLiteral
      rw [insertPos_frame]
    · refine (headAt_insertPos (hf.raced.trans hr) _ h).trans ?_
      rw [hlen, hhash, hhead, BitVec.ofNat_toNat, BitVec.setWidth_eq]
      simp only [eq_comm]
    · refine (chainAt_insertPos (hf.raced.trans hr) _ j).trans ?_
      rw [hlen, hwin, hhash, hhead, hchain]
  · exact hx.faults hs (by rw [hbody hi, (bitsFault_iff hm hs).mp hk, run_bind_error])

end Sys2Proof.Machine
end

section
/-! SUPPORT. `ENC_MATCH` (R431): its checks without a race, its token as primitive commands (R405), and the room it needs. -/

namespace Sys2Proof.Machine

open Sys2Proof.Claims

/-! ### The checks (R431) -/

/-- The pair (d, l) at `IPOS` is a true repetition inside the window and the input (R431). -/
def State.Repeats (s : State) (d l : Nat) : Prop :=
  1 ≤ d ∧ d ≤ min s.ipos.toNat s.win ∧ 2 ≤ l ∧ l ≤ min 273 (s.ilen.toNat - s.ipos.toNat) ∧
    ∀ k, k < l → s.ibufByte (s.ipos.toNat + k) = s.ibufByte (s.ipos.toNat + k - d)

theorem matchOk_iff {s : State} (hr : s.raced = []) : matchOk s = true ↔ s.Repeats s.tokDist.toNat s.tokLen.toNat := by
  simp only [matchOk, Bool.and_eq_true, decide_eq_true_eq, readIbuf_of_not_raced hr, List.all_eq_true, List.mem_range,
    State.Repeats, and_assoc]
  rfl

/-- Whatever races, the checks bound the distance and the length (R431). -/
theorem bounds_of_matchOk {s : State} (h : matchOk s = true) :
    s.tokDist.toNat ≤ 2 ^ 28 ∧ 2 ≤ s.tokLen.toNat ∧ s.tokLen.toNat ≤ 273 := by
  simp only [matchOk, Bool.and_eq_true, decide_eq_true_eq] at h
  obtain ⟨⟨⟨⟨-, hd⟩, h2⟩, hl⟩, -⟩ := h
  exact ⟨(hd.trans (min_le_right _ _)).trans (win_le s), h2, hl.trans (min_le_left _ _)⟩

theorem encMatchBody_of_ok {s : State} (h : matchOk s = true) : encMatchBody s = encMatchCode s := if_pos h

theorem encMatchBody_of_not_ok {s : State} (h : ¬ matchOk s = true) : encMatchBody s = .error .badMatch := if_neg h

theorem executes_encMatch {s : State} (hm : s.mode = .enc) : Executes .encMatch s (encMatchBody s) := by
  have hends := (encMatchBody_actions hm (.refl s)).imp fun _ => Completed.actions (i := .encMatch)
  by_cases hk : matchOk s = true
  · rw [encMatchBody_of_ok hk] at hends ⊢
    refine executes_of_completed nofun ?_ (congrArg _ ((inMode_of_eq hm _ _).trans (if_pos hk))) hends
    exact ((Loosened.refl true s).encoder rfl).prob.finder.ctxstate.ipos.drawn.err
  · rw [encMatchBody_of_not_ok hk] at hends ⊢
    exact executes_of_completed nofun (loose := s) rfl (congrArg _ ((inMode_of_eq hm _ _).trans (if_neg hk))) hends

/-- Settles O36: the checks are exactly those of a true repetition, and they precede every change. -/
theorem falseMatchIsRejected : Obligations.FalseMatchIsRejected := by
  rintro s _ _ hm hs hr rfl rfl hfalse
  have hk : ¬ matchOk s = true := by
    rw [matchOk_iff hr]
    rintro ⟨h1, hd, h2, hl, hbytes⟩
    rcases hfalse with h | h | h | h | ⟨k, hk, hne⟩
    · omega
    · omega
    · omega
    · omega
    · exact hne (hbytes k hk)
  exact congrArg _ ((inMode_of_eq hm _ _).trans ((if_neg hk).trans (preFault_of_clear hs _ _)))

/-! ### The token (R405) -/

theorem distBase_eq (l : Nat) : distBase l = distTree l := (BitVec.ofNat_add ..).symm

theorem log2_lt_of_lt {v k : Nat} (hk : 0 < k) (h : v < 2 ^ k) : v.log2 < k := by
  rcases Nat.eq_zero_or_pos v with rfl | hv
  · exact hk
  · exact (Nat.log2_lt (by omega)).mpr h

/-- The length of a match in the slot code: its slot fits in 5 bits, and it has at most 7 extra bits (R402). -/
theorem length_fits {l : Nat} (h : l ≤ 273) : l - 2 < 2 ^ 32 ∧ slot (l - 2) < 2 ^ 5 ∧ (l - 2).log2 ≤ 8 := by
  have hslot := slot_lt (v := l - 2) (k := 9) (by omega) (by omega)
  have hlog := log2_lt_of_lt (v := l - 2) (k := 9) (by omega) (by omega)
  omega

/-- The distance of a match: its slot fits in 6 bits, and it has at most 26 extra bits (R402). -/
theorem distance_fits {d : Nat} (h : d ≤ 2 ^ 28) : d - 1 < 2 ^ 32 ∧ slot (d - 1) < 2 ^ 6 ∧ (d - 1).log2 ≤ 27 := by
  have hslot := slot_lt (v := d - 1) (k := 28) (by omega) (by omega)
  have hlog := log2_lt_of_lt (v := d - 1) (k := 28) (by omega) (by omega)
  omega

section Token

variable {s t : State} {d l : Nat} {k : Errcode}

/-- A match token is the flag 1 and two values (R405). -/
theorem encodeMatchToken_eq (d l : Nat) (s : State) :
    encodeMatchToken d l s = (encodeBit (flag s) true s).bind fun u =>
      (encodeSlotValue 0x900 5 (l - 2) u).bind (encodeSlotValue (distTree l) 6 (d - 1)) := by
  rw [encodeMatchToken, flagCtx_eq, distBase_eq]
  rfl

variable (hd : d ≤ 2 ^ 28) (hl : l ≤ 273)
include hd hl

/-- A match token needs room for 45 bytes: 1 for the flag, 12 for the length, 32 for the distance (R431, R571). -/
theorem encodeMatchToken_room_left {k : Nat} (h : Room (k + 45) s) : ∃ t, encodeMatchToken d l s = .ok t ∧ Room k t := by
  obtain ⟨-, hlenSlot, hlen⟩ := length_fits hl
  obtain ⟨-, hdistSlot, hdist⟩ := distance_fits hd
  obtain ⟨u, hu, hru⟩ := encodeBit_of_room (flag s) true h
  obtain ⟨v, hv, hrv⟩ := encodeSlotValue_room_left (base := 0x900) (k := k + 32) hlenSlot (by omega)
    (room_mono hru (by omega))
  obtain ⟨t, ht, hrt⟩ := encodeSlotValue_room_left (base := distTree l) (k := k) hdistSlot (by omega)
    (room_mono hrv (by omega))
  exact ⟨t, by rw [encodeMatchToken_eq, hu, run_bind_ok, hv, run_bind_ok, ht], hrt⟩

variable (hm : s.mode = .enc) (hs : s.err = false)
include hm hs

/-- The commands of a match token complete exactly as it is coded. -/
theorem encodeMatchToken_eq_ok :
    encodeMatchToken d l s = .ok t ↔ ∃ u v, Runs (.encBit (flag s) true) s u ∧ EncodesValue 0x900 5 (l - 2) u v ∧
      EncodesValue (distTree l) 6 (d - 1) v t := by
  obtain ⟨hlen, hlenSlot, -⟩ := length_fits hl
  obtain ⟨hdist, hdistSlot, -⟩ := distance_fits hd
  rw [encodeMatchToken_eq, run_bind_eq_ok]
  refine exists_congr fun u => ?_
  rw [runs_encBit_iff hm hs, run_bind_eq_ok, ← exists_and_left]
  refine exists_congr fun v => and_congr_right fun hu => ?_
  have hfu := encodeBit_frame hu
  rw [encodesValue_iff (hfu.mode.trans hm) (hfu.err.trans hs) hlen hlenSlot (by omega)]
  refine and_congr_right fun hv => ?_
  have hfv := hfu.trans (encodeSlotValue_frame hv)
  rw [encodesValue_iff (hfv.mode.trans hm) (hfv.err.trans hs) hdist hdistSlot (by omega)]

/-- They record the fault that coding the token raises. -/
theorem encodeMatchToken_eq_error :
    encodeMatchToken d l s = .error k ↔ Faults (.encBit (flag s) true) s k ∨
      (∃ u, Runs (.encBit (flag s) true) s u ∧ EncodingFaults 0x900 5 (l - 2) u k) ∨
      ∃ u v, Runs (.encBit (flag s) true) s u ∧ EncodesValue 0x900 5 (l - 2) u v ∧ EncodingFaults (distTree l) 6 (d - 1) v k := by
  obtain ⟨hlen, hlenSlot, -⟩ := length_fits hl
  obtain ⟨hdist, hdistSlot, -⟩ := distance_fits hd
  rw [encodeMatchToken_eq, run_bind_eq_error, faults_encBit_iff hm hs, ← exists_or]
  refine or_congr_right (exists_congr fun u => ?_)
  rw [runs_encBit_iff hm hs, exists_and_left, ← and_or_left, run_bind_eq_error]
  refine and_congr_right fun hu => ?_
  have hfu := encodeBit_frame hu
  rw [encodingFaults_iff (hfu.mode.trans hm) (hfu.err.trans hs) hlen hlenSlot (by omega)]
  refine or_congr_right (exists_congr fun v => ?_)
  rw [encodesValue_iff (hfu.mode.trans hm) (hfu.err.trans hs) hlen hlenSlot (by omega)]
  refine and_congr_right fun hv => ?_
  have hfv := hfu.trans (encodeSlotValue_frame hv)
  rw [encodingFaults_iff (hfv.mode.trans hm) (hfv.err.trans hs) hdist hdistSlot (by omega)]

end Token

/-! ### The command (R431) -/

/-- What `ENC_MATCH` does once its token is coded in t: it inserts the positions of the match, and steps past it (R431). -/
def afterMatch (s t : State) : State :=
  { insertRun s.tokLen.toNat s.ipos.toNat t with
    prevByte := s.readIbuf (.lastByte (s.ipos.toNat + s.tokLen.toNat - 1)) (s.ipos.toNat + s.tokLen.toNat - 1)
    ipos := s.ipos + BitVec.ofNat 64 s.tokLen.toNat, prevMatch := true }

theorem encMatchCode_eq (s : State) :
    encMatchCode s = (encodeMatchToken s.tokDist.toNat s.tokLen.toNat s).bind fun t => .ok (afterMatch s t) := rfl

/-- Insertions write `HEAD` and `CHAIN` only (R203, R431). -/
theorem insertRun_frame (l p : Nat) (s : State) :
    insertRun l p s = { s with head := (insertRun l p s).head, chain := (insertRun l p s).chain } := by
  induction l generalizing p s with
  | zero => rfl
  | succ l ih =>
    rw [insertRun, ih, insertPos_frame]

/-- Past its checks `ENC_MATCH` completes with room for 45 bytes (R571). -/
theorem encMatchBody_room_left {k : Nat} {s : State} (hk : matchOk s = true) (h : Room (k + 45) s) :
    ∃ t, encMatchBody s = .ok t ∧ Room k t := by
  obtain ⟨hd, -, hl⟩ := bounds_of_matchOk hk
  obtain ⟨t, ht, hr⟩ := encodeMatchToken_room_left hd hl h
  refine ⟨afterMatch s t, by rw [encMatchBody_of_ok hk, encMatchCode_eq, ht, run_bind_ok], ?_⟩
  unfold afterMatch
  rw [insertRun_frame]
  exact hr

/-- Settles O35: past its checks the body is the token, then insertions and `CTXSTATE`. -/
theorem encMatchCodesARepetition : Obligations.EncMatchCodesARepetition := by
  rintro s _ _ hm hs hr rfl rfl h1 hd h2 hl hbytes
  have hk : matchOk s = true := (matchOk_iff hr).mpr ⟨h1, hd, h2, hl, hbytes⟩
  have hx := executes_encMatch hm
  rw [encMatchBody_of_ok hk, encMatchCode_eq] at hx
  obtain ⟨hdle, -, hlle⟩ := bounds_of_matchOk hk
  refine ⟨fun hroom => ?_, fun u v w hu hv hw => ?_, fun k hf => ?_⟩
  · obtain ⟨w, hw, -⟩ := encodeMatchToken_room_left hdle hlle (k := 0) hroom
    obtain ⟨u, v, huvw⟩ := (encodeMatchToken_eq_ok hdle hlle hm hs).mp hw
    refine ⟨u, v, w, afterMatch s w, huvw.1, huvw.2.1, huvw.2.2, (hx.runs_iff hs).mpr ?_⟩
    rw [hw, run_bind_ok]
  · have hw := (encodeMatchToken_eq_ok hdle hlle hm hs).mpr ⟨u, v, hu, hv, hw⟩
    refine ⟨afterMatch s w, hx.next (by rw [hw, run_bind_ok]), ?_⟩
    unfold afterMatch
    rw [readIbuf_of_not_raced hr, insertRun_frame, BitVec.ofNat_toNat]
  · exact hx.faults hs (by rw [(encodeMatchToken_eq_error hdle hlle hm hs).mpr hf, run_bind_error])

end Sys2Proof.Machine
end

section
/-! SUPPORT. The stream loops (R432, R441): a loop whose turns use up what is left is the same with all the fuel it needs and with
more. -/

namespace Sys2Proof.Machine

open Sys2Proof.Claims

/-! ### A loop that uses up what is left (R571) -/

/-- At most n turns, while something is left. -/
def turns (left : State → Nat) (turn : State → Run State) : Nat → State → Run State
  | 0, s => .ok s
  | n + 1, s => if 0 < left s then (turn s).bind (turns left turn n) else .ok s

/-- As many turns as can be needed. -/
def allTurns (left : State → Nat) (turn : State → Run State) (s : State) : Run State := turns left turn (left s) s

section Loop

variable {left : State → Nat} {turn : State → Run State} {s : State}

theorem turns_of_none_left (h : left s = 0) (n : Nat) : turns left turn n s = .ok s := by
  cases n with
  | zero => rfl
  | succ n => exact if_neg (by omega)

theorem allTurns_of_none_left (h : left s = 0) : allTurns left turn s = .ok s := turns_of_none_left h _

variable (hturn : ∀ s u, 0 < left s → turn s = .ok u → left u < left s)
include hturn

/-- Turns beyond those that can be needed are not taken. -/
theorem turns_congr {n m : Nat} (hn : left s ≤ n) (hm : left s ≤ m) : turns left turn n s = turns left turn m s := by
  induction n generalizing m s with
  | zero => rw [turns_of_none_left (by omega), turns_of_none_left (by omega)]
  | succ n ih =>
    cases m with
    | zero => rw [turns_of_none_left (by omega), turns_of_none_left (by omega)]
    | succ m =>
      rw [turns, turns]
      split
      · next hpos =>
        cases hu : turn s with
        | error k => rfl
        | ok u =>
          have hlt := hturn s u hpos hu
          exact ih (by omega) (by omega)
      · rfl

/-- While something is left, a turn is taken and then all that remain. -/
theorem allTurns_of_left (h : 0 < left s) : allTurns left turn s = (turn s).bind (allTurns left turn) := by
  obtain ⟨m, hm⟩ := Nat.exists_eq_add_of_le' h
  rw [allTurns, hm, turns, if_pos h]
  cases hu : turn s with
  | error k => rfl
  | ok u =>
    have hlt := hturn s u h hu
    exact turns_congr hturn (by omega) le_rfl

end Loop

end Sys2Proof.Machine
end

section
/-! SUPPORT. `ENC_STREAM` (R432): the greedy loop of `MF_FIND`, `ENC_MATCH` and `ENC_LIT` as commands, the room it needs, and its flush. -/

namespace Sys2Proof.Machine

open Sys2Proof.Claims

/-! ### The turns of `ENC_STREAM` (R432) -/

/-- The input bytes not yet coded. -/
def State.inputLeft (s : State) : Nat := s.ilen.toNat - s.ipos.toNat

/-- One turn of `ENC_STREAM`: search, then a match or a literal (R432). -/
def encTurn (s : State) : Run State :=
  if (mfFindBody s).tokKind then encMatchBody (mfFindBody s) else encLitBody (mfFindBody s)

/-- What the search leaves alone (R210). -/
theorem mfFindBody_frame (s : State) :
    mfFindBody s = { s with
      tokKind := (mfFindBody s).tokKind, tokDist := (mfFindBody s).tokDist, tokLen := (mfFindBody s).tokLen } := by
  unfold mfFindBody
  dsimp only
  split <;> rfl

theorem inputLeft_mfFindBody (s : State) : (mfFindBody s).inputLeft = s.inputLeft := by rw [mfFindBody_frame]; rfl

theorem encLoop_eq (n : Nat) (s : State) : encLoop n s = turns State.inputLeft encTurn n s := by
  induction n generalizing s with
  | zero => rfl
  | succ n ih =>
    have hleft : s.ipos < s.ilen ↔ 0 < s.inputLeft := by rw [BitVec.lt_def]; exact Nat.sub_pos_iff_lt.symm
    rw [encLoop, turns, funext ih]
    exact if_congr hleft rfl rfl

theorem encStreamBody_eq (s : State) : encStreamBody s = (allTurns State.inputLeft encTurn s).bind encFlushBody := by
  rw [encStreamBody, encLoop_eq]
  rfl

/-- A literal steps over one byte (R430). -/
theorem encLitBody_uses_input {s t : State} (h : encLitBody s = .ok t) : t.inputLeft < s.inputLeft := by
  have hlen : t.ilen = s.ilen := (congrArg State.ilen (encLitBody_leaves h).1 :)
  unfold encLitBody at h
  split at h
  · cases h
  · next hi =>
    obtain ⟨u, -, ht⟩ := run_bind_eq_ok.mp h
    cases ht
    have hlt := BitVec.lt_def.mp (BitVec.not_le.mp hi)
    have hnext := ipos_succ hlt
    unfold State.inputLeft
    rw [hlen]
    dsimp only
    omega

/-- A match steps over two bytes at least (R431). -/
theorem encMatchBody_uses_input {s t : State} (h : encMatchBody s = .ok t) : t.inputLeft < s.inputLeft := by
  have hlen : t.ilen = s.ilen := (congrArg State.ilen (encMatchBody_besideTokens h) :)
  by_cases hk : matchOk s = true
  · rw [encMatchBody_of_ok hk] at h
    obtain ⟨u, -, ht⟩ := run_bind_eq_ok.mp h
    cases ht
    have hend := matchOk_end hk
    rw [ipos_add_of_matchOk hk] at hend
    have hnext := ipos_add_of_matchOk hk
    have h2 := (bounds_of_matchOk hk).2.1
    unfold State.inputLeft
    rw [hlen]
    dsimp only
    omega
  · rw [encMatchBody_of_not_ok hk] at h
    cases h

theorem encTurn_uses_input (s t : State) (_ : 0 < s.inputLeft) (h : encTurn s = .ok t) : t.inputLeft < s.inputLeft := by
  rw [← inputLeft_mfFindBody s]
  unfold encTurn at h
  split at h
  · exact encMatchBody_uses_input h
  · exact encLitBody_uses_input h

/-- The rest of the greedy loop, to the end of the input. -/
def encRest (s : State) : Run State := allTurns State.inputLeft encTurn s

theorem encRest_of_end {s : State} (h : s.ilen.toNat ≤ s.ipos.toNat) : encRest s = .ok s :=
  allTurns_of_none_left (Nat.sub_eq_zero_of_le h)

theorem encRest_of_input {s : State} (h : s.ipos.toNat < s.ilen.toNat) : encRest s = (encTurn s).bind encRest :=
  allTurns_of_left encTurn_uses_input (Nat.sub_pos_of_lt h)

/-- A turn is made of actions. -/
theorem encTurn_actions {s t : State} (hm : s.mode = .enc) (h : encTurn s = .ok t) : Actions s t := by
  have ha : Ends (Actions s) (encTurn s) := by
    have hf := mfFindBody_actions (.refl s)
    unfold encTurn
    split
    · exact encMatchBody_actions hm hf
    · exact encLitBody_actions hm hf
  rwa [h] at ha

/-! ### The turns as commands (R432) -/

theorem Actions.err {s t : State} (h : Actions s t) : t.err = s.err := (congrArg State.err h.corePart :)

theorem Actions.raced {s t : State} (h : Actions s t) : t.raced = s.raced := (congrArg State.raced h.corePart :)

section Turn

variable {s t : State} {k : Errcode} (hm : s.mode = .enc) (hs : s.err = false)
include hm hs

/-- A turn is the search, and then a match or a literal as it reports. -/
theorem encTurn_eq_ok :
    encTurn s = .ok t ↔ (mfFindBody s).tokKind = false ∧ Runs .encLit (mfFindBody s) t ∨
      (mfFindBody s).tokKind = true ∧ Runs .encMatch (mfFindBody s) t := by
  have hfind := mfFindBody_actions (.refl s)
  have hmode := hfind.mode.trans hm
  have herr := hfind.err.trans hs
  rw [(executes_encLit hmode).runs_iff herr, (executes_encMatch hmode).runs_iff herr, encTurn]
  cases (mfFindBody s).tokKind <;> simp

/-- It raises the fault that the match or the literal records. -/
theorem encTurn_eq_error :
    encTurn s = .error k ↔ (mfFindBody s).tokKind = false ∧ Faults .encLit (mfFindBody s) k ∨
      (mfFindBody s).tokKind = true ∧ Faults .encMatch (mfFindBody s) k := by
  have hfind := mfFindBody_actions (.refl s)
  have hmode := hfind.mode.trans hm
  have herr := hfind.err.trans hs
  rw [(executes_encLit hmode).faults_iff herr, (executes_encMatch hmode).faults_iff herr, encTurn]
  cases (mfFindBody s).tokKind <;> simp

theorem runs_mfFind_iff : Runs .mfFind s t ↔ t = mfFindBody s := by
  rw [Runs, exec_mfFind hm]
  constructor
  · rintro ⟨hx, -⟩
    exact (Host.Outcome.next.inj hx).symm
  · rintro rfl
    exact ⟨rfl, (mfFindBody_actions (.refl s)).err.trans hs⟩

/-- A turn is a step of the statement's loop. -/
theorem greedySteps_of_turn {u v : State} (h : s.ipos.toNat < s.ilen.toNat) (hu : encTurn s = .ok u) (hv : GreedySteps u v) :
    GreedySteps s v := by
  have hfind := (runs_mfFind_iff hm hs).mpr rfl
  rcases (encTurn_eq_ok hm hs).mp hu with ⟨hk, hrun⟩ | ⟨hk, hrun⟩
  · exact .literal s _ u v (BitVec.lt_def.mpr h) hfind hk hrun hv
  · exact .repetition s _ u v (BitVec.lt_def.mpr h) hfind hk hrun hv

end Turn

/-- A turn before the rest of the loop. -/
theorem encRest_of_turn {s u v : State} (hm : s.mode = .enc) (hi : s.ipos < s.ilen) (hu : encTurn s = .ok u)
    (h : encRest u = encRest v ∧ Actions u v) : encRest s = encRest v ∧ Actions s v := by
  rw [encRest_of_input (BitVec.lt_def.mp hi), hu, run_bind_ok]
  exact ⟨h.1, (encTurn_actions hm hu).trans h.2⟩

/-- Steps of the statement's loop are actions, and leave the rest of the loop to do. -/
theorem encRest_of_greedySteps {s u : State} (h : GreedySteps s u) (hm : s.mode = .enc) (hs : s.err = false) :
    encRest s = encRest u ∧ Actions s u := by
  induction h with
  | refl s => exact ⟨rfl, .refl s⟩
  | literal s t u v hi hfind hk hrun _ ih =>
    obtain rfl := (runs_mfFind_iff hm hs).mp hfind
    have hu := (encTurn_eq_ok hm hs).mpr (.inl ⟨hk, hrun⟩)
    exact encRest_of_turn hm hi hu (ih ((encTurn_actions hm hu).mode.trans hm) hrun.2)
  | repetition s t u v hi hfind hk hrun _ ih =>
    obtain rfl := (runs_mfFind_iff hm hs).mp hfind
    have hu := (encTurn_eq_ok hm hs).mpr (.inr ⟨hk, hrun⟩)
    exact encRest_of_turn hm hi hu (ih ((encTurn_actions hm hu).mode.trans hm) hrun.2)

/-! ### Room for every turn (R571) -/

/-- Positions that agree on more than k bytes agree on byte k (R206). -/
theorem ibufByte_of_lt_common {s : State} {q pos maxlen k : Nat} (h : k < s.common q pos maxlen) :
    s.ibufByte (q + k) = s.ibufByte (pos + k) := by
  have hmem := List.mem_takeWhile_imp (List.getElem_mem h)
  have hk := (List.takeWhile_prefix fun l => decide (s.ibufByte (q + l) = s.ibufByte (pos + l))).getElem h
  rw [List.getElem_range] at hk
  rw [hk] at hmem
  exact of_decide_eq_true hmem

/-- What the search reports with the history inserted is a true repetition, so it passes the checks of `ENC_MATCH` (R208, R432). -/
theorem matchOk_mfFindBody {s : State} (hm : s.mode = .enc) (hr : s.raced = []) (hh : s.History)
    (hk : (mfFindBody s).tokKind = true) : matchOk (mfFindBody s) = true := by
  have hrepeat : s.Repeats (mfFindBody s).tokDist.toNat (mfFindBody s).tokLen.toNat := by
    obtain ⟨t, ht, -, -, hlen, -⟩ := mfFindWritesTokenRegisters s hm
    obtain ⟨t', ht', hbest⟩ := mfFindGivesTheBestCandidate s _ hm hr hh rfl
    rw [exec_mfFind hm] at ht ht'
    cases ht
    cases ht'
    split at hbest
    · exact absurd (hk.symm.trans hbest.1) nofun
    · obtain ⟨q, hq, -, hd, hl, -⟩ := hbest
      obtain ⟨hlt, hwin, -⟩ := mem_candidatesBelow (List.mem_of_mem_take hq)
      have h3 := (hlen hk).1
      refine ⟨by omega, by omega, by omega, hl.trans_le (common_le _ _ _), fun k hkl => ?_⟩
      rw [hl] at hkl
      rw [hd, show s.ipos.toNat + k - (s.ipos.toNat - q) = q + k by omega]
      exact (ibufByte_of_lt_common hkl).symm
  have hraced : (mfFindBody s).raced = [] := by rw [mfFindBody_frame]; exact hr
  refine (matchOk_iff hraced).mpr ?_
  rw [mfFindBody_frame] at hrepeat ⊢
  exact hrepeat

theorem encLitBody_room_left {k : Nat} {s : State} (hr : s.raced = []) (hi : s.ipos.toNat < s.ilen.toNat)
    (h : Room (k + 9) s) : ∃ t, encLitBody s = .ok t ∧ Room k t := by
  obtain ⟨t, ht, hk⟩ := encodeBits_room_left (l := literalBits (s.ibufByte s.ipos.toNat) s) (by rwa [length_literalBits])
  refine ⟨afterLiteral s t, by rw [encLitBody_of_input hr hi, ht, run_bind_ok], ?_⟩
  unfold afterLiteral
  rw [insertPos_frame]
  exact hk

section Stream

variable {s : State} (hm : s.mode = .enc) (hs : s.err = false)
include hm hs

theorem encTurn_history {u : State} (hr : s.raced = []) (hh : s.History) (hu : encTurn s = .ok u) : u.History := by
  have hfind := mfFindBody_actions (.refl s)
  have hmode := hfind.mode.trans hm
  have hraced := hfind.raced.trans hr
  have hhist := hh.of_finderPart (mfFindBody_finderPart s)
  have humode := (encTurn_actions hm hu).mode.trans hm
  rcases (encTurn_eq_ok hm hs).mp hu with ⟨-, hrun⟩ | ⟨-, hrun⟩
  · exact history_of_runs hrun hmode hraced hhist humode
  · exact history_of_runs hrun hmode hraced hhist humode

omit hs in
/-- With the history inserted a turn completes with room for 45 bytes. -/
theorem encTurn_room_left {k : Nat} (hr : s.raced = []) (hh : s.History) (hi : s.ipos.toNat < s.ilen.toNat)
    (h : Room (k + 45) s) : ∃ u, encTurn s = .ok u ∧ Room k u := by
  have hroom : Room (k + 45) (mfFindBody s) := by rw [mfFindBody_frame]; exact h
  unfold encTurn
  split
  · next hk => exact encMatchBody_room_left (matchOk_mfFindBody hm hr hh hk) hroom
  · refine encLitBody_room_left ?_ ?_ (room_mono hroom (by omega))
    · rw [mfFindBody_frame]; exact hr
    · rw [mfFindBody_frame]; exact hi

/-- With the history inserted and room for 45 bytes for each byte of input, the greedy loop reaches the end of the input. -/
theorem greedy_of_room {k : Nat} (hr : s.raced = []) (hh : s.History) (h : Room (45 * s.inputLeft + k) s) :
    ∃ u, Greedy s u ∧ Room k u := by
  induction hn : s.inputLeft using Nat.strong_induction_on generalizing s with
  | _ n ih =>
    subst hn
    rcases Nat.lt_or_ge s.ipos.toNat s.ilen.toNat with hi | hend
    · have hpos : 0 < s.inputLeft := Nat.sub_pos_of_lt hi
      obtain ⟨u, hu, hroom⟩ := encTurn_room_left hm hr hh hi (k := 45 * (s.inputLeft - 1) + k) (room_mono h (by omega))
      have ha := encTurn_actions hm hu
      have hless := encTurn_uses_input s u hpos hu
      obtain ⟨v, ⟨hsteps, hv⟩, hroom⟩ := ih _ hless (ha.mode.trans hm) (ha.err.trans hs)
        (ha.raced.trans hr) (encTurn_history hm hs hr hh hu) (room_mono hroom (by omega)) rfl
      exact ⟨v, ⟨greedySteps_of_turn hm hs hi hu hsteps, hv⟩, hroom⟩
    · exact ⟨s, ⟨.refl s, BitVec.le_def.mpr hend⟩, room_mono h (by omega)⟩

end Stream

/-! ### The command (R432) -/

theorem executes_encStream {s : State} (hm : s.mode = .enc) : Executes .encStream s (encStreamBody s) := by
  refine executes_of_completed nofun ?_ (congrArg _ (inMode_of_eq hm _ _))
    ((encLoop_actions hm (.refl s) _).bind fun _ hu => encFlushBody_ends rfl hm hu)
  exact ((Loosened.refl true s).encoder rfl).prob.finder.ctxstate.ipos.tokMatch.drawn.err

/-- Settles O38: the loop's steps are its turns (`encRest_of_greedySteps`), and with room every turn completes (`greedy_of_room`). -/
theorem encStreamIsTheGreedyLoop : Obligations.EncStreamIsTheGreedyLoop := by
  intro s hm hs
  have hx := executes_encStream hm
  rw [show encStreamBody s = (encRest s).bind encFlushBody from encStreamBody_eq s] at hx
  have hgreedy {u : State} (hu : Greedy s u) : encRest s = .ok u ∧ Actions s u := by
    obtain ⟨hrest, ha⟩ := encRest_of_greedySteps hu.1 hm hs
    exact ⟨hrest.trans (encRest_of_end (BitVec.le_def.mp hu.2)), ha⟩
  refine ⟨fun hr hh hroom => ?_, fun u t hu ht => ?_, fun u v k hu hi hfind hk => ?_, fun u k hu hk => ?_⟩
  · obtain ⟨u, hu, hroom⟩ := greedy_of_room hm hs hr hh hroom
    obtain ⟨hrest, ha⟩ := hgreedy hu
    obtain ⟨w, hw⟩ := shiftLows_of_room hroom
    have hflush : encFlushBody u = .ok { w with mode := .idle } := run_bind_eq_ok.mpr ⟨w, hw, rfl⟩
    refine ⟨u, _, hu, ((executes_encFlush (ha.mode.trans hm)).runs_iff (ha.err.trans hs)).mpr hflush,
      hx.next (by rw [hrest, run_bind_ok, hflush]), rfl, ?_⟩
    have hpos : w.ipos = u.ipos := (congrArg State.ipos (shiftLows_frame hw).1.1 :)
    show s.ilen.toNat ≤ w.ipos.toNat
    rw [hpos, ← ha.ilen]
    exact BitVec.le_def.mp hu.2
  · obtain ⟨hrest, ha⟩ := hgreedy hu
    refine hx.next ?_
    rw [hrest, run_bind_ok, ((executes_encFlush (ha.mode.trans hm)).runs_iff (ha.err.trans hs)).mp ht]
  · obtain ⟨hrest, ha⟩ := encRest_of_greedySteps hu hm hs
    obtain rfl := (runs_mfFind_iff (ha.mode.trans hm) (ha.err.trans hs)).mp hfind
    refine hx.faults hs ?_
    rw [hrest, encRest_of_input hi, (encTurn_eq_error (ha.mode.trans hm) (ha.err.trans hs)).mpr hk, run_bind_error, run_bind_error]
  · obtain ⟨hrest, ha⟩ := hgreedy hu
    refine hx.faults hs ?_
    rw [hrest, run_bind_ok, ((executes_encFlush (ha.mode.trans hm)).faults_iff (ha.err.trans hs)).mp hk]

end Sys2Proof.Machine
end

section
/-! SUPPORT. What `DEC_BIT`, `DEC_DIRECT` and trees of them decode, as answers of the decoding procedures: the commands leave the
procedure's state but for `RESULT`, which no procedure reads (R39, R352-R354, R402, R405). -/

namespace Sys2Proof.Machine

open Sys2Proof.Claims

/-! ### Answers, `RESULT` aside -/

/-- The procedure answers a, and u is the state it leaves with some word in `RESULT`. -/
def Leaves {α : Type} (r : Run (α × State)) (a : α) (u : State) : Prop := ∃ t w, r = .ok (a, t) ∧ u = t.withResult w

/-- The procedure does not read `RESULT`. -/
def ResultBlind {α : Type} (f : State → Run (α × State)) : Prop := ∀ s v, f (s.withResult v) = runWithResult v (f s)

theorem ResultBlind.bind {α β : Type} {f : State → Run (α × State)} {g : α × State → Run (β × State)} (hf : ResultBlind f)
    (hg : ∀ a, ResultBlind fun s => g (a, s)) : ResultBlind fun s => (f s).bind g := by
  intro s v
  dsimp only
  rw [hf s v]
  exact runWithResult_bind fun a t => hg a t v

theorem ResultBlind.map {α β : Type} {f : State → Run (α × State)} (hf : ResultBlind f) (h : α → β) :
    ResultBlind fun s => (f s).bind fun x => .ok (h x.1, x.2) :=
  hf.bind (g := fun x => .ok (h x.1, x.2)) fun _ _ _ => rfl

section Leaves

variable {α β : Type} {r : Run (α × State)} {g : α × State → Run (β × State)} {a : α} {b : β} {u v : State} {k : Errcode}

/-- A sequence goes on from the state with any word in `RESULT`. -/
theorem Leaves.bind (h : Leaves r a u) (hg : ResultBlind fun s => g (a, s)) (h' : Leaves (g (a, u)) b v) :
    Leaves (r.bind g) b v := by
  obtain ⟨t, w, hr, rfl⟩ := h
  obtain ⟨t', w', ht, rfl⟩ := h'
  obtain ⟨x, hx, he⟩ := runWithResult_eq_ok.mp ((hg t w).symm.trans ht)
  cases he
  exact ⟨x.2, w', by rw [hr]; exact hx, rfl⟩

theorem Leaves.bind_error (h : Leaves r a u) (hg : ResultBlind fun s => g (a, s)) (h' : g (a, u) = .error k) :
    r.bind g = .error k := by
  obtain ⟨t, w, hr, rfl⟩ := h
  rw [hr, run_bind_ok]
  exact runWithResult_eq_error.mp ((hg t w).symm.trans h')

/-- The value may be computed from the answer. -/
theorem Leaves.map {α β : Type} {r : Run (α × State)} {a : α} {u : State} (h : Leaves r a u) (f : α → β) :
    Leaves (r.bind fun x => .ok (f x.1, x.2)) (f a) u := by
  obtain ⟨t, w, hr, rfl⟩ := h
  exact ⟨t, w, by rw [hr, run_bind_ok], rfl⟩

/-- The state left has the mode and `STATUS.ERR` it had. -/
theorem Leaves.keeps {s : State} (h : Leaves r a u) (hf : ∀ x, r = .ok x → DecFrame s x.2) :
    u.mode = s.mode ∧ u.err = s.err := by
  obtain ⟨t, w, hr, rfl⟩ := h
  have hframe := hf _ hr
  exact ⟨hframe.mode, hframe.err⟩

end Leaves

theorem resultBlind_decodeTree (base : Ctx) (n : Nat) : ResultBlind (decodeTree base n) := by
  intro s v
  rw [decodeTree_eq, decodeTree_eq, decodeSymbol, decodeSymbol, decodePath_withResult]
  cases decodePath base n 1 s <;> rfl

/-! ### What the commands decode -/

section Commands

variable {s u : State} {k : Errcode} (hm : s.mode = .dec) (hs : s.err = false)
include hm hs

theorem leaves_decBit {c : Ctx} (h : Runs (.decBit c) s u) : ∃ b, Leaves (decodeBit c s) b u ∧ u.result = bitWord b := by
  obtain ⟨x, hx, rfl⟩ := (runs_decBit_iff hm hs c).mp h
  exact ⟨x.1, ⟨x.2, _, hx, rfl⟩, rfl⟩

theorem leaves_decodesTree {base : Ctx} {n m : Nat} (h : DecodesTree base n 1 s m u) :
    Leaves (decodeTree base n s) (m - 2 ^ n) u := by
  obtain ⟨y, hy, rfl, rfl⟩ := (decodesTree_iff hm hs).mp h
  exact ⟨y.2, _, by rw [decodeTree_eq]; exact decodeSymbol_eq_ok.mpr ⟨y, hy, rfl⟩, rfl⟩

theorem decodeTree_of_treeFaults {base : Ctx} {n m : Nat} (h : TreeFaults base n s m u k) : decodeTree base n s = .error k := by
  obtain ⟨j, d, y, rfl, hy, hk, -⟩ := path_of_treeFaults hm hs h
  rw [decodeTree_eq, decodeSymbol, decodePath_of_fault hy hk]
  rfl

theorem leaves_decDirect {n : Nat} (h1 : 1 ≤ n) (h32 : n ≤ 32) (h : Runs (.decDirect (BitVec.ofNat 6 n)) s u) :
    Leaves (decodeDirect n s) u.result u := by
  have hn : (BitVec.ofNat 6 n).toNat = n := Nat.mod_eq_of_lt (by omega)
  have hx := executes_decDirect (n := BitVec.ofNat 6 n) hm (directCountOk_of_le (by omega) (by omega))
  obtain ⟨x, hx, rfl⟩ := writeResult_eq_ok.mp ((hx.runs_iff hs).mp h)
  exact ⟨x.2, _, hn ▸ hx, rfl⟩

theorem decodeDirect_of_faults {n : Nat} (h1 : 1 ≤ n) (h32 : n ≤ 32) (h : Faults (.decDirect (BitVec.ofNat 6 n)) s k) :
    decodeDirect n s = .error k := by
  have hn : (BitVec.ofNat 6 n).toNat = n := Nat.mod_eq_of_lt (by omega)
  have hx := executes_decDirect (n := BitVec.ofNat 6 n) hm (directCountOk_of_le (by omega) (by omega))
  exact hn ▸ writeResult_eq_error.mp ((hx.faults_iff hs).mp h)

end Commands

/-! ### A value (R402, R405) -/

/-- What follows the slot of a value: its extra bits, direct (R402, R405). -/
def decodeExtra (x : Nat × State) : Run (Nat × State) :=
  if x.1 < 4 then .ok x else (decodeDirect (x.1 / 2 - 1) x.2).bind fun y => .ok (slotBase x.1 + y.1.toNat, y.2)

theorem decodeSlotValue_eq (base : Ctx) (n : Nat) (s : State) :
    decodeSlotValue base n s = (decodeTree base n s).bind decodeExtra := rfl

theorem resultBlind_decodeExtra (m : Nat) : ResultBlind fun s => decodeExtra (m, s) := by
  intro s v
  unfold decodeExtra
  dsimp only
  split
  · rfl
  · rw [decodeDirect_withResult]
    cases decodeDirect (m / 2 - 1) s <;> rfl

theorem resultBlind_decodeSlotValue (base : Ctx) (n : Nat) : ResultBlind (decodeSlotValue base n) :=
  (resultBlind_decodeTree base n).bind resultBlind_decodeExtra

/-- A slot of at most 6 bits has from 1 to 30 extra bits, if it has any (R402). -/
theorem extraCount_bounds {base : Ctx} {n m : Nat} {s u : State} (hn : n ≤ 6) (h : Leaves (decodeTree base n s) m u)
    (h4 : 4 ≤ m) : 1 ≤ m / 2 - 1 ∧ m / 2 - 1 ≤ 30 := by
  obtain ⟨t, w, ht, -⟩ := h
  obtain ⟨y, hy, he⟩ := run_bind_eq_ok.mp ht
  cases he
  have hrange := (decodeTreeFrom_range hy).2
  have hpow : 2 ^ n ≤ 2 ^ 6 := Nat.pow_le_pow_right (by omega) hn
  omega

section Value

variable {base : Ctx} {n : Nat} {s u : State} {v : Nat} {k : Errcode} (hm : s.mode = .dec) (hs : s.err = false) (hn : n ≤ 6)
include hm hs hn

/-- The commands of a value decode what the procedure does. -/
theorem leaves_decodesValue (h : DecodesValue base n s v u) : Leaves (decodeSlotValue base n s) v u := by
  obtain ⟨m, t, ht, h⟩ := h
  have hslot := leaves_decodesTree hm hs ht
  rw [decodeSlotValue_eq]
  refine hslot.bind (resultBlind_decodeExtra _) ?_
  unfold decodeExtra
  dsimp only
  split at h
  · next hlt =>
    obtain ⟨rfl, rfl⟩ := h
    rw [if_pos hlt]
    exact ⟨u, u.result, rfl, rfl⟩
  · next hge =>
    obtain ⟨hrun, rfl⟩ := h
    obtain ⟨hmode, herr⟩ := hslot.keeps fun _ => decodeTree_frame
    have hcount := extraCount_bounds hn hslot (not_lt.mp hge)
    rw [if_neg hge, ← Nat.shiftLeft_eq]
    exact (leaves_decDirect (hmode.trans hm) (herr.trans hs) hcount.1 (by omega) hrun).map
      fun y : Word => slotBase (m - 2 ^ n) + y.toNat

theorem decodeSlotValue_of_faults (h : DecodingFaults base n s k) : decodeSlotValue base n s = .error k := by
  rw [decodeSlotValue_eq]
  rcases h with ⟨m, t, hf⟩ | ⟨m, t, ht, h4, hf⟩
  · rw [decodeTree_of_treeFaults hm hs hf, run_bind_error]
  · have hslot := leaves_decodesTree hm hs ht
    obtain ⟨hmode, herr⟩ := hslot.keeps fun _ => decodeTree_frame
    have hcount := extraCount_bounds hn hslot h4
    refine hslot.bind_error (resultBlind_decodeExtra _) ?_
    have hdirect := decodeDirect_of_faults (hmode.trans hm) (herr.trans hs) hcount.1 (by omega) hf
    rw [decodeExtra, if_neg (not_lt.mpr h4), hdirect, run_bind_error]

end Value

end Sys2Proof.Machine
end

section
/-! SUPPORT. The fields of a token as the commands that decode them (R405). -/

namespace Sys2Proof.Machine

open Sys2Proof.Claims

/-! ### The fields of a token (R405) -/

/-- After the flag 0: the byte (R405). -/
def decodeLiteral (s : State) : Run (Token × State) :=
  (decodeTree (litTree s) 8 s).bind fun x => .ok (.literal (BitVec.ofNat 8 x.1), x.2)

/-- After the length, still 2 less: its check and the distance (R405). -/
def decodeDistance (x : Nat × State) : Run (Token × State) :=
  if 273 < x.1 + 2 then .error .lenRange
  else (decodeSlotValue (distTree (x.1 + 2)) 6 x.2).bind fun y => .ok (.repetition (y.1 + 1) (x.1 + 2), y.2)

/-- After the flag: a length and a distance, or a byte (R405). -/
def decodeAfterFlag (x : Bool × State) : Run (Token × State) :=
  if x.1 then (decodeSlotValue 0x900 5 x.2).bind decodeDistance else decodeLiteral x.2

theorem decodeTokenFields_eq (s : State) : decodeTokenFields s = (decodeBit (flag s) s).bind decodeAfterFlag := by
  rw [decodeTokenFields, flagCtx_eq]
  refine congrArg _ (funext fun x => ?_)
  unfold decodeAfterFlag decodeLiteral
  rw [litBase_eq]
  refine if_congr Iff.rfl (congrArg _ (funext fun y => ?_)) rfl
  rw [distBase_eq]
  rfl

theorem resultBlind_decodeLiteral : ResultBlind decodeLiteral := fun s v =>
  (resultBlind_decodeTree (litTree s) 8).map (fun n => Token.literal (BitVec.ofNat 8 n)) s v

theorem resultBlind_decodeDistance (n : Nat) : ResultBlind fun s => decodeDistance (n, s) := by
  intro s v
  unfold decodeDistance
  dsimp only
  split
  · rfl
  · exact (resultBlind_decodeSlotValue _ 6).map (fun d => Token.repetition (d + 1) (n + 2)) s v

theorem resultBlind_decodeAfterFlag (b : Bool) : ResultBlind fun s => decodeAfterFlag (b, s) := by
  cases b with
  | false => exact resultBlind_decodeLiteral
  | true => exact (resultBlind_decodeSlotValue 0x900 5).bind resultBlind_decodeDistance

/-- Decoding the flag leaves the literal tree (R401). -/
theorem litTree_of_leaves {c : Ctx} {b : Bool} {s u : State} (h : Leaves (decodeBit c s) b u) : litTree s = litTree u := by
  obtain ⟨t, w, ht, rfl⟩ := h
  exact (congrArg litTree (decodeBit_frame ht).2.1.1.symm :)

section Fields

variable {s u : State} {k : Errcode} (hm : s.mode = .dec) (hs : s.err = false)
include hm hs

/-- The flag as a command (R405). -/
theorem leaves_flag {b : Bool} (h : Runs (.decBit (flag s)) s u) (hb : u.result = bitWord b) :
    Leaves (decodeBit (flag s) s) b u ∧ u.mode = .dec ∧ u.err = false := by
  obtain ⟨b', hu, hres⟩ := leaves_decBit hm hs h
  obtain rfl : b' = b := bit_injective (by rw [← bitWord_toNat, ← bitWord_toNat, ← hres, hb])
  exact ⟨hu, (decBit_leaves_bit hm hs h).2, h.2⟩

/-- A literal as commands (R405). -/
theorem leaves_literal {m : Nat} {v : State} (hu : Runs (.decBit (flag s)) s u) (h0 : u.result = 0)
    (hv : DecodesTree (litTree s) 8 1 u m v) :
    Leaves (decodeTokenFields s) (.literal (BitVec.ofNat 8 (m - 256))) v := by
  obtain ⟨hflag, hmode, herr⟩ := leaves_flag hm hs (b := false) hu h0
  rw [litTree_of_leaves hflag] at hv
  rw [decodeTokenFields_eq]
  exact hflag.bind (resultBlind_decodeAfterFlag _) ((leaves_decodesTree hmode herr hv).map fun n => Token.literal (BitVec.ofNat 8 n))

/-- A length as commands: what remains is the distance (R405). -/
theorem leaves_length {l : Nat} (h : DecodesLength s l u) :
    (∀ tok v, Leaves (decodeDistance (l - 2, u)) tok v → Leaves (decodeTokenFields s) tok v) ∧
      (∀ k, decodeDistance (l - 2, u) = .error k → decodeTokenFields s = .error k) ∧ 2 ≤ l ∧ u.mode = .dec ∧ u.err = false := by
  obtain ⟨t, n, ht, h1, hn, rfl⟩ := h
  obtain ⟨hflag, hmode, herr⟩ := leaves_flag hm hs (b := true) ht h1
  have hlen := leaves_decodesValue hmode herr (by omega) hn
  obtain ⟨hmode', herr'⟩ := hlen.keeps fun _ => decodeSlotValue_frame
  rw [decodeTokenFields_eq, Nat.add_sub_cancel]
  refine ⟨fun tok v hv => ?_, fun k hk => ?_, by omega, hmode'.trans hmode, herr'.trans herr⟩
  · exact hflag.bind (resultBlind_decodeAfterFlag _) (hlen.bind (resultBlind_decodeDistance _) hv)
  · exact hflag.bind_error (resultBlind_decodeAfterFlag _) (hlen.bind_error (resultBlind_decodeDistance _) hk)

/-- A match as commands (R405). -/
theorem leaves_match {d l : Nat} (h : DecodesMatch s d l u) :
    Leaves (decodeTokenFields s) (.repetition d l) u ∧ 1 ≤ d ∧ 2 ≤ l := by
  obtain ⟨t, v, ht, hl, hv, rfl⟩ := h
  obtain ⟨hok, -, h2, hmode, herr⟩ := leaves_length hm hs ht
  refine ⟨hok _ _ ?_, by omega, h2⟩
  have hvalue := (leaves_decodesValue hmode herr (by omega) hv).map fun v => Token.repetition (v + 1) l
  unfold decodeDistance
  dsimp only
  rwa [Nat.sub_add_cancel h2, if_neg (by omega)]

/-- The fault of a length or a distance (R404, R405). -/
theorem fields_of_length_fault (hu : Runs (.decBit (flag s)) s u) (h1 : u.result = 1) (h : DecodingFaults 0x900 5 u k) :
    decodeTokenFields s = .error k := by
  obtain ⟨hflag, hmode, herr⟩ := leaves_flag hm hs (b := true) hu h1
  rw [decodeTokenFields_eq]
  refine hflag.bind_error (resultBlind_decodeAfterFlag _) ?_
  rw [decodeAfterFlag, if_pos rfl, decodeSlotValue_of_faults hmode herr (by omega) h, run_bind_error]

theorem fields_of_distance_fault {l : Nat} (hl : l ≤ 273) (hu : DecodesLength s l u) (h : DecodingFaults (distTree l) 6 u k) :
    decodeTokenFields s = .error k := by
  obtain ⟨-, herror, h2, hmode, herr⟩ := leaves_length hm hs hu
  refine herror k ?_
  unfold decodeDistance
  dsimp only
  rw [Nat.sub_add_cancel h2, if_neg (by omega), decodeSlotValue_of_faults hmode herr (by omega) h, run_bind_error]

theorem fields_of_long_length {l : Nat} (hl : 273 < l) (hu : DecodesLength s l u) : decodeTokenFields s = .error .lenRange := by
  obtain ⟨-, herror, h2, -⟩ := leaves_length hm hs hu
  exact herror _ (if_pos (by omega))

/-- The fault of the flag or of a literal (R405). -/
theorem fields_of_flag_fault (h : Faults (.decBit (flag s)) s k) : decodeTokenFields s = .error k := by
  rw [decodeTokenFields_eq, (faults_decBit_iff hm hs _).mp h, run_bind_error]

theorem fields_of_literal_fault {m : Nat} {v : State} (hu : Runs (.decBit (flag s)) s u) (h0 : u.result = 0)
    (h : TreeFaults (litTree s) 8 u m v k) : decodeTokenFields s = .error k := by
  obtain ⟨hflag, hmode, herr⟩ := leaves_flag hm hs (b := false) hu h0
  rw [litTree_of_leaves hflag] at h
  rw [decodeTokenFields_eq]
  refine hflag.bind_error (resultBlind_decodeAfterFlag _) ?_
  rw [decodeAfterFlag, if_neg nofun, decodeLiteral, decodeTree_of_treeFaults hmode herr h, run_bind_error]

end Fields

end Sys2Proof.Machine
end

section
/-! SUPPORT. The replay of a token (R411, R412, R440), and `DEC_TOKEN` as the commands that decode the token and then its replay. -/

namespace Sys2Proof.Machine

open Sys2Proof.Claims

/-! ### `CopyMatch` (R412) -/

/-- The copy writes `OPOS`, `OBUF` and `WINBUF` only. -/
theorem copyMatch_frame (d l : Nat) (s : State) :
    copyMatch d l s = { s with
      opos := s.opos + BitVec.ofNat 64 l, obuf := (copyMatch d l s).obuf, winbuf := (copyMatch d l s).winbuf } := by
  induction l generalizing s with
  | zero => simp [copyMatch]
  | succ l ih =>
    have hpos : s.opos + 1 + BitVec.ofNat 64 l = s.opos + BitVec.ofNat 64 (l + 1) := by
      rw [BitVec.add_assoc, BitVec.ofNat_add, BitVec.add_comm 1]
      rfl
    rw [copyMatch, ih, ← hpos]
    rfl

theorem copyMatch_opos {d l : Nat} {s : State} (hl : s.opos.toNat + l ≤ s.olim.toNat) :
    (copyMatch d l s).opos.toNat = s.opos.toNat + l := by
  have := s.olim.isLt
  rw [copyMatch_frame]
  dsimp only
  rw [BitVec.toNat_add, BitVec.toNat_ofNat]
  omega

/-- In a window that holds the last bytes of the output, every byte copied equals the one d before it, and no other byte changes. -/
theorem copyMatch_bytes {d l : Nat} {s : State} (hm : s.mode = .dec) (hs : s.err = false) (hw : s.WindowOk) (h1 : 1 ≤ d)
    (hd : d ≤ min s.opos.toNat s.win) (hl : s.opos.toNat + l ≤ s.olim.toNat) :
    (∀ j, j < s.opos.toNat ∨ s.opos.toNat + l ≤ j → (copyMatch d l s).obufByte j = s.obufByte j) ∧
      ∀ k, k < l → (copyMatch d l s).obufByte (s.opos.toNat + k) = (copyMatch d l s).obufByte (s.opos.toNat + k - d) := by
  induction l generalizing s with
  | zero => exact ⟨fun _ _ => rfl, nofun⟩
  | succ l ih =>
    have hlt : s.opos.toNat < s.olim.toNat := by omega
    have hbyte : s.winbufAt ((s.opos.toNat - d) % s.win) = s.obufByte (s.opos.toNat - d) := hw hs hm _ (by omega) (by omega)
    rw [copyMatch, hbyte]
    have hpos := put_opos (s.obufByte (s.opos.toNat - d)) hlt
    have hput := put_obufByte (s.obufByte (s.opos.toNat - d)) s
    obtain ⟨hkeep, hcopy⟩ := ih (s := put (s.obufByte (s.opos.toNat - d)) s) hm hs (put_windowOk _ hlt hw)
      (by rw [hpos]; show d ≤ min _ s.win; omega) (by rw [hpos]; show _ ≤ s.olim.toNat; omega)
    rw [hpos] at hkeep hcopy
    refine ⟨fun j hj => ?_, fun k hk => ?_⟩
    · rw [hkeep j (by omega), hput, if_neg (by omega)]
    · cases k with
      | zero =>
        rw [Nat.add_zero, hkeep _ (by omega), hkeep _ (by omega), hput, hput, if_pos rfl, if_neg (by omega)]
      | succ k =>
        have hbytes := hcopy k (by omega)
        rwa [show s.opos.toNat + 1 + k = s.opos.toNat + (k + 1) by omega] at hbytes

/-! ### The replay (R440) -/

/-- What the replay of a match leaves, past its checks (R440). -/
def afterCopy (d l : Nat) (t : State) : State :=
  { copyMatch d l t with
    prevByte := (copyMatch d l t).obufByte ((copyMatch d l t).opos.toNat - 1), prevMatch := true
    tokKind := true, tokLit := 0, tokDist := BitVec.ofNat 32 d, tokLen := BitVec.ofNat 9 l }

/-- What the replay of a literal leaves (R440). -/
def afterPut (b : Byte) (t : State) : State :=
  { put b t with prevByte := b, prevMatch := false, tokKind := false, tokLit := b, tokDist := 0, tokLen := 0 }

theorem afterPut_obufByte (b : Byte) (t : State) (j : Nat) :
    (afterPut b t).obufByte j = if j = t.opos.toNat then b else t.obufByte j := put_obufByte b t j

theorem afterPut_winbufAt (b : Byte) (t : State) (j : Nat) :
    (afterPut b t).winbufAt j = if j = t.opos.toNat % t.win then b else t.winbufAt j := put_winbufAt b t j

/-- What the replay of a match leaves, with `PREV_BYTE` the last byte copied (R440). -/
theorem afterCopy_frame {d l : Nat} {t : State} (hl : t.opos.toNat + l ≤ t.olim.toNat) :
    afterCopy d l t = { t with
      opos := t.opos + BitVec.ofNat 64 l, obuf := (afterCopy d l t).obuf, winbuf := (afterCopy d l t).winbuf
      prevByte := (afterCopy d l t).obufByte (t.opos.toNat + l - 1), prevMatch := true
      tokKind := true, tokLit := 0, tokDist := BitVec.ofNat 32 d, tokLen := BitVec.ofNat 9 l } := by
  unfold afterCopy
  rw [copyMatch_opos hl, copyMatch_frame]
  rfl

theorem replay_literal (b : Byte) (t : State) : replay (.literal b) t = .ok (afterPut b t) := rfl

theorem replay_repetition {d l : Nat} {t : State} (hd : d ≤ min t.opos.toNat t.win) (hl : l ≤ t.olim.toNat - t.opos.toNat) :
    replay (.repetition d l) t = .ok (afterCopy d l t) := (if_neg (not_lt.mpr hd)).trans (if_neg (not_lt.mpr hl))

theorem replay_of_far {d l : Nat} {t : State} (hd : min t.opos.toNat t.win < d) :
    replay (.repetition d l) t = .error .distRange := if_pos hd

theorem replay_of_no_room {d l : Nat} {t : State} (hd : d ≤ min t.opos.toNat t.win) (hl : t.olim.toNat - t.opos.toNat < l) :
    replay (.repetition d l) t = .error .outLimit := (if_neg (not_lt.mpr hd)).trans (if_pos hl)

/-! ### The command (R440) -/

theorem executes_decToken {s : State} (hm : s.mode = .dec) (ho : s.opos.toNat < s.olim.toNat) :
    Executes .decToken s (decTokenBody s) := by
  have hlim : ¬ s.olim ≤ s.opos := BitVec.not_le.mpr (BitVec.lt_def.mpr ho)
  refine executes_of_completed nofun ?_ (congrArg _ ((inMode_of_eq hm _ _).trans (if_neg hlim)))
    ((decTokenBody_actions (.refl s) ho).imp fun _ => .actions)
  exact ((Loosened.refl true s).obuf rfl).opos.prob.decoder.ipos.winbuf.ctxstate.tokMatch.tokLit.drawn.err

/-- The replay is in the state that decoding leaves, which differs from the one before in the decoder alone, and from what the commands
leave in `RESULT`. -/
theorem decTokenBody_of_leaves {s v : State} {tok : Token} (h : Leaves (decodeTokenFields s) tok v) :
    ∃ t w, decTokenBody s = replay tok t ∧ DecFrame s t ∧ v = t.withResult w := by
  obtain ⟨t, w, ht, rfl⟩ := h
  exact ⟨t, w, by rw [decTokenBody, ht, run_bind_ok], decodeTokenFields_frame ht, rfl⟩

theorem decTokenBody_of_fault {s : State} {k : Errcode} (h : decodeTokenFields s = .error k) : decTokenBody s = .error k := by
  rw [decTokenBody, h, run_bind_error]

/-- Nine bytes of input are enough for a literal, if its flag is coded (R351). -/
theorem literal_of_input {s : State} (hm : s.mode = .dec) (hs : s.err = false)
    (hflag : s.decCode.toNat < split s.decRange (s.probAt (flag s))) (hi : s.ipos.toNat + 9 ≤ s.ilen.toNat) :
    ∃ u v m, Runs (.decBit (flag s)) s u ∧ u.result = 0 ∧ DecodesTree (litTree s) 8 1 u m v := by
  obtain ⟨x, hx⟩ := decodeBit_input (flag s) (s := s) (by omega)
  obtain ⟨hbit, hframe, hpos⟩ := decodeBit_frame hx
  rw [codedBit_eq, decide_eq_false (Nat.not_le.mpr hflag)] at hbit
  obtain ⟨y, hy⟩ := decodePath_of_input (base := litTree s) (n := 8) (m := 1) (s := x.2.withResult (bitWord x.1))
    (by show x.2.ipos.toNat + 8 ≤ x.2.ilen.toNat; rw [hframe.ilen]; omega)
  have hmode : (x.2.withResult (bitWord x.1)).mode = .dec := hframe.mode.trans hm
  have herr : (x.2.withResult (bitWord x.1)).err = false := hframe.err.trans hs
  refine ⟨_, _, _, (runs_decBit_iff hm hs _).mpr ⟨x, hx, rfl⟩, ?_, (decodesTree_iff hmode herr).mpr ⟨y, hy, rfl, rfl⟩⟩
  show bitWord x.1 = 0
  rw [hbit]
  rfl

theorem DecFrame.obufByte {s t : State} (h : DecFrame s t) : t.obufByte = s.obufByte := (congrArg State.obufByte h.1 :)

theorem DecFrame.win {s t : State} (h : DecFrame s t) : t.win = s.win := (congrArg State.win h.1 :)

theorem DecFrame.opos {s t : State} (h : DecFrame s t) : t.opos = s.opos := (congrArg State.opos h.1 :)

theorem DecFrame.olim {s t : State} (h : DecFrame s t) : t.olim = s.olim := (congrArg State.olim h.1 :)

theorem DecFrame.result {s t : State} (h : DecFrame s t) : t.result = s.result := (congrArg State.result h.1 :)

/-- Settles O47: the commands decode the token (`leaves_literal`), and its replay is one `Put`. -/
theorem decTokenReplaysALiteral : Obligations.DecTokenReplaysALiteral := by
  intro s hm hs
  have hnext {u v : State} {m : Nat} (ho : s.opos.toNat < s.olim.toNat) (hu : Runs (.decBit (flag s)) s u) (h0 : u.result = 0)
      (hv : DecodesTree (litTree s) 8 1 u m v) :
      ∃ t w, Runs .decToken s (afterPut (BitVec.ofNat 8 (m - 256)) t) ∧ DecFrame s t ∧ v = t.withResult w := by
    obtain ⟨t, w, ht, hframe, rfl⟩ := decTokenBody_of_leaves (leaves_literal hm hs hu h0 hv)
    exact ⟨t, w, ((executes_decToken hm ho).runs_iff hs).mpr (ht.trans (replay_literal _ t)), hframe, rfl⟩
  refine ⟨fun ho => ?_, fun ho hflag hi => ?_, fun ho u v m hu h0 hv => ?_, fun ho k hk => ?_⟩
  · exact congrArg _ ((inMode_of_eq hm _ _).trans ((if_pos (BitVec.le_def.mpr ho)).trans (preFault_of_clear hs _ _)))
  · obtain ⟨u, v, m, hu, h0, hv⟩ := literal_of_input hm hs hflag hi
    obtain ⟨t, -, ht, -⟩ := hnext ho hu h0 hv
    exact ⟨u, v, _, m, hu, h0, hv, ht⟩
  · obtain ⟨t, w, ht, hframe, rfl⟩ := hnext ho hu h0 hv
    refine ⟨_, ht.1, ?_, fun j => ?_, fun j => ?_⟩
    · rw [← hframe.result, ← hframe.opos]
      rfl
    · rw [← hframe.opos, ← hframe.obufByte]
      exact afterPut_obufByte _ t j
    · rw [← hframe.opos, ← hframe.win, show s.winbufAt j = t.winbufAt j from (congrArg (State.winbufAt · j) hframe.1.symm :)]
      exact afterPut_winbufAt _ t j
  · refine (executes_decToken hm ho).faults hs (decTokenBody_of_fault ?_)
    rcases hk with hk | ⟨u, v, m, hu, h0, hf⟩
    · exact fields_of_flag_fault hm hs hk
    · exact fields_of_literal_fault hm hs hu h0 hf

/-- Settles O48: the commands decode the token (`leaves_match`), and its replay is `copyMatch_bytes`. -/
theorem decTokenReplaysAMatch : Obligations.DecTokenReplaysAMatch := by
  intro s u d l hm hs ho hw hu hd hl
  have hx := executes_decToken hm ho
  obtain ⟨hfields, h1, h2⟩ := leaves_match hm hs hu
  obtain ⟨t, w, ht, hframe, rfl⟩ := decTokenBody_of_leaves hfields
  rw [← hframe.opos, ← hframe.win] at hd
  rw [← hframe.opos, ← hframe.olim] at hl
  have hbody := ht.trans (replay_repetition hd hl)
  rw [← hframe.opos, ← hframe.olim] at ho
  replace hl : t.opos.toNat + l ≤ t.olim.toNat := by omega
  obtain ⟨hkeep, hcopy⟩ := copyMatch_bytes (hframe.mode.trans hm) (hframe.err.trans hs) (hframe.windowOk hw) h1 hd hl
  refine ⟨afterCopy d l t, hx.next hbody, ?_, fun j hj => ?_, fun k hk => ?_⟩
  · rw [← hframe.result, ← hframe.opos]
    exact afterCopy_frame (d := d) hl
  · rw [← hframe.opos] at hj
    exact (hkeep j hj).trans (congrFun hframe.obufByte j)
  · rw [← hframe.opos]
    exact hcopy k hk

/-- Settles O49: the commands raise the fault of decoding, or decode a token that a check of its replay rejects. -/
theorem decTokenRejectsBadMatches : Obligations.DecTokenRejectsBadMatches := by
  intro s hm hs ho
  have hx := executes_decToken hm ho
  refine ⟨fun u l hu hl => ?_, fun u d l hu hd => ?_, fun u d l hu hd hl => ?_, fun u k hu h1 hk => ?_, fun u l k hu hl hk => ?_⟩
  · exact hx.faults hs (decTokenBody_of_fault (fields_of_long_length hm hs hl hu))
  · obtain ⟨t, w, ht, hframe, -⟩ := decTokenBody_of_leaves (leaves_match hm hs hu).1
    rw [← hframe.opos, ← hframe.win] at hd
    exact hx.faults hs (ht.trans (replay_of_far hd))
  · obtain ⟨t, w, ht, hframe, -⟩ := decTokenBody_of_leaves (leaves_match hm hs hu).1
    rw [← hframe.opos, ← hframe.win] at hd
    rw [← hframe.opos, ← hframe.olim] at hl
    exact hx.faults hs (ht.trans (replay_of_no_room hd hl))
  · exact hx.faults hs (decTokenBody_of_fault (fields_of_length_fault hm hs hu h1 hk))
  · exact hx.faults hs (decTokenBody_of_fault (fields_of_distance_fault hm hs hl hu hk))

end Sys2Proof.Machine
end

section
/-! SUPPORT. `DEC_STREAM` (R441): the loop of `DEC_TOKEN` commands, and `DEC_FINISH` at its end. -/

namespace Sys2Proof.Machine

open Sys2Proof.Claims

/-! ### The loop (R441) -/

/-- The output bytes not yet decoded. -/
def State.outputLeft (s : State) : Nat := s.olim.toNat - s.opos.toNat

theorem decLoop_eq (n : Nat) (s : State) : decLoop n s = turns State.outputLeft decTokenBody n s := by
  induction n generalizing s with
  | zero => rfl
  | succ n ih =>
    have hleft : s.opos < s.olim ↔ 0 < s.outputLeft := by rw [BitVec.lt_def]; exact Nat.sub_pos_iff_lt.symm
    rw [decLoop, turns, funext ih]
    exact if_congr hleft rfl rfl

/-- The rest of the loop, to the end of the output. -/
def decRest (s : State) : Run State := allTurns State.outputLeft decTokenBody s

theorem decStreamBody_eq (s : State) : decStreamBody s = (decRest s).bind decFinishBody := by
  rw [decStreamBody, decLoop_eq]
  rfl

/-- A decoded match has two bytes at least (R405). -/
theorem length_of_fields {s t : State} {d l : Nat} (h : decodeTokenFields s = .ok (.repetition d l, t)) : 2 ≤ l := by
  rw [decodeTokenFields_eq] at h
  obtain ⟨⟨b, u⟩, -, h⟩ := run_bind_eq_ok.mp h
  cases b with
  | false =>
    obtain ⟨x, -, hx⟩ := run_bind_eq_ok.mp h
    cases hx
  | true =>
    obtain ⟨n, -, hn⟩ := run_bind_eq_ok.mp h
    unfold decodeDistance at hn
    split at hn
    · cases hn
    · obtain ⟨y, -, hy⟩ := run_bind_eq_ok.mp hn
      cases hy
      omega

/-- A token that is replayed fills one byte of output at least (R440). -/
theorem decTokenBody_fills_output (s t : State) (hleft : 0 < s.outputLeft) (h : decTokenBody s = .ok t) :
    t.outputLeft < s.outputLeft := by
  have hlim : t.olim = s.olim := (congrArg State.olim (decTokenBody_besideReplay h) :)
  suffices hpos : s.opos.toNat < t.opos.toNat by
    unfold State.outputLeft at hleft ⊢
    rw [hlim]
    omega
  obtain ⟨⟨tok, u⟩, hu, ht⟩ := run_bind_eq_ok.mp h
  have hframe := decodeTokenFields_frame hu
  unfold State.outputLeft at hleft
  rw [← hframe.opos]
  rw [← hframe.opos, ← hframe.olim] at hleft
  dsimp only at hleft ⊢
  cases tok with
  | literal b =>
    cases ht
    have hput := put_opos b (s := u) (by omega)
    exact (Nat.lt_succ_self _).trans_eq hput.symm
  | repetition d l =>
    have h2 := length_of_fields hu
    unfold replay at ht
    dsimp only at ht
    split at ht
    · cases ht
    · split at ht
      · cases ht
      · next hl =>
        cases ht
        have hcopy := copyMatch_opos (d := d) (l := l) (s := u) (by omega)
        dsimp only
        omega

theorem decRest_of_end {s : State} (h : s.olim.toNat ≤ s.opos.toNat) : decRest s = .ok s :=
  allTurns_of_none_left (Nat.sub_eq_zero_of_le h)

theorem decRest_of_output {s : State} (h : s.opos.toNat < s.olim.toNat) : decRest s = (decTokenBody s).bind decRest :=
  allTurns_of_left decTokenBody_fills_output (Nat.sub_pos_of_lt h)

/-- Steps of the statement's loop are actions, and leave the rest of the loop to do. -/
theorem decRest_of_tokenSteps {s u : State} (h : TokenSteps s u) (hm : s.mode = .dec) (hs : s.err = false) :
    decRest s = decRest u ∧ Actions s u := by
  induction h with
  | refl s => exact ⟨rfl, .refl s⟩
  | token s t u ho hrun _ ih =>
    have hlt := BitVec.lt_def.mp ho
    have ht := ((executes_decToken hm hlt).runs_iff hs).mp hrun
    have ha := decTokenBody_actions (.refl s) hlt
    rw [ht] at ha
    obtain ⟨hrest, ha'⟩ := ih (ha.mode.trans hm) hrun.2
    rw [decRest_of_output hlt, ht, run_bind_ok]
    exact ⟨hrest, ha.trans ha'⟩

/-! ### The commands (R370, R441) -/

theorem executes_decFinish {s : State} (hm : s.mode = .dec) : Executes .decFinish s (decFinishBody s) :=
  executes_of_completed nofun rfl (exec_decFinish hm) (decFinishBody_ends rfl (.refl s))

/-- `DEC_FINISH` closes the stream and does no more (R370). -/
theorem eq_of_decFinishBody {s t : State} (h : decFinishBody s = .ok t) : t = { s with mode := .idle } := by
  unfold decFinishBody at h
  split at h
  · cases h
  · split at h
    · cases h
    · cases h
      rfl

theorem exec_decStream {s : State} (hm : s.mode = .dec) :
    exec .decStream s =
      .next (finish (encode .decStream) s (if s.olim ≤ s.opos then s else looseDecode s) ((decRest s).bind decFinishBody)) := by
  rw [← decStreamBody_eq]
  exact congrArg _ (inMode_of_eq hm _ _)

theorem executes_decStream {s : State} (hm : s.mode = .dec) : Executes .decStream s ((decRest s).bind decFinishBody) := by
  refine executes_of_completed nofun ?_ (exec_decStream hm) ?_
  · split
    · rfl
    · exact ((Loosened.refl true s).obuf rfl).opos.prob.decoder.ipos.winbuf.ctxstate.tokMatch.tokLit.drawn.err
  · rw [← decStreamBody_eq]
    exact (decLoop_actions (.refl s) _).bind fun _ hu => decFinishBody_ends rfl hu

/-- With no token to decode `DEC_STREAM` is `DEC_FINISH` alone (R441). -/
theorem exec_decStream_of_end {s : State} (hm : s.mode = .dec) (h : s.olim.toNat ≤ s.opos.toNat) :
    exec .decStream s = .next (finish (encode .decStream) s s (decFinishBody s)) := by
  rw [exec_decStream hm, if_pos (BitVec.le_def.mpr h), decRest_of_end h, run_bind_ok]

/-- Settles O50: the loop's steps are its turns (`decRest_of_tokenSteps`), and `DEC_FINISH` follows them. -/
theorem decStreamIsTheTokenLoop : Obligations.DecStreamIsTheTokenLoop := by
  intro s hm hs
  have hx := executes_decStream hm
  have htokens {u : State} (hu : Tokens s u) : decRest s = .ok u ∧ Actions s u := by
    obtain ⟨hrest, ha⟩ := decRest_of_tokenSteps hu.1 hm hs
    exact ⟨hrest.trans (decRest_of_end (BitVec.le_def.mp hu.2)), ha⟩
  refine ⟨fun u t hu ht => ?_, fun u k hu ho hk => ?_, fun u k hu hk => ?_, fun hend => ⟨fun hc hi => ?_, fun k hk => ?_⟩⟩
  · obtain ⟨hrest, ha⟩ := htokens hu
    have hfinish := ((executes_decFinish (ha.mode.trans hm)).runs_iff (ha.err.trans hs)).mp ht
    refine ⟨hx.next (by rw [hrest, run_bind_ok, hfinish]), ?_⟩
    rw [eq_of_decFinishBody hfinish]
    refine ⟨rfl, fun hle => BitVec.le_antisymm ?_ ?_⟩
    · exact BitVec.le_def.mpr (ha.output.2.1 hle)
    · rw [← ha.olim]
      exact hu.2
  · obtain ⟨hrest, ha⟩ := decRest_of_tokenSteps hu hm hs
    have htoken := ((executes_decToken (ha.mode.trans hm) ho).faults_iff (ha.err.trans hs)).mp hk
    refine hx.faults hs ?_
    rw [hrest, decRest_of_output ho, htoken, run_bind_error, run_bind_error]
  · obtain ⟨hrest, ha⟩ := htokens hu
    refine hx.faults hs ?_
    rw [hrest, run_bind_ok, ((executes_decFinish (ha.mode.trans hm)).faults_iff (ha.err.trans hs)).mp hk]
  · rw [exec_decStream_of_end hm hend, decFinishBody_of_end hc hi, finish]
  · rw [exec_decStream_of_end hm hend, ((executes_decFinish hm).faults_iff hs).mp hk, finish, recordFault_of_clear hs]
    rfl

end Sys2Proof.Machine
end

section
/-! SUPPORT. The empty input (R423): the payload that `ENC_STREAM` writes for it, and what `DEC_STREAM` reads. -/

namespace Sys2Proof.Machine

open Sys2Proof.Claims

theorem bytesValue_eq_zero {f : Nat → Byte} {i n : Nat} : bytesValue f i n = 0 ↔ ∀ j, j < n → f (i + j) = 0 := by
  induction n with
  | zero => simp [bytesValue]
  | succ n ih =>
    have hlast : (f (i + n)).toNat = 0 ↔ f (i + n) = 0 := (BitVec.toNat_eq (y := 0)).symm
    rw [bytesValue, Nat.add_eq_zero_iff, Nat.mul_eq_zero, or_iff_left (by omega), ih, hlast, Nat.forall_lt_succ_right]

/-- An encode stream without input is five zero bytes (R320, R423). -/
theorem runs_encStream_empty {s : State} (lvl : BitVec 6) (hs : s.err = false) (hi : s.ilen = 0) (ho : 5 ≤ s.olim.toNat) :
    ∃ t, Runs .encStream (openEncode lvl s) t ∧ t.opos.toNat = 5 ∧ t.mode = .idle ∧
      (∀ j, j < 5 → t.obufByte j = 0) ∧ ∀ j, 5 ≤ j → t.obufByte j = s.obufByte j := by
  have hroom : Room 5 (openEncode lvl s) := show 0 + 1 + 5 ≤ s.olim.toNat + 1 by omega
  obtain ⟨t, ht, hstate, hpos, hvalue, hkeep⟩ := encFlushWritesTheNumber (openEncode lvl s) rfl le_rfl hroom
  have herr : t.err = false := by rw [hstate]; exact hs
  have hnone : (openEncode lvl s).ilen ≤ (openEncode lvl s).ipos :=
    BitVec.le_def.mpr (congrArg BitVec.toNat hi).le
  have hpend : pendingValue (openEncode lvl s) = 0 := rfl
  have hlow : (openEncode lvl s).encLow.toNat = 0 := rfl
  rw [hpend, hlow, Nat.zero_mul, Nat.zero_add, Nat.zero_mod] at hvalue
  obtain ⟨-, hstream, -⟩ := encStreamIsTheGreedyLoop (openEncode lvl s) rfl hs
  refine ⟨t, ⟨hstream _ t ⟨.refl _, hnone⟩ ⟨ht, herr⟩, herr⟩, hpos, by rw [hstate], fun j hj => ?_, fun j hj => ?_⟩
  · rw [← Nat.zero_add j]
    exact bytesValue_eq_zero.mp hvalue j hj
  · exact hkeep j (.inr (hpos.trans_le hj))

/-- A decode stream of five zero bytes opens at its end, with code 0 (R360, R423). -/
theorem runs_decInit_zeros {s : State} {lvl : BitVec 6} (hl : levelOk lvl = true) (hw : windowFits lvl s = true) (hs : s.err = false)
    (hi : s.ilen.toNat = 5) (hr : s.raced = []) (hb : ∀ j, j < 5 → s.ibufByte j = 0) :
    Runs (.decInit lvl) s { openDecode lvl s with ipos := 5, decCode := 0, mode := .dec } := by
  have hcode : bytesValue s.ibufByte 1 4 = 0 := bytesValue_eq_zero.mpr fun j hj => hb _ (by omega)
  refine ((executes_decInit hl hw).runs_iff hs).mpr ?_
  refine ((decInitBody_of_input lvl hr hi.ge).trans (if_pos (hb 0 (by omega)))).trans ?_
  rw [hcode]
  rfl

/-- Settles O39: with no byte to code the streams are `ENC_FLUSH` and `DEC_FINISH`. -/
theorem emptyInputIsFiveZeroBytes : Obligations.EmptyInputIsFiveZeroBytes := by
  intro s lvl hl hw hs
  refine ⟨fun hi ho => ?_, fun hi ho hr hb => ?_⟩
  · obtain ⟨t, ht⟩ := runs_encStream_empty lvl hs hi ho
    exact ⟨openEncode lvl s, t, ⟨congrArg _ ((if_pos hl).trans (if_pos hw)), hs⟩, ht⟩
  · have hinit := runs_decInit_zeros hl hw hs hi hr hb
    obtain ⟨-, -, -, hend⟩ := decStreamIsTheTokenLoop _ rfl hinit.2
    obtain ⟨hfinish, -⟩ := hend (by show s.olim.toNat ≤ 0; rw [ho]; rfl)
    exact ⟨_, _, hinit, ⟨hfinish rfl (BitVec.eq_of_toNat_eq hi.symm), hs⟩, rfl, rfl, fun _ => rfl⟩

end Sys2Proof.Machine
end

section
/-! SUPPORT. The system commands (R460, R462): the words of opcode 0, and what the registers read after a reset of the core. -/

namespace Sys2Proof.Machine

/-! ### The words of opcode 0 (R460) -/

theorem opcField_of_lt {w : Word} (h : w.toNat < 2 ^ 24) : opcField w = 0 := by
  apply BitVec.eq_of_toNat_eq
  rw [opcField, BitVec.extractLsb'_toNat, Nat.shiftRight_eq_div_pow, Nat.div_eq_of_lt h]
  rfl

theorem low24_ne_zero {w : Word} (h : w.toNat < 2 ^ 24) (hw : w ≠ 0) : w.extractLsb' 0 24 ≠ 0 := by
  intro h0
  refine hw (BitVec.eq_of_toNat_eq ?_)
  have hlow := congrArg BitVec.toNat h0
  rwa [BitVec.extractLsb'_toNat, Nat.shiftRight_zero, Nat.mod_eq_of_lt h] at hlow

/-- Settles O20: a non-zero word of opcode 0 has a bit that format Z fixes at 0, and a faulted core takes no word but `RESET`. -/
theorem nopChangesNothing : Obligations.NopChangesNothing := by
  intro s
  refine ⟨rfl, fun hs w hlt hw => ?_, fun hs hb => ?_⟩
  · have hrow : rowOf (opcField w) = rowOf 0x00 := congrArg rowOf (opcField_of_lt hlt)
    exact runCommand_of_fixedField 0 24 hrow (by decide) (by decide) (low24_ne_zero hlt hw) hs
  · obtain ⟨-, -, hignored, -⟩ := cmdWriteIssuesCommand s 0x00000000
    exact hignored hb hs (by decide)

/-! ### The registers after `RESET` (R462) -/

theorem status_resetRegisters (s : State) : s.resetRegisters.status = 0 := by
  simp [State.status, State.busy, State.resetRegisters, bit, Mode.code, Errcode.code]

theorem ctxstate_resetRegisters (s : State) : s.resetRegisters.ctxstate = 0 := by
  simp [State.ctxstate, State.resetRegisters, bit]

/-- Every register but `CAPS` reads fields that the reset sets to 0. -/
theorem registerValue_resetRegisters {off : Nat} (h : off ≠ 0x78) (s : State) : registerValue off s.resetRegisters = 0 := by
  unfold registerValue
  split
  case h_30 => exact absurd rfl h
  case h_1 => exact status_resetRegisters s
  case h_5 => exact ctxstate_resetRegisters s
  all_goals simp [State.resetRegisters, lo32, hi32, bit]

/-- Settles O21: `RESET` ends in `State.resetRegisters`, which has the constant of `CAPS`, the arrays and the byte memories of s. -/
theorem resetClearsRegisters : Obligations.ResetClearsRegisters := fun s =>
  ⟨s.resetRegisters, rfl, rfl, fun _ hoff => registerValue_resetRegisters hoff s, rfl,
    fun _ => rfl, fun _ => rfl, fun _ => rfl, fun _ => rfl, fun _ => rfl, fun _ => rfl⟩

end Sys2Proof.Machine
end

section
/-! SUPPORT. The exceptions (R500-R509, R525): an idle core, what a recorded fault blocks and how long it stays, the overrun of a running
command, and what a fault records. -/

namespace Sys2Proof.Machine

open Sys2Proof.Claims

/-! ### An idle core (R525) -/

theorem pending_of_idle {s : State} (h : s.busy = false) : s.pending = none :=
  Option.not_isSome_iff_eq_none.mp (Bool.eq_false_iff.mp h)

/-- Settles O6: with nothing pending the core's turn is idle, and with no move left a step is that turn. -/
theorem idleCoreKeepsState : Obligations.IdleCoreKeepsState := by
  intro s hb
  have hturn : coreTurn s = .next s := coreTurn_idle (pending_of_idle hb)
  refine ⟨hturn, fun hm => ?_⟩
  rw [step, nextMove, hm]
  exact hturn

/-! ### A recorded fault (R503, R505, R509) -/

/-- Settles O8: the `CMD` write is the ignored case of `cmdWriteIssuesCommand`, and the other accesses do not look at `ERR`. -/
theorem faultedCoreIgnoresCommands : Obligations.FaultedCoreIgnoresCommands := by
  intro s he hb
  refine ⟨fun w hw => ?_, fun r hr v => ?_, fun off hlt hal => hostRead_idle hlt hal hb⟩
  · obtain ⟨-, -, hignored, -⟩ := cmdWriteIssuesCommand s w
    exact hignored hb he hw
  · obtain ⟨hstore, -⟩ := registerWriteReadBack.1 s v hb
    exact hstore r hr

/-- The record of a fault and the mode it was raised in, every other field blank. -/
def State.faultPart (s : State) : State :=
  { State.reset with
    err := s.err, errcode := s.errcode, errCmd := s.errCmd, errIpos := s.errIpos, errOpos := s.errOpos, mode := s.mode }

theorem storeRegister_faultPart (off : Nat) (v : Word) (s : State) : (storeRegister off v s).faultPart = s.faultPart := by
  rcases Nat.eq_zero_or_pos off with rfl | h0
  · show (issue v s).faultPart = _
    unfold issue
    split <;> rfl
  · exact (congrArg State.faultPart (storeRegister_frame h0.ne' v s) :)

theorem overrunWrite_faultPart (off : Nat) (v : Word) (s : State) : (overrunWrite off v s).faultPart = s.faultPart := by
  unfold overrunWrite
  split <;> rfl

/-- The core runs the command whose word is pending (R155). -/
theorem coreTurn_of_encode {i : Instr} {s t : State} (hp : s.pending = some (encode i)) (hx : exec i s = .next t) :
    coreTurn s = .next (complete s t) :=
  coreTurn_busy hp ((runCommand_of_ok (decodeOfEncode i) s).trans hx)

/-- `RESET` completes with no fault recorded, also when a write was latched while it ran (R462, R572). -/
theorem coreTurn_resetWord {s : State} (hp : s.pending = some resetWord) :
    ∃ t, coreTurn s = .next t ∧ t.err = false := by
  have hword : resetWord = encode .reset := by decide
  refine ⟨_, coreTurn_of_encode (hword ▸ hp) rfl, ?_⟩
  rw [complete_no_overrun s rfl]
  rfl

/-- One move keeps the record of a fault, but for a hardware reset and the core's turn with `RESET` pending, which clear it. -/
theorem takeMove_faultPart {m : Move} {s t : State} (hp : ∀ w, s.pending = some w → w = resetWord)
    (h : takeMove m s = .next t) :
    t.faultPart = s.faultPart ∨ (t.err = false ∧ (m = .hwReset ∨ (m = .core ∧ s.pending = some resetWord))) := by
  cases m with
  | core =>
    cases hpend : s.pending with
    | none =>
      cases (coreTurn_idle hpend).symm.trans h
      exact .inl rfl
    | some w =>
      obtain rfl := hp w hpend
      obtain ⟨u, hu, herr⟩ := coreTurn_resetWord hpend
      cases hu.symm.trans h
      exact .inr ⟨herr, .inr ⟨rfl, rfl⟩⟩
  | regWrite width off v =>
    obtain ⟨-, -, -, rfl⟩ := access_next h
    split
    · exact .inl (overrunWrite_faultPart off v s)
    · exact .inl (storeRegister_faultPart off v s)
  | regRead width off =>
    obtain ⟨-, -, -, rfl⟩ := access_next h
    split <;> exact .inl rfl
  | ibufWrite i b => cases h; exact .inl rfl
  | obufRead i =>
    cases h
    unfold hostFetch
    split <;> exact .inl rfl
  | hwReset => cases h; exact .inr ⟨rfl, .inl rfl⟩

/-- Settles O9: the moves that do not keep the record are those that clear it. -/
theorem recordedFaultIsSticky : Obligations.RecordedFaultIsSticky := by
  intro s t he hp h
  rw [step_eq] at h
  rcases takeMove_faultPart (s := { s with moves := s.moves.tail }) hp h with hkeep | ⟨herr, hmove⟩
  · exact .inl ⟨(congrArg State.err hkeep :).trans he, (congrArg State.errcode hkeep :), (congrArg State.errCmd hkeep :),
      (congrArg State.errIpos hkeep :), (congrArg State.errOpos hkeep :), (congrArg State.mode hkeep :)⟩
  · refine .inr ⟨herr, ?_⟩
    cases hm : s.moves with
    | nil =>
      rw [hm] at hmove
      exact hmove.imp nofun fun ⟨_, hpend⟩ => ⟨.inl rfl, hpend⟩
    | cons m rest =>
      rw [hm] at hmove
      exact hmove.imp (congrArg some) fun ⟨hcore, hpend⟩ => ⟨.inr (congrArg some hcore), hpend⟩

/-! ### The overrun of a running command (R507) -/

/-- No command but `RESET` writes the latch. -/
theorem exec_overrun_of_ne_reset {i : Instr} {s t : State} (hi : i ≠ .reset) (h : exec i s = .next t) :
    t.overrun = s.overrun := by
  rcases exec_answers h with ⟨k, u, -, ⟨hhost, -⟩, rfl⟩ | hc
  · rw [recordFault_overrun]
    exact (congrArg State.overrun hhost :)
  · rcases hc.hostPart_or_reset with hhost | ⟨hreset, -⟩
    · exact (congrArg State.overrun hhost :)
    · exact absurd hreset hi

/-- A latched write is recorded over the completed command's effects if that raised no fault. -/
theorem complete_of_overrun (s : State) {t : State} {v : Word} (he : t.err = false) (ho : t.overrun = some v) :
    complete s t = recordFault .busyOverrun v s (settled t) := by
  unfold complete
  split
  · next v' _ ho' =>
    cases ho.symm.trans ho'
    rfl
  · next hn => exact absurd ho (hn v he)

/-- Settles O10: the write is `overrunWrite`, and `complete` settles the latch, which the command has left. -/
theorem writeWhileBusyOverruns : Obligations.WriteWhileBusyOverruns := by
  refine ⟨fun s off v hb hal hle => hostWrite_busy hle hal hb v, fun s off v _ hal hlo hlt => ?_,
    fun s t i v hp ho _ hi hx => ?_, fun s w hp hd he => ?_⟩
  · exact (reservedOffsetsReadZero s off v (by omega) (by omega) hal).2
  · have hlatch : t.overrun = some v := (exec_overrun_of_ne_reset hi hx).trans ho
    rw [coreTurn_of_encode hp hx]
    split
    · next herr =>
      rw [complete_of_err s herr]
      rfl
    · next herr =>
      have hclear : t.err = false := Bool.eq_false_iff.mpr herr
      rw [complete_of_overrun s hclear hlatch, recordFault_of_clear (s := settled t) hclear]
      rfl
  · rw [coreTurn_busy hp (runCommand_of_illegal hd he), complete_of_err s rfl]
    rfl

/-! ### The argument checks (R501) -/

theorem encDirectOk_of_bad {n : BitVec 6} {v : Word} (h : n.toNat = 0 ∨ 32 < n.toNat ∨ 2 ^ n.toNat ≤ v.toNat) :
    ¬ encDirectOk n v = true := by
  simp only [encDirectOk, directCountOk, argFits, Bool.and_eq_true, decide_eq_true_eq]
  omega

theorem encTreeOk_of_bad {c : Ctx} {n : BitVec 6} {v : Word}
    (h : n.toNat = 0 ∨ 4096 < c.toNat + 2 ^ n.toNat ∨ 2 ^ n.toNat ≤ v.toNat) : ¬ encTreeOk c n v = true := by
  simp only [encTreeOk, treeOk, argFits, Bool.and_eq_true, decide_eq_true_eq]
  omega

theorem directCountOk_of_bad {n : BitVec 6} (h : n.toNat = 0 ∨ 32 < n.toNat) : ¬ directCountOk n = true := by
  simp only [directCountOk, decide_eq_true_eq]
  omega

theorem treeOk_of_bad {c : Ctx} {n : BitVec 6} (h : n.toNat = 0 ∨ 4096 < c.toNat + 2 ^ n.toNat) : ¬ treeOk c n = true := by
  simp only [treeOk, decide_eq_true_eq]
  omega

section Rejected

variable {s body : State} (hs : s.err = false)

include hs

/-- A command in its mode whose argument check fails records the fault of the check and does nothing else. -/
theorem inMode_of_failed_check {m : Mode} {c : Prop} [Decidable c] {k : Errcode} {w : Word} (hm : s.mode = m) (hc : ¬ c) :
    inMode m w s (if c then body else preFault k w s) = faulted k w s := by
  rw [inMode_of_eq hm, if_neg hc, preFault_of_clear hs]

/-- The level check comes first (R200, R310, R360). -/
theorem openChecks_of_level {lvl : BitVec 6} (h : 9 < lvl.toNat) (w : Word) :
    (if levelOk lvl then if windowFits lvl s then body else preFault .alloc w s else preFault .levelRange w s) =
      faulted .levelRange w s := by
  have hl : ¬ levelOk lvl = true := by
    rw [levelOk, decide_eq_true_eq]
    omega
  rw [if_neg hl, preFault_of_clear hs]

/-- A level of the table whose window is larger than this core has (R200, `ALLOC`). -/
theorem openChecks_of_window {lvl : BitVec 6} {k : Nat} (hk : [16, 18, 20, 21, 22, 23, 24, 25, 26, 28][lvl.toNat]? = some k)
    (h : s.winExtra.val + 16 < k) (w : Word) :
    (if levelOk lvl then if windowFits lvl s then body else preFault .alloc w s else preFault .levelRange w s) =
      faulted .alloc w s := by
  have hdepth : lvl.toNat < [1, 2, 4, 8, 16, 32, 64, 128, 256, 1024].length := (List.getElem?_eq_some_iff.mp hk).1
  obtain ⟨hle, rfl, -⟩ := levelTable hk (List.getElem?_eq_getElem hdepth)
  have hl : levelOk lvl = true := decide_eq_true hle
  have hw : ¬ windowFits lvl s = true := fun hf => absurd (of_decide_eq_true hf) (Nat.not_le.mpr h)
  rw [if_pos hl, if_neg hw, preFault_of_clear hs]

end Rejected

/-- Settles O17: each condition fails the check of its commands. -/
theorem badArgumentsAreRejected : Obligations.BadArgumentsAreRejected := by
  intro s c n hs
  refine ⟨fun hm h => ?_, fun hm h => ?_, fun hm h => ?_, fun hm h => ?_, fun h => ?_, fun k hk h => ?_⟩
  · exact congrArg _ (inMode_of_failed_check hs hm (encDirectOk_of_bad h))
  · exact ⟨congrArg _ (inMode_of_failed_check hs hm (encTreeOk_of_bad h)),
      congrArg _ (inMode_of_failed_check hs hm (encTreeOk_of_bad h))⟩
  · exact congrArg _ (inMode_of_failed_check hs hm (directCountOk_of_bad h))
  · exact ⟨congrArg _ (inMode_of_failed_check hs hm (treeOk_of_bad h)),
      congrArg _ (inMode_of_failed_check hs hm (treeOk_of_bad h))⟩
  · exact ⟨congrArg _ (openChecks_of_level hs h _), congrArg _ (openChecks_of_level hs h _)⟩
  · exact ⟨congrArg _ (openChecks_of_window hs hk h _), congrArg _ (openChecks_of_window hs hk h _)⟩

/-! ### What a fault records (R502, R503) -/

/-- Settles O18: a command that completes records no fault, and a fault is recorded over a state with the mode and the host's part of
the start. -/
theorem faultIsRecordedPrecisely : Obligations.FaultIsRecordedPrecisely := by
  intro i s t hs h ht
  rcases exec_answers h with ⟨k, u, hk, ⟨hhost, hmode, -⟩, rfl⟩ | hc
  · have hclear : u.err = false := (congrArg State.err hhost :).trans hs
    rw [recordFault_of_clear hclear]
    exact ⟨hk, rfl, rfl, rfl, rfl, hmode, (congrArg State.arg hhost :), (congrArg State.ilen hhost :),
      (congrArg State.olim hhost :), (congrArg State.ibuf hhost :)⟩
  · exact absurd ((hc.err hs).symm.trans ht) nofun

end Sys2Proof.Machine
end

section
/-! SUPPORT. Hardware reset (R550, R551): the registers it clears, and the bytes of `OBUF` that the command it ends could write (R571). -/

namespace Sys2Proof.Machine

open Sys2Proof.Claims

/-! ### The registers after hardware reset (R550) -/

/-- In a state that clearing the registers leaves as it is, every register but `CAPS` reads 0. -/
theorem registerValue_of_cleared {s : State} (h : s.resetRegisters = s) {off : Nat} (hoff : off ≠ 0x78) :
    registerValue off s = 0 := h ▸ registerValue_resetRegisters hoff s

theorem resetRegisters_hardwareReset (s : State) : (hardwareReset s).resetRegisters = hardwareReset s := rfl

theorem resetRegisters_reset : State.reset.resetRegisters = State.reset := rfl

/-! ### The bytes the running command could write (R551, R571) -/

theorem mostWritten_le_mostBytes (i : Instr) (s : State) : mostWritten i s ≤ mostBytes s i := by
  cases i with
  | nop | reset | pmReset | pmPredict | pmUpdate | encInit | mfFind | decInit | decBit | decDirect | decTree | decRtree
  | decFinish => exact Nat.zero_le _
  | encBit | encDirect | encTree | encRtree | encFlush | encLit | encMatch | encStream =>
    simp only [mostWritten, mostBytes, shiftedBytes, streamBits]
    split <;> omega
  | decToken | decStream =>
    simp only [mostWritten]
    split
    · exact le_rfl
    · exact Nat.zero_le _

/-- A command in the wrong mode writes no byte (R501). -/
theorem mostWritten_of_wrong_mode {i : Instr} {m : Mode} {s : State} (hm : requiredMode i = some m) (hs : s.mode ≠ m) :
    mostWritten i s = 0 := by
  cases i with
  | nop | reset | pmReset | pmPredict | pmUpdate | encInit | mfFind | decInit | decBit | decDirect | decTree | decRtree
  | decFinish => rfl
  | encBit | encFlush | encStream | decToken | decStream =>
    cases hm
    exact if_neg hs
  | encDirect | encTree | encRtree | encLit | encMatch =>
    cases hm
    exact if_neg fun ⟨hmode, _⟩ => hs hmode

theorem couldWriteTo_of_encode {s : State} {i : Instr} (h : s.pending = some (encode i)) :
    couldWriteTo s = min s.olim.toNat (s.opos.toNat + mostWritten i s) := by
  rw [couldWriteTo, h]
  simp only [decodeOfEncode i]

/-- A word that does not decode writes no byte (R156). -/
theorem couldWriteTo_of_illegal {s : State} {w : Word} (h : s.pending = some w) (hd : ∀ i, decodeWord w ≠ .ok i) :
    couldWriteTo s = 0 := by
  cases hw : decodeWord w with
  | ok i => exact absurd hw (hd i)
  | error e =>
    rw [couldWriteTo, h]
    simp only [hw]

/-- A byte past the most the running command writes, and every byte if its mode is wrong, is one it could not write. -/
theorem lt_opos_or_couldWriteTo_le {s : State} {i : Instr} {j : Nat} (h : s.pending = some (encode i))
    (hj : s.opos.toNat + mostBytes s i ≤ j ∨ ∃ m, requiredMode i = some m ∧ s.mode ≠ m) :
    j < s.opos.toNat ∨ couldWriteTo s ≤ j := by
  have hto : couldWriteTo s ≤ s.opos.toNat + mostWritten i s := (couldWriteTo_of_encode h).trans_le (Nat.min_le_right _ _)
  rcases hj with hj | ⟨m, hm, hs⟩
  · have hle := mostWritten_le_mostBytes i s
    omega
  · have hzero := mostWritten_of_wrong_mode hm hs
    omega

/-- Settles O22: the reset state has its registers clear, and the bytes named are those that the running command could not write
(`obufByte_hardwareReset`). -/
theorem hardwareResetClearsRegisters : Obligations.HardwareResetClearsRegisters := by
  refine ⟨fun s rest hm => ⟨hardwareReset { s with moves := rest }, ?_, rfl, ?_, rfl, fun _ => rfl, fun j hj => ?_⟩, ?_, rfl⟩
  · rw [step, nextMove, hm]
    rfl
  · exact fun _ => registerValue_of_cleared (resetRegisters_hardwareReset _)
  · refine obufByte_hardwareReset { s with moves := rest } j (show j < s.opos.toNat ∨ couldWriteTo s ≤ j from ?_)
    rcases hj with hidle | hlo | hhi | ⟨w, hp, hd⟩ | ⟨i, hp, hi⟩
    · exact .inr ((couldWriteTo_idle (pending_of_idle hidle)).trans_le (Nat.zero_le j))
    · exact .inl hlo
    · exact .inr ((couldWriteTo_le s).trans hhi)
    · exact .inr ((couldWriteTo_of_illegal hp hd).trans_le (Nat.zero_le j))
    · exact lt_opos_or_couldWriteTo_le hp hi
  · exact fun _ => registerValue_of_cleared resetRegisters_reset

/-! ### The invariants after hardware reset (R66, R551) -/

/-- Settles O59: the memories list nothing (`reset_canonical`), and no stream is open. -/
theorem resetMeetsInvariant : Obligations.ResetMeetsInvariant :=
  ⟨inv_of_cleared reset_canonical rfl rfl rfl rfl rfl, fun _ hm => absurd hm nofun⟩

end Sys2Proof.Machine
end
